-- ==== Sys2Proof/Word.lean ====
section
/-! DEFINITION. The word types of the block (spec 00_scope R8, 30_encoding R90). -/

namespace Sys2Proof

/-- One bit: a parity, a data toggle (R30, R31). -/
abbrev Bit := BitVec 1

/-- One byte of a packet, of memory, of an 8-bit register. -/
abbrev Byte := BitVec 8

/-- A 16-bit field of a setup packet or of a descriptor table entry (R100, R103). -/
abbrev Half := BitVec 16

/-- A 32-bit descriptor word or memory address (R8: WORD, ADDR_BITS). -/
abbrev Word := BitVec 32

/-- A USB endpoint number, 4 bits (R60). -/
abbrev Endp := BitVec 4

/-- A USB device address, 7 bits (R25). -/
abbrev UsbAddr := BitVec 7

/-- A slot index, 6 bits (R93). -/
abbrev Slot := BitVec 6

/-- A byte count of a descriptor word, 10 bits (R91). -/
abbrev Count := BitVec 10

/-- A token type code, 4 bits (R94). -/
abbrev PidCode := BitVec 4

end Sys2Proof
end

