-- ==== Sys2Proof/Syntax.lean ====
section
/-! DEFINITION. The operations of the block, one constructor per row of spec/opcode_table.json, in the table's order. -/

namespace Sys2Proof

/-- The direction of an endpoint's buffer pair: RX = 0, TX = 1 (R93). -/
inductive Dir where
  | rx
  | tx
deriving DecidableEq, Repr

/-- Whether the HOST returns an ACK handshake for an IN data packet (R153). -/
inductive Handshake where
  | ack
  | noack
deriving DecidableEq, Repr

/-- The kinds of link error (R97, R157). -/
inductive LinkError where
  | crc5
  | crc16
  | bto
  | bts
deriving DecidableEq, Repr

/-- The token kinds that reach a descriptor: the operand of ACCEPT and COMPLETE (R150, R151). -/
inductive TokKind where
  | setup
  | inTok
  | outTok
deriving DecidableEq, Repr

/-- The operations. Each constructor's operands are those its rule gives; the handler cases also carry the fields of
the descriptor word their row lists. -/
inductive Instr where
  /-- R154. -/
  | tokOut (a : UsbAddr) (e : Endp) (t : Bit) (b : List Byte)
  /-- R155. -/
  | tokSof
  /-- R153. -/
  | tokIn (a : UsbAddr) (e : Endp) (hs : Handshake)
  /-- R152. Eight bytes (`Instr.wf`); a packet of another length is not an admitted event (U5). -/
  | tokSetup (a : UsbAddr) (e : Endp) (b : List Byte)
  /-- R156. -/
  | busReset
  /-- R157. -/
  | busError (k : LinkError)
  /-- R158. -/
  | busSleep
  /-- R221. -/
  | irqUsbrst
  /-- R222. -/
  | reinit
  /-- R223. -/
  | irqError
  /-- R224. -/
  | irqSoftok
  /-- R225. -/
  | irqTokdne
  /-- R226. -/
  | irqSleep
  /-- R227. -/
  | irqStall
  /-- R180. -/
  | ep0Handler (d p : Bit)
  /-- R250. -/
  | ep1Handler (d p : Bit)
  /-- R229; `e` in 2..15. -/
  | defaultHandler (e : Endp) (d p : Bit)
  /-- R181; `bc` and `t` are the descriptor word's fields, which the case does not use. -/
  | ep0OnSetup (bc : Count) (t : Bit) (s : Slot) (ptr : Word)
  /-- R189. -/
  | ep0OnIn
  /-- R190. -/
  | ep0OnOut (s : Slot)
  /-- R191; the descriptor word's fields, which the case does not use. -/
  | ep0OnOther (bc : Count) (own t : Bit) (pid : PidCode)
  /-- R251. -/
  | ep1OnIn
  /-- R252. -/
  | ep1OnOut (s : Slot)
  /-- R253; the descriptor word's fields, which the case does not use. -/
  | ep1OnOther (bc : Count) (own t : Bit) (pid : PidCode)
  /-- R182. -/
  | setupRequest
  /-- R183; the packet's fields, of which wValue is used later, from LAST_SETUP. -/
  | setAddress (wValue wIndex wLength : Half)
  /-- R184; the packet's fields, none of them used. -/
  | setConfiguration (wValue wIndex wLength : Half)
  /-- R185, device recipient. -/
  | getDescriptorDev (wValue wIndex wLength : Half)
  /-- R185, interface recipient. -/
  | getDescriptorIf (wValue wIndex wLength : Half)
  /-- R186; the request selector, which is none of the four of R101. -/
  | reqUnsupported (rt wValue wIndex wLength : Half)
  /-- R262. -/
  | lookup (wValue wIndex : Half)
  /-- R130. -/
  | indexFor (e : Endp) (d : Dir) (p : Bit)
  /-- R131. -/
  | arm (s : Slot) (ptr : Word) (count : Count) (toggle : Bit)
  /-- R132. -/
  | pidOf (s : Slot)
  /-- R133. -/
  | take (s : Slot)
  /-- R134. -/
  | revoke (s : Slot)
  /-- R136. -/
  | transmit (e : Endp) (ptr : Word) (count : Count)
  /-- R188. -/
  | send (p : Word) (len : Half)
  /-- R187. -/
  | ep0Stall
  /-- R150. -/
  | accept (kind : TokKind) (a : UsbAddr) (e : Endp)
  /-- R151. -/
  | complete (e : Endp) (d : Dir) (n : Count) (kind : TokKind)
deriving DecidableEq, Repr

/-- The seven HOST events (R105). -/
def Instr.isHostEvent : Instr → Bool
  | .tokOut .. | .tokSof | .tokIn .. | .tokSetup .. | .busReset | .busError _ | .busSleep => true
  | .irqUsbrst | .reinit | .irqError | .irqSoftok | .irqTokdne | .irqSleep | .irqStall => false
  | .ep0Handler .. | .ep1Handler .. | .defaultHandler .. => false
  | .ep0OnSetup .. | .ep0OnIn | .ep0OnOut _ | .ep0OnOther .. => false
  | .ep1OnIn | .ep1OnOut _ | .ep1OnOther .. => false
  | .setupRequest | .setAddress .. | .setConfiguration .. | .getDescriptorDev .. | .getDescriptorIf .. => false
  | .reqUnsupported .. | .lookup .. | .indexFor .. | .arm .. | .pidOf _ | .take _ | .revoke _ => false
  | .transmit .. | .send .. | .ep0Stall | .accept .. | .complete .. => false

end Sys2Proof
end

