-- ==== Sys2Proof/Machine/Formats.lean ====
section
/-! DEFINITION. The formats of spec 30_encoding: every bit position and code value, once. -/

namespace Sys2Proof.Machine

/-! ### Bytes, least significant first (R63) -/

/-- The two bytes of a 16-bit value, low byte first. -/
def halfBytes (v : Half) : List Byte := [v.extractLsb' 0 8, v.extractLsb' 8 8]

/-- The four bytes of a 32-bit value, low byte first. -/
def wordBytes (v : Word) : List Byte :=
  [v.extractLsb' 0 8, v.extractLsb' 8 8, v.extractLsb' 16 8, v.extractLsb' 24 8]

/-- A 16-bit value from its bytes. -/
def halfOf (b0 b1 : Byte) : Half := b1 ++ b0

/-- A 32-bit value from its bytes. -/
def wordOf (b0 b1 b2 b3 : Byte) : Word := b3 ++ b2 ++ b1 ++ b0

/-! ### SLOT and STAT (R93, R95) -/

/-- Direction 0 = RX, 1 = TX. -/
def dirBit : Dir → Bit
  | .rx => 0
  | .tx => 1

/-- The direction a bit stands for. -/
def dirOfBit (b : Bit) : Dir := if b = 0 then .rx else .tx

/-- `eeeedp`: (e << 2) | (d << 1) | p. -/
def slotBits (e : Endp) (d p : Bit) : Slot := (e.setWidth 6 <<< 2) ||| (d.setWidth 6 <<< 1) ||| p.setWidth 6

/-- `eeeedp00`: (e << 4) | (d << 3) | (p << 2). -/
def statWord (e : Endp) (d p : Bit) : Byte := (e.setWidth 8 <<< 4) ||| (d.setWidth 8 <<< 3) ||| (p.setWidth 8 <<< 2)

/-- STAT[7:2], the slot a STAT value names. -/
def statSlot (v : Byte) : Slot := v.extractLsb' 2 6

/-- STAT[7:4], ENDP. -/
def statEndp (v : Byte) : Endp := v.extractLsb' 4 4

/-- STAT[3], TX. -/
def statDir (v : Byte) : Bit := v.extractLsb' 3 1

/-- STAT[2], ODD. -/
def statOdd (v : Byte) : Bit := v.extractLsb' 2 1

/-! ### Descriptor words (R91, R92) -/

/-- BD_ARM, `000000cccccccccc000000001t000000`: (count << 16) | 0x80 | (toggle << 6). -/
def armWord (count : Count) (toggle : Bit) : Word :=
  (count.setWidth 32 <<< 16) ||| 0x80 ||| (toggle.setWidth 32 <<< 6)

/-- BD_DONE, `000000cccccccccc000000000tpppp00`: (n << 16) | (toggle << 6) | (pid << 2). -/
def doneWord (n : Count) (toggle : Bit) (pid : PidCode) : Word :=
  (n.setWidth 32 <<< 16) ||| (toggle.setWidth 32 <<< 6) ||| (pid.setWidth 32 <<< 2)

/-- A descriptor word with every field given: what a handler case may find (R191, R253). -/
def bdWordOf (bc : Count) (own toggle : Bit) (pid : PidCode) : Word :=
  doneWord bc toggle pid ||| (own.setWidth 32 <<< 7)

/-- BC, bits 25:16. -/
def wordBC (w : Word) : Count := w.extractLsb' 16 10

/-- OWN, bit 7. -/
def wordOwn (w : Word) : Bit := w.extractLsb' 7 1

/-- DATA01, bit 6. -/
def wordData01 (w : Word) : Bit := w.extractLsb' 6 1

/-- The PID field, bits 5:2. -/
def wordPid (w : Word) : PidCode := w.extractLsb' 2 4

/-! ### PID codes (R94) and the handlers' case selection (R107 point 4) -/

/-- The code of a token kind that reaches a descriptor. -/
def tokPid : TokKind → PidCode
  | .outTok => 0x1
  | .inTok  => 0x9
  | .setup  => 0xD

/-- The code of SOF. -/
def sofPid : PidCode := 0x5

/-- The buffer pair a token uses: IN moves TX data, SETUP and OUT move RX data (R150). -/
def tokDir : TokKind → Dir
  | .inTok  => .tx
  | .setup  => .rx
  | .outTok => .rx

/-- The token kind a PID field names; none for SOF and the twelve unused codes (R108). -/
def pidKind (pid : PidCode) : Option TokKind :=
  if pid = 0xD then some .setup
  else if pid = 0x9 then some .inTok
  else if pid = 0x1 then some .outTok
  else none

/-! ### ISTAT, INTEN (R96), ERRSTAT (R97), ENDPT (R99) -/

/-- The six interrupt flags. -/
inductive Flag where
  | usbrst
  | error
  | softok
  | tokdne
  | sleep
  | stall
deriving DecidableEq, Repr

/-- A flag's mask. -/
def flagMask : Flag → Byte
  | .usbrst => 0x01
  | .error  => 0x02
  | .softok => 0x04
  | .tokdne => 0x08
  | .sleep  => 0x10
  | .stall  => 0x80

/-- The bits of ISTAT and INTEN that are not reserved; also the standard interrupt set. -/
def irqMask : Byte := 0x9F

/-- An error kind's ERRSTAT mask. -/
def linkMask : LinkError → Byte
  | .crc5  => 0x02
  | .crc16 => 0x04
  | .bto   => 0x10
  | .bts   => 0x80

/-- The bits of ERRSTAT that are not reserved. -/
def errMask : Byte := 0x96

/-- ENDPT bit 0. -/
def ephshk : Byte := 0x01

/-- ENDPT bit 1. -/
def epstall : Byte := 0x02

/-- ENDPT bit 2. -/
def eptxen : Byte := 0x04

/-- ENDPT bit 3. -/
def eprxen : Byte := 0x08

/-- The bits of ENDPT that are not reserved. -/
def endptMask : Byte := 0x0F

/-- Enabled both ways, handshaking, not stalled. -/
def endptEnabled : Byte := 0x0D

/-- Whether a register has any bit of a mask set. -/
def hasBit (v mask : Byte) : Bool := v &&& mask != 0

/-! ### The setup packet (R100 to R102) -/

/-- Byte `i` of a setup packet held as 64 bits, byte 0 in bits 7:0 (R33). -/
def setupByte (p : BitVec 64) (i : Nat) : Byte := p.extractLsb' (8 * i) 8

/-- The 64 bits of eight packet bytes. -/
def setupOf (b0 b1 b2 b3 b4 b5 b6 b7 : Byte) : BitVec 64 :=
  b7 ++ b6 ++ b5 ++ b4 ++ b3 ++ b2 ++ b1 ++ b0

/-- RT = (bRequest << 8) | bmRequestType (R101). -/
def setupRT (p : BitVec 64) : Half := halfOf (setupByte p 0) (setupByte p 1)

/-- wValue, low byte first. -/
def setupValue (p : BitVec 64) : Half := halfOf (setupByte p 2) (setupByte p 3)

/-- wIndex, low byte first. -/
def setupIndex (p : BitVec 64) : Half := halfOf (setupByte p 4) (setupByte p 5)

/-- wLength, low byte first. -/
def setupLength (p : BitVec 64) : Half := halfOf (setupByte p 6) (setupByte p 7)

/-- What RT selects (R101, R182). -/
inductive RequestKind where
  | setAddress
  | setConfiguration
  | getDescriptorDev
  | getDescriptorIf
  | unsupported
deriving DecidableEq, Repr

/-- The match is on all 16 bits of RT (D30). -/
def requestKind (rt : Half) : RequestKind :=
  if rt = 0x0500 then .setAddress
  else if rt = 0x0900 then .setConfiguration
  else if rt = 0x0680 then .getDescriptorDev
  else if rt = 0x0681 then .getDescriptorIf
  else .unsupported

/-! ### The handler table's index (R107 point 3, R228) -/

/-- The handlers the table holds. -/
inductive Handler where
  | ep0
  | ep1
  | default
deriving DecidableEq, Repr

/-- HANDLER[0..15]. -/
def handlerTable (e : Endp) : Handler :=
  if e = 0 then .ep0 else if e = 1 then .ep1 else .default

end Sys2Proof.Machine
end

