-- ==== Sys2Proof/WellFormed.lean ====
section
/-! DEFINITION. Which terms of `Instr` stand for an operation the spec admits. -/

namespace Sys2Proof

open Sys2Proof.Machine

/-- The admitted operands: eight setup bytes (R105, U5), at most 1023 data bytes (R105), a default handler's endpoint
in 2..15 (R229), the RX slots of an endpoint (R181, R190, R252), a PID that is no case of its own (R191, R253), and a
request selector that is none of the four (R182, R186). -/
def Instr.wf : Instr → Bool
  | .tokOut _ _ _ b => b.length ≤ 1023
  | .tokSetup _ _ b => b.length = 8
  | .defaultHandler e _ _ => handlerTable e = .default
  | .ep0OnSetup _ _ s _ => s = 0 || s = 1
  | .ep0OnOut s => s = 0 || s = 1
  | .ep0OnOther _ _ _ pid => pidKind pid = none
  | .ep1OnOut s => s = 4 || s = 5
  | .ep1OnOther _ _ _ pid => pidKind pid = none || pidKind pid = some .setup
  | .reqUnsupported rt _ _ _ => requestKind rt = .unsupported
  | .tokSof | .tokIn .. | .busReset | .busError _ | .busSleep => true
  | .irqUsbrst | .reinit | .irqError | .irqSoftok | .irqTokdne | .irqSleep | .irqStall => true
  | .ep0Handler .. | .ep1Handler .. | .ep0OnIn | .ep1OnIn => true
  | .setupRequest | .setAddress .. | .setConfiguration .. | .getDescriptorDev .. | .getDescriptorIf .. => true
  | .lookup .. | .indexFor .. | .arm .. | .pidOf _ | .take _ | .revoke _ => true
  | .transmit .. | .send .. | .ep0Stall | .accept .. | .complete .. => true

end Sys2Proof
end

