-- ==== Sys2Proof/Decode.lean ====
section
/-! DEFINITION. Reading an operation from bytes, and writing it back.

The block has no instruction stream: an operation is selected at one of six decode points (R107), or invoked by name.
Rows of the table share selectors across decode points, so a RECORD of the model begins with one byte that names the
decode point (or the name), then the word the spec's format gives at that point, then the operands that format has no
room for, each in whole bytes, multi-byte fields low byte first (log 4). Bytes after the record are handed back. -/

namespace Sys2Proof

open Sys2Proof.Machine

/-- Why bytes are no operation. -/
inductive DecodeError where
  /-- The record ends before its operands do. -/
  | truncated
  /-- The first byte names no decode point and no operation. -/
  | unknownPoint (b : Byte)
  /-- A token PID other than SETUP, IN, OUT, SOF: bus traffic outside the seven events (R108 f, U5). -/
  | unknownPid (b : Byte)
  /-- A byte that is not one flag of the decode point. -/
  | unknownFlag (b : Byte)
  /-- A word whose fixed bits are not those of its format. -/
  | reservedBits
  /-- An operand that does not fit its field. -/
  | operandRange
deriving DecidableEq, Repr

/-- What a decoder answers: an operation and the bytes after it, or a named rejection. -/
abbrev Decoded := Except DecodeError (Instr × List Byte)

/-! ### Operand fields -/

/-- Whether a byte holds a value of `n` bits. -/
def fits (b : Byte) (n : Nat) : Bool := b.toNat < 2 ^ n

/-- The handshake operand: 0 = ack, 1 = noack. -/
def handshakeOf (b : Byte) : Option Handshake :=
  if b = 0 then some .ack else if b = 1 then some .noack else none

/-- The error kind operand, in the order of R105. -/
def linkErrorOf (b : Byte) : Option LinkError :=
  if b = 0 then some .crc5 else if b = 1 then some .crc16
  else if b = 2 then some .bto else if b = 3 then some .bts else none

/-! ### Decode point 1: the token's PID, or a bus condition (R94, R105) -/

/-- TOK_OUT: address, endpoint, toggle, two length bytes, data. -/
def decodeTokOut : List Byte → Decoded
  | a :: e :: t :: n0 :: n1 :: r =>
    if fits a 7 && fits e 4 && fits t 1 && (halfOf n0 n1).toNat ≤ 1023 then
      if (halfOf n0 n1).toNat ≤ r.length then
        .ok (.tokOut (a.setWidth 7) (e.setWidth 4) (t.setWidth 1) (r.take (halfOf n0 n1).toNat),
          r.drop (halfOf n0 n1).toNat)
      else .error .truncated
    else .error .operandRange
  | _ => .error .truncated

/-- TOK_IN: address, endpoint, handshake. -/
def decodeTokIn : List Byte → Decoded
  | a :: e :: h :: r =>
    match handshakeOf h with
    | some hs =>
      if fits a 7 && fits e 4 then .ok (.tokIn (a.setWidth 7) (e.setWidth 4) hs, r) else .error .operandRange
    | none => .error .operandRange
  | _ => .error .truncated

/-- TOK_SETUP: address, endpoint, eight bytes. -/
def decodeTokSetup : List Byte → Decoded
  | a :: e :: b0 :: b1 :: b2 :: b3 :: b4 :: b5 :: b6 :: b7 :: r =>
    if fits a 7 && fits e 4 then
      .ok (.tokSetup (a.setWidth 7) (e.setWidth 4) [b0, b1, b2, b3, b4, b5, b6, b7], r)
    else .error .operandRange
  | _ => .error .truncated

/-- A token: its PID code, then its operands. -/
def decodeToken : List Byte → Decoded
  | pid :: r =>
    if pid = 0x01 then decodeTokOut r
    else if pid = 0x05 then .ok (.tokSof, r)
    else if pid = 0x09 then decodeTokIn r
    else if pid = 0x0D then decodeTokSetup r
    else .error (.unknownPid pid)
  | [] => .error .truncated

/-- A bus condition: the ISTAT flag it sets, then the error kind where there is one. -/
def decodeBus : List Byte → Decoded
  | f :: r =>
    if f = 0x01 then .ok (.busReset, r)
    else if f = 0x02 then
      match r with
      | k :: r' =>
        match linkErrorOf k with
        | some k => .ok (.busError k, r')
        | none => .error .operandRange
      | [] => .error .truncated
    else if f = 0x10 then .ok (.busSleep, r)
    else .error (.unknownFlag f)
  | [] => .error .truncated

/-! ### Decode point 2: the dispatcher's flag (R96) -/

/-- A dispatcher phase: the flag it handles. -/
def decodePhase : List Byte → Decoded
  | f :: r =>
    if f = 0x01 then .ok (.irqUsbrst, r)
    else if f = 0x02 then .ok (.irqError, r)
    else if f = 0x04 then .ok (.irqSoftok, r)
    else if f = 0x08 then .ok (.irqTokdne, r)
    else if f = 0x10 then .ok (.irqSleep, r)
    else if f = 0x80 then .ok (.irqStall, r)
    else .error (.unknownFlag f)
  | [] => .error .truncated

/-! ### Decode point 3: STAT[7:4] (R95, R228) -/

/-- The handler a STAT value selects. -/
def handlerInstr (v : Byte) : Instr :=
  match handlerTable (statEndp v) with
  | .ep0 => .ep0Handler (statDir v) (statOdd v)
  | .ep1 => .ep1Handler (statDir v) (statOdd v)
  | .default => .defaultHandler (statEndp v) (statDir v) (statOdd v)

/-- A handler: a STAT value, whose two low bits are 0. -/
def decodeHandler : List Byte → Decoded
  | v :: r => if v.extractLsb' 0 2 = 0 then .ok (handlerInstr v, r) else .error .reservedBits
  | [] => .error .truncated

/-! ### Decode point 4: the PID field of the completed descriptor (R92, R94). Reserved bits are ignored (R108 e). -/

/-- The slot operand of a case. -/
def decodeSlot (allowed : Slot → Bool) (k : Slot → List Byte → Decoded) : List Byte → Decoded
  | s :: r =>
    if fits s 6 && allowed (s.setWidth 6) then k (s.setWidth 6) r else .error .operandRange
  | [] => .error .truncated

/-- A four-byte operand. -/
def decodeWord (k : Word → List Byte → Decoded) : List Byte → Decoded
  | b0 :: b1 :: b2 :: b3 :: r => k (wordOf b0 b1 b2 b3) r
  | _ => .error .truncated

/-- A case of the endpoint-0 handler: the descriptor word, then the case's own operands. -/
def decodeEp0Case : List Byte → Decoded :=
  decodeWord fun w r =>
    match pidKind (wordPid w) with
    | some .setup =>
      decodeSlot (fun s => s = 0 || s = 1)
        (fun s => decodeWord fun ptr r => .ok (.ep0OnSetup (wordBC w) (wordData01 w) s ptr, r)) r
    | some .inTok => .ok (.ep0OnIn, r)
    | some .outTok => decodeSlot (fun s => s = 0 || s = 1) (fun s r => .ok (.ep0OnOut s, r)) r
    | none => .ok (.ep0OnOther (wordBC w) (wordOwn w) (wordData01 w) (wordPid w), r)

/-- A case of the endpoint-1 handler. SETUP is one of its other codes (R253). -/
def decodeEp1Case : List Byte → Decoded :=
  decodeWord fun w r =>
    match pidKind (wordPid w) with
    | some .inTok => .ok (.ep1OnIn, r)
    | some .outTok => decodeSlot (fun s => s = 4 || s = 5) (fun s r => .ok (.ep1OnOut s, r)) r
    | some .setup => .ok (.ep1OnOther (wordBC w) (wordOwn w) (wordData01 w) (wordPid w), r)
    | none => .ok (.ep1OnOther (wordBC w) (wordOwn w) (wordData01 w) (wordPid w), r)

/-! ### Decode point 5: RT (R100, R101) -/

/-- The request a setup packet selects. -/
def requestInstr (rt wValue wIndex wLength : Half) : Instr :=
  match requestKind rt with
  | .setAddress => .setAddress wValue wIndex wLength
  | .setConfiguration => .setConfiguration wValue wIndex wLength
  | .getDescriptorDev => .getDescriptorDev wValue wIndex wLength
  | .getDescriptorIf => .getDescriptorIf wValue wIndex wLength
  | .unsupported => .reqUnsupported rt wValue wIndex wLength

/-- A request: the eight bytes of the setup packet. -/
def decodeRequest : List Byte → Decoded
  | b0 :: b1 :: b2 :: b3 :: b4 :: b5 :: b6 :: b7 :: r =>
    .ok (requestInstr (halfOf b0 b1) (halfOf b2 b3) (halfOf b4 b5) (halfOf b6 b7), r)
  | _ => .error .truncated

/-! ### Decode point 6, and the operations invoked by name -/

/-- LOOKUP: wValue, wIndex (R102). -/
def decodeLookup : List Byte → Decoded
  | b0 :: b1 :: b2 :: b3 :: r => .ok (.lookup (halfOf b0 b1) (halfOf b2 b3), r)
  | _ => .error .truncated

/-- INDEX_FOR: the six bits `eeeedp` (R93). -/
def decodeIndexFor : List Byte → Decoded :=
  decodeSlot (fun _ => true) fun s r =>
    .ok (.indexFor (s.extractLsb' 2 4) (dirOfBit (s.extractLsb' 1 1)) (s.extractLsb' 0 1), r)

/-- ARM: a BD_ARM word (R91), slot, pointer. -/
def decodeArm : List Byte → Decoded :=
  decodeWord fun w r =>
    if w = armWord (wordBC w) (wordData01 w) then
      decodeSlot (fun _ => true)
        (fun s => decodeWord fun ptr r => .ok (.arm s ptr (wordBC w) (wordData01 w), r)) r
    else .error .reservedBits

/-- REVOKE: the word 0, slot. -/
def decodeRevoke : List Byte → Decoded :=
  decodeWord fun w r =>
    if w = 0 then decodeSlot (fun _ => true) (fun s r => .ok (.revoke s, r)) r else .error .reservedBits

/-- TRANSMIT: a BD_ARM word, whose toggle bit stands for TOG and is no operand, endpoint, pointer. -/
def decodeTransmit : List Byte → Decoded :=
  decodeWord fun w r =>
    if w = armWord (wordBC w) (wordData01 w) then
      match r with
      | e :: r =>
        if fits e 4 then decodeWord (fun ptr r => .ok (.transmit (e.setWidth 4) ptr (wordBC w), r)) r
        else .error .operandRange
      | [] => .error .truncated
    else .error .reservedBits

/-- SEND: pointer, 16-bit length; the words it writes are TRANSMIT's. -/
def decodeSend : List Byte → Decoded :=
  decodeWord fun p r =>
    match r with
    | l0 :: l1 :: r => .ok (.send p (halfOf l0 l1), r)
    | _ => .error .truncated

/-- ACCEPT: a PID code, address, endpoint. -/
def decodeAccept : List Byte → Decoded
  | pid :: a :: e :: r =>
    match (if fits pid 4 then pidKind (pid.setWidth 4) else none) with
    | some k => if fits a 7 && fits e 4 then .ok (.accept k (a.setWidth 7) (e.setWidth 4), r) else .error .operandRange
    | none => .error (.unknownPid pid)
  | _ => .error .truncated

/-- COMPLETE: a BD_DONE word (R92), whose toggle bit is the slot's and no operand, endpoint, direction. -/
def decodeComplete : List Byte → Decoded :=
  decodeWord fun w r =>
    if w = doneWord (wordBC w) (wordData01 w) (wordPid w) then
      match pidKind (wordPid w), r with
      | some k, e :: d :: r =>
        if fits e 4 && fits d 1 then
          .ok (.complete (e.setWidth 4) (dirOfBit (d.setWidth 1)) (wordBC w) k, r)
        else .error .operandRange
      | some _, _ => .error .truncated
      | none, _ => .error .reservedBits
    else .error .reservedBits

/-- The decoder: total, and every rejection has a name. -/
def decode : List Byte → Decoded
  | pt :: r =>
    if pt = 0x01 then decodeToken r
    else if pt = 0x02 then decodeBus r
    else if pt = 0x03 then decodePhase r
    else if pt = 0x04 then decodeHandler r
    else if pt = 0x05 then decodeEp0Case r
    else if pt = 0x06 then decodeEp1Case r
    else if pt = 0x07 then decodeRequest r
    else if pt = 0x10 then .ok (.reinit, r)
    else if pt = 0x11 then .ok (.setupRequest, r)
    else if pt = 0x12 then decodeLookup r
    else if pt = 0x13 then decodeIndexFor r
    else if pt = 0x14 then decodeArm r
    else if pt = 0x15 then decodeSlot (fun _ => true) (fun s r => .ok (.pidOf s, r)) r
    else if pt = 0x16 then decodeSlot (fun _ => true) (fun s r => .ok (.take s, r)) r
    else if pt = 0x17 then decodeRevoke r
    else if pt = 0x18 then decodeTransmit r
    else if pt = 0x19 then decodeSend r
    else if pt = 0x1A then .ok (.ep0Stall, r)
    else if pt = 0x1B then decodeAccept r
    else if pt = 0x1C then decodeComplete r
    else .error (.unknownPoint pt)
  | [] => .error .truncated

/-! ### The encoder -/

/-- The handshake operand's byte. -/
def handshakeByte : Handshake → Byte
  | .ack => 0
  | .noack => 1

/-- The error kind operand's byte. -/
def linkErrorByte : LinkError → Byte
  | .crc5 => 0
  | .crc16 => 1
  | .bto => 2
  | .bts => 3

/-- The eight bytes of a setup packet. -/
def packetBytes (rt wValue wIndex wLength : Half) : List Byte :=
  halfBytes rt ++ halfBytes wValue ++ halfBytes wIndex ++ halfBytes wLength

/-- The record of an operation. -/
def encode : Instr → List Byte
  | .tokOut a e t b =>
    [0x01, 0x01, a.setWidth 8, e.setWidth 8, t.setWidth 8] ++ halfBytes (BitVec.ofNat 16 b.length) ++ b
  | .tokSof => [0x01, 0x05]
  | .tokIn a e hs => [0x01, 0x09, a.setWidth 8, e.setWidth 8, handshakeByte hs]
  | .tokSetup a e b => [0x01, 0x0D, a.setWidth 8, e.setWidth 8] ++ b
  | .busReset => [0x02, 0x01]
  | .busError k => [0x02, 0x02, linkErrorByte k]
  | .busSleep => [0x02, 0x10]
  | .irqUsbrst => [0x03, 0x01]
  | .reinit => [0x10]
  | .irqError => [0x03, 0x02]
  | .irqSoftok => [0x03, 0x04]
  | .irqTokdne => [0x03, 0x08]
  | .irqSleep => [0x03, 0x10]
  | .irqStall => [0x03, 0x80]
  | .ep0Handler d p => [0x04, statWord 0 d p]
  | .ep1Handler d p => [0x04, statWord 1 d p]
  | .defaultHandler e d p => [0x04, statWord e d p]
  | .ep0OnSetup bc t s ptr => 0x05 :: (wordBytes (doneWord bc t 0xD) ++ s.setWidth 8 :: wordBytes ptr)
  | .ep0OnIn => 0x05 :: wordBytes (doneWord 0 0 0x9)
  | .ep0OnOut s => 0x05 :: (wordBytes (doneWord 0 0 0x1) ++ [s.setWidth 8])
  | .ep0OnOther bc own t pid => 0x05 :: wordBytes (bdWordOf bc own t pid)
  | .ep1OnIn => 0x06 :: wordBytes (doneWord 0 0 0x9)
  | .ep1OnOut s => 0x06 :: (wordBytes (doneWord 0 0 0x1) ++ [s.setWidth 8])
  | .ep1OnOther bc own t pid => 0x06 :: wordBytes (bdWordOf bc own t pid)
  | .setupRequest => [0x11]
  | .setAddress v i l => 0x07 :: packetBytes 0x0500 v i l
  | .setConfiguration v i l => 0x07 :: packetBytes 0x0900 v i l
  | .getDescriptorDev v i l => 0x07 :: packetBytes 0x0680 v i l
  | .getDescriptorIf v i l => 0x07 :: packetBytes 0x0681 v i l
  | .reqUnsupported rt v i l => 0x07 :: packetBytes rt v i l
  | .lookup v i => 0x12 :: (halfBytes v ++ halfBytes i)
  | .indexFor e d p => [0x13, (slotBits e (dirBit d) p).setWidth 8]
  | .arm s ptr count toggle => 0x14 :: (wordBytes (armWord count toggle) ++ s.setWidth 8 :: wordBytes ptr)
  | .pidOf s => [0x15, s.setWidth 8]
  | .take s => [0x16, s.setWidth 8]
  | .revoke s => 0x17 :: (wordBytes 0 ++ [s.setWidth 8])
  | .transmit e ptr count => 0x18 :: (wordBytes (armWord count 0) ++ e.setWidth 8 :: wordBytes ptr)
  | .send p len => 0x19 :: (wordBytes p ++ halfBytes len)
  | .ep0Stall => [0x1A]
  | .accept k a e => [0x1B, (tokPid k).setWidth 8, a.setWidth 8, e.setWidth 8]
  | .complete e d n k =>
    0x1C :: (wordBytes (doneWord n 0 (tokPid k)) ++ [e.setWidth 8, (dirBit d).setWidth 8])

/-! ### The words of spec/opcode_table.json -/

/-- Zero operands, enough for every record. -/
def zeroOperands : List Byte := List.replicate 16 0

/-- The record an 8-bit table word stands for. Rows of several decode points share words; the first decode point of
R107 that has the word wins: token, bus condition, dispatcher flag, then STAT, then SLOT (log 5). DESIGN CHOICE: 0x24
stands outside that order. It is the STAT word of the default handler (endpoint 2, direction 0, parity 1) and also the low
byte of the descriptor word 0x00000024 that rows EP0_ON_IN and EP1_ON_IN give; R107 does not say which a bare 0x24 names,
and it is read as the descriptor word EP0_ON_IN finds, so that the rows of the IN case keep a bare word (log 5). -/
def tableRecord8 (b : Byte) : List Byte :=
  if b = 0x01 || b = 0x05 || b = 0x09 || b = 0x0D then 0x01 :: b :: zeroOperands
  else if b = 0x02 || b = 0x10 then 0x02 :: b :: zeroOperands
  else if b = 0x04 || b = 0x08 || b = 0x80 then 0x03 :: b :: zeroOperands
  else if b = 0x24 then 0x05 :: (wordBytes (b.setWidth 32) ++ zeroOperands)
  else if b.extractLsb' 0 2 = 0 then 0x04 :: b :: zeroOperands
  else 0x13 :: b :: zeroOperands

/-- The record a 32-bit table word stands for: a word the ENGINE writes (REVOKE, ARM), else a word a handler finds. -/
def tableRecord32 (w : Word) : List Byte :=
  if w = 0 then 0x17 :: (wordBytes w ++ zeroOperands)
  else if w = armWord (wordBC w) (wordData01 w) then 0x14 :: (wordBytes w ++ zeroOperands)
  else 0x05 :: (wordBytes w ++ zeroOperands)

/-- The record a table word of `nbits` bits stands for: 8 bits as above, 16 bits an RT at the start of a setup packet,
32 bits a descriptor word, more the whole packet, which is SETUP_REQUEST's. -/
def tableRecord (nbits w : Nat) : List Byte :=
  if nbits ≤ 8 then tableRecord8 (BitVec.ofNat 8 w)
  else if nbits ≤ 16 then 0x07 :: (halfBytes (BitVec.ofNat 16 w) ++ zeroOperands)
  else if nbits ≤ 32 then tableRecord32 (BitVec.ofNat 32 w)
  else 0x11 :: zeroOperands

/-- What the decoder reads from a table word. -/
def decodeTableWord (nbits w : Nat) : Option Instr :=
  match decode (tableRecord nbits w) with
  | .ok (i, _) => some i
  | .error _ => none

end Sys2Proof
end

