-- ==== Sys2Proof/Config.lean ====
section
/-! DEFINITION. What is fixed for the life of the block (spec 00_scope R6 to R8), and the one free value.

The open parameters of R8 are a value of the type `Config`. The step carries it in a field of State that no step
writes, so a statement about every state is a statement about every configuration (log 1). -/

namespace Sys2Proof

/-- One descriptor's bytes and where they lie in system memory (R263). -/
structure DescBlock where
  pointer : Word
  bytes   : List Byte
deriving DecidableEq, Repr

/-- The HID mouse report, in transmission order (R104). The block interprets none of it (R254). -/
structure Report where
  buttons : Byte
  dx      : Byte
  dy      : Byte
  wheel   : Byte
deriving DecidableEq, Repr

/-- EP1_PRIME: whether REINIT arms endpoint 1's first report (R8, D24). -/
inductive Ep1Prime where
  | atReset
  | never
deriving DecidableEq, Repr

/-- The open parameters of R8. -/
structure Config where
  bdtBase          : Word
  ep0RxBuf0        : Word
  ep0RxBuf1        : Word
  ep1RxBuf0        : Word
  ep1RxBuf1        : Word
  ep1RxSize        : Nat
  ep1Prime         : Ep1Prime
  reportBase       : Word
  report           : Report
  descDevice       : DescBlock
  descConfig       : DescBlock
  descLangid       : DescBlock
  descManufacturer : DescBlock
  descProduct      : DescBlock
  descHidReport    : DescBlock
  /-- What a byte of writable memory reads as before anything wrote it (the model's own parameter, log 8). -/
  ramFill          : Byte
deriving DecidableEq, Repr

/-- The configuration `State.reset` takes. The spec gives no address and no byte: every value here is a DESIGN
CHOICE (log 1), but EP1_RX_SIZE = 8 and EP1_PRIME = at_reset, which R8 takes. -/
def Config.default : Config where
  bdtBase          := 0x20000000
  ep0RxBuf0        := 0x20000200
  ep0RxBuf1        := 0x20000208
  ep1RxBuf0        := 0x20000210
  ep1RxBuf1        := 0x20000218
  ep1RxSize        := 8
  ep1Prime         := .atReset
  reportBase       := 0x20000220
  report           := { buttons := 0, dx := 0, dy := 0, wheel := 0 }
  descDevice       := { pointer := 0x1000, bytes := List.replicate 18 0 }
  descConfig       := { pointer := 0x1100, bytes := List.replicate 34 0 }
  descLangid       := { pointer := 0x1200, bytes := List.replicate 4 0 }
  descManufacturer := { pointer := 0x1300, bytes := List.replicate 2 0 }
  descProduct      := { pointer := 0x1400, bytes := List.replicate 2 0 }
  descHidReport    := { pointer := 0x1500, bytes := List.replicate 52 0 }
  ramFill          := 0

/-- The endpoint, direction and parity bits STAT shows while the STAT FIFO is empty: an unspecified value
(R24, U1), so a free value. State's counter says which one (log 7). -/
opaque freeStatBits : Nat → BitVec 6

end Sys2Proof
end

