-- ==== Sys2Proof/Machine/Memory.lean ====
section
/-! DEFINITION. System memory (spec 20_memory): read-only blocks, byte cells, little-endian words, the BDT's layout,
and the requirements on a configuration. -/

namespace Sys2Proof.Machine

/-! ### The memory map (R66, R305) -/

/-- A range of bytes. -/
structure Region where
  base : Nat
  size : Nat
deriving DecidableEq, Repr

/-- Whether two ranges share no byte. -/
abbrev Region.disjoint (r q : Region) : Prop :=
  r.base + r.size ≤ q.base ∨ q.base + q.size ≤ r.base ∨ r.size = 0 ∨ q.size = 0

/-- The range of a descriptor's bytes (R263). -/
def blockRegion (d : DescBlock) : Region := { base := d.pointer.toNat, size := d.bytes.length }

/-- The four report bytes, in transmission order (R104). -/
def reportBytes (r : Report) : List Byte := [r.buttons, r.dx, r.dy, r.wheel]

/-- The report as a block at REPORT_BASE. -/
def reportBlock (c : Config) : DescBlock := { pointer := c.reportBase, bytes := reportBytes c.report }

/-- The read-only blocks: the report buffer and the six descriptors (R66). -/
def romBlocks (c : Config) : List DescBlock :=
  [reportBlock c, c.descDevice, c.descConfig, c.descLangid, c.descManufacturer, c.descProduct, c.descHidReport]

/-- The BDT's range (R61). -/
def bdtRegion (c : Config) : Region := { base := c.bdtBase.toNat, size := 512 }

/-- The four RX buffers' ranges (R29). -/
def rxRegions (c : Config) : List Region :=
  [{ base := c.ep0RxBuf0.toNat, size := 8 }, { base := c.ep0RxBuf1.toNat, size := 8 },
   { base := c.ep1RxBuf0.toNat, size := c.ep1RxSize }, { base := c.ep1RxBuf1.toNat, size := c.ep1RxSize }]

/-- Every range of the memory map. -/
def regions (c : Config) : List Region := bdtRegion c :: (rxRegions c ++ (romBlocks c).map blockRegion)

/-- The lengths the source fixes, and the range of the two string lengths (R7, R8, R261). -/
abbrev LengthsOk (c : Config) : Prop :=
  c.descDevice.bytes.length = 18 ∧ c.descConfig.bytes.length = 34 ∧ c.descLangid.bytes.length = 4 ∧
  (2 ≤ c.descManufacturer.bytes.length ∧ c.descManufacturer.bytes.length ≤ 255) ∧
  (2 ≤ c.descProduct.bytes.length ∧ c.descProduct.bytes.length ≤ 255) ∧
  c.descHidReport.bytes.length = 52

/-- The start-up requirements (R305 a to d, R66): a configuration that breaks one is refused (U2). -/
abbrev ConfigOk (c : Config) : Prop :=
  c.bdtBase.toNat % 512 = 0 ∧
  (∀ r ∈ regions c, r.base + r.size ≤ 2 ^ 32) ∧
  (regions c).Pairwise Region.disjoint ∧
  c.ep1RxSize ≤ 1023 ∧
  LengthsOk c

/-! ### Bytes -/

/-- The byte a block holds at an address. -/
def blockByte (d : DescBlock) (a : Nat) : Option Byte :=
  if d.pointer.toNat ≤ a then d.bytes[a - d.pointer.toNat]? else none

/-- The read-only byte at an address, if there is one. -/
def romByte (c : Config) (a : Nat) : Option Byte := (romBlocks c).findSome? (fun d => blockByte d a)

/-- What an address that memory does not list reads as: the configuration's read-only byte, else the fill byte
(log 8). -/
def unlisted (c : Config) (a : Nat) : Byte := (romByte c a).getD c.ramFill

/-- System memory: the bytes that differ from `unlisted`, by rising address. -/
abbrev Memory := List Host.Cell

/-- The listed byte at an address. -/
def lookupCell : Memory → Nat → Option Byte
  | [], _ => none
  | (k, v) :: m, a => if k = a then some v else lookupCell m a

/-- List a byte, keeping addresses rising. -/
def insertCell : Memory → Nat → Byte → Memory
  | [], a, b => [(a, b)]
  | (k, v) :: m, a, b =>
    if a < k then (a, b) :: (k, v) :: m
    else if k = a then (a, b) :: m
    else (k, v) :: insertCell m a b

/-- Unlist a byte. -/
def eraseCell : Memory → Nat → Memory
  | [], _ => []
  | (k, v) :: m, a => if k = a then eraseCell m a else (k, v) :: eraseCell m a

/-- Whether every listed address is above a bound and addresses rise. -/
def risingFrom : Memory → Nat → Bool
  | [], _ => true
  | (k, _) :: m, lo => decide (lo ≤ k) && risingFrom m (k + 1)

/-- The canonical form: addresses strictly rising, inside the address space, not read-only, and no entry equal to what
an unlisted address reads as. -/
def Memory.wf (c : Config) (m : Memory) : Bool :=
  risingFrom m 0 &&
  m.all fun cell => decide (cell.1 < 2 ^ 32) && (romByte c cell.1).isNone && decide (cell.2 ≠ c.ramFill)

/-- MemRead(addr, 1) (R10). -/
def readByte (c : Config) (m : Memory) (a : Word) : Byte := (lookupCell m a.toNat).getD (unlisted c a.toNat)

/-- MemWrite(addr, 1, b). A write to a read-only byte changes nothing (R66, R72; log 9). -/
def writeByte (c : Config) (m : Memory) (a : Word) (b : Byte) : Memory :=
  if (romByte c a.toNat).isSome then m
  else if b = c.ramFill then eraseCell m a.toNat
  else insertCell m a.toNat b

/-- MemRead(addr, 4), little-endian (R63). -/
def readWord (c : Config) (m : Memory) (a : Word) : Word :=
  wordOf (readByte c m a) (readByte c m (a + 1)) (readByte c m (a + 2)) (readByte c m (a + 3))

/-- MemWrite(addr, 4, v). -/
def writeWord (c : Config) (m : Memory) (a : Word) (v : Word) : Memory :=
  writeByte c (writeByte c (writeByte c (writeByte c m a (v.extractLsb' 0 8)) (a + 1) (v.extractLsb' 8 8))
    (a + 2) (v.extractLsb' 16 8)) (a + 3) (v.extractLsb' 24 8)

/-- The bytes at `a`, `a + 1`, …, `n` of them; addresses wrap modulo 2^32 (R10). -/
def readBytes (c : Config) (m : Memory) (a : Word) : Nat → List Byte
  | 0 => []
  | n + 1 => readByte c m a :: readBytes c m (a + 1) n

/-- Payload bytes to `a`, `a + 1`, … (R73). -/
def writeBytes (c : Config) (m : Memory) (a : Word) : List Byte → Memory
  | [] => m
  | b :: bs => writeBytes c (writeByte c m a b) (a + 1) bs

/-- MemRead(addr, 8) as the 64 bits of a setup packet (R181, R33). -/
def readSetup (c : Config) (m : Memory) (a : Word) : BitVec 64 :=
  setupOf (readByte c m a) (readByte c m (a + 1)) (readByte c m (a + 2)) (readByte c m (a + 3))
    (readByte c m (a + 4)) (readByte c m (a + 5)) (readByte c m (a + 6)) (readByte c m (a + 7))

/-! ### The BDT (R61, R62) -/

/-- The address of slot `s`: BDT_BASE + 8 s. -/
def bdAddr (c : Config) (s : Slot) : Word := c.bdtBase + 8 * s.setWidth 32

/-- Whether an address is one of a slot's eight bytes. -/
abbrev inSlot (c : Config) (s : Slot) (a : Word) : Prop :=
  (bdAddr c s).toNat ≤ a.toNat ∧ a.toNat < (bdAddr c s).toNat + 8

/-- Whether an address is one of the BDT's 512 bytes. -/
abbrev inBdt (c : Config) (a : Word) : Prop :=
  c.bdtBase.toNat ≤ a.toNat ∧ a.toNat < c.bdtBase.toNat + 512

/-- Whether an address is one of the `n` bytes at `p`; addresses wrap modulo 2^32 (R10). -/
abbrev inPacket (p : Word) (n : Nat) (a : Word) : Prop := (a - p).toNat < n

/-- BD[s].word. -/
def readBdWord (c : Config) (m : Memory) (s : Slot) : Word := readWord c m (bdAddr c s)

/-- BD[s].ptr. -/
def readBdPtr (c : Config) (m : Memory) (s : Slot) : Word := readWord c m (bdAddr c s + 4)

/-- BD[s].word <- w. -/
def writeBdWord (c : Config) (m : Memory) (s : Slot) (w : Word) : Memory := writeWord c m (bdAddr c s) w

/-- BD[s].ptr <- p. -/
def writeBdPtr (c : Config) (m : Memory) (s : Slot) (p : Word) : Memory := writeWord c m (bdAddr c s + 4) p

/-- The descriptor word slot `s` holds after power-on and after REINIT (R44). -/
def resetWord (c : Config) (s : Slot) : Word :=
  if s = 0 || s = 1 then armWord 8 0
  else if s = 4 || s = 5 then armWord (BitVec.ofNat 10 c.ep1RxSize) 0
  else if s = 6 && c.ep1Prime = .atReset then armWord 4 0
  else 0

/-- The buffer pointer slot `s` holds after power-on and after REINIT (R44). -/
def resetPtr (c : Config) (s : Slot) : Word :=
  if s = 0 then c.ep0RxBuf0
  else if s = 1 then c.ep0RxBuf1
  else if s = 4 then c.ep1RxBuf0
  else if s = 5 then c.ep1RxBuf1
  else if s = 6 && c.ep1Prime = .atReset then c.reportBase
  else 0

/-- Slots 0 to n - 1 written from the table of R44. -/
def resetBdt (c : Config) (m : Memory) : Nat → Memory
  | 0 => m
  | n + 1 =>
    writeBdWord c (writeBdPtr c (resetBdt c m n) (BitVec.ofNat 6 n) (resetPtr c (BitVec.ofNat 6 n)))
      (BitVec.ofNat 6 n) (resetWord c (BitVec.ofNat 6 n))

/-- Memory after power-on: nothing written but the BDT (R44, R300). -/
def powerOnMemory (c : Config) : Memory := resetBdt c [] 64

end Sys2Proof.Machine
end

