-- ==== Sys2Proof/Machine/State.lean ====
section
/-! DEFINITION. The complete state of the block (spec 10_state R20), the reasons a step can stop, and reset. -/

namespace Sys2Proof.Machine

/-- The fault names of R41. Raised by ARM on a slot the SIE owns (R131, R273). The run goes on: the name is recorded in
the field `faults`, and no step ends in a fault (log 16). SAFE: the chip has no such check. -/
inductive Fault where
  /-- ARM on slot `s` while its OWN flag was 1. Raised by `arm`. SAFE. -/
  | ownViolation (s : Slot)
deriving DecidableEq, Repr

/-- Why a step is refused. -/
inductive Refusal where
  /-- Raised by the arm of an operation that has no meaning yet. SAFE. -/
  | notModelled (mnemonic : String)
  /-- The configuration breaks the start-up requirements (R305, U2). Raised by `fetch`. SAFE. -/
  | badConfiguration
  /-- The turn's bytes are no operation. Raised by `fetch`. SAFE. -/
  | undecoded (e : DecodeError)
  /-- A HOST turn whose operation is none of the seven events (R105, U5). Raised by `fetch`. SAFE. -/
  | notAHostEvent
  /-- A setup packet of other than 8 bytes (R152, U5, D41). Raised by TOK_SETUP. UNSAFE for a host that sends one. -/
  | setupLength
  /-- A setup packet that reaches a descriptor armed for fewer than 8 bytes (R152, R160). Raised by TOK_SETUP. UNSAFE
  for a host that sends one. -/
  | setupOverrun
  /-- A data packet longer than the armed byte count (R154, U3, D17). Raised by TOK_OUT. UNSAFE for a host that sends
  one. -/
  | outOverrun
  /-- A token for an enabled endpoint whose EPHSHK is 0 (R150, U6). Raised by ACCEPT, TOK_SETUP, TOK_IN, TOK_OUT. SAFE:
  no rule makes such a state. -/
  | noHandshakeEndpoint
  /-- COMPLETE run alone while the STAT FIFO is full (R36, R151; log 14). Raised by COMPLETE. SAFE: no token reaches
  it. -/
  | completeWhileFull
deriving DecidableEq, Repr

/-- The RX and TX bits of one endpoint (R30, R31, R35). -/
structure DirPair where
  rx : Bit
  tx : Bit
deriving DecidableEq, Repr

/-- CUR, the transfer cursor (R32). -/
structure Cursor where
  valid : Bool
  ptr   : Word
  len   : Half
deriving DecidableEq, Repr

/-- DPH, the dispatcher phase (R38). -/
inductive Dph where
  | idle
  | err
  | sof
  | tok
  | sleep
  | stall
deriving DecidableEq, Repr

/-- EP0_STATE, the control-transfer state of endpoint 0 (R39). -/
inductive Ep0State where
  | idle
  | setupReceived
  | statusOk
  | sendingData
  | stalled
deriving DecidableEq, Repr

/-- `respond(H)`: what the SIE puts on the bus in answer to a token (R10). -/
inductive Response where
  | none
  | ack
  | nak
  | stall
  | data0 (bytes : List Byte)
  | data1 (bytes : List Byte)
deriving DecidableEq, Repr

/-- What an operation returns (R130, R132, R133, R150, R262). -/
inductive OpResult where
  | none
  /-- INDEX_FOR's slot. -/
  | slot (s : Slot)
  /-- PID_OF's token code. -/
  | pid (pid : PidCode)
  /-- TAKE's triple. -/
  | taken (pid : PidCode) (count : Count) (ptr : Word)
  /-- LOOKUP's hit. -/
  | found (ptr : Word) (length : Half)
  /-- LOOKUP's miss. -/
  | miss
  /-- ACCEPT's check 6: accepted with a slot. -/
  | accepted (s : Slot)
  /-- ACCEPT ended the step at one of its checks 1 to 5. -/
  | ended
deriving DecidableEq, Repr

/-- Who takes a step, and with what (R5; log 2). Operations are records of bytes (`Sys2Proof.decode`). -/
inductive Turn where
  /-- The HOST issues an event; the SIE answers in the same step. -/
  | host (record : List Byte)
  /-- The ENGINE takes its step, if one is enabled (R220). -/
  | engine
  /-- One operation is run alone, outside its caller: no agent of the block does this (log 3). -/
  | call (record : List Byte)
deriving DecidableEq, Repr

/-- The state. The fields down to `faults` are the spec's (R20); the rest are the model's own (INVENTORY.md). -/
structure State where
  /-- R21. -/
  istat     : Byte
  /-- R22. -/
  inten     : Byte
  /-- R23. -/
  errstat   : Byte
  /-- R36, oldest first; STAT shows the head (R24). -/
  statFifo  : List Byte
  /-- R25. -/
  addr      : UsbAddr
  /-- R26. -/
  endpt     : Vector Byte 16
  /-- R60 (a): the BDT (R28), the packet buffers (R29) and the rest of system memory. -/
  mem       : Memory
  /-- R30. -/
  par       : Vector DirPair 16
  /-- R31. -/
  tog       : Vector DirPair 16
  /-- R32. -/
  cur       : Cursor
  /-- R33, byte 0 in bits 7:0. -/
  lastSetup : BitVec 64
  /-- R34. -/
  dstatus   : Byte
  /-- R38. -/
  dph       : Dph
  /-- R39. -/
  ep0State  : Ep0State
  /-- R35. -/
  hwodd     : Vector DirPair 16
  /-- R41: a set, held as a list without repeats, lowest slot first. -/
  faults    : List Fault
  /-- The configuration (R6); no step writes it. -/
  cfg       : Config
  /-- The turns still to be taken. -/
  schedule  : List Turn
  /-- The last step's bus answer. -/
  response  : Response
  /-- What the last operation returned. -/
  result    : OpResult
  /-- Which free value is next (log 7). -/
  freeCount : Nat
deriving DecidableEq, Repr

/-- The empty cursor. -/
def Cursor.empty : Cursor := { valid := false, ptr := 0, len := 0 }

/-- Both bits 0. -/
def DirPair.zero : DirPair := { rx := 0, tx := 0 }

/-- PAR and TOG after power-on and after REINIT: one TRANSMIT has been done on endpoint 1 when EP1_PRIME = at_reset
(R44). -/
def resetToggles (c : Config) : Vector DirPair 16 :=
  match c.ep1Prime with
  | .atReset => (Vector.replicate 16 DirPair.zero).set 1 { rx := 0, tx := 1 }
  | .never => Vector.replicate 16 DirPair.zero

/-- The state after power-on, for any configuration: the table of R44 (and R300). -/
def State.powerOn (c : Config) : State where
  istat     := 0x00
  inten     := 0x9F
  errstat   := 0x00
  statFifo  := []
  addr      := 0
  endpt     := ((Vector.replicate 16 0x00).set 0 0x0D).set 1 0x0D
  mem       := powerOnMemory c
  par       := resetToggles c
  tog       := resetToggles c
  cur       := Cursor.empty
  lastSetup := 0
  dstatus   := 0x00
  dph       := .idle
  ep0State  := .idle
  hwodd     := Vector.replicate 16 DirPair.zero
  faults    := []
  cfg       := c
  schedule  := []
  response  := .none
  result    := .none
  freeCount := 0

/-- The machine right after power-on, with the configuration the model takes (log 1). -/
def State.reset : State := State.powerOn Config.default

end Sys2Proof.Machine
end

