-- ==== Sys2Proof/Machine/Ops.lean ====
section
/-! DEFINITION. The named operations over memory, descriptors, per-endpoint bits and the fault record, and the entry
and end of a dispatcher run. -/

namespace Sys2Proof.Machine

/-! ### Per-endpoint registers -/

/-- `R[e]`. -/
def getEp {α : Type} (v : Vector α 16) (e : Endp) : α := v[e.toFin]

/-- `R[e] <- x`. -/
def setEp {α : Type} (v : Vector α 16) (e : Endp) (x : α) : Vector α 16 := v.set e.toNat x e.isLt

/-- The bit of one direction. -/
def DirPair.get (p : DirPair) : Dir → Bit
  | .rx => p.rx
  | .tx => p.tx

/-- The pair with the bit of one direction replaced. -/
def DirPair.put (p : DirPair) (b : Bit) : Dir → DirPair
  | .rx => { p with rx := b }
  | .tx => { p with tx := b }

/-- `PAR[e][d]`, `TOG[e][d]`, `HWODD[e][d]`. -/
def getDir (v : Vector DirPair 16) (e : Endp) (d : Dir) : Bit := (getEp v e).get d

/-- `PAR[e][d] <- b`. -/
def setDir (v : Vector DirPair 16) (e : Endp) (d : Dir) (b : Bit) : Vector DirPair 16 :=
  setEp v e ((getEp v e).put b d)

/-- `x ^ 1` (R9). -/
def flipDir (v : Vector DirPair 16) (e : Endp) (d : Dir) : Vector DirPair 16 :=
  setDir v e d (getDir v e d ^^^ 1)

/-! ### Memory and descriptors (R10, R62) -/

/-- BD[s].word. -/
def bdWord (σ : State) (s : Slot) : Word := readBdWord σ.cfg σ.mem s

/-- BD[s].ptr. -/
def bdPtr (σ : State) (s : Slot) : Word := readBdPtr σ.cfg σ.mem s

/-- Whether the SIE owns slot `s` (R67, R135: HardwareOwned). -/
def bdOwned (σ : State) (s : Slot) : Bool := wordOwn (bdWord σ s) = 1

/-- BD[s].word <- w. -/
def setBdWord (s : Slot) (w : Word) (σ : State) : State := { σ with mem := writeBdWord σ.cfg σ.mem s w }

/-- BD[s].ptr <- p. -/
def setBdPtr (s : Slot) (p : Word) (σ : State) : State := { σ with mem := writeBdPtr σ.cfg σ.mem s p }

/-- The byte at an address. -/
def memByte (σ : State) (a : Word) : Byte := readByte σ.cfg σ.mem a

/-- Packet bytes to `a`, `a + 1`, … (R73). -/
def storeBytes (a : Word) (bs : List Byte) (σ : State) : State := { σ with mem := writeBytes σ.cfg σ.mem a bs }

/-- The `n` packet bytes at `a` (R73). -/
def loadBytes (a : Word) (n : Nat) (σ : State) : List Byte := readBytes σ.cfg σ.mem a n

/-! ### The fault record (R41, R273) -/

/-- The slot a fault names. -/
def Fault.slot : Fault → Slot
  | .ownViolation s => s

/-- A set of fault names with one more. -/
def insertFault : List Fault → Fault → List Fault
  | [], f => [f]
  | g :: fs, f =>
    if f = g then g :: fs
    else if f.slot < g.slot then f :: g :: fs
    else g :: insertFault fs f

/-- `raise F`: FAULT <- FAULT + {F}. Control goes nowhere. -/
def raiseFault (f : Fault) (σ : State) : State := { σ with faults := insertFault σ.faults f }

/-! ### Entry and end of a run: the block's interrupt entry and return (R279, R280) -/

/-- Interrupt entry: the one thing latched is DSTATUS <- ISTAT; nothing is saved, no mode or mask changes (R279). -/
def enterRun (σ : State) : State := { σ with dstatus := σ.istat }

/-- DPH <- phase. -/
def setPhase (p : Dph) (σ : State) : State := { σ with dph := p }

/-- The return: DPH <- D_IDLE; nothing is restored (R280). -/
def endRun (σ : State) : State := setPhase .idle σ

end Sys2Proof.Machine
end

