-- ==== Sys2Proof/Machine/Operands.lean ====
section
/-! DEFINITION. How each operand is formed from the state (spec 30_encoding R106). -/

namespace Sys2Proof.Machine

/-- The request selector of the last setup packet (R101). -/
def lastRT (σ : State) : Half := setupRT σ.lastSetup

/-- Its wValue. -/
def lastValue (σ : State) : Half := setupValue σ.lastSetup

/-- Its wIndex. -/
def lastIndex (σ : State) : Half := setupIndex σ.lastSetup

/-- Its wLength. -/
def lastLength (σ : State) : Half := setupLength σ.lastSetup

/-- The address a SET_ADDRESS applies: wValue[6:0], the upper nine bits dropped (R98, R106, R189). -/
def lastAddress (σ : State) : UsbAddr := (lastValue σ).extractLsb' 0 7

/-- STAT: the FIFO's head; a free value while the FIFO is empty (R24, U1; log 7). -/
def statValue (σ : State) : Byte :=
  match σ.statFifo with
  | v :: _ => v
  | [] => freeStatBits σ.freeCount ++ 0#2

/-- A read of STAT by the dispatcher: the value, and the counter moved on when the value was free. -/
def readStat (σ : State) : Byte × State :=
  match σ.statFifo with
  | v :: _ => (v, σ)
  | [] => (freeStatBits σ.freeCount ++ 0#2, { σ with freeCount := σ.freeCount + 1 })

/-- The chunk of a transfer of `len` bytes: `min(len, MAXPKT0)`, MAXPKT0 = 8 (R188, R189). -/
def chunk (len : Half) : Count := if len < 8 then len.setWidth 10 else 8

/-- `p + n`, modulo 2^32 (R193). -/
def advance (p : Word) (n : Count) : Word := p + n.setWidth 32

/-- `L - n` (R193: n ≤ L). -/
def remaining (len : Half) (n : Count) : Half := len - n.setWidth 16

/-- `min(length, wLength)` (R106, R185). -/
def truncateLength (length wLength : Half) : Half := if length < wLength then length else wLength

/-- The slot the SIE uses next for a token (R150 check 5). -/
def sieSlot (σ : State) (e : Endp) (d : Dir) : Slot := slotBits e (dirBit d) (getDir σ.hwodd e d)

/-- The slot TRANSMIT arms next (R136). -/
def transmitSlot (σ : State) (e : Endp) : Slot := slotBits e (dirBit .tx) (getDir σ.par e .tx)

end Sys2Proof.Machine
end

