-- ==== Sys2Proof/Machine/Flags.lean ====
section
/-! DEFINITION. Every flag of the block (spec 10_state R40): ISTAT and its write-one-to-clear acknowledgment, IRQ,
ERRSTAT, EPSTALL, and the writes that keep reserved bits 0 (R108 e). -/

namespace Sys2Proof.Machine

/-- ISTAT[F] <- 1: the SIE's side of a flag (R21). INTEN does not stop it (R22). -/
def setFlag (f : Flag) (σ : State) : State := { σ with istat := σ.istat ||| flagMask f }

/-- The interrupt line: (ISTAT & INTEN) != 0 (R27). -/
def irq (σ : State) : Bool := hasBit σ.istat σ.inten

/-- A write of ISTAT: write one to clear. A 1 at TOKDNE removes the FIFO's head, and TOKDNE then reads 1 exactly when
the FIFO is not empty (R21, R36, R68; with an empty FIFO there is no head to remove, log 17). -/
def writeIstat (v : Byte) (σ : State) : State :=
  if hasBit v (flagMask .tokdne) then
    { σ with
      statFifo := σ.statFifo.tail
      istat := (σ.istat &&& ~~~v) ||| (if σ.statFifo.tail = [] then 0 else flagMask .tokdne) }
  else { σ with istat := σ.istat &&& ~~~v }

/-- Acknowledge flag F: the write ISTAT <- mask(F) (43_dispatch, opening). -/
def ackFlag (f : Flag) (σ : State) : State := writeIstat (flagMask f) σ

/-- Whether DSTATUS holds a flag. -/
def latched (f : Flag) (σ : State) : Bool := hasBit σ.dstatus (flagMask f)

/-- A write of ERRSTAT: write one to clear (R23). -/
def writeErrstat (v : Byte) (σ : State) : State := { σ with errstat := σ.errstat &&& ~~~v }

/-- A link error: its ERRSTAT flag, and ISTAT.ERROR (R23, R157, R272). -/
def recordLinkError (k : LinkError) (σ : State) : State :=
  setFlag .error { σ with errstat := σ.errstat ||| linkMask k }

/-- A write of ENDPT[e]; reserved bits stay 0 (R99, R108 e). -/
def writeEndpt (e : Endp) (v : Byte) (σ : State) : State := { σ with endpt := setEp σ.endpt e (v &&& endptMask) }

/-- A write of INTEN; reserved bits stay 0 (R22, R108 e). -/
def writeInten (v : Byte) (σ : State) : State := { σ with inten := v &&& irqMask }

/-- Whether a field of ENDPT[e] is set. -/
def endptHas (σ : State) (e : Endp) (mask : Byte) : Bool := hasBit (getEp σ.endpt e) mask

/-- ENDPT[e].EPSTALL <- 1 (R187). -/
def setStall (e : Endp) (σ : State) : State := writeEndpt e (getEp σ.endpt e ||| epstall) σ

/-- ENDPT[e].EPSTALL <- 0 (R150 check 3). -/
def clearStall (e : Endp) (σ : State) : State := writeEndpt e (getEp σ.endpt e &&& ~~~epstall) σ

/-- EPSTALL <- 0 on every endpoint (R227). -/
def clearAllStalls (σ : State) : State := { σ with endpt := σ.endpt.map (fun v => v &&& ~~~epstall) }

end Sys2Proof.Machine
end

