-- ==== Sys2Proof/Machine/BdtManager.lean ====
section
/-! DEFINITION. The BDT manager and ownership arbiter (spec 40_bdt_manager): INDEX_FOR, ARM, PID_OF, TAKE, REVOKE,
TRANSMIT. -/

namespace Sys2Proof.Machine

/-- The fault ARM records on a slot the SIE owns (R131). -/
def checkOwner (s : Slot) (σ : State) : State :=
  if bdOwned σ s then raiseFault (.ownViolation s) σ else σ

/-- ARM (R131): the fault check; then the pointer; then count, toggle and OWN in one word write (R70). -/
def arm (s : Slot) (ptr : Word) (count : Count) (toggle : Bit) (σ : State) : State :=
  setBdWord s (armWord count toggle) (setBdPtr s ptr (checkOwner s σ))

/-- REVOKE (R134): the word 0; the pointer untouched; never a fault. -/
def revoke (s : Slot) (σ : State) : State := setBdWord s 0 σ

/-- TAKE's triple (R133). -/
def takeSlot (σ : State) (s : Slot) : PidCode × Count × Word :=
  (wordPid (bdWord σ s), wordBC (bdWord σ s), bdPtr σ s)

/-- TRANSMIT (R136): ARM at the slot PAR names, with TOG; then both flip. -/
def transmit (e : Endp) (ptr : Word) (count : Count) (σ : State) : State :=
  let armed := arm (transmitSlot σ e) ptr count (getDir σ.tog e .tx) σ
  { armed with par := flipDir armed.par e .tx, tog := flipDir armed.tog e .tx }

/-- INDEX_FOR (R130): (e << 2) | (d << 1) | p; no state but the returned value. -/
def execIndexFor (e : Endp) (d : Dir) (p : Bit) (σ : State) : Host.Outcome State Fault Refusal :=
  .next { σ with result := .slot (slotBits e (dirBit d) p) }

/-- ARM (R131). -/
def execArm (s : Slot) (ptr : Word) (count : Count) (toggle : Bit) (σ : State) : Host.Outcome State Fault Refusal :=
  .next (arm s ptr count toggle σ)

/-- PID_OF (R132): bits 5:2 of the slot's word, whatever it holds (U11). -/
def execPidOf (s : Slot) (σ : State) : Host.Outcome State Fault Refusal :=
  .next { σ with result := .pid (wordPid (bdWord σ s)) }

/-- TAKE (R133): PID, count and pointer; no state changes. -/
def execTake (s : Slot) (σ : State) : Host.Outcome State Fault Refusal :=
  .next { σ with result := .taken (takeSlot σ s).1 (takeSlot σ s).2.1 (takeSlot σ s).2.2 }

/-- REVOKE (R134). -/
def execRevoke (s : Slot) (σ : State) : Host.Outcome State Fault Refusal :=
  .next (revoke s σ)

/-- TRANSMIT (R136). -/
def execTransmit (e : Endp) (ptr : Word) (count : Count) (σ : State) : Host.Outcome State Fault Refusal :=
  .next (transmit e ptr count σ)

end Sys2Proof.Machine
end

