-- ==== Sys2Proof/Machine/DescriptorStore.lean ====
section
/-! DEFINITION. The descriptor store (spec 45_descriptor_store): the table and LOOKUP. -/

namespace Sys2Proof.Machine

/-- A descriptor table entry (R103). -/
structure DescEntry where
  selectorValue : Half
  selectorIndex : Half
  pointer       : Word
  length        : Half
deriving DecidableEq, Repr

/-- The entry of a descriptor under its key. -/
def descEntry (v i : Half) (d : DescBlock) : DescEntry :=
  { selectorValue := v, selectorIndex := i, pointer := d.pointer, length := BitVec.ofNat 16 d.bytes.length }

/-- DESC_TABLE: six entries, in the order and with the keys of R261. -/
def descTable (c : Config) : List DescEntry :=
  [descEntry 0x0100 0x0000 c.descDevice, descEntry 0x0200 0x0000 c.descConfig, descEntry 0x0300 0x0000 c.descLangid,
   descEntry 0x0301 0x0409 c.descManufacturer, descEntry 0x0302 0x0409 c.descProduct,
   descEntry 0x2200 0x0000 c.descHidReport]

/-- The linear scan, in table order; both fields match whole (R262). -/
def scanTable : List DescEntry → Half → Half → Option (Word × Half)
  | [], _, _ => none
  | d :: ds, v, i =>
    if d.selectorValue = v ∧ d.selectorIndex = i then some (d.pointer, d.length) else scanTable ds v i

/-- LOOKUP (R262): a hit's pointer and length, or a miss. -/
def lookupDesc (c : Config) (v i : Half) : Option (Word × Half) := scanTable (descTable c) v i

/-- LOOKUP alone: a pure function of configuration. -/
def execLookup (v i : Half) (σ : State) : Host.Outcome State Fault Refusal :=
  match lookupDesc σ.cfg v i with
  | some (p, len) => .next { σ with result := .found p len }
  | none => .next { σ with result := .miss }

end Sys2Proof.Machine
end

