-- ==== Sys2Proof/Machine/Ep0.lean ====
section
/-! DEFINITION. The endpoint-0 control-transfer state machine (spec 42_ep0_control). -/

namespace Sys2Proof.Machine

/-- EP0_STALL (R187). -/
def ep0Stall (σ : State) : State := setStall 0 σ

/-- REQ_UNSUPPORTED (R186), the block's protocol-error report (R271). -/
def reqUnsupported (σ : State) : State := { ep0Stall σ with ep0State := .stalled }

/-- SEND's second packet, and the cursor for what is left (R188). -/
def sendSecond (p : Word) (len : Half) (σ : State) : State :=
  let n := chunk len
  let sent := transmit 0 p n σ
  if remaining len n = 0 ∧ n < 8 then sent
  else { sent with cur := { valid := true, ptr := advance p n, len := remaining len n } }

/-- SEND (R188): up to two packets at once, the rest to the cursor. -/
def send (p : Word) (len : Half) (σ : State) : State :=
  let n := chunk len
  let sent := transmit 0 p n σ
  if remaining len n = 0 ∧ n < 8 then sent
  else sendSecond (advance p n) (remaining len n) sent

/-- The zero-length status packet of a request without data (R183, R184). -/
def statusStage (σ : State) : State := { send 0 0 σ with ep0State := .statusOk }

/-- GET_DESCRIPTOR, both variants (R185). -/
def getDescriptor (wValue wIndex wLength : Half) (σ : State) : State :=
  match lookupDesc σ.cfg wValue wIndex with
  | none => reqUnsupported σ
  | some (p, len) => { send p (truncateLength len wLength) σ with ep0State := .sendingData }

/-- SETUP_REQUEST (R182): the request LAST_SETUP selects. -/
def setupRequest (σ : State) : State :=
  match requestKind (lastRT σ) with
  | .setAddress => statusStage σ
  | .setConfiguration => statusStage σ
  | .getDescriptorDev => getDescriptor (lastValue σ) (lastIndex σ) (lastLength σ) σ
  | .getDescriptorIf => getDescriptor (lastValue σ) (lastIndex σ) (lastLength σ) σ
  | .unsupported => reqUnsupported σ

/-- EP0_ON_SETUP up to the request decode (R181): the packet copied out, the RX buffer back with DATA1, both TX slots
revoked, TOG[0][TX] forced to 1, the cursor emptied. -/
def openTransfer (s : Slot) (ptr : Word) (σ : State) : State :=
  let copied := { σ with lastSetup := readSetup σ.cfg σ.mem ptr }
  let revoked := revoke (slotBits 0 1 1) (revoke (slotBits 0 1 0) (arm s ptr 8 1 copied))
  { revoked with
    tog := setDir revoked.tog 0 .tx 1
    cur := Cursor.empty
    ep0State := .setupReceived }

/-- EP0_ON_SETUP (R181). -/
def ep0OnSetup (s : Slot) (ptr : Word) (σ : State) : State := setupRequest (openTransfer s ptr σ)

/-- The cursor after a chunk (R189): emptied when nothing is left, unless the chunk was full. -/
def cursorAfter (cur : Cursor) : Cursor :=
  let n := chunk cur.len
  if remaining cur.len n ≠ 0 ∨ n = 8 then
    { valid := true, ptr := advance cur.ptr n, len := remaining cur.len n }
  else Cursor.empty

/-- The next chunk of a transfer in progress (R189, first part). -/
def pushChunk (σ : State) : State :=
  if σ.cur.valid then
    { transmit 0 σ.cur.ptr (chunk σ.cur.len) σ with cur := cursorAfter σ.cur }
  else σ

/-- The new device address, when the last request was SET_ADDRESS (R189, second part). -/
def applyAddress (σ : State) : State :=
  { σ with addr := if lastRT σ = 0x0500 then lastAddress σ else σ.addr }

/-- EP0_ON_IN (R189). -/
def ep0OnIn (σ : State) : State :=
  let served := applyAddress (pushChunk σ)
  { served with ep0State := if served.ep0State = .statusOk then .idle else served.ep0State }

/-- EP0_ON_OUT (R190): the buffer back with count 8, DATA1. -/
def ep0OnOut (s : Slot) (σ : State) : State :=
  let armed := arm s (bdPtr σ s) 8 1 σ
  { armed with ep0State := if armed.ep0State = .sendingData then .idle else armed.ep0State }

/-- EP0_HANDLER (R180): the case the PID field of the named descriptor selects. -/
def ep0Handler (stat : Byte) (σ : State) : State :=
  match pidKind (takeSlot σ (statSlot stat)).1 with
  | some .setup => ep0OnSetup (statSlot stat) (takeSlot σ (statSlot stat)).2.2 σ
  | some .inTok => ep0OnIn σ
  | some .outTok => ep0OnOut (statSlot stat) σ
  | none => σ

/-- EP0_HANDLER (R180). -/
def execEp0Handler (d p : Bit) (σ : State) : Host.Outcome State Fault Refusal := .next (ep0Handler (statWord 0 d p) σ)

/-- EP0_ON_SETUP (R181). -/
def execEp0OnSetup (s : Slot) (ptr : Word) (σ : State) : Host.Outcome State Fault Refusal := .next (ep0OnSetup s ptr σ)

/-- EP0_ON_IN (R189). -/
def execEp0OnIn (σ : State) : Host.Outcome State Fault Refusal := .next (ep0OnIn σ)

/-- EP0_ON_OUT (R190). -/
def execEp0OnOut (s : Slot) (σ : State) : Host.Outcome State Fault Refusal := .next (ep0OnOut s σ)

/-- EP0_ON_OTHER (R191): nothing; the slot is not re-armed. -/
def execEp0OnOther (σ : State) : Host.Outcome State Fault Refusal := .next σ

/-- SETUP_REQUEST (R182). -/
def execSetupRequest (σ : State) : Host.Outcome State Fault Refusal := .next (setupRequest σ)

/-- SET_ADDRESS (R183): the status packet; ADDR is not written here. -/
def execSetAddress (σ : State) : Host.Outcome State Fault Refusal := .next (statusStage σ)

/-- SET_CONFIGURATION (R184): the status packet; nothing is stored. -/
def execSetConfiguration (σ : State) : Host.Outcome State Fault Refusal := .next (statusStage σ)

/-- GET_DESCRIPTOR, device recipient (R185). -/
def execGetDescriptorDev (wValue wIndex wLength : Half) (σ : State) : Host.Outcome State Fault Refusal :=
  .next (getDescriptor wValue wIndex wLength σ)

/-- GET_DESCRIPTOR, interface recipient (R185): the same behaviour. -/
def execGetDescriptorIf (wValue wIndex wLength : Half) (σ : State) : Host.Outcome State Fault Refusal :=
  .next (getDescriptor wValue wIndex wLength σ)

/-- REQ_UNSUPPORTED (R186). -/
def execReqUnsupported (σ : State) : Host.Outcome State Fault Refusal := .next (reqUnsupported σ)

/-- SEND (R188). -/
def execSend (p : Word) (len : Half) (σ : State) : Host.Outcome State Fault Refusal := .next (send p len σ)

/-- EP0_STALL (R187). -/
def execEp0Stall (σ : State) : Host.Outcome State Fault Refusal := .next (ep0Stall σ)

end Sys2Proof.Machine
end

