-- ==== Sys2Proof/Machine/Ep1.lean ====
section
/-! DEFINITION. The endpoint-1 interrupt-IN handler (spec 44_ep1). -/

namespace Sys2Proof.Machine

/-- EP1_ON_IN (R251): the same report again, REPORT_LEN = 4 bytes. -/
def ep1OnIn (σ : State) : State := transmit 1 σ.cfg.reportBase 4 σ

/-- EP1_ON_OUT (R252): the buffer back with count EP1_RX_SIZE, DATA0. -/
def ep1OnOut (s : Slot) (σ : State) : State := arm s (bdPtr σ s) (BitVec.ofNat 10 σ.cfg.ep1RxSize) 0 σ

/-- EP1_HANDLER (R250): the case the PID field of the named descriptor selects; SETUP is one of the others. -/
def ep1Handler (stat : Byte) (σ : State) : State :=
  match pidKind (takeSlot σ (statSlot stat)).1 with
  | some .inTok => ep1OnIn σ
  | some .outTok => ep1OnOut (statSlot stat) σ
  | some .setup => σ
  | none => σ

/-- EP1_HANDLER (R250). -/
def execEp1Handler (d p : Bit) (σ : State) : Host.Outcome State Fault Refusal := .next (ep1Handler (statWord 1 d p) σ)

/-- EP1_ON_IN (R251). -/
def execEp1OnIn (σ : State) : Host.Outcome State Fault Refusal := .next (ep1OnIn σ)

/-- EP1_ON_OUT (R252). -/
def execEp1OnOut (s : Slot) (σ : State) : Host.Outcome State Fault Refusal := .next (ep1OnOut s σ)

/-- EP1_ON_OTHER (R253): nothing; the slot is not re-armed. -/
def execEp1OnOther (σ : State) : Host.Outcome State Fault Refusal := .next σ

end Sys2Proof.Machine
end

