-- ==== Sys2Proof/Machine/Dispatcher.lean ====
section
/-! DEFINITION. The interrupt dispatcher (spec 43_dispatch): REINIT, the six phases, the handler table's default. -/

namespace Sys2Proof.Machine

/-- Slots 0 to n - 1: word and pointer 0 (R222: REVOKE every slot). -/
def clearBdt : Nat → State → State
  | 0, σ => σ
  | n + 1, σ => setBdPtr (BitVec.ofNat 6 n) 0 (setBdWord (BitVec.ofNat 6 n) 0 (clearBdt n σ))

/-- REINIT's first lines: the SIE's and the ENGINE's private bits, the FIFO, the cursor, LAST_SETUP, the BDT (R222). -/
def reinitClear (σ : State) : State :=
  clearBdt 64 { σ with
    hwodd := Vector.replicate 16 DirPair.zero
    statFifo := []
    par := Vector.replicate 16 DirPair.zero
    tog := Vector.replicate 16 DirPair.zero
    cur := Cursor.empty
    lastSetup := 0 }

/-- REINIT's RX arms (R222). -/
def reinitArm (σ : State) : State :=
  arm (slotBits 1 0 1) σ.cfg.ep1RxBuf1 (BitVec.ofNat 10 σ.cfg.ep1RxSize) 0
    (arm (slotBits 1 0 0) σ.cfg.ep1RxBuf0 (BitVec.ofNat 10 σ.cfg.ep1RxSize) 0
      (arm (slotBits 0 0 1) σ.cfg.ep0RxBuf1 8 0 (arm (slotBits 0 0 0) σ.cfg.ep0RxBuf0 8 0 σ)))

/-- REINIT's priming of endpoint 1 (R222, D24). -/
def reinitPrime (σ : State) : State :=
  match σ.cfg.ep1Prime with
  | .atReset => transmit 1 σ.cfg.reportBase 4 σ
  | .never => σ

/-- REINIT's registers (R222). -/
def reinitRegisters (σ : State) : State :=
  { writeInten irqMask σ with
    endpt := ((Vector.replicate 16 0x00).set 0 endptEnabled).set 1 endptEnabled
    errstat := 0x00
    istat := 0x00
    addr := 0
    ep0State := .idle
    dstatus := 0x00 }

/-- REINIT (R222). -/
def reinit (σ : State) : State := reinitRegisters (reinitPrime (reinitArm (reinitClear σ)))

/-- HANDLER[stat[7:4]](stat) (R228); the default handler does nothing (R229). -/
def callHandler (stat : Byte) (σ : State) : State :=
  match handlerTable (statEndp stat) with
  | .ep0 => ep0Handler stat σ
  | .ep1 => ep1Handler stat σ
  | .default => σ

/-- One drain iteration (R225): read STAT, run its handler, acknowledge TOKDNE, read ISTAT again. -/
def drainOne (σ : State) : State :=
  enterRun (ackFlag .tokdne (callHandler (readStat σ).1 (readStat σ).2))

/-- Phase D_IDLE (R221): latch, and the reset check. -/
def irqUsbrst (σ : State) : State :=
  if latched .usbrst (enterRun σ) then endRun (reinit (enterRun σ)) else setPhase .err (enterRun σ)

/-- Phase D_ERR (R223): every set ERRSTAT flag is written back. -/
def irqError (σ : State) : State :=
  setPhase .sof (if latched .error σ then ackFlag .error (writeErrstat σ.errstat σ) else σ)

/-- Phase D_SOF (R224). -/
def irqSoftok (σ : State) : State :=
  setPhase .tok (if latched .softok σ then ackFlag .softok σ else σ)

/-- Phase D_TOK (R225): one drain iteration, or on to D_SLEEP. -/
def irqTokdne (σ : State) : State :=
  if latched .tokdne σ then setPhase .tok (drainOne σ) else setPhase .sleep σ

/-- Phase D_SLEEP (R226). -/
def irqSleep (σ : State) : State :=
  setPhase .stall (if latched .sleep σ then ackFlag .sleep σ else σ)

/-- EP0_STATE in the STALL phase (R192, R227). -/
def leaveStalled (σ : State) : State :=
  { σ with ep0State := if σ.ep0State = .stalled then .idle else σ.ep0State }

/-- Phase D_STALL (R227): the end of the run. -/
def irqStall (σ : State) : State :=
  endRun (if latched .stall σ then leaveStalled (ackFlag .stall (clearAllStalls σ)) else σ)

/-- IRQ_USBRST (R221). -/
def execIrqUsbrst (σ : State) : Host.Outcome State Fault Refusal := .next (irqUsbrst σ)

/-- REINIT alone (R222). -/
def execReinit (σ : State) : Host.Outcome State Fault Refusal := .next (reinit σ)

/-- IRQ_ERROR (R223). -/
def execIrqError (σ : State) : Host.Outcome State Fault Refusal := .next (irqError σ)

/-- IRQ_SOFTOK (R224). -/
def execIrqSoftok (σ : State) : Host.Outcome State Fault Refusal := .next (irqSoftok σ)

/-- IRQ_TOKDNE (R225). -/
def execIrqTokdne (σ : State) : Host.Outcome State Fault Refusal := .next (irqTokdne σ)

/-- IRQ_SLEEP (R226). -/
def execIrqSleep (σ : State) : Host.Outcome State Fault Refusal := .next (irqSleep σ)

/-- IRQ_STALL (R227). -/
def execIrqStall (σ : State) : Host.Outcome State Fault Refusal := .next (irqStall σ)

/-- DEFAULT_HANDLER (R229): nothing. -/
def execDefaultHandler (σ : State) : Host.Outcome State Fault Refusal := .next σ

end Sys2Proof.Machine
end

