-- ==== Sys2Proof/Machine/Sie.lean ====
section
/-! DEFINITION. The SIE (spec 41_sie_tokens): ACCEPT, COMPLETE, the four tokens and the three bus events. -/

namespace Sys2Proof.Machine

/-- STAT_FIFO_DEPTH (R8, D11). -/
def statFifoDepth : Nat := 4

/-- How ACCEPT ends (R150). -/
inductive Acceptance where
  /-- One of checks 1 to 5 failed: the step ends. -/
  | ended
  /-- Check 6: accepted with a slot. -/
  | accepted (s : Slot)
  /-- An enabled endpoint with EPHSHK = 0, to which the rules give no meaning (U6). -/
  | noHandshake
deriving DecidableEq, Repr

/-- The enable bit a token kind needs (R150 check 2). -/
def enableMask : TokKind → Byte
  | .setup  => eprxen
  | .outTok => eprxen
  | .inTok  => eptxen

/-- The answer when no descriptor can be used: none for SETUP, NAK for IN and OUT (R150 checks 4, 5). -/
def turnAway (k : TokKind) (σ : State) : State :=
  match k with
  | .setup => { σ with response := .none }
  | .inTok => { σ with response := .nak }
  | .outTok => { σ with response := .nak }

/-- Checks 4 to 6 (R150). -/
def acceptSlot (k : TokKind) (e : Endp) (σ : State) : State × Acceptance :=
  if statFifoDepth ≤ σ.statFifo.length then (turnAway k σ, .ended)
  else if bdOwned σ (sieSlot σ e (tokDir k)) then (σ, .accepted (sieSlot σ e (tokDir k)))
  else (turnAway k σ, .ended)

/-- ACCEPT (R150): the checks in order, the first that fails decides. -/
def accept (k : TokKind) (a : UsbAddr) (e : Endp) (σ : State) : State × Acceptance :=
  if a ≠ σ.addr then ({ σ with response := .none }, .ended)
  else if endptHas σ e (enableMask k) = false then ({ σ with response := .none }, .ended)
  else if endptHas σ e ephshk = false then (σ, .noHandshake)
  else if k = .setup then acceptSlot k e (clearStall e σ)
  else if endptHas σ e epstall then ({ setFlag .stall σ with response := .stall }, .ended)
  else acceptSlot k e σ

/-- COMPLETE (R151): the write-back, the STAT entry, TOKDNE, the HWODD flip. -/
def complete (e : Endp) (d : Dir) (n : Count) (k : TokKind) (σ : State) : State :=
  let s := sieSlot σ e d
  let written := setBdWord s (doneWord n (wordData01 (bdWord σ s)) (tokPid k)) σ
  setFlag .tokdne { written with
    statFifo := written.statFifo ++ [statWord e (dirBit d) (getDir written.hwodd e d)]
    hwodd := flipDir written.hwodd e d }

/-- The data packet of an IN transaction: the descriptor's toggle and bytes (R153). -/
def dataPacket (σ : State) (s : Slot) : Response :=
  let bytes := loadBytes (bdPtr σ s) (wordBC (bdWord σ s)).toNat σ
  if wordData01 (bdWord σ s) = 0 then .data0 bytes else .data1 bytes

/-- ACCEPT alone (R150). -/
def execAccept (k : TokKind) (a : UsbAddr) (e : Endp) (σ : State) : Host.Outcome State Fault Refusal :=
  match accept k a e σ with
  | (τ, .ended) => .next { τ with result := .ended }
  | (τ, .accepted s) => .next { τ with result := .accepted s }
  | (_, .noHandshake) => .refused .noHandshakeEndpoint

/-- COMPLETE alone (R151); the FIFO holds at most four entries (R36; log 14). -/
def execComplete (e : Endp) (d : Dir) (n : Count) (k : TokKind) (σ : State) : Host.Outcome State Fault Refusal :=
  if statFifoDepth ≤ σ.statFifo.length then .refused .completeWhileFull
  else .next (complete e d n k σ)

/-- TOK_SETUP (R152). The descriptor's toggle is not compared. -/
def execTokSetup (a : UsbAddr) (e : Endp) (b : List Byte) (σ : State) : Host.Outcome State Fault Refusal :=
  if b.length ≠ 8 then .refused .setupLength
  else match accept .setup a e σ with
    | (τ, .ended) => .next τ
    | (_, .noHandshake) => .refused .noHandshakeEndpoint
    | (τ, .accepted s) =>
      if wordBC (bdWord τ s) < 8 then .refused .setupOverrun
      else .next { complete e .rx 8 .setup (storeBytes (bdPtr τ s) b τ) with response := .ack }

/-- TOK_IN (R153). Without a handshake the descriptor stays armed. -/
def execTokIn (a : UsbAddr) (e : Endp) (hs : Handshake) (σ : State) : Host.Outcome State Fault Refusal :=
  match accept .inTok a e σ with
  | (τ, .ended) => .next τ
  | (_, .noHandshake) => .refused .noHandshakeEndpoint
  | (τ, .accepted s) =>
    match hs with
    | .ack => .next { complete e .tx (wordBC (bdWord τ s)) .inTok τ with response := dataPacket τ s }
    | .noack => .next { recordLinkError .bto τ with response := dataPacket τ s }

/-- TOK_OUT (R154). A packet whose toggle is not the descriptor's is acknowledged and dropped. -/
def execTokOut (a : UsbAddr) (e : Endp) (t : Bit) (b : List Byte) (σ : State) : Host.Outcome State Fault Refusal :=
  match accept .outTok a e σ with
  | (τ, .ended) => .next τ
  | (_, .noHandshake) => .refused .noHandshakeEndpoint
  | (τ, .accepted s) =>
    if t ≠ wordData01 (bdWord τ s) then .next { τ with response := .ack }
    else if (wordBC (bdWord τ s)).toNat < b.length then .refused .outOverrun
    else .next { complete e .rx (BitVec.ofNat 10 b.length) .outTok (storeBytes (bdPtr τ s) b τ) with response := .ack }

/-- TOK_SOF (R155): SOFTOK, nothing else. -/
def execTokSof (σ : State) : Host.Outcome State Fault Refusal := .next (setFlag .softok σ)

/-- BUS_RESET (R156): USBRST, nothing else; the dispatcher re-initialises later. -/
def execBusReset (σ : State) : Host.Outcome State Fault Refusal := .next (setFlag .usbrst σ)

/-- BUS_ERROR (R157). -/
def execBusError (k : LinkError) (σ : State) : Host.Outcome State Fault Refusal := .next (recordLinkError k σ)

/-- BUS_SLEEP (R158): SLEEP, nothing else. -/
def execBusSleep (σ : State) : Host.Outcome State Fault Refusal := .next (setFlag .sleep σ)

end Sys2Proof.Machine
end

