-- ==== Sys2Proof/Machine/Dispatch.lean ====
section
/-! DEFINITION. One arm per operation: its meaning. -/

namespace Sys2Proof.Machine

def exec (i : Instr) (s : State) : Host.Outcome State Fault Refusal :=
  match i with
  | .tokOut a e t b => Sys2Proof.Machine.execTokOut a e t b s
  | .tokSof => Sys2Proof.Machine.execTokSof s
  | .tokIn a e hs => Sys2Proof.Machine.execTokIn a e hs s
  | .tokSetup a e b => Sys2Proof.Machine.execTokSetup a e b s
  | .busReset => Sys2Proof.Machine.execBusReset s
  | .busError k => Sys2Proof.Machine.execBusError k s
  | .busSleep => Sys2Proof.Machine.execBusSleep s
  | .irqUsbrst => Sys2Proof.Machine.execIrqUsbrst s
  | .reinit => Sys2Proof.Machine.execReinit s
  | .irqError => Sys2Proof.Machine.execIrqError s
  | .irqSoftok => Sys2Proof.Machine.execIrqSoftok s
  | .irqTokdne => Sys2Proof.Machine.execIrqTokdne s
  | .irqSleep => Sys2Proof.Machine.execIrqSleep s
  | .irqStall => Sys2Proof.Machine.execIrqStall s
  | .ep0Handler d p => Sys2Proof.Machine.execEp0Handler d p s
  | .ep1Handler d p => Sys2Proof.Machine.execEp1Handler d p s
  | .defaultHandler _ _ _ => Sys2Proof.Machine.execDefaultHandler s
  | .ep0OnSetup _ _ sl ptr => Sys2Proof.Machine.execEp0OnSetup sl ptr s
  | .ep0OnIn => Sys2Proof.Machine.execEp0OnIn s
  | .ep0OnOut sl => Sys2Proof.Machine.execEp0OnOut sl s
  | .ep0OnOther _ _ _ _ => Sys2Proof.Machine.execEp0OnOther s
  | .ep1OnIn => Sys2Proof.Machine.execEp1OnIn s
  | .ep1OnOut sl => Sys2Proof.Machine.execEp1OnOut sl s
  | .ep1OnOther _ _ _ _ => Sys2Proof.Machine.execEp1OnOther s
  | .setupRequest => Sys2Proof.Machine.execSetupRequest s
  | .setAddress _ _ _ => Sys2Proof.Machine.execSetAddress s
  | .setConfiguration _ _ _ => Sys2Proof.Machine.execSetConfiguration s
  | .getDescriptorDev v x l => Sys2Proof.Machine.execGetDescriptorDev v x l s
  | .getDescriptorIf v x l => Sys2Proof.Machine.execGetDescriptorIf v x l s
  | .reqUnsupported _ _ _ _ => Sys2Proof.Machine.execReqUnsupported s
  | .lookup v x => Sys2Proof.Machine.execLookup v x s
  | .indexFor e d p => Sys2Proof.Machine.execIndexFor e d p s
  | .arm sl ptr count toggle => Sys2Proof.Machine.execArm sl ptr count toggle s
  | .pidOf sl => Sys2Proof.Machine.execPidOf sl s
  | .take sl => Sys2Proof.Machine.execTake sl s
  | .revoke sl => Sys2Proof.Machine.execRevoke sl s
  | .transmit e ptr count => Sys2Proof.Machine.execTransmit e ptr count s
  | .send p len => Sys2Proof.Machine.execSend p len s
  | .ep0Stall => Sys2Proof.Machine.execEp0Stall s
  | .accept kind a e => Sys2Proof.Machine.execAccept kind a e s
  | .complete e d n kind => Sys2Proof.Machine.execComplete e d n kind s

end Sys2Proof.Machine
end

