-- ==== Sys2Proof/Machine/Fetch.lean ====
section
/-! DEFINITION. What the next step runs: the turn at the head of the schedule, decoded (log 2, log 3). -/

namespace Sys2Proof.Machine

/-- What a turn comes to. -/
inductive Fetched where
  /-- Run this operation on this state. -/
  | run (i : Instr) (σ : State)
  /-- No agent has a step: the block waits (R220, R304). -/
  | wait (σ : State)
  /-- The turn is refused by name. -/
  | stop (r : Refusal)
deriving DecidableEq, Repr

/-- The operation a phase stands for: DPH says which step the ENGINE takes next (R38, R221 to R227). -/
def phaseInstr : Dph → Instr
  | .idle => .irqUsbrst
  | .err => .irqError
  | .sof => .irqSoftok
  | .tok => .irqTokdne
  | .sleep => .irqSleep
  | .stall => .irqStall

/-- Whether the ENGINE has a step (R220). -/
def engineEnabled (σ : State) : Bool := decide (σ.dph ≠ .idle) || irq σ

/-- A turn is taken: the rest of the schedule stays, and the last step's outputs are gone (R10). -/
def beginTurn (rest : List Turn) (σ : State) : State :=
  { σ with schedule := rest, response := .none, result := .none }

/-- The ENGINE's turn (R220). -/
def fetchEngine (σ : State) : Fetched :=
  if engineEnabled σ then .run (phaseInstr σ.dph) σ else .wait σ

/-- The HOST's turn: one of the seven events (R105), else refused (U5). -/
def fetchHost (record : List Byte) (σ : State) : Fetched :=
  match decode record with
  | .ok (i, _) => if i.isHostEvent then .run i σ else .stop .notAHostEvent
  | .error e => .stop (.undecoded e)

/-- One operation alone. -/
def fetchCall (record : List Byte) (σ : State) : Fetched :=
  match decode record with
  | .ok (i, _) => .run i σ
  | .error e => .stop (.undecoded e)

/-- The next turn. An empty schedule leaves the ENGINE running while it has a step. A configuration that breaks the
start-up requirements is refused (R305, U2). -/
def fetch (σ : State) : Fetched :=
  if ConfigOk σ.cfg then
    match σ.schedule with
    | [] => fetchEngine (beginTurn [] σ)
    | .engine :: rest => fetchEngine (beginTurn rest σ)
    | .host record :: rest => fetchHost record (beginTurn rest σ)
    | .call record :: rest => fetchCall record (beginTurn rest σ)
  else .stop .badConfiguration

/-- The turn that runs a table word's operation: the HOST's for one of its events, else the operation alone. -/
def tableTurn (nbits w : Nat) : Turn :=
  match decodeTableWord nbits w with
  | some i => if i.isHostEvent then .host (tableRecord nbits w) else .call (tableRecord nbits w)
  | none => .call (tableRecord nbits w)

end Sys2Proof.Machine
end

