-- ==== Sys2Proof/Machine/Step.lean ====
section
/-! DEFINITION. One step: the next turn's operation, or a wait, or a refusal. -/

namespace Sys2Proof.Machine

/-- One step of the one machine the three agents make (R5, R69). -/
def step (s : State) : Host.Outcome State Fault Refusal :=
  match fetch s with
  | .run i t => exec i t
  | .wait t => .next t
  | .stop r => .refused r

/-- The state with a table word's operation at the head of the schedule, where `step` fetches. -/
def State.withFetchWord (s : State) (nbits w : Nat) : State :=
  { s with schedule := tableTurn nbits w :: s.schedule }

end Sys2Proof.Machine
end

