-- ==== Sys2Proof/Safety.lean ====
section
/-! DEFINITION. What counts as a safe run: the invariants of the block, in the terms the claims use. -/

namespace Sys2Proof.Machine

/-! ### The invariant every step keeps -/

/-- R43 (a) to (e), the canonical form of memory, and the order of the fault record. It speaks of no schedule: a step
of any turn keeps it, an operation run alone included. -/
structure Inv (σ : State) : Prop where
  /-- Memory is in its one canonical form. -/
  memory : Memory.wf σ.cfg σ.mem = true
  /-- R43 (a). -/
  tokdne : hasBit σ.istat (flagMask .tokdne) = decide (σ.statFifo ≠ [])
  /-- R23: ERROR stands for the ERRSTAT flags. -/
  error : hasBit σ.istat (flagMask .error) = decide (σ.errstat ≠ 0)
  /-- R43 (b). -/
  fifoLength : σ.statFifo.length ≤ statFifoDepth
  /-- R43 (c), STAT. -/
  statReserved : ∀ v ∈ σ.statFifo, v.extractLsb' 0 2 = 0
  /-- R43 (c), ISTAT. -/
  istatReserved : σ.istat &&& ~~~irqMask = 0
  /-- R43 (c), INTEN. -/
  intenReserved : σ.inten &&& ~~~irqMask = 0
  /-- R97: reserved bits of ERRSTAT. -/
  errstatReserved : σ.errstat &&& ~~~errMask = 0
  /-- R43 (c), ENDPT. -/
  endptReserved : ∀ e : Endp, getEp σ.endpt e &&& ~~~endptMask = 0
  /-- R150: an enabled endpoint uses handshakes (U6). -/
  handshake : ∀ e : Endp, hasBit (getEp σ.endpt e) (eprxen ||| eptxen) = true → hasBit (getEp σ.endpt e) ephshk = true
  /-- R43 (d). -/
  cursor : σ.cur.valid = false → σ.cur = Cursor.empty
  /-- R43 (e), the registers. -/
  endptHigh : ∀ e : Endp, 2 ≤ e.toNat → getEp σ.endpt e = 0
  /-- R225: a latched TOKDNE means the FIFO has a head to read. -/
  latch : hasBit σ.dstatus (flagMask .tokdne) = true → σ.statFifo ≠ []
  /-- Reserved bits of the latched copy of ISTAT (R34). -/
  latchReserved : σ.dstatus &&& ~~~irqMask = 0
  /-- The fault record is a set: rising slots, no repeats. -/
  faultOrder : σ.faults.Pairwise (fun f g => f.slot < g.slot)

/-! ### Real runs -/

/-- A turn an agent of the block takes (R5): an operation run alone is not one (log 3). -/
def Turn.real : Turn → Bool
  | .host _ => true
  | .engine => true
  | .call _ => false

/-- The RX slots of the two enabled endpoints. -/
def rxSlot (s : Slot) : Bool := s = 0 || s = 1 || s = 4 || s = 5

/-- The TX slots of the two enabled endpoints. -/
def txSlot (s : Slot) : Bool := s = 2 || s = 3 || s = 6 || s = 7

/-- The size of an RX slot's buffer (R29). -/
def rxSize (c : Config) (s : Slot) : Count :=
  if s = 0 || s = 1 then 8 else BitVec.ofNat 10 c.ep1RxSize

/-- Whether `n` bytes at `p` lie inside one descriptor or the report (R263); no byte needs no place. -/
def inStore (c : Config) (p : Word) (n : Nat) : Prop :=
  n = 0 ∨ ∃ d ∈ romBlocks c, d.pointer.toNat ≤ p.toNat ∧ p.toNat + n ≤ d.pointer.toNat + d.bytes.length

/-- The completions of endpoint 1's IN side not served yet. -/
def ep1InEntries (σ : State) : List Byte := σ.statFifo.filter (fun v => statEndp v = 1 && statDir v = 1)

/-- The slot of endpoint 1's TX side with parity `p`. -/
def ep1Slot (p : Bit) : Slot := slotBits 1 1 p

/-- Endpoint 1's report is armed where the SIE looks, under the toggle that equals its parity (R251, R312). -/
def ep1Armed (σ : State) : Prop :=
  let h := getDir σ.hwodd 1 .tx
  bdWord σ (ep1Slot h) = armWord 4 h ∧ bdPtr σ (ep1Slot h) = σ.cfg.reportBase ∧ bdOwned σ (ep1Slot (h ^^^ 1)) = false ∧
  getDir σ.par 1 .tx = h ^^^ 1 ∧ getDir σ.tog 1 .tx = h ^^^ 1 ∧ ep1InEntries σ = []

/-- Endpoint 1's report was sent, and its completion waits to be served. -/
def ep1Sent (σ : State) : Prop :=
  let h := getDir σ.hwodd 1 .tx
  bdOwned σ (ep1Slot h) = false ∧ bdOwned σ (ep1Slot (h ^^^ 1)) = false ∧
  wordPid (bdWord σ (ep1Slot (h ^^^ 1))) = tokPid .inTok ∧
  getDir σ.par 1 .tx = h ∧ getDir σ.tog 1 .tx = h ∧ ep1InEntries σ = [statWord 1 1 (h ^^^ 1)]

/-- Endpoint 1 was never primed (R316). -/
def ep1Silent (σ : State) : Prop :=
  σ.cfg.ep1Prime = .never ∧ bdOwned σ (ep1Slot 0) = false ∧ bdOwned σ (ep1Slot 1) = false ∧ ep1InEntries σ = []

/-- What every run of the three agents keeps, from power-on: `Inv`, and who owns which descriptor, where every pointer
points, and what the completions not served yet stand for. -/
structure RunInv (σ : State) : Prop where
  base : Inv σ
  configOk : ConfigOk σ.cfg
  schedule : ∀ t ∈ σ.schedule, t.real = true
  /-- An RX slot keeps its buffer (R181, R190, R252: every re-arm passes the slot's own pointer). -/
  rxPtr : ∀ s, rxSlot s = true → bdPtr σ s = resetPtr σ.cfg s
  /-- An armed RX slot is armed for its buffer's size. -/
  rxCount : ∀ s, rxSlot s = true → bdOwned σ s = true → wordBC (bdWord σ s) = rxSize σ.cfg s
  /-- R43 (f): an owned word is one that ARM wrote. -/
  ownedWord : ∀ s, bdOwned σ s = true → bdWord σ s = armWord (wordBC (bdWord σ s)) (wordData01 (bdWord σ s))
  /-- R180: an RX slot never holds IN. -/
  rxPid : ∀ s, rxSlot s = true → wordPid (bdWord σ s) ≠ tokPid .inTok
  /-- R180: a TX slot holds IN or no token. -/
  txPid : ∀ s, txSlot s = true → wordPid (bdWord σ s) = tokPid .inTok ∨ wordPid (bdWord σ s) = 0
  /-- R43 (e): the slots of the disabled endpoints stay clear. -/
  highSlots : ∀ s : Slot, 8 ≤ s.toNat → bdWord σ s = 0 ∧ bdPtr σ s = 0
  /-- R263: an armed TX slot points into the descriptor store or the report. -/
  txSource : ∀ s, txSlot s = true → bdOwned σ s = true → inStore σ.cfg (bdPtr σ s) (wordBC (bdWord σ s)).toNat
  /-- R263: the cursor never leaves its descriptor. -/
  cursorSource : σ.cur.valid = true → inStore σ.cfg σ.cur.ptr σ.cur.len.toNat
  /-- R22: only REINIT writes INTEN. -/
  inten : σ.inten = irqMask
  /-- R99: endpoint 0 is enabled, stalled or not. -/
  endpt0 : getEp σ.endpt 0 = endptEnabled ∨ getEp σ.endpt 0 = endptEnabled ||| epstall
  /-- R159: only endpoint 0 is ever stalled. -/
  endpt1 : getEp σ.endpt 1 = endptEnabled
  /-- R229: the default handler is never reached. -/
  fifoEndpoints : ∀ v ∈ σ.statFifo, statEndp v = 0 ∨ statEndp v = 1
  /-- An RX completion not served yet names a slot the ENGINE owns. -/
  fifoRx : ∀ v ∈ σ.statFifo, statDir v = 0 → bdOwned σ (statSlot v) = false
  /-- No RX slot is named twice. -/
  fifoRxOnce : (σ.statFifo.filter (fun v => statDir v = 0)).Nodup
  /-- R312: endpoint 1's TX side never loses step. -/
  ep1 : ep1Armed σ ∨ ep1Sent σ ∨ ep1Silent σ
  /-- R273: an ownership fault is one of endpoint 0's TX slots. -/
  faultSlots : ∀ f ∈ σ.faults, f.slot = 2 ∨ f.slot = 3

/-! ### Reset -/

/-- The table of R44, but for its rows FAULT and RX buffer contents, which a reset keeps. -/
structure ResetTable (c : Config) (σ : State) : Prop where
  istat : σ.istat = 0x00
  inten : σ.inten = 0x9F
  errstat : σ.errstat = 0x00
  statFifo : σ.statFifo = []
  addr : σ.addr = 0
  endpt : ∀ e : Endp, getEp σ.endpt e = if e.toNat ≤ 1 then 0x0D else 0x00
  word : ∀ s : Slot, bdWord σ s =
    if s = 0 ∨ s = 1 then (0x00080080 : Word)
    else if s = 4 ∨ s = 5 then (BitVec.ofNat 32 c.ep1RxSize <<< 16) ||| 0x80
    else if s = 6 ∧ c.ep1Prime = .atReset then 0x00040080 else 0
  ptr : ∀ s : Slot, bdPtr σ s =
    if s = 0 then c.ep0RxBuf0 else if s = 1 then c.ep0RxBuf1
    else if s = 4 then c.ep1RxBuf0 else if s = 5 then c.ep1RxBuf1
    else if s = 6 ∧ c.ep1Prime = .atReset then c.reportBase else 0
  par : ∀ (e : Endp) (d : Dir), getDir σ.par e d = if e = 1 ∧ d = .tx ∧ c.ep1Prime = .atReset then 1 else 0
  tog : ∀ (e : Endp) (d : Dir), getDir σ.tog e d = if e = 1 ∧ d = .tx ∧ c.ep1Prime = .atReset then 1 else 0
  hwodd : ∀ (e : Endp) (d : Dir), getDir σ.hwodd e d = 0
  cur : σ.cur = { valid := false, ptr := 0, len := 0 }
  lastSetup : σ.lastSetup = 0
  dstatus : σ.dstatus = 0x00
  dph : σ.dph = .idle
  ep0State : σ.ep0State = .idle
  report : loadBytes c.reportBase 4 σ = reportBytes c.report

/-! ### Runs -/

/-- The bus answers of `n` steps, oldest first, and the state they lead to, while each gives a next state. -/
def answers : Nat → State → Option (List Response × State)
  | 0, σ => some ([], σ)
  | n + 1, σ =>
    match step σ with
    | .next τ =>
      match answers n τ with
      | some (rs, ω) => some (if τ.response = .none then rs else τ.response :: rs, ω)
      | none => none
    | .fault _ => none
    | .refused _ => none

/-! ### What one operation writes -/

/-- `m'` is `m` but for slot `s`, whose descriptor holds word `w` and pointer `p`. -/
structure SlotWritten (c : Config) (m m' : Memory) (s : Slot) (w p : Word) : Prop where
  word : readBdWord c m' s = w
  ptr : readBdPtr c m' s = p
  frame : ∀ a, ¬ inSlot c s a → readByte c m' a = readByte c m a

/-- `m'` is `m` but for two slots, whose descriptors hold these words and pointers. -/
structure SlotsWritten (c : Config) (m m' : Memory) (s : Slot) (w p : Word) (s' : Slot) (w' p' : Word) : Prop where
  word : readBdWord c m' s = w
  ptr : readBdPtr c m' s = p
  word' : readBdWord c m' s' = w'
  ptr' : readBdPtr c m' s' = p'
  frame : ∀ a, ¬ inSlot c s a → ¬ inSlot c s' a → readByte c m' a = readByte c m a

/-- The fault record `fs` after an ARM on slot `s` in state `σ`: one more name exactly when the SIE owned it (R131). -/
def FaultRecorded (σ : State) (fs : List Fault) (s : Slot) : Prop :=
  ∀ f, f ∈ fs ↔ f ∈ σ.faults ∨ (wordOwn (bdWord σ s) = 1 ∧ f = .ownViolation s)

/-- `v'` is `v` with the bit of endpoint `e`, direction `d` flipped. -/
def Flipped (v v' : Vector DirPair 16) (e : Endp) (d : Dir) : Prop :=
  ∀ e' d', getDir v' e' d' = if e' = e ∧ d' = d then getDir v e d ^^^ 1 else getDir v e' d'

/-- `v'` is `v` with endpoint `e`'s register at `x`. -/
def EndptWritten (v v' : Vector Byte 16) (e : Endp) (x : Byte) : Prop :=
  ∀ e', getEp v' e' = if e' = e then x else getEp v e'

/-- Every check of ACCEPT passes (R150), on an endpoint that uses handshakes (U6). -/
abbrev Acceptable (k : TokKind) (a : UsbAddr) (e : Endp) (σ : State) : Prop :=
  a = σ.addr ∧ endptHas σ e (enableMask k) = true ∧ endptHas σ e ephshk = true ∧
  (k = .setup ∨ endptHas σ e epstall = false) ∧ σ.statFifo.length < statFifoDepth ∧
  bdOwned σ (sieSlot σ e (tokDir k)) = true

/-- The bytes of a packet: those at `p`, `p + 1`, …, `n` of them. -/
def BytesAt (σ : State) (p : Word) (n : Nat) (bytes : List Byte) : Prop :=
  bytes.length = n ∧ ∀ i, i < n → bytes[i]? = some (memByte σ (p + BitVec.ofNat 32 i))

/-- A received packet's effect on memory: slot `s` holds word `w` and its own pointer `p`, the packet's bytes are at
`p`, and every other byte is as before. -/
structure PacketStored (σ : State) (m : Memory) (s : Slot) (w : Word) (bytes : List Byte) : Prop where
  word : readBdWord σ.cfg m s = w
  ptr : readBdPtr σ.cfg m s = bdPtr σ s
  stored : ∀ i b, bytes[i]? = some b → romByte σ.cfg (bdPtr σ s + BitVec.ofNat 32 i).toNat = none →
    readByte σ.cfg m (bdPtr σ s + BitVec.ofNat 32 i) = b
  frame : ∀ a, ¬ inSlot σ.cfg s a → ¬ inPacket (bdPtr σ s) bytes.length a → readByte σ.cfg m a = readByte σ.cfg σ.mem a

/-- The buffer of slot `s` is apart from the slot itself (R66: in every run it is). -/
def BufferApart (σ : State) (s : Slot) (n : Nat) : Prop :=
  ∀ a, inPacket (bdPtr σ s) n a → ¬ inSlot σ.cfg s a

end Sys2Proof.Machine
end

