-- ==== Sys2Proof/Certificates/Slice0/Obligations.lean ====
section
/-! DEFINITION. The statements about the model, for the provers.

A next state is written as a record update of the state before: every field the update does not name is unchanged. -/

open Sys2Proof Sys2Proof.Machine

/-! ### Encodings -/

/-- Words written out from the formats of spec 30_encoding decode to the operations they stand for. -/
def Obligations.SpecWordsDecode : Prop :=
  decode [0x01, 0b00001101, 0, 0, 0x80, 0x06, 0x00, 0x01, 0x00, 0x00, 0x12, 0x00] =
    .ok (.tokSetup 0 0 [0x80, 0x06, 0x00, 0x01, 0x00, 0x00, 0x12, 0x00], []) ∧
  decode [0x03, 0b00001000] = .ok (.irqTokdne, []) ∧
  decode [0x04, 0b00011000] = .ok (.ep1Handler 1 0, []) ∧
  decode [0x05, 0b01100100, 0b00000000, 0b00001000, 0b00000000] = .ok (.ep0OnIn, []) ∧
  decode [0x07, 0x81, 0x06, 0x00, 0x22, 0x00, 0x00, 0x34, 0x00] = .ok (.getDescriptorIf 0x2200 0x0000 0x0034, []) ∧
  decode [0x13, 0b00000111] = .ok (.indexFor 1 .tx 1, []) ∧
  decode [0x14, 0b11000000, 0b00000000, 0b00001000, 0b00000000, 2, 0x78, 0x56, 0x34, 0x12] =
    .ok (.arm 2 0x12345678 8 1, [])

/-- Decoding an encoded well-formed operation gives it back, with every operand, and hands back what follows. -/
def Obligations.DecodeEncode : Prop :=
  ∀ (i : Instr) (rest : List Byte), i.wf = true → decode (encode i ++ rest) = .ok (i, rest)

/-- Whatever decodes is well formed, and the decoder read a nonempty prefix. -/
def Obligations.DecodedIsWellFormed : Prop :=
  ∀ (bs rest : List Byte) (i : Instr), decode bs = .ok (i, rest) →
    i.wf = true ∧ ∃ used, used ≠ [] ∧ bs = used ++ rest

/-- INDEX_FOR is the slot formula, in range, and one to one (R130). -/
def Obligations.IndexForIsTheSlotMap : Prop :=
  (∀ (e : Endp) (d : Dir) (p : Bit) (σ : State), ∃ s : Slot,
    exec (.indexFor e d p) σ = .next { σ with result := .slot s } ∧
    s.toNat = 4 * e.toNat + 2 * (dirBit d).toNat + p.toNat) ∧
  (∀ s : Slot, ∃! t : Endp × Dir × Bit, slotBits t.1 (dirBit t.2.1) t.2.2 = s) ∧
  (∀ v : Byte, statSlot v = slotBits (statEndp v) (statDir v) (statOdd v))

/-! ### The step -/

/-- A step runs the operation its turn's bytes decode to (log 2): the HOST's events, an operation alone (log 3), and on
the ENGINE's turn, or with nothing scheduled, the phase DPH names, exactly when R220 enables it; else it waits. -/
def Obligations.StepRunsDecodedInstruction : Prop :=
  (∀ (σ : State) (bs more : List Byte) (rest : List Turn) (i : Instr), ConfigOk σ.cfg →
    σ.schedule = .host bs :: rest → decode bs = .ok (i, more) → i.isHostEvent = true →
    step σ = exec i { σ with schedule := rest, response := .none, result := .none }) ∧
  (∀ (σ : State) (bs more : List Byte) (rest : List Turn) (i : Instr), ConfigOk σ.cfg →
    σ.schedule = .call bs :: rest → decode bs = .ok (i, more) →
    step σ = exec i { σ with schedule := rest, response := .none, result := .none }) ∧
  (∀ (σ : State) (rest : List Turn), ConfigOk σ.cfg →
    (σ.schedule = .engine :: rest ∨ (σ.schedule = [] ∧ rest = [])) →
    ((σ.dph ≠ .idle ∨ σ.istat &&& σ.inten ≠ 0) →
      step σ = exec (phaseInstr σ.dph) { σ with schedule := rest, response := .none, result := .none }) ∧
    (σ.dph = .idle → σ.istat &&& σ.inten = 0 →
      step σ = .next { σ with schedule := rest, response := .none, result := .none }))

/-- What a step refuses before it runs anything: a configuration that breaks the start-up requirements (R305), bytes
that are no operation, and a HOST turn that is none of the seven events (R105, U5; log 10, log 12). -/
def Obligations.StepRefusesWhatIsNotAdmitted : Prop :=
  (∀ σ : State, ¬ ConfigOk σ.cfg → step σ = .refused .badConfiguration) ∧
  (∀ (σ : State) (bs : List Byte) (rest : List Turn) (e : DecodeError), ConfigOk σ.cfg →
    (σ.schedule = .host bs :: rest ∨ σ.schedule = .call bs :: rest) → decode bs = .error e →
    step σ = .refused (.undecoded e)) ∧
  (∀ (σ : State) (bs more : List Byte) (rest : List Turn) (i : Instr), ConfigOk σ.cfg →
    σ.schedule = .host bs :: rest → decode bs = .ok (i, more) → i.isHostEvent = false →
    step σ = .refused .notAHostEvent)

/-! ### Invariants -/

/-- The invariant holds after power-on, for every configuration. -/
def Obligations.PowerOnMeetsInv : Prop := ∀ c : Config, Inv (State.powerOn c)

/-- Every step keeps the invariant (R43 a to e, and memory's canonical form), an operation run alone included. -/
def Obligations.StepKeepsInv : Prop := ∀ σ τ : State, Inv σ → step σ = .next τ → Inv τ

/-- The invariant of real runs holds after power-on, for every configuration that meets the start-up requirements. -/
def Obligations.PowerOnMeetsRunInv : Prop := ∀ c : Config, ConfigOk c → RunInv (State.powerOn c)

/-- Every step of HOST or ENGINE keeps the invariant of real runs: who owns which descriptor, where each points, that
endpoint 1 never loses step, and that an ownership fault can only be one of endpoint 0's TX slots. -/
def Obligations.StepKeepsRunInv : Prop := ∀ σ τ : State, RunInv σ → step σ = .next τ → RunInv τ

/-- No step writes the configuration or a byte of the descriptor store or the report (R264, R66, R72, R254). For call
turns, and for descriptors that point into the store, it rests on the model's reading of log 9, that a write to a read-only
byte changes nothing; the spec gives such a write no outcome. -/
def Obligations.StoreNeverWritten : Prop :=
  ∀ σ τ : State, step σ = .next τ → τ.cfg = σ.cfg ∧
    ∀ a : Word, romByte σ.cfg a.toNat ≠ none → readByte τ.cfg τ.mem a = readByte σ.cfg σ.mem a

/-- In a real run a step writes only the BDT and the four RX buffers. -/
def Obligations.StepWritesOnlyBdtAndBuffers : Prop :=
  ∀ σ τ : State, RunInv σ → step σ = .next τ → ∀ a : Word, ¬ inBdt σ.cfg a →
    (∀ r ∈ rxRegions σ.cfg, a.toNat < r.base ∨ r.base + r.size ≤ a.toNat) → memByte τ a = memByte σ a

/-- In a real run every data packet the SIE sends is a run of bytes of one descriptor or of the report, or empty. -/
def Obligations.DataPacketsComeFromTheStore : Prop :=
  ∀ (σ τ : State) (bytes : List Byte), RunInv σ → step σ = .next τ →
    (τ.response = .data0 bytes ∨ τ.response = .data1 bytes) →
    bytes = [] ∨ ∃ d ∈ romBlocks σ.cfg, ∃ k, bytes = (d.bytes.drop k).take bytes.length

/-- An ownership fault, once recorded, stays (R41): no operation removes a name, REINIT included. -/
def Obligations.FaultsAreSticky : Prop :=
  ∀ (i : Instr) (σ τ : State) (f : Fault), exec i σ = .next τ → f ∈ σ.faults → f ∈ τ.faults

/-- ADDR is written by REINIT, to 0, and by the endpoint-0 handler's IN case while the last request was SET_ADDRESS, to
its wValue[6:0]; by nothing else (R25). -/
def Obligations.AddressWriters : Prop :=
  ∀ (i : Instr) (σ τ : State), exec i σ = .next τ → τ.addr ≠ σ.addr →
    ((i = .reinit ∨ i = .irqUsbrst) ∧ τ.addr = 0) ∨
    ((i = .ep0OnIn ∨ (∃ d p, i = .ep0Handler d p) ∨ i = .irqTokdne) ∧
      lastRT σ = 0x0500 ∧ τ.addr = (lastValue σ).extractLsb' 0 7)

/-- The enable and handshake bits of ENDPT are written only by REINIT (R26). -/
def Obligations.EnableBitWriters : Prop :=
  ∀ (i : Instr) (σ τ : State) (e : Endp), exec i σ = .next τ → i ≠ .reinit → i ≠ .irqUsbrst →
    getEp τ.endpt e &&& 0x0D = getEp σ.endpt e &&& 0x0D

/-- What is private to the ENGINE, and ADDR and INTEN, no HOST event writes (R285, R22, R25). -/
def Obligations.HostEventsLeaveTheEngineAlone : Prop :=
  ∀ (i : Instr) (σ τ : State), i.isHostEvent = true → exec i σ = .next τ →
    τ.par = σ.par ∧ τ.tog = σ.tog ∧ τ.cur = σ.cur ∧ τ.lastSetup = σ.lastSetup ∧ τ.dstatus = σ.dstatus ∧
    τ.dph = σ.dph ∧ τ.ep0State = σ.ep0State ∧ τ.addr = σ.addr ∧ τ.inten = σ.inten ∧ τ.faults = σ.faults

/-- Every operation of the ENGINE completes, from every state; only REINIT touches HWODD; the FIFO loses its head in a
drain iteration and is otherwise touched by REINIT alone; and no byte outside the BDT is written (R285, R306). -/
def Obligations.EngineOperationsComplete : Prop :=
  ∀ (i : Instr) (σ : State), ConfigOk σ.cfg → i.isHostEvent = false → (∀ k a e, i ≠ .accept k a e) →
    (∀ e d n k, i ≠ .complete e d n k) →
    ∃ τ, exec i σ = .next τ ∧ (∀ a : Word, ¬ inBdt σ.cfg a → memByte τ a = memByte σ a) ∧
      (i ≠ .reinit → i ≠ .irqUsbrst → τ.hwodd = σ.hwodd ∧ τ.inten = σ.inten ∧
        (τ.statFifo = σ.statFifo ∨ (i = .irqTokdne ∧ τ.statFifo = σ.statFifo.tail)))

/-! ### Reset -/

/-- Both resets leave the table of R44: power-on with FAULT empty, and the dispatcher's reset check with USBRST set, which
keeps FAULT and every byte outside the BDT. -/
def Obligations.BothResetsLeaveTheResetTable : Prop :=
  (∀ c : Config, ConfigOk c → ResetTable c (State.powerOn c) ∧ (State.powerOn c).faults = []) ∧
  (∀ σ : State, ConfigOk σ.cfg → Memory.wf σ.cfg σ.mem = true → σ.istat &&& 0x01 ≠ 0 →
    ∃ τ, exec .irqUsbrst σ = .next τ ∧ ResetTable σ.cfg τ ∧ τ.faults = σ.faults ∧ ∀ a : Word, ¬ inBdt σ.cfg a → memByte τ a = memByte σ a)

/-- REINIT gives the power-on state from every state, but for FAULT, DPH, what lies outside the BDT, and the model's own
fields (R222, R44, R300, R302). That DPH stays is the model's choice for REINIT run alone (log 15): the table of R44 has
D_IDLE, which the ENGINE's step writes. -/
def Obligations.ReinitGivesThePowerOnState : Prop :=
  ∀ σ : State, ConfigOk σ.cfg → ∃ m,
    exec .reinit σ = .next
      { State.powerOn σ.cfg with
        mem := m, dph := σ.dph, faults := σ.faults, schedule := σ.schedule, response := σ.response,
        result := σ.result, freeCount := σ.freeCount } ∧
    (∀ s : Slot, readBdWord σ.cfg m s = bdWord (State.powerOn σ.cfg) s ∧
      readBdPtr σ.cfg m s = bdPtr (State.powerOn σ.cfg) s) ∧
    (∀ a : Word, ¬ inBdt σ.cfg a → readByte σ.cfg m a = readByte σ.cfg σ.mem a)

/-! ### Tokens (R150 to R154) -/

/-- A token for another address, or for an endpoint not enabled for it, is ignored: nothing changes (R150, checks 1 and
2). -/
def Obligations.ForeignTokensAreIgnored : Prop :=
  (∀ (k : TokKind) (a : UsbAddr) (e : Endp) (σ : State),
    (a ≠ σ.addr ∨ endptHas σ e (enableMask k) = false) →
    exec (.accept k a e) σ = .next { σ with response := .none, result := .ended }) ∧
  (∀ (a : UsbAddr) (e : Endp) (b : List Byte) (σ : State), b.length = 8 →
    (a ≠ σ.addr ∨ endptHas σ e eprxen = false) → exec (.tokSetup a e b) σ = .next { σ with response := .none }) ∧
  (∀ (a : UsbAddr) (e : Endp) (hs : Handshake) (σ : State),
    (a ≠ σ.addr ∨ endptHas σ e eptxen = false) → exec (.tokIn a e hs) σ = .next { σ with response := .none }) ∧
  (∀ (a : UsbAddr) (e : Endp) (t : Bit) (b : List Byte) (σ : State),
    (a ≠ σ.addr ∨ endptHas σ e eprxen = false) → exec (.tokOut a e t b) σ = .next { σ with response := .none })

/-- An enabled, stalled endpoint answers IN and OUT with STALL and sets the STALL flag, armed or not (R150, check 3). -/
def Obligations.StalledEndpointsAnswerStall : Prop :=
  (∀ (e : Endp) (hs : Handshake) (σ : State), endptHas σ e eptxen = true → endptHas σ e ephshk = true →
    endptHas σ e epstall = true →
    exec (.tokIn σ.addr e hs) σ = .next { σ with istat := σ.istat ||| 0x80, response := .stall } ∧
    exec (.accept .inTok σ.addr e) σ =
      .next { σ with istat := σ.istat ||| 0x80, response := .stall, result := .ended }) ∧
  (∀ (e : Endp) (t : Bit) (b : List Byte) (σ : State), endptHas σ e eprxen = true → endptHas σ e ephshk = true →
    endptHas σ e epstall = true →
    exec (.tokOut σ.addr e t b) σ = .next { σ with istat := σ.istat ||| 0x80, response := .stall } ∧
    exec (.accept .outTok σ.addr e) σ =
      .next { σ with istat := σ.istat ||| 0x80, response := .stall, result := .ended })

/-- With the FIFO full or the descriptor not owned by the SIE, IN and OUT are answered NAK and nothing changes; a SETUP
is ignored, but clears EPSTALL (R150, checks 3 to 5). -/
def Obligations.TokensWithoutDescriptorAreTurnedAway : Prop :=
  (∀ (e : Endp) (hs : Handshake) (σ : State), endptHas σ e eptxen = true → endptHas σ e ephshk = true →
    endptHas σ e epstall = false → (4 ≤ σ.statFifo.length ∨ bdOwned σ (sieSlot σ e .tx) = false) →
    exec (.tokIn σ.addr e hs) σ = .next { σ with response := .nak } ∧
    exec (.accept .inTok σ.addr e) σ = .next { σ with response := .nak, result := .ended }) ∧
  (∀ (e : Endp) (t : Bit) (b : List Byte) (σ : State), endptHas σ e eprxen = true → endptHas σ e ephshk = true →
    endptHas σ e epstall = false → (4 ≤ σ.statFifo.length ∨ bdOwned σ (sieSlot σ e .rx) = false) →
    exec (.tokOut σ.addr e t b) σ = .next { σ with response := .nak } ∧
    exec (.accept .outTok σ.addr e) σ = .next { σ with response := .nak, result := .ended }) ∧
  (∀ (e : Endp) (b : List Byte) (σ : State), b.length = 8 → endptHas σ e eprxen = true → endptHas σ e ephshk = true →
    (4 ≤ σ.statFifo.length ∨ bdOwned σ (sieSlot σ e .rx) = false) →
    ∃ ep, exec (.tokSetup σ.addr e b) σ = .next { σ with endpt := ep, response := .none } ∧
      exec (.accept .setup σ.addr e) σ = .next { σ with endpt := ep, response := .none, result := .ended } ∧
      EndptWritten σ.endpt ep e (getEp σ.endpt e &&& 0x0D))

/-- ACCEPT (R150), the checks in order: address and enable; EPSTALL, which a SETUP clears and which stalls an IN or OUT;
a full FIFO or a descriptor the SIE does not own; else accepted with the slot HWODD names. On endpoints that use
handshakes (U6; log 13). -/
def Obligations.AcceptChecksInOrder : Prop :=
  ∀ (k : TokKind) (a : UsbAddr) (e : Endp) (σ : State),
    (a ≠ σ.addr ∨ endptHas σ e (enableMask k) = false →
      exec (.accept k a e) σ = .next { σ with response := .none, result := .ended }) ∧
    (a = σ.addr → endptHas σ e (enableMask k) = true → endptHas σ e ephshk = true →
      (k ≠ .setup → endptHas σ e epstall = true →
        exec (.accept k a e) σ = .next { σ with istat := σ.istat ||| 0x80, response := .stall, result := .ended }) ∧
      ((k = .setup ∨ endptHas σ e epstall = false) →
        ∃ ep, (k ≠ .setup → ep = σ.endpt) ∧ (k = .setup → EndptWritten σ.endpt ep e (getEp σ.endpt e &&& 0x0D)) ∧
          exec (.accept k a e) σ = .next
            (if 4 ≤ σ.statFifo.length ∨ bdOwned σ (sieSlot σ e (tokDir k)) = false then
              { σ with endpt := ep, response := if k = .setup then .none else .nak, result := .ended }
            else { σ with endpt := ep, result := .accepted (sieSlot σ e (tokDir k)) })))

/-- COMPLETE (R151): the write-back, the STAT entry, TOKDNE and the HWODD flip, and nothing else. -/
def Obligations.CompleteWritesBack : Prop :=
  ∀ (e : Endp) (d : Dir) (n : Count) (k : TokKind) (σ : State), ConfigOk σ.cfg → σ.statFifo.length < 4 →
    ∃ m hw, exec (.complete e d n k) σ = .next
        { σ with
          mem := m, hwodd := hw, istat := σ.istat ||| 0x08,
          statFifo := σ.statFifo ++ [statWord e (dirBit d) (getDir σ.hwodd e d)] } ∧
      SlotWritten σ.cfg σ.mem m (sieSlot σ e d) (doneWord n (wordData01 (bdWord σ (sieSlot σ e d))) (tokPid k))
        (bdPtr σ (sieSlot σ e d)) ∧
      Flipped σ.hwodd hw e d

/-- TOK_SETUP (R152): where ACCEPT ends the step, that is all; an accepted setup packet is stored, completed and
acknowledged, whatever the toggle. -/
def Obligations.SetupTokenIsTaken : Prop :=
  (∀ (a : UsbAddr) (e : Endp) (b : List Byte) (σ τ : State), b.length = 8 → exec (.accept .setup a e) σ = .next τ →
    τ.result = .ended → exec (.tokSetup a e b) σ = .next { τ with result := σ.result }) ∧
  (∀ (a : UsbAddr) (e : Endp) (b : List Byte) (σ : State), ConfigOk σ.cfg → Acceptable .setup a e σ → b.length = 8 →
    8 ≤ (wordBC (bdWord σ (sieSlot σ e .rx))).toNat → BufferApart σ (sieSlot σ e .rx) 8 →
    ∃ m ep hw, exec (.tokSetup a e b) σ = .next
        { σ with
          mem := m, endpt := ep, hwodd := hw, istat := σ.istat ||| 0x08, response := .ack,
          statFifo := σ.statFifo ++ [statWord e 0 (getDir σ.hwodd e .rx)] } ∧
      PacketStored σ m (sieSlot σ e .rx) (doneWord 8 (wordData01 (bdWord σ (sieSlot σ e .rx))) 0xD) b ∧
      EndptWritten σ.endpt ep e (getEp σ.endpt e &&& 0x0D) ∧ Flipped σ.hwodd hw e .rx)

/-- TOK_IN (R153): where ACCEPT ends the step, that is all; an accepted token is answered with the armed bytes under
the armed toggle; with a handshake it completes, without one BTOERR and ERROR are set and the descriptor stays. -/
def Obligations.InTokenSendsTheArmedPacket : Prop :=
  (∀ (a : UsbAddr) (e : Endp) (hs : Handshake) (σ τ : State), exec (.accept .inTok a e) σ = .next τ →
    τ.result = .ended → exec (.tokIn a e hs) σ = .next { τ with result := σ.result }) ∧
  (∀ (a : UsbAddr) (e : Endp) (σ : State), ConfigOk σ.cfg → Acceptable .inTok a e σ →
    ∃ m hw bytes, exec (.tokIn a e .ack) σ = .next
        { σ with
          mem := m, hwodd := hw, istat := σ.istat ||| 0x08,
          response := if wordData01 (bdWord σ (sieSlot σ e .tx)) = 0 then .data0 bytes else .data1 bytes,
          statFifo := σ.statFifo ++ [statWord e 1 (getDir σ.hwodd e .tx)] } ∧
      BytesAt σ (bdPtr σ (sieSlot σ e .tx)) (wordBC (bdWord σ (sieSlot σ e .tx))).toNat bytes ∧
      SlotWritten σ.cfg σ.mem m (sieSlot σ e .tx)
        (doneWord (wordBC (bdWord σ (sieSlot σ e .tx))) (wordData01 (bdWord σ (sieSlot σ e .tx))) 0x9)
        (bdPtr σ (sieSlot σ e .tx)) ∧
      Flipped σ.hwodd hw e .tx) ∧
  (∀ (a : UsbAddr) (e : Endp) (σ : State), Acceptable .inTok a e σ →
    ∃ bytes, exec (.tokIn a e .noack) σ = .next
        { σ with
          errstat := σ.errstat ||| 0x10, istat := σ.istat ||| 0x02,
          response := if wordData01 (bdWord σ (sieSlot σ e .tx)) = 0 then .data0 bytes else .data1 bytes } ∧
      BytesAt σ (bdPtr σ (sieSlot σ e .tx)) (wordBC (bdWord σ (sieSlot σ e .tx))).toNat bytes)

/-- TOK_OUT (R154): where ACCEPT ends the step, that is all; a packet with the descriptor's toggle that fits is stored,
completed and acknowledged; a packet with the other toggle is acknowledged and dropped, and nothing changes. -/
def Obligations.OutTokenIsTakenOrDropped : Prop :=
  (∀ (a : UsbAddr) (e : Endp) (t : Bit) (b : List Byte) (σ τ : State), exec (.accept .outTok a e) σ = .next τ →
    τ.result = .ended → exec (.tokOut a e t b) σ = .next { τ with result := σ.result }) ∧
  (∀ (a : UsbAddr) (e : Endp) (b : List Byte) (σ : State), ConfigOk σ.cfg → Acceptable .outTok a e σ →
    b.length ≤ (wordBC (bdWord σ (sieSlot σ e .rx))).toNat → BufferApart σ (sieSlot σ e .rx) b.length →
    ∃ m hw, exec (.tokOut a e (wordData01 (bdWord σ (sieSlot σ e .rx))) b) σ = .next
        { σ with
          mem := m, hwodd := hw, istat := σ.istat ||| 0x08, response := .ack,
          statFifo := σ.statFifo ++ [statWord e 0 (getDir σ.hwodd e .rx)] } ∧
      PacketStored σ m (sieSlot σ e .rx)
        (doneWord (BitVec.ofNat 10 b.length) (wordData01 (bdWord σ (sieSlot σ e .rx))) 0x1) b ∧
      Flipped σ.hwodd hw e .rx) ∧
  (∀ (a : UsbAddr) (e : Endp) (t : Bit) (b : List Byte) (σ : State), Acceptable .outTok a e σ →
    t ≠ wordData01 (bdWord σ (sieSlot σ e .rx)) → exec (.tokOut a e t b) σ = .next { σ with response := .ack })

/-- The traffic the block has no step for (R160, U3, U5, U6): a setup packet of the wrong length, packets that do not fit,
and every token on an enabled endpoint without handshakes, ACCEPT run alone included; and COMPLETE run alone on a full FIFO, which the model
refuses by its own choice (log 11, log 12, log 13, log 14). -/
def Obligations.TrafficThatIsNotAdmitted : Prop :=
  (∀ (a : UsbAddr) (e : Endp) (b : List Byte) (σ : State), b.length ≠ 8 →
    exec (.tokSetup a e b) σ = .refused .setupLength) ∧
  (∀ (a : UsbAddr) (e : Endp) (b : List Byte) (σ : State), Acceptable .setup a e σ → b.length = 8 →
    (wordBC (bdWord σ (sieSlot σ e .rx))).toNat < 8 → exec (.tokSetup a e b) σ = .refused .setupOverrun) ∧
  (∀ (a : UsbAddr) (e : Endp) (b : List Byte) (σ : State), Acceptable .outTok a e σ →
    (wordBC (bdWord σ (sieSlot σ e .rx))).toNat < b.length →
    exec (.tokOut a e (wordData01 (bdWord σ (sieSlot σ e .rx))) b) σ = .refused .outOverrun) ∧
  (∀ (k : TokKind) (e : Endp) (σ : State), endptHas σ e (enableMask k) = true → endptHas σ e ephshk = false →
    exec (.accept k σ.addr e) σ = .refused .noHandshakeEndpoint) ∧
  (∀ (e : Endp) (b : List Byte) (σ : State), endptHas σ e eprxen = true → endptHas σ e ephshk = false → b.length = 8 →
    exec (.tokSetup σ.addr e b) σ = .refused .noHandshakeEndpoint) ∧
  (∀ (e : Endp) (hs : Handshake) (σ : State), endptHas σ e eptxen = true → endptHas σ e ephshk = false →
    exec (.tokIn σ.addr e hs) σ = .refused .noHandshakeEndpoint) ∧
  (∀ (e : Endp) (t : Bit) (b : List Byte) (σ : State), endptHas σ e eprxen = true → endptHas σ e ephshk = false →
    exec (.tokOut σ.addr e t b) σ = .refused .noHandshakeEndpoint) ∧
  (∀ (e : Endp) (d : Dir) (n : Count) (k : TokKind) (σ : State), 4 ≤ σ.statFifo.length →
    exec (.complete e d n k) σ = .refused .completeWhileFull)

/-! ### Bus events and flags -/

/-- TOK_SOF, BUS_RESET, BUS_ERROR and BUS_SLEEP set their flags and change nothing else (R155 to R158). -/
def Obligations.BusEventsSetTheirFlags : Prop :=
  ∀ σ : State,
    exec .tokSof σ = .next { σ with istat := σ.istat ||| 0x04 } ∧
    exec .busReset σ = .next { σ with istat := σ.istat ||| 0x01 } ∧
    exec .busSleep σ = .next { σ with istat := σ.istat ||| 0x10 } ∧
    exec (.busError .crc5) σ = .next { σ with errstat := σ.errstat ||| 0x02, istat := σ.istat ||| 0x02 } ∧
    exec (.busError .crc16) σ = .next { σ with errstat := σ.errstat ||| 0x04, istat := σ.istat ||| 0x02 } ∧
    exec (.busError .bto) σ = .next { σ with errstat := σ.errstat ||| 0x10, istat := σ.istat ||| 0x02 } ∧
    exec (.busError .bts) σ = .next { σ with errstat := σ.errstat ||| 0x80, istat := σ.istat ||| 0x02 }

/-- The SIE answers STALL exactly at ACCEPT's check 3, and sets ISTAT.STALL exactly then; in a real run the stalled
endpoint is endpoint 0 (R159). -/
def Obligations.StallFlagExactlyWithStallHandshake : Prop :=
  (∀ (i : Instr) (σ τ : State), i.isHostEvent = true → σ.response = .none → exec i σ = .next τ →
    (τ.response = .stall ↔
      (∃ e hs, i = .tokIn σ.addr e hs ∧ endptHas σ e eptxen = true ∧ endptHas σ e epstall = true) ∨
      (∃ e t b, i = .tokOut σ.addr e t b ∧ endptHas σ e eprxen = true ∧ endptHas σ e epstall = true)) ∧
    τ.istat &&& 0x80 = if τ.response = .stall then 0x80 else σ.istat &&& 0x80) ∧
  (∀ (σ : State) (e : Endp), RunInv σ → endptHas σ e epstall = true → e = 0)

/-! ### The dispatcher (R220 to R232) -/

/-- Phase D_IDLE (R221): DSTATUS is latched; USBRST runs REINIT and ends the run, else the run goes on to D_ERR. -/
def Obligations.ResetCheckPhase : Prop :=
  ∀ σ : State,
    (σ.istat &&& 0x01 = 0 → exec .irqUsbrst σ = .next { σ with dstatus := σ.istat, dph := .err }) ∧
    (σ.istat &&& 0x01 ≠ 0 → ∃ τ, exec .reinit { σ with dstatus := σ.istat } = .next τ ∧
      exec .irqUsbrst σ = .next { τ with dph := .idle })

/-- Phase D_ERR (R223): a latched ERROR clears every ERRSTAT flag and is acknowledged. -/
def Obligations.ErrorPhase : Prop :=
  ∀ σ : State,
    (σ.dstatus &&& 0x02 ≠ 0 →
      exec .irqError σ = .next { σ with errstat := 0, istat := σ.istat &&& 0xFD, dph := .sof }) ∧
    (σ.dstatus &&& 0x02 = 0 → exec .irqError σ = .next { σ with dph := .sof })

/-- Phases D_SOF and D_SLEEP (R224, R226): acknowledge only. -/
def Obligations.AcknowledgeOnlyPhases : Prop :=
  ∀ σ : State,
    (σ.dstatus &&& 0x04 ≠ 0 → exec .irqSoftok σ = .next { σ with istat := σ.istat &&& 0xFB, dph := .tok }) ∧
    (σ.dstatus &&& 0x04 = 0 → exec .irqSoftok σ = .next { σ with dph := .tok }) ∧
    (σ.dstatus &&& 0x10 ≠ 0 → exec .irqSleep σ = .next { σ with istat := σ.istat &&& 0xEF, dph := .stall }) ∧
    (σ.dstatus &&& 0x10 = 0 → exec .irqSleep σ = .next { σ with dph := .stall })

/-- Phase D_STALL (R227): EPSTALL is cleared everywhere, STALL acknowledged, STALLED left, and the run is over. -/
def Obligations.StallPhase : Prop :=
  ∀ σ : State,
    (σ.dstatus &&& 0x80 ≠ 0 → ∃ ep, exec .irqStall σ = .next
        { σ with
          endpt := ep, istat := σ.istat &&& 0x7F, dph := .idle,
          ep0State := if σ.ep0State = .stalled then .idle else σ.ep0State } ∧
      ∀ e, getEp ep e = getEp σ.endpt e &&& 0xFD) ∧
    (σ.dstatus &&& 0x80 = 0 → exec .irqStall σ = .next { σ with dph := .idle })

/-- Phase D_TOK (R225, R228): the handler of the FIFO's head runs, the head is removed, TOKDNE follows the FIFO, and
ISTAT is latched again; without a latched TOKDNE the run goes on to D_SLEEP. -/
def Obligations.DrainIteration : Prop :=
  (∀ (σ : State) (v : Byte) (vs : List Byte), σ.dstatus &&& 0x08 ≠ 0 → σ.statFifo = v :: vs →
    ∃ τ st, exec
        (if statEndp v = 0 then .ep0Handler (statDir v) (statOdd v)
          else if statEndp v = 1 then .ep1Handler (statDir v) (statOdd v)
          else .defaultHandler (statEndp v) (statDir v) (statOdd v)) σ = .next τ ∧
      st = (σ.istat &&& 0xF7) ||| (if vs = [] then 0 else 0x08) ∧
      exec .irqTokdne σ = .next { τ with statFifo := vs, istat := st, dstatus := st, dph := .tok }) ∧
  (∀ σ : State, σ.dstatus &&& 0x08 = 0 → exec .irqTokdne σ = .next { σ with dph := .sleep })

/-- The model's choice (U1; log 7, log 17), in states that `Inv` shuts out and no run reaches: with TOKDNE latched and the
FIFO empty, STAT reads the free value the counter names (six unconstrained bits over two reserved zeros), the handler of
that value runs with the counter advanced, TOKDNE clears, and the FIFO stays empty. -/
def Obligations.DrainWithAnEmptyFifoIsFree : Prop :=
  ∀ σ : State, σ.dstatus &&& 0x08 ≠ 0 → σ.statFifo = [] → ∃ τ : State,
    exec (handlerInstr (freeStatBits σ.freeCount ++ 0#2)) { σ with freeCount := σ.freeCount + 1 } = .next τ ∧
    τ.statFifo = [] ∧ exec .irqTokdne σ = .next
      { τ with istat := σ.istat &&& 0xF7, dstatus := σ.istat &&& 0xF7, dph := .tok }

/-- A run without a bus reset and without HOST steps serves everything: from D_IDLE with an interrupt pending, after six
steps and one more for each queued completion, DPH is D_IDLE again and every flag, the FIFO and ERRSTAT are clear
(R230, R232). A bus reset does the same in one step (R221). -/
def Obligations.RunServesEverything : Prop :=
  ∀ σ : State, Inv σ → ConfigOk σ.cfg → σ.schedule = [] → σ.dph = .idle → irq σ = true →
    ∃ τ : State,
      Host.Core.run Sys2Proof.core (if σ.istat &&& 0x01 = 0 then σ.statFifo.length + 6 else 1) σ = .next τ ∧
      τ.dph = .idle ∧ τ.istat = 0 ∧ τ.statFifo = [] ∧ τ.errstat = 0 ∧ irq τ = false

/-! ### The handlers -/

/-- The endpoint handlers complete, and what they do is the case the PID field of the named descriptor selects (R180,
R250). -/
def Obligations.HandlersFollowThePid : Prop :=
  ∀ (d p : Bit) (s : Slot) (w : Word) (σ : State), w = bdWord σ s →
    (s = slotBits 0 d p → ∃ τ, exec (.ep0Handler d p) σ = .next τ ∧
      exec (if wordPid w = 0xD then .ep0OnSetup (wordBC w) (wordData01 w) s (bdPtr σ s)
        else if wordPid w = 0x9 then .ep0OnIn
        else if wordPid w = 0x1 then .ep0OnOut s
        else .ep0OnOther (wordBC w) (wordOwn w) (wordData01 w) (wordPid w)) σ = .next τ) ∧
    (s = slotBits 1 d p → ∃ τ, exec (.ep1Handler d p) σ = .next τ ∧
      exec (if wordPid w = 0x9 then .ep1OnIn
        else if wordPid w = 0x1 then .ep1OnOut s
        else .ep1OnOther (wordBC w) (wordOwn w) (wordData01 w) (wordPid w)) σ = .next τ)

/-- The other cases and the default handler change nothing (R191, R229, R253). -/
def Obligations.OtherCasesDoNothing : Prop :=
  ∀ (bc : Count) (own t d p : Bit) (pid : PidCode) (e : Endp) (σ : State),
    exec (.ep0OnOther bc own t pid) σ = .next σ ∧ exec (.ep1OnOther bc own t pid) σ = .next σ ∧
    exec (.defaultHandler e d p) σ = .next σ

/-- The SETUP case (R181): the packet is copied out, the RX buffer goes back with count 8 and DATA1, both TX slots are
revoked, TOG[0][TX] is 1, the cursor is empty; then the request is decoded, from that state. -/
def Obligations.SetupCaseOpensTheTransfer : Prop :=
  ∀ (bc : Count) (t : Bit) (s : Slot) (ptr : Word) (σ : State), ConfigOk σ.cfg → (s = 0 ∨ s = 1) →
    ∃ m fs tg ls τ,
      exec .setupRequest
        { σ with
          mem := m, faults := fs, tog := tg, cur := { valid := false, ptr := 0, len := 0 }, lastSetup := ls,
          ep0State := .setupReceived } = .next τ ∧
      exec (.ep0OnSetup bc t s ptr) σ = .next τ ∧
      (∀ i, i < 8 → setupByte ls i = memByte σ (ptr + BitVec.ofNat 32 i)) ∧
      readBdWord σ.cfg m s = 0x000800C0 ∧ readBdPtr σ.cfg m s = ptr ∧
      readBdWord σ.cfg m 2 = 0 ∧ readBdPtr σ.cfg m 2 = bdPtr σ 2 ∧
      readBdWord σ.cfg m 3 = 0 ∧ readBdPtr σ.cfg m 3 = bdPtr σ 3 ∧
      (∀ a, ¬ inSlot σ.cfg s a → ¬ inSlot σ.cfg 2 a → ¬ inSlot σ.cfg 3 a →
        readByte σ.cfg m a = readByte σ.cfg σ.mem a) ∧
      (∀ e d, getDir tg e d = if e = 0 ∧ d = .tx then 1 else getDir σ.tog e d) ∧
      FaultRecorded σ fs s

/-- The request decode (R182): all 16 bits of RT choose the request, with the packet's fields. -/
def Obligations.RequestDecode : Prop :=
  ∀ (σ : State) (rt v x l : Half),
    rt = setupByte σ.lastSetup 1 ++ setupByte σ.lastSetup 0 →
    v = setupByte σ.lastSetup 3 ++ setupByte σ.lastSetup 2 →
    x = setupByte σ.lastSetup 5 ++ setupByte σ.lastSetup 4 →
    l = setupByte σ.lastSetup 7 ++ setupByte σ.lastSetup 6 →
    ∃ τ, exec .setupRequest σ = .next τ ∧
      exec (if rt = 0x0500 then .setAddress v x l
        else if rt = 0x0900 then .setConfiguration v x l
        else if rt = 0x0680 then .getDescriptorDev v x l
        else if rt = 0x0681 then .getDescriptorIf v x l
        else .reqUnsupported rt v x l) σ = .next τ

/-- SET_ADDRESS and SET_CONFIGURATION (R183, R184): a zero-length packet is armed under TOG, EP0_STATE is STATUS_OK, and
ADDR is not written. -/
def Obligations.StatusStageRequests : Prop :=
  ∀ (v x l : Half) (σ : State), ConfigOk σ.cfg → ∃ m fs pr tg,
    (∀ i, (i = Instr.setAddress v x l ∨ i = Instr.setConfiguration v x l) → exec i σ = .next
      { σ with mem := m, faults := fs, par := pr, tog := tg, ep0State := .statusOk }) ∧
    SlotWritten σ.cfg σ.mem m (slotBits 0 1 (getDir σ.par 0 .tx)) (armWord 0 (getDir σ.tog 0 .tx)) 0 ∧
    FaultRecorded σ fs (slotBits 0 1 (getDir σ.par 0 .tx)) ∧ Flipped σ.par pr 0 .tx ∧ Flipped σ.tog tg 0 .tx

/-- GET_DESCRIPTOR (R185): both variants send the entry's bytes, cut to wLength, or on a miss report a protocol
error. -/
def Obligations.GetDescriptorSendsTheEntry : Prop :=
  ∀ (v x l : Half) (σ : State) (i : Instr), (i = .getDescriptorDev v x l ∨ i = .getDescriptorIf v x l) →
    (∀ p len, exec (.lookup v x) σ = .next { σ with result := .found p len } →
      ∃ τ, exec (.send p (if len.toNat < l.toNat then len else l)) σ = .next τ ∧
        exec i σ = .next { τ with ep0State := .sendingData }) ∧
    (exec (.lookup v x) σ = .next { σ with result := .miss } →
      ∃ τ, exec i σ = .next τ ∧ ∀ rt, exec (.reqUnsupported rt v x l) σ = .next τ)

/-- REQ_UNSUPPORTED and EP0_STALL (R186, R187): EPSTALL of endpoint 0 is set, and EP0_STATE is STALLED. -/
def Obligations.UnsupportedRequestsStall : Prop :=
  ∀ (rt v x l : Half) (σ : State), ∃ ep,
    exec .ep0Stall σ = .next { σ with endpt := ep } ∧
    exec (.reqUnsupported rt v x l) σ = .next { σ with endpt := ep, ep0State := .stalled } ∧
    EndptWritten σ.endpt ep 0 ((getEp σ.endpt 0 ||| 0x02) &&& 0x0F)

/-- SEND (R188). Fewer than 8 bytes are one packet. 8 bytes or more arm both TX slots at once, with opposite toggles;
what is left, or an owed zero-length packet, goes to the cursor; PAR and TOG are flipped twice. -/
def Obligations.SendArmsOneOrTwoPackets : Prop :=
  (∀ (p : Word) (len : Half) (σ : State), ConfigOk σ.cfg → len.toNat < 8 → ∃ m fs pr tg,
    exec (.send p len) σ = .next { σ with mem := m, faults := fs, par := pr, tog := tg } ∧
    SlotWritten σ.cfg σ.mem m (slotBits 0 1 (getDir σ.par 0 .tx))
      (armWord (BitVec.ofNat 10 len.toNat) (getDir σ.tog 0 .tx)) p ∧
    FaultRecorded σ fs (slotBits 0 1 (getDir σ.par 0 .tx)) ∧ Flipped σ.par pr 0 .tx ∧ Flipped σ.tog tg 0 .tx) ∧
  (∀ (p : Word) (len : Half) (σ : State), ConfigOk σ.cfg → 8 ≤ len.toNat → ∃ m fs,
    exec (.send p len) σ = .next
      { σ with
        mem := m, faults := fs,
        cur := if len.toNat < 16 then σ.cur else { valid := true, ptr := p + 16, len := len - 16 } } ∧
    SlotsWritten σ.cfg σ.mem m
      (slotBits 0 1 (getDir σ.par 0 .tx)) (armWord 8 (getDir σ.tog 0 .tx)) p
      (slotBits 0 1 (getDir σ.par 0 .tx ^^^ 1))
      (armWord (BitVec.ofNat 10 (min (len.toNat - 8) 8)) (getDir σ.tog 0 .tx ^^^ 1)) (p + 8) ∧
    ∀ f, f ∈ fs ↔ f ∈ σ.faults ∨ ∃ q : Bit, bdOwned σ (slotBits 0 1 q) = true ∧ f = .ownViolation (slotBits 0 1 q))

/-- The IN case of endpoint 0 (R189): the next chunk of a transfer is armed and the cursor moves, staying valid after a
full chunk; SET_ADDRESS takes effect; STATUS_OK is left. -/
def Obligations.InCaseMovesTheCursor : Prop :=
  (∀ σ : State, σ.cur.valid = false → exec .ep0OnIn σ = .next
    { σ with
      addr := if lastRT σ = 0x0500 then (lastValue σ).extractLsb' 0 7 else σ.addr,
      ep0State := if σ.ep0State = .statusOk then .idle else σ.ep0State }) ∧
  (∀ σ : State, ConfigOk σ.cfg → σ.cur.valid = true → ∃ m fs pr tg,
    exec .ep0OnIn σ = .next
      { σ with
        mem := m, faults := fs, par := pr, tog := tg,
        cur := if 8 ≤ σ.cur.len.toNat then { valid := true, ptr := σ.cur.ptr + 8, len := σ.cur.len - 8 }
          else { valid := false, ptr := 0, len := 0 },
        addr := if lastRT σ = 0x0500 then (lastValue σ).extractLsb' 0 7 else σ.addr,
        ep0State := if σ.ep0State = .statusOk then .idle else σ.ep0State } ∧
    SlotWritten σ.cfg σ.mem m (slotBits 0 1 (getDir σ.par 0 .tx))
      (armWord (BitVec.ofNat 10 (min σ.cur.len.toNat 8)) (getDir σ.tog 0 .tx)) σ.cur.ptr ∧
    FaultRecorded σ fs (slotBits 0 1 (getDir σ.par 0 .tx)) ∧ Flipped σ.par pr 0 .tx ∧ Flipped σ.tog tg 0 .tx)

/-- The OUT cases give the buffer back: endpoint 0 with count 8 and DATA1, endpoint 1 with EP1_RX_SIZE and DATA0 (R190,
R252). -/
def Obligations.OutCasesGiveTheBufferBack : Prop :=
  ∀ (s : Slot) (σ : State), ConfigOk σ.cfg →
    (∃ m fs, exec (.ep0OnOut s) σ = .next
        { σ with
          mem := m, faults := fs, ep0State := if σ.ep0State = .sendingData then .idle else σ.ep0State } ∧
      SlotWritten σ.cfg σ.mem m s 0x000800C0 (bdPtr σ s) ∧ FaultRecorded σ fs s) ∧
    (∃ m fs, exec (.ep1OnOut s) σ = .next { σ with mem := m, faults := fs } ∧
      SlotWritten σ.cfg σ.mem m s (armWord (BitVec.ofNat 10 σ.cfg.ep1RxSize) 0) (bdPtr σ s) ∧ FaultRecorded σ fs s)

/-- The IN case of endpoint 1 (R251): the report again, with the next parity and toggle. -/
def Obligations.Ep1SendsTheReportAgain : Prop :=
  ∀ σ : State, ConfigOk σ.cfg → ∃ m fs pr tg,
    exec .ep1OnIn σ = .next { σ with mem := m, faults := fs, par := pr, tog := tg } ∧
    SlotWritten σ.cfg σ.mem m (slotBits 1 1 (getDir σ.par 1 .tx)) (armWord 4 (getDir σ.tog 1 .tx)) σ.cfg.reportBase ∧
    FaultRecorded σ fs (slotBits 1 1 (getDir σ.par 1 .tx)) ∧ Flipped σ.par pr 1 .tx ∧ Flipped σ.tog tg 1 .tx

/-- The cursor's walk (R188, R189, R194): with `len` bytes left, each IN case takes 8 of them while there are 8, and one
more IN case, the short or empty packet, empties the cursor: `len / 8 + 1` services in all. -/
def Obligations.CursorDrainsInTurn : Prop :=
  ∀ (σ : State) (p : Word) (len : Half), σ.cur = { valid := true, ptr := p, len := len } →
    (∀ n, n ≤ len.toNat / 8 → (ep0OnIn^[n] σ).cur =
      { valid := true, ptr := p + BitVec.ofNat 32 (8 * n), len := len - BitVec.ofNat 16 (8 * n) }) ∧
    (ep0OnIn^[len.toNat / 8 + 1] σ).cur = { valid := false, ptr := 0, len := 0 }

/-- The packet-count law (R194). In a real run, with the ENGINE idle, nothing pending, an RX descriptor ready and the
parities of endpoint 0's TX side in step, a GET_DESCRIPTOR that hits an entry, each event followed by the ENGINE's run,
is answered by ACK and then by `L / 8` packets of 8 bytes and one of `L mod 8`, the entry's bytes in order, with toggles
DATA1, DATA0, DATA1, …; `L` is the entry's length cut to wLength. The order of turns is a schedule, the model's own form of the
interleaving (log 2). -/
def Obligations.ControlReadDeliversTheDescriptor : Prop :=
  ∀ (σ : State) (rt v x l len : Half) (p : Word) (n : Nat) (rest : List Turn),
    RunInv σ → (∀ t ∈ rest, t.real = true) → σ.dph = .idle → σ.istat = 0 → bdOwned σ (sieSlot σ 0 .rx) = true →
    getDir σ.par 0 .tx = getDir σ.hwodd 0 .tx → (rt = 0x0680 ∨ rt = 0x0681) →
    lookupDesc σ.cfg v x = some (p, len) → n = min len.toNat l.toNat →
    σ.schedule =
      (.host (encode (.tokSetup σ.addr 0 (packetBytes rt v x l))) :: List.replicate 7 .engine) ++
      (List.replicate (n / 8 + 1) (.host (encode (.tokIn σ.addr 0 .ack)) :: List.replicate 7 .engine)).flatten ++
      rest →
    ∃ τ, answers (8 * (n / 8 + 2)) σ = some
        (.ack :: (List.range (n / 8 + 1)).map (fun j =>
          if j % 2 = 0 then .data1 (((loadBytes p n σ).drop (8 * j)).take 8)
          else .data0 (((loadBytes p n σ).drop (8 * j)).take 8)), τ) ∧
      τ.cur = { valid := false, ptr := 0, len := 0 } ∧ τ.schedule = rest ∧ τ.faults = σ.faults

/-! ### The BDT manager and the descriptor store -/

/-- ARM (R131, R273): pointer, then count, toggle and OWN; a slot the SIE owns is recorded as a fault, and still
written. -/
def Obligations.ArmHandsTheSlotOver : Prop :=
  ∀ (s : Slot) (p : Word) (n : Count) (t : Bit) (σ : State), ConfigOk σ.cfg → ∃ m fs,
    exec (.arm s p n t) σ = .next { σ with mem := m, faults := fs } ∧
    SlotWritten σ.cfg σ.mem m s ((n.setWidth 32 <<< 16) ||| 0x80 ||| (t.setWidth 32 <<< 6)) p ∧ FaultRecorded σ fs s

/-- PID_OF and TAKE (R132, R133): the fields of the descriptor as it stands; nothing changes but what is returned. -/
def Obligations.PidOfAndTakeRead : Prop :=
  ∀ (s : Slot) (σ : State),
    exec (.pidOf s) σ = .next { σ with result := .pid ((bdWord σ s).extractLsb' 2 4) } ∧
    exec (.take s) σ = .next
      { σ with result := .taken ((bdWord σ s).extractLsb' 2 4) ((bdWord σ s).extractLsb' 16 10) (bdPtr σ s) }

/-- REVOKE (R134): the word is 0, the pointer stays, and there is never a fault. -/
def Obligations.RevokeReclaims : Prop :=
  ∀ (s : Slot) (σ : State), ConfigOk σ.cfg → ∃ m,
    exec (.revoke s) σ = .next { σ with mem := m } ∧ SlotWritten σ.cfg σ.mem m s 0 (bdPtr σ s)

/-- TRANSMIT (R136): ARM at the slot PAR names, with TOG; then both flip. -/
def Obligations.TransmitArmsAndFlips : Prop :=
  ∀ (e : Endp) (p : Word) (n : Count) (σ : State), ConfigOk σ.cfg → ∃ m fs pr tg,
    exec (.transmit e p n) σ = .next { σ with mem := m, faults := fs, par := pr, tog := tg } ∧
    SlotWritten σ.cfg σ.mem m (slotBits e 1 (getDir σ.par e .tx)) (armWord n (getDir σ.tog e .tx)) p ∧
    FaultRecorded σ fs (slotBits e 1 (getDir σ.par e .tx)) ∧ Flipped σ.par pr e .tx ∧ Flipped σ.tog tg e .tx

/-- LOOKUP (R261, R262): the six keys find their entries, all 16 bits of both fields matching; every other pair
misses. -/
def Obligations.LookupFindsTheSixKeys : Prop :=
  ∀ σ : State, LengthsOk σ.cfg →
    exec (.lookup 0x0100 0x0000) σ = .next { σ with result := .found σ.cfg.descDevice.pointer 18 } ∧
    exec (.lookup 0x0200 0x0000) σ = .next { σ with result := .found σ.cfg.descConfig.pointer 34 } ∧
    exec (.lookup 0x0300 0x0000) σ = .next { σ with result := .found σ.cfg.descLangid.pointer 4 } ∧
    exec (.lookup 0x0301 0x0409) σ = .next { σ with
      result := .found σ.cfg.descManufacturer.pointer (BitVec.ofNat 16 σ.cfg.descManufacturer.bytes.length) } ∧
    exec (.lookup 0x0302 0x0409) σ = .next { σ with
      result := .found σ.cfg.descProduct.pointer (BitVec.ofNat 16 σ.cfg.descProduct.bytes.length) } ∧
    exec (.lookup 0x2200 0x0000) σ = .next { σ with result := .found σ.cfg.descHidReport.pointer 52 } ∧
    ∀ v i : Half, (v, i) ∉ [((0x0100 : Half), (0x0000 : Half)), (0x0200, 0x0000), (0x0300, 0x0000), (0x0301, 0x0409),
        (0x0302, 0x0409), (0x2200, 0x0000)] →
      exec (.lookup v i) σ = .next { σ with result := .miss }
end

