-- ==== Sys2Proof/Laws/State.lean ====
section
/-! SUPPORT. One lemma per field per update of the state: what each shared operation writes, and that it leaves every
other field alone. -/

namespace Sys2Proof.Machine

/-- Two states with the same fields are the same. -/
theorem state_ext {σ τ : State} (istat : σ.istat = τ.istat) (inten : σ.inten = τ.inten) (errstat : σ.errstat =
    τ.errstat) (statFifo : σ.statFifo = τ.statFifo) (addr : σ.addr = τ.addr) (endpt : σ.endpt = τ.endpt) (mem
    : σ.mem = τ.mem) (par : σ.par = τ.par) (tog : σ.tog = τ.tog) (cur : σ.cur = τ.cur) (lastSetup :
    σ.lastSetup = τ.lastSetup) (dstatus : σ.dstatus = τ.dstatus) (dph : σ.dph = τ.dph) (ep0State : σ.ep0State
    = τ.ep0State) (hwodd : σ.hwodd = τ.hwodd) (faults : σ.faults = τ.faults) (cfg : σ.cfg = τ.cfg) (schedule :
    σ.schedule = τ.schedule) (response : σ.response = τ.response) (result : σ.result = τ.result) (freeCount :
    σ.freeCount = τ.freeCount) : σ = τ := by
  cases σ; cases τ
  simp only at *
  subst_vars
  rfl

/-! ### setBdWord -/

@[simp] theorem setBdWord_istat (s : Slot) (w : Word) (σ : State) :
    (setBdWord s w σ).istat = σ.istat := (rfl)

@[simp] theorem setBdWord_inten (s : Slot) (w : Word) (σ : State) :
    (setBdWord s w σ).inten = σ.inten := (rfl)

@[simp] theorem setBdWord_errstat (s : Slot) (w : Word) (σ : State) :
    (setBdWord s w σ).errstat = σ.errstat := (rfl)

@[simp] theorem setBdWord_statFifo (s : Slot) (w : Word) (σ : State) :
    (setBdWord s w σ).statFifo = σ.statFifo := (rfl)

@[simp] theorem setBdWord_addr (s : Slot) (w : Word) (σ : State) :
    (setBdWord s w σ).addr = σ.addr := (rfl)

@[simp] theorem setBdWord_endpt (s : Slot) (w : Word) (σ : State) :
    (setBdWord s w σ).endpt = σ.endpt := (rfl)

@[simp] theorem setBdWord_mem (s : Slot) (w : Word) (σ : State) :
    (setBdWord s w σ).mem = writeBdWord σ.cfg σ.mem s w := (rfl)

@[simp] theorem setBdWord_par (s : Slot) (w : Word) (σ : State) :
    (setBdWord s w σ).par = σ.par := (rfl)

@[simp] theorem setBdWord_tog (s : Slot) (w : Word) (σ : State) :
    (setBdWord s w σ).tog = σ.tog := (rfl)

@[simp] theorem setBdWord_cur (s : Slot) (w : Word) (σ : State) :
    (setBdWord s w σ).cur = σ.cur := (rfl)

@[simp] theorem setBdWord_lastSetup (s : Slot) (w : Word) (σ : State) :
    (setBdWord s w σ).lastSetup = σ.lastSetup := (rfl)

@[simp] theorem setBdWord_dstatus (s : Slot) (w : Word) (σ : State) :
    (setBdWord s w σ).dstatus = σ.dstatus := (rfl)

@[simp] theorem setBdWord_dph (s : Slot) (w : Word) (σ : State) :
    (setBdWord s w σ).dph = σ.dph := (rfl)

@[simp] theorem setBdWord_ep0State (s : Slot) (w : Word) (σ : State) :
    (setBdWord s w σ).ep0State = σ.ep0State := (rfl)

@[simp] theorem setBdWord_hwodd (s : Slot) (w : Word) (σ : State) :
    (setBdWord s w σ).hwodd = σ.hwodd := (rfl)

@[simp] theorem setBdWord_faults (s : Slot) (w : Word) (σ : State) :
    (setBdWord s w σ).faults = σ.faults := (rfl)

@[simp] theorem setBdWord_cfg (s : Slot) (w : Word) (σ : State) :
    (setBdWord s w σ).cfg = σ.cfg := (rfl)

@[simp] theorem setBdWord_schedule (s : Slot) (w : Word) (σ : State) :
    (setBdWord s w σ).schedule = σ.schedule := (rfl)

@[simp] theorem setBdWord_response (s : Slot) (w : Word) (σ : State) :
    (setBdWord s w σ).response = σ.response := (rfl)

@[simp] theorem setBdWord_result (s : Slot) (w : Word) (σ : State) :
    (setBdWord s w σ).result = σ.result := (rfl)

@[simp] theorem setBdWord_freeCount (s : Slot) (w : Word) (σ : State) :
    (setBdWord s w σ).freeCount = σ.freeCount := (rfl)

/-! ### setBdPtr -/

@[simp] theorem setBdPtr_istat (s : Slot) (p : Word) (σ : State) :
    (setBdPtr s p σ).istat = σ.istat := (rfl)

@[simp] theorem setBdPtr_inten (s : Slot) (p : Word) (σ : State) :
    (setBdPtr s p σ).inten = σ.inten := (rfl)

@[simp] theorem setBdPtr_errstat (s : Slot) (p : Word) (σ : State) :
    (setBdPtr s p σ).errstat = σ.errstat := (rfl)

@[simp] theorem setBdPtr_statFifo (s : Slot) (p : Word) (σ : State) :
    (setBdPtr s p σ).statFifo = σ.statFifo := (rfl)

@[simp] theorem setBdPtr_addr (s : Slot) (p : Word) (σ : State) :
    (setBdPtr s p σ).addr = σ.addr := (rfl)

@[simp] theorem setBdPtr_endpt (s : Slot) (p : Word) (σ : State) :
    (setBdPtr s p σ).endpt = σ.endpt := (rfl)

@[simp] theorem setBdPtr_mem (s : Slot) (p : Word) (σ : State) :
    (setBdPtr s p σ).mem = writeBdPtr σ.cfg σ.mem s p := (rfl)

@[simp] theorem setBdPtr_par (s : Slot) (p : Word) (σ : State) :
    (setBdPtr s p σ).par = σ.par := (rfl)

@[simp] theorem setBdPtr_tog (s : Slot) (p : Word) (σ : State) :
    (setBdPtr s p σ).tog = σ.tog := (rfl)

@[simp] theorem setBdPtr_cur (s : Slot) (p : Word) (σ : State) :
    (setBdPtr s p σ).cur = σ.cur := (rfl)

@[simp] theorem setBdPtr_lastSetup (s : Slot) (p : Word) (σ : State) :
    (setBdPtr s p σ).lastSetup = σ.lastSetup := (rfl)

@[simp] theorem setBdPtr_dstatus (s : Slot) (p : Word) (σ : State) :
    (setBdPtr s p σ).dstatus = σ.dstatus := (rfl)

@[simp] theorem setBdPtr_dph (s : Slot) (p : Word) (σ : State) :
    (setBdPtr s p σ).dph = σ.dph := (rfl)

@[simp] theorem setBdPtr_ep0State (s : Slot) (p : Word) (σ : State) :
    (setBdPtr s p σ).ep0State = σ.ep0State := (rfl)

@[simp] theorem setBdPtr_hwodd (s : Slot) (p : Word) (σ : State) :
    (setBdPtr s p σ).hwodd = σ.hwodd := (rfl)

@[simp] theorem setBdPtr_faults (s : Slot) (p : Word) (σ : State) :
    (setBdPtr s p σ).faults = σ.faults := (rfl)

@[simp] theorem setBdPtr_cfg (s : Slot) (p : Word) (σ : State) :
    (setBdPtr s p σ).cfg = σ.cfg := (rfl)

@[simp] theorem setBdPtr_schedule (s : Slot) (p : Word) (σ : State) :
    (setBdPtr s p σ).schedule = σ.schedule := (rfl)

@[simp] theorem setBdPtr_response (s : Slot) (p : Word) (σ : State) :
    (setBdPtr s p σ).response = σ.response := (rfl)

@[simp] theorem setBdPtr_result (s : Slot) (p : Word) (σ : State) :
    (setBdPtr s p σ).result = σ.result := (rfl)

@[simp] theorem setBdPtr_freeCount (s : Slot) (p : Word) (σ : State) :
    (setBdPtr s p σ).freeCount = σ.freeCount := (rfl)

/-! ### storeBytes -/

@[simp] theorem storeBytes_istat (a : Word) (bs : List Byte) (σ : State) :
    (storeBytes a bs σ).istat = σ.istat := (rfl)

@[simp] theorem storeBytes_inten (a : Word) (bs : List Byte) (σ : State) :
    (storeBytes a bs σ).inten = σ.inten := (rfl)

@[simp] theorem storeBytes_errstat (a : Word) (bs : List Byte) (σ : State) :
    (storeBytes a bs σ).errstat = σ.errstat := (rfl)

@[simp] theorem storeBytes_statFifo (a : Word) (bs : List Byte) (σ : State) :
    (storeBytes a bs σ).statFifo = σ.statFifo := (rfl)

@[simp] theorem storeBytes_addr (a : Word) (bs : List Byte) (σ : State) :
    (storeBytes a bs σ).addr = σ.addr := (rfl)

@[simp] theorem storeBytes_endpt (a : Word) (bs : List Byte) (σ : State) :
    (storeBytes a bs σ).endpt = σ.endpt := (rfl)

@[simp] theorem storeBytes_mem (a : Word) (bs : List Byte) (σ : State) :
    (storeBytes a bs σ).mem = writeBytes σ.cfg σ.mem a bs := (rfl)

@[simp] theorem storeBytes_par (a : Word) (bs : List Byte) (σ : State) :
    (storeBytes a bs σ).par = σ.par := (rfl)

@[simp] theorem storeBytes_tog (a : Word) (bs : List Byte) (σ : State) :
    (storeBytes a bs σ).tog = σ.tog := (rfl)

@[simp] theorem storeBytes_cur (a : Word) (bs : List Byte) (σ : State) :
    (storeBytes a bs σ).cur = σ.cur := (rfl)

@[simp] theorem storeBytes_lastSetup (a : Word) (bs : List Byte) (σ : State) :
    (storeBytes a bs σ).lastSetup = σ.lastSetup := (rfl)

@[simp] theorem storeBytes_dstatus (a : Word) (bs : List Byte) (σ : State) :
    (storeBytes a bs σ).dstatus = σ.dstatus := (rfl)

@[simp] theorem storeBytes_dph (a : Word) (bs : List Byte) (σ : State) :
    (storeBytes a bs σ).dph = σ.dph := (rfl)

@[simp] theorem storeBytes_ep0State (a : Word) (bs : List Byte) (σ : State) :
    (storeBytes a bs σ).ep0State = σ.ep0State := (rfl)

@[simp] theorem storeBytes_hwodd (a : Word) (bs : List Byte) (σ : State) :
    (storeBytes a bs σ).hwodd = σ.hwodd := (rfl)

@[simp] theorem storeBytes_faults (a : Word) (bs : List Byte) (σ : State) :
    (storeBytes a bs σ).faults = σ.faults := (rfl)

@[simp] theorem storeBytes_cfg (a : Word) (bs : List Byte) (σ : State) :
    (storeBytes a bs σ).cfg = σ.cfg := (rfl)

@[simp] theorem storeBytes_schedule (a : Word) (bs : List Byte) (σ : State) :
    (storeBytes a bs σ).schedule = σ.schedule := (rfl)

@[simp] theorem storeBytes_response (a : Word) (bs : List Byte) (σ : State) :
    (storeBytes a bs σ).response = σ.response := (rfl)

@[simp] theorem storeBytes_result (a : Word) (bs : List Byte) (σ : State) :
    (storeBytes a bs σ).result = σ.result := (rfl)

@[simp] theorem storeBytes_freeCount (a : Word) (bs : List Byte) (σ : State) :
    (storeBytes a bs σ).freeCount = σ.freeCount := (rfl)

/-! ### raiseFault -/

@[simp] theorem raiseFault_istat (f : Fault) (σ : State) :
    (raiseFault f σ).istat = σ.istat := (rfl)

@[simp] theorem raiseFault_inten (f : Fault) (σ : State) :
    (raiseFault f σ).inten = σ.inten := (rfl)

@[simp] theorem raiseFault_errstat (f : Fault) (σ : State) :
    (raiseFault f σ).errstat = σ.errstat := (rfl)

@[simp] theorem raiseFault_statFifo (f : Fault) (σ : State) :
    (raiseFault f σ).statFifo = σ.statFifo := (rfl)

@[simp] theorem raiseFault_addr (f : Fault) (σ : State) :
    (raiseFault f σ).addr = σ.addr := (rfl)

@[simp] theorem raiseFault_endpt (f : Fault) (σ : State) :
    (raiseFault f σ).endpt = σ.endpt := (rfl)

@[simp] theorem raiseFault_mem (f : Fault) (σ : State) :
    (raiseFault f σ).mem = σ.mem := (rfl)

@[simp] theorem raiseFault_par (f : Fault) (σ : State) :
    (raiseFault f σ).par = σ.par := (rfl)

@[simp] theorem raiseFault_tog (f : Fault) (σ : State) :
    (raiseFault f σ).tog = σ.tog := (rfl)

@[simp] theorem raiseFault_cur (f : Fault) (σ : State) :
    (raiseFault f σ).cur = σ.cur := (rfl)

@[simp] theorem raiseFault_lastSetup (f : Fault) (σ : State) :
    (raiseFault f σ).lastSetup = σ.lastSetup := (rfl)

@[simp] theorem raiseFault_dstatus (f : Fault) (σ : State) :
    (raiseFault f σ).dstatus = σ.dstatus := (rfl)

@[simp] theorem raiseFault_dph (f : Fault) (σ : State) :
    (raiseFault f σ).dph = σ.dph := (rfl)

@[simp] theorem raiseFault_ep0State (f : Fault) (σ : State) :
    (raiseFault f σ).ep0State = σ.ep0State := (rfl)

@[simp] theorem raiseFault_hwodd (f : Fault) (σ : State) :
    (raiseFault f σ).hwodd = σ.hwodd := (rfl)

@[simp] theorem raiseFault_faults (f : Fault) (σ : State) :
    (raiseFault f σ).faults = insertFault σ.faults f := (rfl)

@[simp] theorem raiseFault_cfg (f : Fault) (σ : State) :
    (raiseFault f σ).cfg = σ.cfg := (rfl)

@[simp] theorem raiseFault_schedule (f : Fault) (σ : State) :
    (raiseFault f σ).schedule = σ.schedule := (rfl)

@[simp] theorem raiseFault_response (f : Fault) (σ : State) :
    (raiseFault f σ).response = σ.response := (rfl)

@[simp] theorem raiseFault_result (f : Fault) (σ : State) :
    (raiseFault f σ).result = σ.result := (rfl)

@[simp] theorem raiseFault_freeCount (f : Fault) (σ : State) :
    (raiseFault f σ).freeCount = σ.freeCount := (rfl)

/-! ### enterRun -/

@[simp] theorem enterRun_istat (σ : State) :
    (enterRun σ).istat = σ.istat := (rfl)

@[simp] theorem enterRun_inten (σ : State) :
    (enterRun σ).inten = σ.inten := (rfl)

@[simp] theorem enterRun_errstat (σ : State) :
    (enterRun σ).errstat = σ.errstat := (rfl)

@[simp] theorem enterRun_statFifo (σ : State) :
    (enterRun σ).statFifo = σ.statFifo := (rfl)

@[simp] theorem enterRun_addr (σ : State) :
    (enterRun σ).addr = σ.addr := (rfl)

@[simp] theorem enterRun_endpt (σ : State) :
    (enterRun σ).endpt = σ.endpt := (rfl)

@[simp] theorem enterRun_mem (σ : State) :
    (enterRun σ).mem = σ.mem := (rfl)

@[simp] theorem enterRun_par (σ : State) :
    (enterRun σ).par = σ.par := (rfl)

@[simp] theorem enterRun_tog (σ : State) :
    (enterRun σ).tog = σ.tog := (rfl)

@[simp] theorem enterRun_cur (σ : State) :
    (enterRun σ).cur = σ.cur := (rfl)

@[simp] theorem enterRun_lastSetup (σ : State) :
    (enterRun σ).lastSetup = σ.lastSetup := (rfl)

@[simp] theorem enterRun_dstatus (σ : State) :
    (enterRun σ).dstatus = σ.istat := (rfl)

@[simp] theorem enterRun_dph (σ : State) :
    (enterRun σ).dph = σ.dph := (rfl)

@[simp] theorem enterRun_ep0State (σ : State) :
    (enterRun σ).ep0State = σ.ep0State := (rfl)

@[simp] theorem enterRun_hwodd (σ : State) :
    (enterRun σ).hwodd = σ.hwodd := (rfl)

@[simp] theorem enterRun_faults (σ : State) :
    (enterRun σ).faults = σ.faults := (rfl)

@[simp] theorem enterRun_cfg (σ : State) :
    (enterRun σ).cfg = σ.cfg := (rfl)

@[simp] theorem enterRun_schedule (σ : State) :
    (enterRun σ).schedule = σ.schedule := (rfl)

@[simp] theorem enterRun_response (σ : State) :
    (enterRun σ).response = σ.response := (rfl)

@[simp] theorem enterRun_result (σ : State) :
    (enterRun σ).result = σ.result := (rfl)

@[simp] theorem enterRun_freeCount (σ : State) :
    (enterRun σ).freeCount = σ.freeCount := (rfl)

/-! ### setPhase -/

@[simp] theorem setPhase_istat (p : Dph) (σ : State) :
    (setPhase p σ).istat = σ.istat := (rfl)

@[simp] theorem setPhase_inten (p : Dph) (σ : State) :
    (setPhase p σ).inten = σ.inten := (rfl)

@[simp] theorem setPhase_errstat (p : Dph) (σ : State) :
    (setPhase p σ).errstat = σ.errstat := (rfl)

@[simp] theorem setPhase_statFifo (p : Dph) (σ : State) :
    (setPhase p σ).statFifo = σ.statFifo := (rfl)

@[simp] theorem setPhase_addr (p : Dph) (σ : State) :
    (setPhase p σ).addr = σ.addr := (rfl)

@[simp] theorem setPhase_endpt (p : Dph) (σ : State) :
    (setPhase p σ).endpt = σ.endpt := (rfl)

@[simp] theorem setPhase_mem (p : Dph) (σ : State) :
    (setPhase p σ).mem = σ.mem := (rfl)

@[simp] theorem setPhase_par (p : Dph) (σ : State) :
    (setPhase p σ).par = σ.par := (rfl)

@[simp] theorem setPhase_tog (p : Dph) (σ : State) :
    (setPhase p σ).tog = σ.tog := (rfl)

@[simp] theorem setPhase_cur (p : Dph) (σ : State) :
    (setPhase p σ).cur = σ.cur := (rfl)

@[simp] theorem setPhase_lastSetup (p : Dph) (σ : State) :
    (setPhase p σ).lastSetup = σ.lastSetup := (rfl)

@[simp] theorem setPhase_dstatus (p : Dph) (σ : State) :
    (setPhase p σ).dstatus = σ.dstatus := (rfl)

@[simp] theorem setPhase_dph (p : Dph) (σ : State) :
    (setPhase p σ).dph = p := (rfl)

@[simp] theorem setPhase_ep0State (p : Dph) (σ : State) :
    (setPhase p σ).ep0State = σ.ep0State := (rfl)

@[simp] theorem setPhase_hwodd (p : Dph) (σ : State) :
    (setPhase p σ).hwodd = σ.hwodd := (rfl)

@[simp] theorem setPhase_faults (p : Dph) (σ : State) :
    (setPhase p σ).faults = σ.faults := (rfl)

@[simp] theorem setPhase_cfg (p : Dph) (σ : State) :
    (setPhase p σ).cfg = σ.cfg := (rfl)

@[simp] theorem setPhase_schedule (p : Dph) (σ : State) :
    (setPhase p σ).schedule = σ.schedule := (rfl)

@[simp] theorem setPhase_response (p : Dph) (σ : State) :
    (setPhase p σ).response = σ.response := (rfl)

@[simp] theorem setPhase_result (p : Dph) (σ : State) :
    (setPhase p σ).result = σ.result := (rfl)

@[simp] theorem setPhase_freeCount (p : Dph) (σ : State) :
    (setPhase p σ).freeCount = σ.freeCount := (rfl)

/-! ### endRun -/

@[simp] theorem endRun_istat (σ : State) :
    (endRun σ).istat = σ.istat := (rfl)

@[simp] theorem endRun_inten (σ : State) :
    (endRun σ).inten = σ.inten := (rfl)

@[simp] theorem endRun_errstat (σ : State) :
    (endRun σ).errstat = σ.errstat := (rfl)

@[simp] theorem endRun_statFifo (σ : State) :
    (endRun σ).statFifo = σ.statFifo := (rfl)

@[simp] theorem endRun_addr (σ : State) :
    (endRun σ).addr = σ.addr := (rfl)

@[simp] theorem endRun_endpt (σ : State) :
    (endRun σ).endpt = σ.endpt := (rfl)

@[simp] theorem endRun_mem (σ : State) :
    (endRun σ).mem = σ.mem := (rfl)

@[simp] theorem endRun_par (σ : State) :
    (endRun σ).par = σ.par := (rfl)

@[simp] theorem endRun_tog (σ : State) :
    (endRun σ).tog = σ.tog := (rfl)

@[simp] theorem endRun_cur (σ : State) :
    (endRun σ).cur = σ.cur := (rfl)

@[simp] theorem endRun_lastSetup (σ : State) :
    (endRun σ).lastSetup = σ.lastSetup := (rfl)

@[simp] theorem endRun_dstatus (σ : State) :
    (endRun σ).dstatus = σ.dstatus := (rfl)

@[simp] theorem endRun_dph (σ : State) :
    (endRun σ).dph = .idle := (rfl)

@[simp] theorem endRun_ep0State (σ : State) :
    (endRun σ).ep0State = σ.ep0State := (rfl)

@[simp] theorem endRun_hwodd (σ : State) :
    (endRun σ).hwodd = σ.hwodd := (rfl)

@[simp] theorem endRun_faults (σ : State) :
    (endRun σ).faults = σ.faults := (rfl)

@[simp] theorem endRun_cfg (σ : State) :
    (endRun σ).cfg = σ.cfg := (rfl)

@[simp] theorem endRun_schedule (σ : State) :
    (endRun σ).schedule = σ.schedule := (rfl)

@[simp] theorem endRun_response (σ : State) :
    (endRun σ).response = σ.response := (rfl)

@[simp] theorem endRun_result (σ : State) :
    (endRun σ).result = σ.result := (rfl)

@[simp] theorem endRun_freeCount (σ : State) :
    (endRun σ).freeCount = σ.freeCount := (rfl)

/-! ### setFlag -/

@[simp] theorem setFlag_istat (f : Flag) (σ : State) :
    (setFlag f σ).istat = σ.istat ||| flagMask f := (rfl)

@[simp] theorem setFlag_inten (f : Flag) (σ : State) :
    (setFlag f σ).inten = σ.inten := (rfl)

@[simp] theorem setFlag_errstat (f : Flag) (σ : State) :
    (setFlag f σ).errstat = σ.errstat := (rfl)

@[simp] theorem setFlag_statFifo (f : Flag) (σ : State) :
    (setFlag f σ).statFifo = σ.statFifo := (rfl)

@[simp] theorem setFlag_addr (f : Flag) (σ : State) :
    (setFlag f σ).addr = σ.addr := (rfl)

@[simp] theorem setFlag_endpt (f : Flag) (σ : State) :
    (setFlag f σ).endpt = σ.endpt := (rfl)

@[simp] theorem setFlag_mem (f : Flag) (σ : State) :
    (setFlag f σ).mem = σ.mem := (rfl)

@[simp] theorem setFlag_par (f : Flag) (σ : State) :
    (setFlag f σ).par = σ.par := (rfl)

@[simp] theorem setFlag_tog (f : Flag) (σ : State) :
    (setFlag f σ).tog = σ.tog := (rfl)

@[simp] theorem setFlag_cur (f : Flag) (σ : State) :
    (setFlag f σ).cur = σ.cur := (rfl)

@[simp] theorem setFlag_lastSetup (f : Flag) (σ : State) :
    (setFlag f σ).lastSetup = σ.lastSetup := (rfl)

@[simp] theorem setFlag_dstatus (f : Flag) (σ : State) :
    (setFlag f σ).dstatus = σ.dstatus := (rfl)

@[simp] theorem setFlag_dph (f : Flag) (σ : State) :
    (setFlag f σ).dph = σ.dph := (rfl)

@[simp] theorem setFlag_ep0State (f : Flag) (σ : State) :
    (setFlag f σ).ep0State = σ.ep0State := (rfl)

@[simp] theorem setFlag_hwodd (f : Flag) (σ : State) :
    (setFlag f σ).hwodd = σ.hwodd := (rfl)

@[simp] theorem setFlag_faults (f : Flag) (σ : State) :
    (setFlag f σ).faults = σ.faults := (rfl)

@[simp] theorem setFlag_cfg (f : Flag) (σ : State) :
    (setFlag f σ).cfg = σ.cfg := (rfl)

@[simp] theorem setFlag_schedule (f : Flag) (σ : State) :
    (setFlag f σ).schedule = σ.schedule := (rfl)

@[simp] theorem setFlag_response (f : Flag) (σ : State) :
    (setFlag f σ).response = σ.response := (rfl)

@[simp] theorem setFlag_result (f : Flag) (σ : State) :
    (setFlag f σ).result = σ.result := (rfl)

@[simp] theorem setFlag_freeCount (f : Flag) (σ : State) :
    (setFlag f σ).freeCount = σ.freeCount := (rfl)

/-! ### writeErrstat -/

@[simp] theorem writeErrstat_istat (v : Byte) (σ : State) :
    (writeErrstat v σ).istat = σ.istat := (rfl)

@[simp] theorem writeErrstat_inten (v : Byte) (σ : State) :
    (writeErrstat v σ).inten = σ.inten := (rfl)

@[simp] theorem writeErrstat_errstat (v : Byte) (σ : State) :
    (writeErrstat v σ).errstat = σ.errstat &&& ~~~v := (rfl)

@[simp] theorem writeErrstat_statFifo (v : Byte) (σ : State) :
    (writeErrstat v σ).statFifo = σ.statFifo := (rfl)

@[simp] theorem writeErrstat_addr (v : Byte) (σ : State) :
    (writeErrstat v σ).addr = σ.addr := (rfl)

@[simp] theorem writeErrstat_endpt (v : Byte) (σ : State) :
    (writeErrstat v σ).endpt = σ.endpt := (rfl)

@[simp] theorem writeErrstat_mem (v : Byte) (σ : State) :
    (writeErrstat v σ).mem = σ.mem := (rfl)

@[simp] theorem writeErrstat_par (v : Byte) (σ : State) :
    (writeErrstat v σ).par = σ.par := (rfl)

@[simp] theorem writeErrstat_tog (v : Byte) (σ : State) :
    (writeErrstat v σ).tog = σ.tog := (rfl)

@[simp] theorem writeErrstat_cur (v : Byte) (σ : State) :
    (writeErrstat v σ).cur = σ.cur := (rfl)

@[simp] theorem writeErrstat_lastSetup (v : Byte) (σ : State) :
    (writeErrstat v σ).lastSetup = σ.lastSetup := (rfl)

@[simp] theorem writeErrstat_dstatus (v : Byte) (σ : State) :
    (writeErrstat v σ).dstatus = σ.dstatus := (rfl)

@[simp] theorem writeErrstat_dph (v : Byte) (σ : State) :
    (writeErrstat v σ).dph = σ.dph := (rfl)

@[simp] theorem writeErrstat_ep0State (v : Byte) (σ : State) :
    (writeErrstat v σ).ep0State = σ.ep0State := (rfl)

@[simp] theorem writeErrstat_hwodd (v : Byte) (σ : State) :
    (writeErrstat v σ).hwodd = σ.hwodd := (rfl)

@[simp] theorem writeErrstat_faults (v : Byte) (σ : State) :
    (writeErrstat v σ).faults = σ.faults := (rfl)

@[simp] theorem writeErrstat_cfg (v : Byte) (σ : State) :
    (writeErrstat v σ).cfg = σ.cfg := (rfl)

@[simp] theorem writeErrstat_schedule (v : Byte) (σ : State) :
    (writeErrstat v σ).schedule = σ.schedule := (rfl)

@[simp] theorem writeErrstat_response (v : Byte) (σ : State) :
    (writeErrstat v σ).response = σ.response := (rfl)

@[simp] theorem writeErrstat_result (v : Byte) (σ : State) :
    (writeErrstat v σ).result = σ.result := (rfl)

@[simp] theorem writeErrstat_freeCount (v : Byte) (σ : State) :
    (writeErrstat v σ).freeCount = σ.freeCount := (rfl)

/-! ### recordLinkError -/

@[simp] theorem recordLinkError_istat (k : LinkError) (σ : State) :
    (recordLinkError k σ).istat = σ.istat ||| flagMask .error := (rfl)

@[simp] theorem recordLinkError_inten (k : LinkError) (σ : State) :
    (recordLinkError k σ).inten = σ.inten := (rfl)

@[simp] theorem recordLinkError_errstat (k : LinkError) (σ : State) :
    (recordLinkError k σ).errstat = σ.errstat ||| linkMask k := (rfl)

@[simp] theorem recordLinkError_statFifo (k : LinkError) (σ : State) :
    (recordLinkError k σ).statFifo = σ.statFifo := (rfl)

@[simp] theorem recordLinkError_addr (k : LinkError) (σ : State) :
    (recordLinkError k σ).addr = σ.addr := (rfl)

@[simp] theorem recordLinkError_endpt (k : LinkError) (σ : State) :
    (recordLinkError k σ).endpt = σ.endpt := (rfl)

@[simp] theorem recordLinkError_mem (k : LinkError) (σ : State) :
    (recordLinkError k σ).mem = σ.mem := (rfl)

@[simp] theorem recordLinkError_par (k : LinkError) (σ : State) :
    (recordLinkError k σ).par = σ.par := (rfl)

@[simp] theorem recordLinkError_tog (k : LinkError) (σ : State) :
    (recordLinkError k σ).tog = σ.tog := (rfl)

@[simp] theorem recordLinkError_cur (k : LinkError) (σ : State) :
    (recordLinkError k σ).cur = σ.cur := (rfl)

@[simp] theorem recordLinkError_lastSetup (k : LinkError) (σ : State) :
    (recordLinkError k σ).lastSetup = σ.lastSetup := (rfl)

@[simp] theorem recordLinkError_dstatus (k : LinkError) (σ : State) :
    (recordLinkError k σ).dstatus = σ.dstatus := (rfl)

@[simp] theorem recordLinkError_dph (k : LinkError) (σ : State) :
    (recordLinkError k σ).dph = σ.dph := (rfl)

@[simp] theorem recordLinkError_ep0State (k : LinkError) (σ : State) :
    (recordLinkError k σ).ep0State = σ.ep0State := (rfl)

@[simp] theorem recordLinkError_hwodd (k : LinkError) (σ : State) :
    (recordLinkError k σ).hwodd = σ.hwodd := (rfl)

@[simp] theorem recordLinkError_faults (k : LinkError) (σ : State) :
    (recordLinkError k σ).faults = σ.faults := (rfl)

@[simp] theorem recordLinkError_cfg (k : LinkError) (σ : State) :
    (recordLinkError k σ).cfg = σ.cfg := (rfl)

@[simp] theorem recordLinkError_schedule (k : LinkError) (σ : State) :
    (recordLinkError k σ).schedule = σ.schedule := (rfl)

@[simp] theorem recordLinkError_response (k : LinkError) (σ : State) :
    (recordLinkError k σ).response = σ.response := (rfl)

@[simp] theorem recordLinkError_result (k : LinkError) (σ : State) :
    (recordLinkError k σ).result = σ.result := (rfl)

@[simp] theorem recordLinkError_freeCount (k : LinkError) (σ : State) :
    (recordLinkError k σ).freeCount = σ.freeCount := (rfl)

/-! ### writeEndpt -/

@[simp] theorem writeEndpt_istat (e : Endp) (v : Byte) (σ : State) :
    (writeEndpt e v σ).istat = σ.istat := (rfl)

@[simp] theorem writeEndpt_inten (e : Endp) (v : Byte) (σ : State) :
    (writeEndpt e v σ).inten = σ.inten := (rfl)

@[simp] theorem writeEndpt_errstat (e : Endp) (v : Byte) (σ : State) :
    (writeEndpt e v σ).errstat = σ.errstat := (rfl)

@[simp] theorem writeEndpt_statFifo (e : Endp) (v : Byte) (σ : State) :
    (writeEndpt e v σ).statFifo = σ.statFifo := (rfl)

@[simp] theorem writeEndpt_addr (e : Endp) (v : Byte) (σ : State) :
    (writeEndpt e v σ).addr = σ.addr := (rfl)

@[simp] theorem writeEndpt_endpt (e : Endp) (v : Byte) (σ : State) :
    (writeEndpt e v σ).endpt = setEp σ.endpt e (v &&& endptMask) := (rfl)

@[simp] theorem writeEndpt_mem (e : Endp) (v : Byte) (σ : State) :
    (writeEndpt e v σ).mem = σ.mem := (rfl)

@[simp] theorem writeEndpt_par (e : Endp) (v : Byte) (σ : State) :
    (writeEndpt e v σ).par = σ.par := (rfl)

@[simp] theorem writeEndpt_tog (e : Endp) (v : Byte) (σ : State) :
    (writeEndpt e v σ).tog = σ.tog := (rfl)

@[simp] theorem writeEndpt_cur (e : Endp) (v : Byte) (σ : State) :
    (writeEndpt e v σ).cur = σ.cur := (rfl)

@[simp] theorem writeEndpt_lastSetup (e : Endp) (v : Byte) (σ : State) :
    (writeEndpt e v σ).lastSetup = σ.lastSetup := (rfl)

@[simp] theorem writeEndpt_dstatus (e : Endp) (v : Byte) (σ : State) :
    (writeEndpt e v σ).dstatus = σ.dstatus := (rfl)

@[simp] theorem writeEndpt_dph (e : Endp) (v : Byte) (σ : State) :
    (writeEndpt e v σ).dph = σ.dph := (rfl)

@[simp] theorem writeEndpt_ep0State (e : Endp) (v : Byte) (σ : State) :
    (writeEndpt e v σ).ep0State = σ.ep0State := (rfl)

@[simp] theorem writeEndpt_hwodd (e : Endp) (v : Byte) (σ : State) :
    (writeEndpt e v σ).hwodd = σ.hwodd := (rfl)

@[simp] theorem writeEndpt_faults (e : Endp) (v : Byte) (σ : State) :
    (writeEndpt e v σ).faults = σ.faults := (rfl)

@[simp] theorem writeEndpt_cfg (e : Endp) (v : Byte) (σ : State) :
    (writeEndpt e v σ).cfg = σ.cfg := (rfl)

@[simp] theorem writeEndpt_schedule (e : Endp) (v : Byte) (σ : State) :
    (writeEndpt e v σ).schedule = σ.schedule := (rfl)

@[simp] theorem writeEndpt_response (e : Endp) (v : Byte) (σ : State) :
    (writeEndpt e v σ).response = σ.response := (rfl)

@[simp] theorem writeEndpt_result (e : Endp) (v : Byte) (σ : State) :
    (writeEndpt e v σ).result = σ.result := (rfl)

@[simp] theorem writeEndpt_freeCount (e : Endp) (v : Byte) (σ : State) :
    (writeEndpt e v σ).freeCount = σ.freeCount := (rfl)

/-! ### writeInten -/

@[simp] theorem writeInten_istat (v : Byte) (σ : State) :
    (writeInten v σ).istat = σ.istat := (rfl)

@[simp] theorem writeInten_inten (v : Byte) (σ : State) :
    (writeInten v σ).inten = v &&& irqMask := (rfl)

@[simp] theorem writeInten_errstat (v : Byte) (σ : State) :
    (writeInten v σ).errstat = σ.errstat := (rfl)

@[simp] theorem writeInten_statFifo (v : Byte) (σ : State) :
    (writeInten v σ).statFifo = σ.statFifo := (rfl)

@[simp] theorem writeInten_addr (v : Byte) (σ : State) :
    (writeInten v σ).addr = σ.addr := (rfl)

@[simp] theorem writeInten_endpt (v : Byte) (σ : State) :
    (writeInten v σ).endpt = σ.endpt := (rfl)

@[simp] theorem writeInten_mem (v : Byte) (σ : State) :
    (writeInten v σ).mem = σ.mem := (rfl)

@[simp] theorem writeInten_par (v : Byte) (σ : State) :
    (writeInten v σ).par = σ.par := (rfl)

@[simp] theorem writeInten_tog (v : Byte) (σ : State) :
    (writeInten v σ).tog = σ.tog := (rfl)

@[simp] theorem writeInten_cur (v : Byte) (σ : State) :
    (writeInten v σ).cur = σ.cur := (rfl)

@[simp] theorem writeInten_lastSetup (v : Byte) (σ : State) :
    (writeInten v σ).lastSetup = σ.lastSetup := (rfl)

@[simp] theorem writeInten_dstatus (v : Byte) (σ : State) :
    (writeInten v σ).dstatus = σ.dstatus := (rfl)

@[simp] theorem writeInten_dph (v : Byte) (σ : State) :
    (writeInten v σ).dph = σ.dph := (rfl)

@[simp] theorem writeInten_ep0State (v : Byte) (σ : State) :
    (writeInten v σ).ep0State = σ.ep0State := (rfl)

@[simp] theorem writeInten_hwodd (v : Byte) (σ : State) :
    (writeInten v σ).hwodd = σ.hwodd := (rfl)

@[simp] theorem writeInten_faults (v : Byte) (σ : State) :
    (writeInten v σ).faults = σ.faults := (rfl)

@[simp] theorem writeInten_cfg (v : Byte) (σ : State) :
    (writeInten v σ).cfg = σ.cfg := (rfl)

@[simp] theorem writeInten_schedule (v : Byte) (σ : State) :
    (writeInten v σ).schedule = σ.schedule := (rfl)

@[simp] theorem writeInten_response (v : Byte) (σ : State) :
    (writeInten v σ).response = σ.response := (rfl)

@[simp] theorem writeInten_result (v : Byte) (σ : State) :
    (writeInten v σ).result = σ.result := (rfl)

@[simp] theorem writeInten_freeCount (v : Byte) (σ : State) :
    (writeInten v σ).freeCount = σ.freeCount := (rfl)

/-! ### setStall -/

@[simp] theorem setStall_istat (e : Endp) (σ : State) :
    (setStall e σ).istat = σ.istat := (rfl)

@[simp] theorem setStall_inten (e : Endp) (σ : State) :
    (setStall e σ).inten = σ.inten := (rfl)

@[simp] theorem setStall_errstat (e : Endp) (σ : State) :
    (setStall e σ).errstat = σ.errstat := (rfl)

@[simp] theorem setStall_statFifo (e : Endp) (σ : State) :
    (setStall e σ).statFifo = σ.statFifo := (rfl)

@[simp] theorem setStall_addr (e : Endp) (σ : State) :
    (setStall e σ).addr = σ.addr := (rfl)

@[simp] theorem setStall_endpt (e : Endp) (σ : State) :
    (setStall e σ).endpt = setEp σ.endpt e ((getEp σ.endpt e ||| epstall) &&& endptMask) := (rfl)

@[simp] theorem setStall_mem (e : Endp) (σ : State) :
    (setStall e σ).mem = σ.mem := (rfl)

@[simp] theorem setStall_par (e : Endp) (σ : State) :
    (setStall e σ).par = σ.par := (rfl)

@[simp] theorem setStall_tog (e : Endp) (σ : State) :
    (setStall e σ).tog = σ.tog := (rfl)

@[simp] theorem setStall_cur (e : Endp) (σ : State) :
    (setStall e σ).cur = σ.cur := (rfl)

@[simp] theorem setStall_lastSetup (e : Endp) (σ : State) :
    (setStall e σ).lastSetup = σ.lastSetup := (rfl)

@[simp] theorem setStall_dstatus (e : Endp) (σ : State) :
    (setStall e σ).dstatus = σ.dstatus := (rfl)

@[simp] theorem setStall_dph (e : Endp) (σ : State) :
    (setStall e σ).dph = σ.dph := (rfl)

@[simp] theorem setStall_ep0State (e : Endp) (σ : State) :
    (setStall e σ).ep0State = σ.ep0State := (rfl)

@[simp] theorem setStall_hwodd (e : Endp) (σ : State) :
    (setStall e σ).hwodd = σ.hwodd := (rfl)

@[simp] theorem setStall_faults (e : Endp) (σ : State) :
    (setStall e σ).faults = σ.faults := (rfl)

@[simp] theorem setStall_cfg (e : Endp) (σ : State) :
    (setStall e σ).cfg = σ.cfg := (rfl)

@[simp] theorem setStall_schedule (e : Endp) (σ : State) :
    (setStall e σ).schedule = σ.schedule := (rfl)

@[simp] theorem setStall_response (e : Endp) (σ : State) :
    (setStall e σ).response = σ.response := (rfl)

@[simp] theorem setStall_result (e : Endp) (σ : State) :
    (setStall e σ).result = σ.result := (rfl)

@[simp] theorem setStall_freeCount (e : Endp) (σ : State) :
    (setStall e σ).freeCount = σ.freeCount := (rfl)

/-! ### clearStall -/

@[simp] theorem clearStall_istat (e : Endp) (σ : State) :
    (clearStall e σ).istat = σ.istat := (rfl)

@[simp] theorem clearStall_inten (e : Endp) (σ : State) :
    (clearStall e σ).inten = σ.inten := (rfl)

@[simp] theorem clearStall_errstat (e : Endp) (σ : State) :
    (clearStall e σ).errstat = σ.errstat := (rfl)

@[simp] theorem clearStall_statFifo (e : Endp) (σ : State) :
    (clearStall e σ).statFifo = σ.statFifo := (rfl)

@[simp] theorem clearStall_addr (e : Endp) (σ : State) :
    (clearStall e σ).addr = σ.addr := (rfl)

@[simp] theorem clearStall_endpt (e : Endp) (σ : State) :
    (clearStall e σ).endpt = setEp σ.endpt e ((getEp σ.endpt e &&& ~~~epstall) &&& endptMask) := (rfl)

@[simp] theorem clearStall_mem (e : Endp) (σ : State) :
    (clearStall e σ).mem = σ.mem := (rfl)

@[simp] theorem clearStall_par (e : Endp) (σ : State) :
    (clearStall e σ).par = σ.par := (rfl)

@[simp] theorem clearStall_tog (e : Endp) (σ : State) :
    (clearStall e σ).tog = σ.tog := (rfl)

@[simp] theorem clearStall_cur (e : Endp) (σ : State) :
    (clearStall e σ).cur = σ.cur := (rfl)

@[simp] theorem clearStall_lastSetup (e : Endp) (σ : State) :
    (clearStall e σ).lastSetup = σ.lastSetup := (rfl)

@[simp] theorem clearStall_dstatus (e : Endp) (σ : State) :
    (clearStall e σ).dstatus = σ.dstatus := (rfl)

@[simp] theorem clearStall_dph (e : Endp) (σ : State) :
    (clearStall e σ).dph = σ.dph := (rfl)

@[simp] theorem clearStall_ep0State (e : Endp) (σ : State) :
    (clearStall e σ).ep0State = σ.ep0State := (rfl)

@[simp] theorem clearStall_hwodd (e : Endp) (σ : State) :
    (clearStall e σ).hwodd = σ.hwodd := (rfl)

@[simp] theorem clearStall_faults (e : Endp) (σ : State) :
    (clearStall e σ).faults = σ.faults := (rfl)

@[simp] theorem clearStall_cfg (e : Endp) (σ : State) :
    (clearStall e σ).cfg = σ.cfg := (rfl)

@[simp] theorem clearStall_schedule (e : Endp) (σ : State) :
    (clearStall e σ).schedule = σ.schedule := (rfl)

@[simp] theorem clearStall_response (e : Endp) (σ : State) :
    (clearStall e σ).response = σ.response := (rfl)

@[simp] theorem clearStall_result (e : Endp) (σ : State) :
    (clearStall e σ).result = σ.result := (rfl)

@[simp] theorem clearStall_freeCount (e : Endp) (σ : State) :
    (clearStall e σ).freeCount = σ.freeCount := (rfl)

/-! ### clearAllStalls -/

@[simp] theorem clearAllStalls_istat (σ : State) :
    (clearAllStalls σ).istat = σ.istat := (rfl)

@[simp] theorem clearAllStalls_inten (σ : State) :
    (clearAllStalls σ).inten = σ.inten := (rfl)

@[simp] theorem clearAllStalls_errstat (σ : State) :
    (clearAllStalls σ).errstat = σ.errstat := (rfl)

@[simp] theorem clearAllStalls_statFifo (σ : State) :
    (clearAllStalls σ).statFifo = σ.statFifo := (rfl)

@[simp] theorem clearAllStalls_addr (σ : State) :
    (clearAllStalls σ).addr = σ.addr := (rfl)

@[simp] theorem clearAllStalls_endpt (σ : State) :
    (clearAllStalls σ).endpt = σ.endpt.map (fun v => v &&& ~~~epstall) := (rfl)

@[simp] theorem clearAllStalls_mem (σ : State) :
    (clearAllStalls σ).mem = σ.mem := (rfl)

@[simp] theorem clearAllStalls_par (σ : State) :
    (clearAllStalls σ).par = σ.par := (rfl)

@[simp] theorem clearAllStalls_tog (σ : State) :
    (clearAllStalls σ).tog = σ.tog := (rfl)

@[simp] theorem clearAllStalls_cur (σ : State) :
    (clearAllStalls σ).cur = σ.cur := (rfl)

@[simp] theorem clearAllStalls_lastSetup (σ : State) :
    (clearAllStalls σ).lastSetup = σ.lastSetup := (rfl)

@[simp] theorem clearAllStalls_dstatus (σ : State) :
    (clearAllStalls σ).dstatus = σ.dstatus := (rfl)

@[simp] theorem clearAllStalls_dph (σ : State) :
    (clearAllStalls σ).dph = σ.dph := (rfl)

@[simp] theorem clearAllStalls_ep0State (σ : State) :
    (clearAllStalls σ).ep0State = σ.ep0State := (rfl)

@[simp] theorem clearAllStalls_hwodd (σ : State) :
    (clearAllStalls σ).hwodd = σ.hwodd := (rfl)

@[simp] theorem clearAllStalls_faults (σ : State) :
    (clearAllStalls σ).faults = σ.faults := (rfl)

@[simp] theorem clearAllStalls_cfg (σ : State) :
    (clearAllStalls σ).cfg = σ.cfg := (rfl)

@[simp] theorem clearAllStalls_schedule (σ : State) :
    (clearAllStalls σ).schedule = σ.schedule := (rfl)

@[simp] theorem clearAllStalls_response (σ : State) :
    (clearAllStalls σ).response = σ.response := (rfl)

@[simp] theorem clearAllStalls_result (σ : State) :
    (clearAllStalls σ).result = σ.result := (rfl)

@[simp] theorem clearAllStalls_freeCount (σ : State) :
    (clearAllStalls σ).freeCount = σ.freeCount := (rfl)

/-! ### writeIstat -/

@[simp] theorem writeIstat_inten (v : Byte) (σ : State) :
    (writeIstat v σ).inten = σ.inten := by
  unfold writeIstat; split <;> rfl

@[simp] theorem writeIstat_errstat (v : Byte) (σ : State) :
    (writeIstat v σ).errstat = σ.errstat := by
  unfold writeIstat; split <;> rfl

@[simp] theorem writeIstat_addr (v : Byte) (σ : State) :
    (writeIstat v σ).addr = σ.addr := by
  unfold writeIstat; split <;> rfl

@[simp] theorem writeIstat_endpt (v : Byte) (σ : State) :
    (writeIstat v σ).endpt = σ.endpt := by
  unfold writeIstat; split <;> rfl

@[simp] theorem writeIstat_mem (v : Byte) (σ : State) :
    (writeIstat v σ).mem = σ.mem := by
  unfold writeIstat; split <;> rfl

@[simp] theorem writeIstat_par (v : Byte) (σ : State) :
    (writeIstat v σ).par = σ.par := by
  unfold writeIstat; split <;> rfl

@[simp] theorem writeIstat_tog (v : Byte) (σ : State) :
    (writeIstat v σ).tog = σ.tog := by
  unfold writeIstat; split <;> rfl

@[simp] theorem writeIstat_cur (v : Byte) (σ : State) :
    (writeIstat v σ).cur = σ.cur := by
  unfold writeIstat; split <;> rfl

@[simp] theorem writeIstat_lastSetup (v : Byte) (σ : State) :
    (writeIstat v σ).lastSetup = σ.lastSetup := by
  unfold writeIstat; split <;> rfl

@[simp] theorem writeIstat_dstatus (v : Byte) (σ : State) :
    (writeIstat v σ).dstatus = σ.dstatus := by
  unfold writeIstat; split <;> rfl

@[simp] theorem writeIstat_dph (v : Byte) (σ : State) :
    (writeIstat v σ).dph = σ.dph := by
  unfold writeIstat; split <;> rfl

@[simp] theorem writeIstat_ep0State (v : Byte) (σ : State) :
    (writeIstat v σ).ep0State = σ.ep0State := by
  unfold writeIstat; split <;> rfl

@[simp] theorem writeIstat_hwodd (v : Byte) (σ : State) :
    (writeIstat v σ).hwodd = σ.hwodd := by
  unfold writeIstat; split <;> rfl

@[simp] theorem writeIstat_faults (v : Byte) (σ : State) :
    (writeIstat v σ).faults = σ.faults := by
  unfold writeIstat; split <;> rfl

@[simp] theorem writeIstat_cfg (v : Byte) (σ : State) :
    (writeIstat v σ).cfg = σ.cfg := by
  unfold writeIstat; split <;> rfl

@[simp] theorem writeIstat_schedule (v : Byte) (σ : State) :
    (writeIstat v σ).schedule = σ.schedule := by
  unfold writeIstat; split <;> rfl

@[simp] theorem writeIstat_response (v : Byte) (σ : State) :
    (writeIstat v σ).response = σ.response := by
  unfold writeIstat; split <;> rfl

@[simp] theorem writeIstat_result (v : Byte) (σ : State) :
    (writeIstat v σ).result = σ.result := by
  unfold writeIstat; split <;> rfl

@[simp] theorem writeIstat_freeCount (v : Byte) (σ : State) :
    (writeIstat v σ).freeCount = σ.freeCount := by
  unfold writeIstat; split <;> rfl

/-! ### ackFlag -/

@[simp] theorem ackFlag_inten (f : Flag) (σ : State) :
    (ackFlag f σ).inten = σ.inten := by
  simp [ackFlag]

@[simp] theorem ackFlag_errstat (f : Flag) (σ : State) :
    (ackFlag f σ).errstat = σ.errstat := by
  simp [ackFlag]

@[simp] theorem ackFlag_addr (f : Flag) (σ : State) :
    (ackFlag f σ).addr = σ.addr := by
  simp [ackFlag]

@[simp] theorem ackFlag_endpt (f : Flag) (σ : State) :
    (ackFlag f σ).endpt = σ.endpt := by
  simp [ackFlag]

@[simp] theorem ackFlag_mem (f : Flag) (σ : State) :
    (ackFlag f σ).mem = σ.mem := by
  simp [ackFlag]

@[simp] theorem ackFlag_par (f : Flag) (σ : State) :
    (ackFlag f σ).par = σ.par := by
  simp [ackFlag]

@[simp] theorem ackFlag_tog (f : Flag) (σ : State) :
    (ackFlag f σ).tog = σ.tog := by
  simp [ackFlag]

@[simp] theorem ackFlag_cur (f : Flag) (σ : State) :
    (ackFlag f σ).cur = σ.cur := by
  simp [ackFlag]

@[simp] theorem ackFlag_lastSetup (f : Flag) (σ : State) :
    (ackFlag f σ).lastSetup = σ.lastSetup := by
  simp [ackFlag]

@[simp] theorem ackFlag_dstatus (f : Flag) (σ : State) :
    (ackFlag f σ).dstatus = σ.dstatus := by
  simp [ackFlag]

@[simp] theorem ackFlag_dph (f : Flag) (σ : State) :
    (ackFlag f σ).dph = σ.dph := by
  simp [ackFlag]

@[simp] theorem ackFlag_ep0State (f : Flag) (σ : State) :
    (ackFlag f σ).ep0State = σ.ep0State := by
  simp [ackFlag]

@[simp] theorem ackFlag_hwodd (f : Flag) (σ : State) :
    (ackFlag f σ).hwodd = σ.hwodd := by
  simp [ackFlag]

@[simp] theorem ackFlag_faults (f : Flag) (σ : State) :
    (ackFlag f σ).faults = σ.faults := by
  simp [ackFlag]

@[simp] theorem ackFlag_cfg (f : Flag) (σ : State) :
    (ackFlag f σ).cfg = σ.cfg := by
  simp [ackFlag]

@[simp] theorem ackFlag_schedule (f : Flag) (σ : State) :
    (ackFlag f σ).schedule = σ.schedule := by
  simp [ackFlag]

@[simp] theorem ackFlag_response (f : Flag) (σ : State) :
    (ackFlag f σ).response = σ.response := by
  simp [ackFlag]

@[simp] theorem ackFlag_result (f : Flag) (σ : State) :
    (ackFlag f σ).result = σ.result := by
  simp [ackFlag]

@[simp] theorem ackFlag_freeCount (f : Flag) (σ : State) :
    (ackFlag f σ).freeCount = σ.freeCount := by
  simp [ackFlag]

/-! ### turnAway -/

@[simp] theorem turnAway_istat (k : TokKind) (σ : State) :
    (turnAway k σ).istat = σ.istat := by
  cases k <;> rfl

@[simp] theorem turnAway_inten (k : TokKind) (σ : State) :
    (turnAway k σ).inten = σ.inten := by
  cases k <;> rfl

@[simp] theorem turnAway_errstat (k : TokKind) (σ : State) :
    (turnAway k σ).errstat = σ.errstat := by
  cases k <;> rfl

@[simp] theorem turnAway_statFifo (k : TokKind) (σ : State) :
    (turnAway k σ).statFifo = σ.statFifo := by
  cases k <;> rfl

@[simp] theorem turnAway_addr (k : TokKind) (σ : State) :
    (turnAway k σ).addr = σ.addr := by
  cases k <;> rfl

@[simp] theorem turnAway_endpt (k : TokKind) (σ : State) :
    (turnAway k σ).endpt = σ.endpt := by
  cases k <;> rfl

@[simp] theorem turnAway_mem (k : TokKind) (σ : State) :
    (turnAway k σ).mem = σ.mem := by
  cases k <;> rfl

@[simp] theorem turnAway_par (k : TokKind) (σ : State) :
    (turnAway k σ).par = σ.par := by
  cases k <;> rfl

@[simp] theorem turnAway_tog (k : TokKind) (σ : State) :
    (turnAway k σ).tog = σ.tog := by
  cases k <;> rfl

@[simp] theorem turnAway_cur (k : TokKind) (σ : State) :
    (turnAway k σ).cur = σ.cur := by
  cases k <;> rfl

@[simp] theorem turnAway_lastSetup (k : TokKind) (σ : State) :
    (turnAway k σ).lastSetup = σ.lastSetup := by
  cases k <;> rfl

@[simp] theorem turnAway_dstatus (k : TokKind) (σ : State) :
    (turnAway k σ).dstatus = σ.dstatus := by
  cases k <;> rfl

@[simp] theorem turnAway_dph (k : TokKind) (σ : State) :
    (turnAway k σ).dph = σ.dph := by
  cases k <;> rfl

@[simp] theorem turnAway_ep0State (k : TokKind) (σ : State) :
    (turnAway k σ).ep0State = σ.ep0State := by
  cases k <;> rfl

@[simp] theorem turnAway_hwodd (k : TokKind) (σ : State) :
    (turnAway k σ).hwodd = σ.hwodd := by
  cases k <;> rfl

@[simp] theorem turnAway_faults (k : TokKind) (σ : State) :
    (turnAway k σ).faults = σ.faults := by
  cases k <;> rfl

@[simp] theorem turnAway_cfg (k : TokKind) (σ : State) :
    (turnAway k σ).cfg = σ.cfg := by
  cases k <;> rfl

@[simp] theorem turnAway_schedule (k : TokKind) (σ : State) :
    (turnAway k σ).schedule = σ.schedule := by
  cases k <;> rfl

@[simp] theorem turnAway_result (k : TokKind) (σ : State) :
    (turnAway k σ).result = σ.result := by
  cases k <;> rfl

@[simp] theorem turnAway_freeCount (k : TokKind) (σ : State) :
    (turnAway k σ).freeCount = σ.freeCount := by
  cases k <;> rfl

/-! ### checkOwner -/

@[simp] theorem checkOwner_istat (s : Slot) (σ : State) :
    (checkOwner s σ).istat = σ.istat := by
  unfold checkOwner; split <;> rfl

@[simp] theorem checkOwner_inten (s : Slot) (σ : State) :
    (checkOwner s σ).inten = σ.inten := by
  unfold checkOwner; split <;> rfl

@[simp] theorem checkOwner_errstat (s : Slot) (σ : State) :
    (checkOwner s σ).errstat = σ.errstat := by
  unfold checkOwner; split <;> rfl

@[simp] theorem checkOwner_statFifo (s : Slot) (σ : State) :
    (checkOwner s σ).statFifo = σ.statFifo := by
  unfold checkOwner; split <;> rfl

@[simp] theorem checkOwner_addr (s : Slot) (σ : State) :
    (checkOwner s σ).addr = σ.addr := by
  unfold checkOwner; split <;> rfl

@[simp] theorem checkOwner_endpt (s : Slot) (σ : State) :
    (checkOwner s σ).endpt = σ.endpt := by
  unfold checkOwner; split <;> rfl

@[simp] theorem checkOwner_mem (s : Slot) (σ : State) :
    (checkOwner s σ).mem = σ.mem := by
  unfold checkOwner; split <;> rfl

@[simp] theorem checkOwner_par (s : Slot) (σ : State) :
    (checkOwner s σ).par = σ.par := by
  unfold checkOwner; split <;> rfl

@[simp] theorem checkOwner_tog (s : Slot) (σ : State) :
    (checkOwner s σ).tog = σ.tog := by
  unfold checkOwner; split <;> rfl

@[simp] theorem checkOwner_cur (s : Slot) (σ : State) :
    (checkOwner s σ).cur = σ.cur := by
  unfold checkOwner; split <;> rfl

@[simp] theorem checkOwner_lastSetup (s : Slot) (σ : State) :
    (checkOwner s σ).lastSetup = σ.lastSetup := by
  unfold checkOwner; split <;> rfl

@[simp] theorem checkOwner_dstatus (s : Slot) (σ : State) :
    (checkOwner s σ).dstatus = σ.dstatus := by
  unfold checkOwner; split <;> rfl

@[simp] theorem checkOwner_dph (s : Slot) (σ : State) :
    (checkOwner s σ).dph = σ.dph := by
  unfold checkOwner; split <;> rfl

@[simp] theorem checkOwner_ep0State (s : Slot) (σ : State) :
    (checkOwner s σ).ep0State = σ.ep0State := by
  unfold checkOwner; split <;> rfl

@[simp] theorem checkOwner_hwodd (s : Slot) (σ : State) :
    (checkOwner s σ).hwodd = σ.hwodd := by
  unfold checkOwner; split <;> rfl

@[simp] theorem checkOwner_cfg (s : Slot) (σ : State) :
    (checkOwner s σ).cfg = σ.cfg := by
  unfold checkOwner; split <;> rfl

@[simp] theorem checkOwner_schedule (s : Slot) (σ : State) :
    (checkOwner s σ).schedule = σ.schedule := by
  unfold checkOwner; split <;> rfl

@[simp] theorem checkOwner_response (s : Slot) (σ : State) :
    (checkOwner s σ).response = σ.response := by
  unfold checkOwner; split <;> rfl

@[simp] theorem checkOwner_result (s : Slot) (σ : State) :
    (checkOwner s σ).result = σ.result := by
  unfold checkOwner; split <;> rfl

@[simp] theorem checkOwner_freeCount (s : Slot) (σ : State) :
    (checkOwner s σ).freeCount = σ.freeCount := by
  unfold checkOwner; split <;> rfl

/-! ### arm -/

@[simp] theorem arm_istat (s : Slot) (ptr : Word) (count : Count) (toggle : Bit) (σ : State) :
    (arm s ptr count toggle σ).istat = σ.istat := by
  simp [arm]

@[simp] theorem arm_inten (s : Slot) (ptr : Word) (count : Count) (toggle : Bit) (σ : State) :
    (arm s ptr count toggle σ).inten = σ.inten := by
  simp [arm]

@[simp] theorem arm_errstat (s : Slot) (ptr : Word) (count : Count) (toggle : Bit) (σ : State) :
    (arm s ptr count toggle σ).errstat = σ.errstat := by
  simp [arm]

@[simp] theorem arm_statFifo (s : Slot) (ptr : Word) (count : Count) (toggle : Bit) (σ : State) :
    (arm s ptr count toggle σ).statFifo = σ.statFifo := by
  simp [arm]

@[simp] theorem arm_addr (s : Slot) (ptr : Word) (count : Count) (toggle : Bit) (σ : State) :
    (arm s ptr count toggle σ).addr = σ.addr := by
  simp [arm]

@[simp] theorem arm_endpt (s : Slot) (ptr : Word) (count : Count) (toggle : Bit) (σ : State) :
    (arm s ptr count toggle σ).endpt = σ.endpt := by
  simp [arm]

@[simp] theorem arm_par (s : Slot) (ptr : Word) (count : Count) (toggle : Bit) (σ : State) :
    (arm s ptr count toggle σ).par = σ.par := by
  simp [arm]

@[simp] theorem arm_tog (s : Slot) (ptr : Word) (count : Count) (toggle : Bit) (σ : State) :
    (arm s ptr count toggle σ).tog = σ.tog := by
  simp [arm]

@[simp] theorem arm_cur (s : Slot) (ptr : Word) (count : Count) (toggle : Bit) (σ : State) :
    (arm s ptr count toggle σ).cur = σ.cur := by
  simp [arm]

@[simp] theorem arm_lastSetup (s : Slot) (ptr : Word) (count : Count) (toggle : Bit) (σ : State) :
    (arm s ptr count toggle σ).lastSetup = σ.lastSetup := by
  simp [arm]

@[simp] theorem arm_dstatus (s : Slot) (ptr : Word) (count : Count) (toggle : Bit) (σ : State) :
    (arm s ptr count toggle σ).dstatus = σ.dstatus := by
  simp [arm]

@[simp] theorem arm_dph (s : Slot) (ptr : Word) (count : Count) (toggle : Bit) (σ : State) :
    (arm s ptr count toggle σ).dph = σ.dph := by
  simp [arm]

@[simp] theorem arm_ep0State (s : Slot) (ptr : Word) (count : Count) (toggle : Bit) (σ : State) :
    (arm s ptr count toggle σ).ep0State = σ.ep0State := by
  simp [arm]

@[simp] theorem arm_hwodd (s : Slot) (ptr : Word) (count : Count) (toggle : Bit) (σ : State) :
    (arm s ptr count toggle σ).hwodd = σ.hwodd := by
  simp [arm]

@[simp] theorem arm_cfg (s : Slot) (ptr : Word) (count : Count) (toggle : Bit) (σ : State) :
    (arm s ptr count toggle σ).cfg = σ.cfg := by
  simp [arm]

@[simp] theorem arm_schedule (s : Slot) (ptr : Word) (count : Count) (toggle : Bit) (σ : State) :
    (arm s ptr count toggle σ).schedule = σ.schedule := by
  simp [arm]

@[simp] theorem arm_response (s : Slot) (ptr : Word) (count : Count) (toggle : Bit) (σ : State) :
    (arm s ptr count toggle σ).response = σ.response := by
  simp [arm]

@[simp] theorem arm_result (s : Slot) (ptr : Word) (count : Count) (toggle : Bit) (σ : State) :
    (arm s ptr count toggle σ).result = σ.result := by
  simp [arm]

@[simp] theorem arm_freeCount (s : Slot) (ptr : Word) (count : Count) (toggle : Bit) (σ : State) :
    (arm s ptr count toggle σ).freeCount = σ.freeCount := by
  simp [arm]

/-! ### revoke -/

@[simp] theorem revoke_istat (s : Slot) (σ : State) :
    (revoke s σ).istat = σ.istat := (rfl)

@[simp] theorem revoke_inten (s : Slot) (σ : State) :
    (revoke s σ).inten = σ.inten := (rfl)

@[simp] theorem revoke_errstat (s : Slot) (σ : State) :
    (revoke s σ).errstat = σ.errstat := (rfl)

@[simp] theorem revoke_statFifo (s : Slot) (σ : State) :
    (revoke s σ).statFifo = σ.statFifo := (rfl)

@[simp] theorem revoke_addr (s : Slot) (σ : State) :
    (revoke s σ).addr = σ.addr := (rfl)

@[simp] theorem revoke_endpt (s : Slot) (σ : State) :
    (revoke s σ).endpt = σ.endpt := (rfl)

@[simp] theorem revoke_mem (s : Slot) (σ : State) :
    (revoke s σ).mem = writeBdWord σ.cfg σ.mem s 0 := (rfl)

@[simp] theorem revoke_par (s : Slot) (σ : State) :
    (revoke s σ).par = σ.par := (rfl)

@[simp] theorem revoke_tog (s : Slot) (σ : State) :
    (revoke s σ).tog = σ.tog := (rfl)

@[simp] theorem revoke_cur (s : Slot) (σ : State) :
    (revoke s σ).cur = σ.cur := (rfl)

@[simp] theorem revoke_lastSetup (s : Slot) (σ : State) :
    (revoke s σ).lastSetup = σ.lastSetup := (rfl)

@[simp] theorem revoke_dstatus (s : Slot) (σ : State) :
    (revoke s σ).dstatus = σ.dstatus := (rfl)

@[simp] theorem revoke_dph (s : Slot) (σ : State) :
    (revoke s σ).dph = σ.dph := (rfl)

@[simp] theorem revoke_ep0State (s : Slot) (σ : State) :
    (revoke s σ).ep0State = σ.ep0State := (rfl)

@[simp] theorem revoke_hwodd (s : Slot) (σ : State) :
    (revoke s σ).hwodd = σ.hwodd := (rfl)

@[simp] theorem revoke_faults (s : Slot) (σ : State) :
    (revoke s σ).faults = σ.faults := (rfl)

@[simp] theorem revoke_cfg (s : Slot) (σ : State) :
    (revoke s σ).cfg = σ.cfg := (rfl)

@[simp] theorem revoke_schedule (s : Slot) (σ : State) :
    (revoke s σ).schedule = σ.schedule := (rfl)

@[simp] theorem revoke_response (s : Slot) (σ : State) :
    (revoke s σ).response = σ.response := (rfl)

@[simp] theorem revoke_result (s : Slot) (σ : State) :
    (revoke s σ).result = σ.result := (rfl)

@[simp] theorem revoke_freeCount (s : Slot) (σ : State) :
    (revoke s σ).freeCount = σ.freeCount := (rfl)

/-! ### transmit -/

@[simp] theorem transmit_istat (e : Endp) (ptr : Word) (count : Count) (σ : State) :
    (transmit e ptr count σ).istat = σ.istat := by
  simp [transmit]

@[simp] theorem transmit_inten (e : Endp) (ptr : Word) (count : Count) (σ : State) :
    (transmit e ptr count σ).inten = σ.inten := by
  simp [transmit]

@[simp] theorem transmit_errstat (e : Endp) (ptr : Word) (count : Count) (σ : State) :
    (transmit e ptr count σ).errstat = σ.errstat := by
  simp [transmit]

@[simp] theorem transmit_statFifo (e : Endp) (ptr : Word) (count : Count) (σ : State) :
    (transmit e ptr count σ).statFifo = σ.statFifo := by
  simp [transmit]

@[simp] theorem transmit_addr (e : Endp) (ptr : Word) (count : Count) (σ : State) :
    (transmit e ptr count σ).addr = σ.addr := by
  simp [transmit]

@[simp] theorem transmit_endpt (e : Endp) (ptr : Word) (count : Count) (σ : State) :
    (transmit e ptr count σ).endpt = σ.endpt := by
  simp [transmit]

@[simp] theorem transmit_par (e : Endp) (ptr : Word) (count : Count) (σ : State) :
    (transmit e ptr count σ).par = flipDir σ.par e .tx := by
  simp [transmit]

@[simp] theorem transmit_tog (e : Endp) (ptr : Word) (count : Count) (σ : State) :
    (transmit e ptr count σ).tog = flipDir σ.tog e .tx := by
  simp [transmit]

@[simp] theorem transmit_cur (e : Endp) (ptr : Word) (count : Count) (σ : State) :
    (transmit e ptr count σ).cur = σ.cur := by
  simp [transmit]

@[simp] theorem transmit_lastSetup (e : Endp) (ptr : Word) (count : Count) (σ : State) :
    (transmit e ptr count σ).lastSetup = σ.lastSetup := by
  simp [transmit]

@[simp] theorem transmit_dstatus (e : Endp) (ptr : Word) (count : Count) (σ : State) :
    (transmit e ptr count σ).dstatus = σ.dstatus := by
  simp [transmit]

@[simp] theorem transmit_dph (e : Endp) (ptr : Word) (count : Count) (σ : State) :
    (transmit e ptr count σ).dph = σ.dph := by
  simp [transmit]

@[simp] theorem transmit_ep0State (e : Endp) (ptr : Word) (count : Count) (σ : State) :
    (transmit e ptr count σ).ep0State = σ.ep0State := by
  simp [transmit]

@[simp] theorem transmit_hwodd (e : Endp) (ptr : Word) (count : Count) (σ : State) :
    (transmit e ptr count σ).hwodd = σ.hwodd := by
  simp [transmit]

@[simp] theorem transmit_cfg (e : Endp) (ptr : Word) (count : Count) (σ : State) :
    (transmit e ptr count σ).cfg = σ.cfg := by
  simp [transmit]

@[simp] theorem transmit_schedule (e : Endp) (ptr : Word) (count : Count) (σ : State) :
    (transmit e ptr count σ).schedule = σ.schedule := by
  simp [transmit]

@[simp] theorem transmit_response (e : Endp) (ptr : Word) (count : Count) (σ : State) :
    (transmit e ptr count σ).response = σ.response := by
  simp [transmit]

@[simp] theorem transmit_result (e : Endp) (ptr : Word) (count : Count) (σ : State) :
    (transmit e ptr count σ).result = σ.result := by
  simp [transmit]

@[simp] theorem transmit_freeCount (e : Endp) (ptr : Word) (count : Count) (σ : State) :
    (transmit e ptr count σ).freeCount = σ.freeCount := by
  simp [transmit]

/-! ### complete -/

@[simp] theorem complete_istat (e : Endp) (d : Dir) (n : Count) (k : TokKind) (σ : State) :
    (complete e d n k σ).istat = σ.istat ||| flagMask .tokdne := (rfl)

@[simp] theorem complete_inten (e : Endp) (d : Dir) (n : Count) (k : TokKind) (σ : State) :
    (complete e d n k σ).inten = σ.inten := (rfl)

@[simp] theorem complete_errstat (e : Endp) (d : Dir) (n : Count) (k : TokKind) (σ : State) :
    (complete e d n k σ).errstat = σ.errstat := (rfl)

@[simp] theorem complete_statFifo (e : Endp) (d : Dir) (n : Count) (k : TokKind) (σ : State) :
    (complete e d n k σ).statFifo = σ.statFifo ++ [statWord e (dirBit d) (getDir σ.hwodd e d)] := (rfl)

@[simp] theorem complete_addr (e : Endp) (d : Dir) (n : Count) (k : TokKind) (σ : State) :
    (complete e d n k σ).addr = σ.addr := (rfl)

@[simp] theorem complete_endpt (e : Endp) (d : Dir) (n : Count) (k : TokKind) (σ : State) :
    (complete e d n k σ).endpt = σ.endpt := (rfl)

@[simp] theorem complete_mem (e : Endp) (d : Dir) (n : Count) (k : TokKind) (σ : State) :
    (complete e d n k σ).mem = writeBdWord σ.cfg σ.mem (sieSlot σ e d) (doneWord n (wordData01 (bdWord σ (sieSlot σ e d))) (tokPid k)) := (rfl)

@[simp] theorem complete_par (e : Endp) (d : Dir) (n : Count) (k : TokKind) (σ : State) :
    (complete e d n k σ).par = σ.par := (rfl)

@[simp] theorem complete_tog (e : Endp) (d : Dir) (n : Count) (k : TokKind) (σ : State) :
    (complete e d n k σ).tog = σ.tog := (rfl)

@[simp] theorem complete_cur (e : Endp) (d : Dir) (n : Count) (k : TokKind) (σ : State) :
    (complete e d n k σ).cur = σ.cur := (rfl)

@[simp] theorem complete_lastSetup (e : Endp) (d : Dir) (n : Count) (k : TokKind) (σ : State) :
    (complete e d n k σ).lastSetup = σ.lastSetup := (rfl)

@[simp] theorem complete_dstatus (e : Endp) (d : Dir) (n : Count) (k : TokKind) (σ : State) :
    (complete e d n k σ).dstatus = σ.dstatus := (rfl)

@[simp] theorem complete_dph (e : Endp) (d : Dir) (n : Count) (k : TokKind) (σ : State) :
    (complete e d n k σ).dph = σ.dph := (rfl)

@[simp] theorem complete_ep0State (e : Endp) (d : Dir) (n : Count) (k : TokKind) (σ : State) :
    (complete e d n k σ).ep0State = σ.ep0State := (rfl)

@[simp] theorem complete_hwodd (e : Endp) (d : Dir) (n : Count) (k : TokKind) (σ : State) :
    (complete e d n k σ).hwodd = flipDir σ.hwodd e d := (rfl)

@[simp] theorem complete_faults (e : Endp) (d : Dir) (n : Count) (k : TokKind) (σ : State) :
    (complete e d n k σ).faults = σ.faults := (rfl)

@[simp] theorem complete_cfg (e : Endp) (d : Dir) (n : Count) (k : TokKind) (σ : State) :
    (complete e d n k σ).cfg = σ.cfg := (rfl)

@[simp] theorem complete_schedule (e : Endp) (d : Dir) (n : Count) (k : TokKind) (σ : State) :
    (complete e d n k σ).schedule = σ.schedule := (rfl)

@[simp] theorem complete_response (e : Endp) (d : Dir) (n : Count) (k : TokKind) (σ : State) :
    (complete e d n k σ).response = σ.response := (rfl)

@[simp] theorem complete_result (e : Endp) (d : Dir) (n : Count) (k : TokKind) (σ : State) :
    (complete e d n k σ).result = σ.result := (rfl)

@[simp] theorem complete_freeCount (e : Endp) (d : Dir) (n : Count) (k : TokKind) (σ : State) :
    (complete e d n k σ).freeCount = σ.freeCount := (rfl)

/-! ### beginTurn -/

@[simp] theorem beginTurn_istat (rest : List Turn) (σ : State) :
    (beginTurn rest σ).istat = σ.istat := (rfl)

@[simp] theorem beginTurn_inten (rest : List Turn) (σ : State) :
    (beginTurn rest σ).inten = σ.inten := (rfl)

@[simp] theorem beginTurn_errstat (rest : List Turn) (σ : State) :
    (beginTurn rest σ).errstat = σ.errstat := (rfl)

@[simp] theorem beginTurn_statFifo (rest : List Turn) (σ : State) :
    (beginTurn rest σ).statFifo = σ.statFifo := (rfl)

@[simp] theorem beginTurn_addr (rest : List Turn) (σ : State) :
    (beginTurn rest σ).addr = σ.addr := (rfl)

@[simp] theorem beginTurn_endpt (rest : List Turn) (σ : State) :
    (beginTurn rest σ).endpt = σ.endpt := (rfl)

@[simp] theorem beginTurn_mem (rest : List Turn) (σ : State) :
    (beginTurn rest σ).mem = σ.mem := (rfl)

@[simp] theorem beginTurn_par (rest : List Turn) (σ : State) :
    (beginTurn rest σ).par = σ.par := (rfl)

@[simp] theorem beginTurn_tog (rest : List Turn) (σ : State) :
    (beginTurn rest σ).tog = σ.tog := (rfl)

@[simp] theorem beginTurn_cur (rest : List Turn) (σ : State) :
    (beginTurn rest σ).cur = σ.cur := (rfl)

@[simp] theorem beginTurn_lastSetup (rest : List Turn) (σ : State) :
    (beginTurn rest σ).lastSetup = σ.lastSetup := (rfl)

@[simp] theorem beginTurn_dstatus (rest : List Turn) (σ : State) :
    (beginTurn rest σ).dstatus = σ.dstatus := (rfl)

@[simp] theorem beginTurn_dph (rest : List Turn) (σ : State) :
    (beginTurn rest σ).dph = σ.dph := (rfl)

@[simp] theorem beginTurn_ep0State (rest : List Turn) (σ : State) :
    (beginTurn rest σ).ep0State = σ.ep0State := (rfl)

@[simp] theorem beginTurn_hwodd (rest : List Turn) (σ : State) :
    (beginTurn rest σ).hwodd = σ.hwodd := (rfl)

@[simp] theorem beginTurn_faults (rest : List Turn) (σ : State) :
    (beginTurn rest σ).faults = σ.faults := (rfl)

@[simp] theorem beginTurn_cfg (rest : List Turn) (σ : State) :
    (beginTurn rest σ).cfg = σ.cfg := (rfl)

@[simp] theorem beginTurn_schedule (rest : List Turn) (σ : State) :
    (beginTurn rest σ).schedule = rest := (rfl)

@[simp] theorem beginTurn_response (rest : List Turn) (σ : State) :
    (beginTurn rest σ).response = .none := (rfl)

@[simp] theorem beginTurn_result (rest : List Turn) (σ : State) :
    (beginTurn rest σ).result = .none := (rfl)

@[simp] theorem beginTurn_freeCount (rest : List Turn) (σ : State) :
    (beginTurn rest σ).freeCount = σ.freeCount := (rfl)

end Sys2Proof.Machine
end

