-- ==== Sys2Proof/Laws/Handlers.lean ====
section
/-! SUPPORT. What the handlers, the requests, REINIT and the phases leave alone, one lemma per field. -/

namespace Sys2Proof.Machine

-- One proof at a time: side by side these many small ones take more threads than the checker's memory limit allows.
set_option Elab.async false

/-! ### ep0Stall -/

@[simp] theorem ep0Stall_istat (σ : State) :
    (ep0Stall σ).istat = σ.istat := by
  simp [ep0Stall]

@[simp] theorem ep0Stall_inten (σ : State) :
    (ep0Stall σ).inten = σ.inten := by
  simp [ep0Stall]

@[simp] theorem ep0Stall_errstat (σ : State) :
    (ep0Stall σ).errstat = σ.errstat := by
  simp [ep0Stall]

@[simp] theorem ep0Stall_statFifo (σ : State) :
    (ep0Stall σ).statFifo = σ.statFifo := by
  simp [ep0Stall]

@[simp] theorem ep0Stall_addr (σ : State) :
    (ep0Stall σ).addr = σ.addr := by
  simp [ep0Stall]

@[simp] theorem ep0Stall_mem (σ : State) :
    (ep0Stall σ).mem = σ.mem := by
  simp [ep0Stall]

@[simp] theorem ep0Stall_par (σ : State) :
    (ep0Stall σ).par = σ.par := by
  simp [ep0Stall]

@[simp] theorem ep0Stall_tog (σ : State) :
    (ep0Stall σ).tog = σ.tog := by
  simp [ep0Stall]

@[simp] theorem ep0Stall_cur (σ : State) :
    (ep0Stall σ).cur = σ.cur := by
  simp [ep0Stall]

@[simp] theorem ep0Stall_lastSetup (σ : State) :
    (ep0Stall σ).lastSetup = σ.lastSetup := by
  simp [ep0Stall]

@[simp] theorem ep0Stall_dstatus (σ : State) :
    (ep0Stall σ).dstatus = σ.dstatus := by
  simp [ep0Stall]

@[simp] theorem ep0Stall_dph (σ : State) :
    (ep0Stall σ).dph = σ.dph := by
  simp [ep0Stall]

@[simp] theorem ep0Stall_ep0State (σ : State) :
    (ep0Stall σ).ep0State = σ.ep0State := by
  simp [ep0Stall]

@[simp] theorem ep0Stall_hwodd (σ : State) :
    (ep0Stall σ).hwodd = σ.hwodd := by
  simp [ep0Stall]

@[simp] theorem ep0Stall_faults (σ : State) :
    (ep0Stall σ).faults = σ.faults := by
  simp [ep0Stall]

@[simp] theorem ep0Stall_cfg (σ : State) :
    (ep0Stall σ).cfg = σ.cfg := by
  simp [ep0Stall]

@[simp] theorem ep0Stall_schedule (σ : State) :
    (ep0Stall σ).schedule = σ.schedule := by
  simp [ep0Stall]

@[simp] theorem ep0Stall_response (σ : State) :
    (ep0Stall σ).response = σ.response := by
  simp [ep0Stall]

@[simp] theorem ep0Stall_result (σ : State) :
    (ep0Stall σ).result = σ.result := by
  simp [ep0Stall]

@[simp] theorem ep0Stall_freeCount (σ : State) :
    (ep0Stall σ).freeCount = σ.freeCount := by
  simp [ep0Stall]

/-! ### reqUnsupported -/

@[simp] theorem reqUnsupported_istat (σ : State) :
    (reqUnsupported σ).istat = σ.istat := by
  simp [reqUnsupported]

@[simp] theorem reqUnsupported_inten (σ : State) :
    (reqUnsupported σ).inten = σ.inten := by
  simp [reqUnsupported]

@[simp] theorem reqUnsupported_errstat (σ : State) :
    (reqUnsupported σ).errstat = σ.errstat := by
  simp [reqUnsupported]

@[simp] theorem reqUnsupported_statFifo (σ : State) :
    (reqUnsupported σ).statFifo = σ.statFifo := by
  simp [reqUnsupported]

@[simp] theorem reqUnsupported_addr (σ : State) :
    (reqUnsupported σ).addr = σ.addr := by
  simp [reqUnsupported]

@[simp] theorem reqUnsupported_mem (σ : State) :
    (reqUnsupported σ).mem = σ.mem := by
  simp [reqUnsupported]

@[simp] theorem reqUnsupported_par (σ : State) :
    (reqUnsupported σ).par = σ.par := by
  simp [reqUnsupported]

@[simp] theorem reqUnsupported_tog (σ : State) :
    (reqUnsupported σ).tog = σ.tog := by
  simp [reqUnsupported]

@[simp] theorem reqUnsupported_cur (σ : State) :
    (reqUnsupported σ).cur = σ.cur := by
  simp [reqUnsupported]

@[simp] theorem reqUnsupported_lastSetup (σ : State) :
    (reqUnsupported σ).lastSetup = σ.lastSetup := by
  simp [reqUnsupported]

@[simp] theorem reqUnsupported_dstatus (σ : State) :
    (reqUnsupported σ).dstatus = σ.dstatus := by
  simp [reqUnsupported]

@[simp] theorem reqUnsupported_dph (σ : State) :
    (reqUnsupported σ).dph = σ.dph := by
  simp [reqUnsupported]

@[simp] theorem reqUnsupported_hwodd (σ : State) :
    (reqUnsupported σ).hwodd = σ.hwodd := by
  simp [reqUnsupported]

@[simp] theorem reqUnsupported_faults (σ : State) :
    (reqUnsupported σ).faults = σ.faults := by
  simp [reqUnsupported]

@[simp] theorem reqUnsupported_cfg (σ : State) :
    (reqUnsupported σ).cfg = σ.cfg := by
  simp [reqUnsupported]

@[simp] theorem reqUnsupported_schedule (σ : State) :
    (reqUnsupported σ).schedule = σ.schedule := by
  simp [reqUnsupported]

@[simp] theorem reqUnsupported_response (σ : State) :
    (reqUnsupported σ).response = σ.response := by
  simp [reqUnsupported]

@[simp] theorem reqUnsupported_result (σ : State) :
    (reqUnsupported σ).result = σ.result := by
  simp [reqUnsupported]

@[simp] theorem reqUnsupported_freeCount (σ : State) :
    (reqUnsupported σ).freeCount = σ.freeCount := by
  simp [reqUnsupported]

/-! ### sendSecond -/

@[simp] theorem sendSecond_istat (p : Word) (len : Half) (σ : State) :
    (sendSecond p len σ).istat = σ.istat := by
  unfold sendSecond; dsimp only; split <;> simp

@[simp] theorem sendSecond_inten (p : Word) (len : Half) (σ : State) :
    (sendSecond p len σ).inten = σ.inten := by
  unfold sendSecond; dsimp only; split <;> simp

@[simp] theorem sendSecond_errstat (p : Word) (len : Half) (σ : State) :
    (sendSecond p len σ).errstat = σ.errstat := by
  unfold sendSecond; dsimp only; split <;> simp

@[simp] theorem sendSecond_statFifo (p : Word) (len : Half) (σ : State) :
    (sendSecond p len σ).statFifo = σ.statFifo := by
  unfold sendSecond; dsimp only; split <;> simp

@[simp] theorem sendSecond_addr (p : Word) (len : Half) (σ : State) :
    (sendSecond p len σ).addr = σ.addr := by
  unfold sendSecond; dsimp only; split <;> simp

@[simp] theorem sendSecond_endpt (p : Word) (len : Half) (σ : State) :
    (sendSecond p len σ).endpt = σ.endpt := by
  unfold sendSecond; dsimp only; split <;> simp

@[simp] theorem sendSecond_lastSetup (p : Word) (len : Half) (σ : State) :
    (sendSecond p len σ).lastSetup = σ.lastSetup := by
  unfold sendSecond; dsimp only; split <;> simp

@[simp] theorem sendSecond_dstatus (p : Word) (len : Half) (σ : State) :
    (sendSecond p len σ).dstatus = σ.dstatus := by
  unfold sendSecond; dsimp only; split <;> simp

@[simp] theorem sendSecond_dph (p : Word) (len : Half) (σ : State) :
    (sendSecond p len σ).dph = σ.dph := by
  unfold sendSecond; dsimp only; split <;> simp

@[simp] theorem sendSecond_ep0State (p : Word) (len : Half) (σ : State) :
    (sendSecond p len σ).ep0State = σ.ep0State := by
  unfold sendSecond; dsimp only; split <;> simp

@[simp] theorem sendSecond_hwodd (p : Word) (len : Half) (σ : State) :
    (sendSecond p len σ).hwodd = σ.hwodd := by
  unfold sendSecond; dsimp only; split <;> simp

@[simp] theorem sendSecond_cfg (p : Word) (len : Half) (σ : State) :
    (sendSecond p len σ).cfg = σ.cfg := by
  unfold sendSecond; dsimp only; split <;> simp

@[simp] theorem sendSecond_schedule (p : Word) (len : Half) (σ : State) :
    (sendSecond p len σ).schedule = σ.schedule := by
  unfold sendSecond; dsimp only; split <;> simp

@[simp] theorem sendSecond_response (p : Word) (len : Half) (σ : State) :
    (sendSecond p len σ).response = σ.response := by
  unfold sendSecond; dsimp only; split <;> simp

@[simp] theorem sendSecond_result (p : Word) (len : Half) (σ : State) :
    (sendSecond p len σ).result = σ.result := by
  unfold sendSecond; dsimp only; split <;> simp

@[simp] theorem sendSecond_freeCount (p : Word) (len : Half) (σ : State) :
    (sendSecond p len σ).freeCount = σ.freeCount := by
  unfold sendSecond; dsimp only; split <;> simp

/-! ### send -/

@[simp] theorem send_istat (p : Word) (len : Half) (σ : State) :
    (send p len σ).istat = σ.istat := by
  unfold send; dsimp only; split <;> simp

@[simp] theorem send_inten (p : Word) (len : Half) (σ : State) :
    (send p len σ).inten = σ.inten := by
  unfold send; dsimp only; split <;> simp

@[simp] theorem send_errstat (p : Word) (len : Half) (σ : State) :
    (send p len σ).errstat = σ.errstat := by
  unfold send; dsimp only; split <;> simp

@[simp] theorem send_statFifo (p : Word) (len : Half) (σ : State) :
    (send p len σ).statFifo = σ.statFifo := by
  unfold send; dsimp only; split <;> simp

@[simp] theorem send_addr (p : Word) (len : Half) (σ : State) :
    (send p len σ).addr = σ.addr := by
  unfold send; dsimp only; split <;> simp

@[simp] theorem send_endpt (p : Word) (len : Half) (σ : State) :
    (send p len σ).endpt = σ.endpt := by
  unfold send; dsimp only; split <;> simp

@[simp] theorem send_lastSetup (p : Word) (len : Half) (σ : State) :
    (send p len σ).lastSetup = σ.lastSetup := by
  unfold send; dsimp only; split <;> simp

@[simp] theorem send_dstatus (p : Word) (len : Half) (σ : State) :
    (send p len σ).dstatus = σ.dstatus := by
  unfold send; dsimp only; split <;> simp

@[simp] theorem send_dph (p : Word) (len : Half) (σ : State) :
    (send p len σ).dph = σ.dph := by
  unfold send; dsimp only; split <;> simp

@[simp] theorem send_ep0State (p : Word) (len : Half) (σ : State) :
    (send p len σ).ep0State = σ.ep0State := by
  unfold send; dsimp only; split <;> simp

@[simp] theorem send_hwodd (p : Word) (len : Half) (σ : State) :
    (send p len σ).hwodd = σ.hwodd := by
  unfold send; dsimp only; split <;> simp

@[simp] theorem send_cfg (p : Word) (len : Half) (σ : State) :
    (send p len σ).cfg = σ.cfg := by
  unfold send; dsimp only; split <;> simp

@[simp] theorem send_schedule (p : Word) (len : Half) (σ : State) :
    (send p len σ).schedule = σ.schedule := by
  unfold send; dsimp only; split <;> simp

@[simp] theorem send_response (p : Word) (len : Half) (σ : State) :
    (send p len σ).response = σ.response := by
  unfold send; dsimp only; split <;> simp

@[simp] theorem send_result (p : Word) (len : Half) (σ : State) :
    (send p len σ).result = σ.result := by
  unfold send; dsimp only; split <;> simp

@[simp] theorem send_freeCount (p : Word) (len : Half) (σ : State) :
    (send p len σ).freeCount = σ.freeCount := by
  unfold send; dsimp only; split <;> simp

/-! ### statusStage -/

@[simp] theorem statusStage_istat (σ : State) :
    (statusStage σ).istat = σ.istat := by
  simp [statusStage]

@[simp] theorem statusStage_inten (σ : State) :
    (statusStage σ).inten = σ.inten := by
  simp [statusStage]

@[simp] theorem statusStage_errstat (σ : State) :
    (statusStage σ).errstat = σ.errstat := by
  simp [statusStage]

@[simp] theorem statusStage_statFifo (σ : State) :
    (statusStage σ).statFifo = σ.statFifo := by
  simp [statusStage]

@[simp] theorem statusStage_addr (σ : State) :
    (statusStage σ).addr = σ.addr := by
  simp [statusStage]

@[simp] theorem statusStage_endpt (σ : State) :
    (statusStage σ).endpt = σ.endpt := by
  simp [statusStage]

@[simp] theorem statusStage_lastSetup (σ : State) :
    (statusStage σ).lastSetup = σ.lastSetup := by
  simp [statusStage]

@[simp] theorem statusStage_dstatus (σ : State) :
    (statusStage σ).dstatus = σ.dstatus := by
  simp [statusStage]

@[simp] theorem statusStage_dph (σ : State) :
    (statusStage σ).dph = σ.dph := by
  simp [statusStage]

@[simp] theorem statusStage_hwodd (σ : State) :
    (statusStage σ).hwodd = σ.hwodd := by
  simp [statusStage]

@[simp] theorem statusStage_cfg (σ : State) :
    (statusStage σ).cfg = σ.cfg := by
  simp [statusStage]

@[simp] theorem statusStage_schedule (σ : State) :
    (statusStage σ).schedule = σ.schedule := by
  simp [statusStage]

@[simp] theorem statusStage_response (σ : State) :
    (statusStage σ).response = σ.response := by
  simp [statusStage]

@[simp] theorem statusStage_result (σ : State) :
    (statusStage σ).result = σ.result := by
  simp [statusStage]

@[simp] theorem statusStage_freeCount (σ : State) :
    (statusStage σ).freeCount = σ.freeCount := by
  simp [statusStage]

/-! ### getDescriptor -/

@[simp] theorem getDescriptor_istat (v i l : Half) (σ : State) :
    (getDescriptor v i l σ).istat = σ.istat := by
  unfold getDescriptor; split <;> simp

@[simp] theorem getDescriptor_inten (v i l : Half) (σ : State) :
    (getDescriptor v i l σ).inten = σ.inten := by
  unfold getDescriptor; split <;> simp

@[simp] theorem getDescriptor_errstat (v i l : Half) (σ : State) :
    (getDescriptor v i l σ).errstat = σ.errstat := by
  unfold getDescriptor; split <;> simp

@[simp] theorem getDescriptor_statFifo (v i l : Half) (σ : State) :
    (getDescriptor v i l σ).statFifo = σ.statFifo := by
  unfold getDescriptor; split <;> simp

@[simp] theorem getDescriptor_addr (v i l : Half) (σ : State) :
    (getDescriptor v i l σ).addr = σ.addr := by
  unfold getDescriptor; split <;> simp

@[simp] theorem getDescriptor_lastSetup (v i l : Half) (σ : State) :
    (getDescriptor v i l σ).lastSetup = σ.lastSetup := by
  unfold getDescriptor; split <;> simp

@[simp] theorem getDescriptor_dstatus (v i l : Half) (σ : State) :
    (getDescriptor v i l σ).dstatus = σ.dstatus := by
  unfold getDescriptor; split <;> simp

@[simp] theorem getDescriptor_dph (v i l : Half) (σ : State) :
    (getDescriptor v i l σ).dph = σ.dph := by
  unfold getDescriptor; split <;> simp

@[simp] theorem getDescriptor_hwodd (v i l : Half) (σ : State) :
    (getDescriptor v i l σ).hwodd = σ.hwodd := by
  unfold getDescriptor; split <;> simp

@[simp] theorem getDescriptor_cfg (v i l : Half) (σ : State) :
    (getDescriptor v i l σ).cfg = σ.cfg := by
  unfold getDescriptor; split <;> simp

@[simp] theorem getDescriptor_schedule (v i l : Half) (σ : State) :
    (getDescriptor v i l σ).schedule = σ.schedule := by
  unfold getDescriptor; split <;> simp

@[simp] theorem getDescriptor_response (v i l : Half) (σ : State) :
    (getDescriptor v i l σ).response = σ.response := by
  unfold getDescriptor; split <;> simp

@[simp] theorem getDescriptor_result (v i l : Half) (σ : State) :
    (getDescriptor v i l σ).result = σ.result := by
  unfold getDescriptor; split <;> simp

@[simp] theorem getDescriptor_freeCount (v i l : Half) (σ : State) :
    (getDescriptor v i l σ).freeCount = σ.freeCount := by
  unfold getDescriptor; split <;> simp

/-! ### setupRequest -/

@[simp] theorem setupRequest_istat (σ : State) :
    (setupRequest σ).istat = σ.istat := by
  unfold setupRequest; split <;> simp

@[simp] theorem setupRequest_inten (σ : State) :
    (setupRequest σ).inten = σ.inten := by
  unfold setupRequest; split <;> simp

@[simp] theorem setupRequest_errstat (σ : State) :
    (setupRequest σ).errstat = σ.errstat := by
  unfold setupRequest; split <;> simp

@[simp] theorem setupRequest_statFifo (σ : State) :
    (setupRequest σ).statFifo = σ.statFifo := by
  unfold setupRequest; split <;> simp

@[simp] theorem setupRequest_addr (σ : State) :
    (setupRequest σ).addr = σ.addr := by
  unfold setupRequest; split <;> simp

@[simp] theorem setupRequest_lastSetup (σ : State) :
    (setupRequest σ).lastSetup = σ.lastSetup := by
  unfold setupRequest; split <;> simp

@[simp] theorem setupRequest_dstatus (σ : State) :
    (setupRequest σ).dstatus = σ.dstatus := by
  unfold setupRequest; split <;> simp

@[simp] theorem setupRequest_dph (σ : State) :
    (setupRequest σ).dph = σ.dph := by
  unfold setupRequest; split <;> simp

@[simp] theorem setupRequest_hwodd (σ : State) :
    (setupRequest σ).hwodd = σ.hwodd := by
  unfold setupRequest; split <;> simp

@[simp] theorem setupRequest_cfg (σ : State) :
    (setupRequest σ).cfg = σ.cfg := by
  unfold setupRequest; split <;> simp

@[simp] theorem setupRequest_schedule (σ : State) :
    (setupRequest σ).schedule = σ.schedule := by
  unfold setupRequest; split <;> simp

@[simp] theorem setupRequest_response (σ : State) :
    (setupRequest σ).response = σ.response := by
  unfold setupRequest; split <;> simp

@[simp] theorem setupRequest_result (σ : State) :
    (setupRequest σ).result = σ.result := by
  unfold setupRequest; split <;> simp

@[simp] theorem setupRequest_freeCount (σ : State) :
    (setupRequest σ).freeCount = σ.freeCount := by
  unfold setupRequest; split <;> simp

/-! ### openTransfer -/

@[simp] theorem openTransfer_istat (s : Slot) (ptr : Word) (σ : State) :
    (openTransfer s ptr σ).istat = σ.istat := by
  simp [openTransfer]

@[simp] theorem openTransfer_inten (s : Slot) (ptr : Word) (σ : State) :
    (openTransfer s ptr σ).inten = σ.inten := by
  simp [openTransfer]

@[simp] theorem openTransfer_errstat (s : Slot) (ptr : Word) (σ : State) :
    (openTransfer s ptr σ).errstat = σ.errstat := by
  simp [openTransfer]

@[simp] theorem openTransfer_statFifo (s : Slot) (ptr : Word) (σ : State) :
    (openTransfer s ptr σ).statFifo = σ.statFifo := by
  simp [openTransfer]

@[simp] theorem openTransfer_addr (s : Slot) (ptr : Word) (σ : State) :
    (openTransfer s ptr σ).addr = σ.addr := by
  simp [openTransfer]

@[simp] theorem openTransfer_endpt (s : Slot) (ptr : Word) (σ : State) :
    (openTransfer s ptr σ).endpt = σ.endpt := by
  simp [openTransfer]

@[simp] theorem openTransfer_par (s : Slot) (ptr : Word) (σ : State) :
    (openTransfer s ptr σ).par = σ.par := by
  simp [openTransfer]

@[simp] theorem openTransfer_dstatus (s : Slot) (ptr : Word) (σ : State) :
    (openTransfer s ptr σ).dstatus = σ.dstatus := by
  simp [openTransfer]

@[simp] theorem openTransfer_dph (s : Slot) (ptr : Word) (σ : State) :
    (openTransfer s ptr σ).dph = σ.dph := by
  simp [openTransfer]

@[simp] theorem openTransfer_hwodd (s : Slot) (ptr : Word) (σ : State) :
    (openTransfer s ptr σ).hwodd = σ.hwodd := by
  simp [openTransfer]

@[simp] theorem openTransfer_cfg (s : Slot) (ptr : Word) (σ : State) :
    (openTransfer s ptr σ).cfg = σ.cfg := by
  simp [openTransfer]

@[simp] theorem openTransfer_schedule (s : Slot) (ptr : Word) (σ : State) :
    (openTransfer s ptr σ).schedule = σ.schedule := by
  simp [openTransfer]

@[simp] theorem openTransfer_response (s : Slot) (ptr : Word) (σ : State) :
    (openTransfer s ptr σ).response = σ.response := by
  simp [openTransfer]

@[simp] theorem openTransfer_result (s : Slot) (ptr : Word) (σ : State) :
    (openTransfer s ptr σ).result = σ.result := by
  simp [openTransfer]

@[simp] theorem openTransfer_freeCount (s : Slot) (ptr : Word) (σ : State) :
    (openTransfer s ptr σ).freeCount = σ.freeCount := by
  simp [openTransfer]

/-! ### ep0OnSetup -/

@[simp] theorem ep0OnSetup_istat (s : Slot) (ptr : Word) (σ : State) :
    (ep0OnSetup s ptr σ).istat = σ.istat := by
  simp [ep0OnSetup]

@[simp] theorem ep0OnSetup_inten (s : Slot) (ptr : Word) (σ : State) :
    (ep0OnSetup s ptr σ).inten = σ.inten := by
  simp [ep0OnSetup]

@[simp] theorem ep0OnSetup_errstat (s : Slot) (ptr : Word) (σ : State) :
    (ep0OnSetup s ptr σ).errstat = σ.errstat := by
  simp [ep0OnSetup]

@[simp] theorem ep0OnSetup_statFifo (s : Slot) (ptr : Word) (σ : State) :
    (ep0OnSetup s ptr σ).statFifo = σ.statFifo := by
  simp [ep0OnSetup]

@[simp] theorem ep0OnSetup_addr (s : Slot) (ptr : Word) (σ : State) :
    (ep0OnSetup s ptr σ).addr = σ.addr := by
  simp [ep0OnSetup]

@[simp] theorem ep0OnSetup_dstatus (s : Slot) (ptr : Word) (σ : State) :
    (ep0OnSetup s ptr σ).dstatus = σ.dstatus := by
  simp [ep0OnSetup]

@[simp] theorem ep0OnSetup_dph (s : Slot) (ptr : Word) (σ : State) :
    (ep0OnSetup s ptr σ).dph = σ.dph := by
  simp [ep0OnSetup]

@[simp] theorem ep0OnSetup_hwodd (s : Slot) (ptr : Word) (σ : State) :
    (ep0OnSetup s ptr σ).hwodd = σ.hwodd := by
  simp [ep0OnSetup]

@[simp] theorem ep0OnSetup_cfg (s : Slot) (ptr : Word) (σ : State) :
    (ep0OnSetup s ptr σ).cfg = σ.cfg := by
  simp [ep0OnSetup]

@[simp] theorem ep0OnSetup_schedule (s : Slot) (ptr : Word) (σ : State) :
    (ep0OnSetup s ptr σ).schedule = σ.schedule := by
  simp [ep0OnSetup]

@[simp] theorem ep0OnSetup_response (s : Slot) (ptr : Word) (σ : State) :
    (ep0OnSetup s ptr σ).response = σ.response := by
  simp [ep0OnSetup]

@[simp] theorem ep0OnSetup_result (s : Slot) (ptr : Word) (σ : State) :
    (ep0OnSetup s ptr σ).result = σ.result := by
  simp [ep0OnSetup]

@[simp] theorem ep0OnSetup_freeCount (s : Slot) (ptr : Word) (σ : State) :
    (ep0OnSetup s ptr σ).freeCount = σ.freeCount := by
  simp [ep0OnSetup]

/-! ### pushChunk -/

@[simp] theorem pushChunk_istat (σ : State) :
    (pushChunk σ).istat = σ.istat := by
  unfold pushChunk; split <;> simp

@[simp] theorem pushChunk_inten (σ : State) :
    (pushChunk σ).inten = σ.inten := by
  unfold pushChunk; split <;> simp

@[simp] theorem pushChunk_errstat (σ : State) :
    (pushChunk σ).errstat = σ.errstat := by
  unfold pushChunk; split <;> simp

@[simp] theorem pushChunk_statFifo (σ : State) :
    (pushChunk σ).statFifo = σ.statFifo := by
  unfold pushChunk; split <;> simp

@[simp] theorem pushChunk_addr (σ : State) :
    (pushChunk σ).addr = σ.addr := by
  unfold pushChunk; split <;> simp

@[simp] theorem pushChunk_endpt (σ : State) :
    (pushChunk σ).endpt = σ.endpt := by
  unfold pushChunk; split <;> simp

@[simp] theorem pushChunk_lastSetup (σ : State) :
    (pushChunk σ).lastSetup = σ.lastSetup := by
  unfold pushChunk; split <;> simp

@[simp] theorem pushChunk_dstatus (σ : State) :
    (pushChunk σ).dstatus = σ.dstatus := by
  unfold pushChunk; split <;> simp

@[simp] theorem pushChunk_dph (σ : State) :
    (pushChunk σ).dph = σ.dph := by
  unfold pushChunk; split <;> simp

@[simp] theorem pushChunk_ep0State (σ : State) :
    (pushChunk σ).ep0State = σ.ep0State := by
  unfold pushChunk; split <;> simp

@[simp] theorem pushChunk_hwodd (σ : State) :
    (pushChunk σ).hwodd = σ.hwodd := by
  unfold pushChunk; split <;> simp

@[simp] theorem pushChunk_cfg (σ : State) :
    (pushChunk σ).cfg = σ.cfg := by
  unfold pushChunk; split <;> simp

@[simp] theorem pushChunk_schedule (σ : State) :
    (pushChunk σ).schedule = σ.schedule := by
  unfold pushChunk; split <;> simp

@[simp] theorem pushChunk_response (σ : State) :
    (pushChunk σ).response = σ.response := by
  unfold pushChunk; split <;> simp

@[simp] theorem pushChunk_result (σ : State) :
    (pushChunk σ).result = σ.result := by
  unfold pushChunk; split <;> simp

@[simp] theorem pushChunk_freeCount (σ : State) :
    (pushChunk σ).freeCount = σ.freeCount := by
  unfold pushChunk; split <;> simp

/-! ### applyAddress -/

@[simp] theorem applyAddress_istat (σ : State) :
    (applyAddress σ).istat = σ.istat := (rfl)

@[simp] theorem applyAddress_inten (σ : State) :
    (applyAddress σ).inten = σ.inten := (rfl)

@[simp] theorem applyAddress_errstat (σ : State) :
    (applyAddress σ).errstat = σ.errstat := (rfl)

@[simp] theorem applyAddress_statFifo (σ : State) :
    (applyAddress σ).statFifo = σ.statFifo := (rfl)

@[simp] theorem applyAddress_endpt (σ : State) :
    (applyAddress σ).endpt = σ.endpt := (rfl)

@[simp] theorem applyAddress_mem (σ : State) :
    (applyAddress σ).mem = σ.mem := (rfl)

@[simp] theorem applyAddress_par (σ : State) :
    (applyAddress σ).par = σ.par := (rfl)

@[simp] theorem applyAddress_tog (σ : State) :
    (applyAddress σ).tog = σ.tog := (rfl)

@[simp] theorem applyAddress_cur (σ : State) :
    (applyAddress σ).cur = σ.cur := (rfl)

@[simp] theorem applyAddress_lastSetup (σ : State) :
    (applyAddress σ).lastSetup = σ.lastSetup := (rfl)

@[simp] theorem applyAddress_dstatus (σ : State) :
    (applyAddress σ).dstatus = σ.dstatus := (rfl)

@[simp] theorem applyAddress_dph (σ : State) :
    (applyAddress σ).dph = σ.dph := (rfl)

@[simp] theorem applyAddress_ep0State (σ : State) :
    (applyAddress σ).ep0State = σ.ep0State := (rfl)

@[simp] theorem applyAddress_hwodd (σ : State) :
    (applyAddress σ).hwodd = σ.hwodd := (rfl)

@[simp] theorem applyAddress_faults (σ : State) :
    (applyAddress σ).faults = σ.faults := (rfl)

@[simp] theorem applyAddress_cfg (σ : State) :
    (applyAddress σ).cfg = σ.cfg := (rfl)

@[simp] theorem applyAddress_schedule (σ : State) :
    (applyAddress σ).schedule = σ.schedule := (rfl)

@[simp] theorem applyAddress_response (σ : State) :
    (applyAddress σ).response = σ.response := (rfl)

@[simp] theorem applyAddress_result (σ : State) :
    (applyAddress σ).result = σ.result := (rfl)

@[simp] theorem applyAddress_freeCount (σ : State) :
    (applyAddress σ).freeCount = σ.freeCount := (rfl)

/-! ### ep0OnIn -/

@[simp] theorem ep0OnIn_istat (σ : State) :
    (ep0OnIn σ).istat = σ.istat := by
  simp [ep0OnIn]

@[simp] theorem ep0OnIn_inten (σ : State) :
    (ep0OnIn σ).inten = σ.inten := by
  simp [ep0OnIn]

@[simp] theorem ep0OnIn_errstat (σ : State) :
    (ep0OnIn σ).errstat = σ.errstat := by
  simp [ep0OnIn]

@[simp] theorem ep0OnIn_statFifo (σ : State) :
    (ep0OnIn σ).statFifo = σ.statFifo := by
  simp [ep0OnIn]

@[simp] theorem ep0OnIn_endpt (σ : State) :
    (ep0OnIn σ).endpt = σ.endpt := by
  simp [ep0OnIn]

@[simp] theorem ep0OnIn_lastSetup (σ : State) :
    (ep0OnIn σ).lastSetup = σ.lastSetup := by
  simp [ep0OnIn]

@[simp] theorem ep0OnIn_dstatus (σ : State) :
    (ep0OnIn σ).dstatus = σ.dstatus := by
  simp [ep0OnIn]

@[simp] theorem ep0OnIn_dph (σ : State) :
    (ep0OnIn σ).dph = σ.dph := by
  simp [ep0OnIn]

@[simp] theorem ep0OnIn_hwodd (σ : State) :
    (ep0OnIn σ).hwodd = σ.hwodd := by
  simp [ep0OnIn]

@[simp] theorem ep0OnIn_cfg (σ : State) :
    (ep0OnIn σ).cfg = σ.cfg := by
  simp [ep0OnIn]

@[simp] theorem ep0OnIn_schedule (σ : State) :
    (ep0OnIn σ).schedule = σ.schedule := by
  simp [ep0OnIn]

@[simp] theorem ep0OnIn_response (σ : State) :
    (ep0OnIn σ).response = σ.response := by
  simp [ep0OnIn]

@[simp] theorem ep0OnIn_result (σ : State) :
    (ep0OnIn σ).result = σ.result := by
  simp [ep0OnIn]

@[simp] theorem ep0OnIn_freeCount (σ : State) :
    (ep0OnIn σ).freeCount = σ.freeCount := by
  simp [ep0OnIn]

/-! ### ep0OnOut -/

@[simp] theorem ep0OnOut_istat (s : Slot) (σ : State) :
    (ep0OnOut s σ).istat = σ.istat := by
  simp [ep0OnOut]

@[simp] theorem ep0OnOut_inten (s : Slot) (σ : State) :
    (ep0OnOut s σ).inten = σ.inten := by
  simp [ep0OnOut]

@[simp] theorem ep0OnOut_errstat (s : Slot) (σ : State) :
    (ep0OnOut s σ).errstat = σ.errstat := by
  simp [ep0OnOut]

@[simp] theorem ep0OnOut_statFifo (s : Slot) (σ : State) :
    (ep0OnOut s σ).statFifo = σ.statFifo := by
  simp [ep0OnOut]

@[simp] theorem ep0OnOut_addr (s : Slot) (σ : State) :
    (ep0OnOut s σ).addr = σ.addr := by
  simp [ep0OnOut]

@[simp] theorem ep0OnOut_endpt (s : Slot) (σ : State) :
    (ep0OnOut s σ).endpt = σ.endpt := by
  simp [ep0OnOut]

@[simp] theorem ep0OnOut_par (s : Slot) (σ : State) :
    (ep0OnOut s σ).par = σ.par := by
  simp [ep0OnOut]

@[simp] theorem ep0OnOut_tog (s : Slot) (σ : State) :
    (ep0OnOut s σ).tog = σ.tog := by
  simp [ep0OnOut]

@[simp] theorem ep0OnOut_cur (s : Slot) (σ : State) :
    (ep0OnOut s σ).cur = σ.cur := by
  simp [ep0OnOut]

@[simp] theorem ep0OnOut_lastSetup (s : Slot) (σ : State) :
    (ep0OnOut s σ).lastSetup = σ.lastSetup := by
  simp [ep0OnOut]

@[simp] theorem ep0OnOut_dstatus (s : Slot) (σ : State) :
    (ep0OnOut s σ).dstatus = σ.dstatus := by
  simp [ep0OnOut]

@[simp] theorem ep0OnOut_dph (s : Slot) (σ : State) :
    (ep0OnOut s σ).dph = σ.dph := by
  simp [ep0OnOut]

@[simp] theorem ep0OnOut_hwodd (s : Slot) (σ : State) :
    (ep0OnOut s σ).hwodd = σ.hwodd := by
  simp [ep0OnOut]

@[simp] theorem ep0OnOut_cfg (s : Slot) (σ : State) :
    (ep0OnOut s σ).cfg = σ.cfg := by
  simp [ep0OnOut]

@[simp] theorem ep0OnOut_schedule (s : Slot) (σ : State) :
    (ep0OnOut s σ).schedule = σ.schedule := by
  simp [ep0OnOut]

@[simp] theorem ep0OnOut_response (s : Slot) (σ : State) :
    (ep0OnOut s σ).response = σ.response := by
  simp [ep0OnOut]

@[simp] theorem ep0OnOut_result (s : Slot) (σ : State) :
    (ep0OnOut s σ).result = σ.result := by
  simp [ep0OnOut]

@[simp] theorem ep0OnOut_freeCount (s : Slot) (σ : State) :
    (ep0OnOut s σ).freeCount = σ.freeCount := by
  simp [ep0OnOut]

/-! ### ep0Handler -/

@[simp] theorem ep0Handler_istat (stat : Byte) (σ : State) :
    (ep0Handler stat σ).istat = σ.istat := by
  unfold ep0Handler; split <;> simp

@[simp] theorem ep0Handler_inten (stat : Byte) (σ : State) :
    (ep0Handler stat σ).inten = σ.inten := by
  unfold ep0Handler; split <;> simp

@[simp] theorem ep0Handler_errstat (stat : Byte) (σ : State) :
    (ep0Handler stat σ).errstat = σ.errstat := by
  unfold ep0Handler; split <;> simp

@[simp] theorem ep0Handler_statFifo (stat : Byte) (σ : State) :
    (ep0Handler stat σ).statFifo = σ.statFifo := by
  unfold ep0Handler; split <;> simp

@[simp] theorem ep0Handler_dstatus (stat : Byte) (σ : State) :
    (ep0Handler stat σ).dstatus = σ.dstatus := by
  unfold ep0Handler; split <;> simp

@[simp] theorem ep0Handler_dph (stat : Byte) (σ : State) :
    (ep0Handler stat σ).dph = σ.dph := by
  unfold ep0Handler; split <;> simp

@[simp] theorem ep0Handler_hwodd (stat : Byte) (σ : State) :
    (ep0Handler stat σ).hwodd = σ.hwodd := by
  unfold ep0Handler; split <;> simp

@[simp] theorem ep0Handler_cfg (stat : Byte) (σ : State) :
    (ep0Handler stat σ).cfg = σ.cfg := by
  unfold ep0Handler; split <;> simp

@[simp] theorem ep0Handler_schedule (stat : Byte) (σ : State) :
    (ep0Handler stat σ).schedule = σ.schedule := by
  unfold ep0Handler; split <;> simp

@[simp] theorem ep0Handler_response (stat : Byte) (σ : State) :
    (ep0Handler stat σ).response = σ.response := by
  unfold ep0Handler; split <;> simp

@[simp] theorem ep0Handler_result (stat : Byte) (σ : State) :
    (ep0Handler stat σ).result = σ.result := by
  unfold ep0Handler; split <;> simp

@[simp] theorem ep0Handler_freeCount (stat : Byte) (σ : State) :
    (ep0Handler stat σ).freeCount = σ.freeCount := by
  unfold ep0Handler; split <;> simp

/-! ### ep1OnIn -/

@[simp] theorem ep1OnIn_istat (σ : State) :
    (ep1OnIn σ).istat = σ.istat := by
  simp [ep1OnIn]

@[simp] theorem ep1OnIn_inten (σ : State) :
    (ep1OnIn σ).inten = σ.inten := by
  simp [ep1OnIn]

@[simp] theorem ep1OnIn_errstat (σ : State) :
    (ep1OnIn σ).errstat = σ.errstat := by
  simp [ep1OnIn]

@[simp] theorem ep1OnIn_statFifo (σ : State) :
    (ep1OnIn σ).statFifo = σ.statFifo := by
  simp [ep1OnIn]

@[simp] theorem ep1OnIn_addr (σ : State) :
    (ep1OnIn σ).addr = σ.addr := by
  simp [ep1OnIn]

@[simp] theorem ep1OnIn_endpt (σ : State) :
    (ep1OnIn σ).endpt = σ.endpt := by
  simp [ep1OnIn]

@[simp] theorem ep1OnIn_cur (σ : State) :
    (ep1OnIn σ).cur = σ.cur := by
  simp [ep1OnIn]

@[simp] theorem ep1OnIn_lastSetup (σ : State) :
    (ep1OnIn σ).lastSetup = σ.lastSetup := by
  simp [ep1OnIn]

@[simp] theorem ep1OnIn_dstatus (σ : State) :
    (ep1OnIn σ).dstatus = σ.dstatus := by
  simp [ep1OnIn]

@[simp] theorem ep1OnIn_dph (σ : State) :
    (ep1OnIn σ).dph = σ.dph := by
  simp [ep1OnIn]

@[simp] theorem ep1OnIn_ep0State (σ : State) :
    (ep1OnIn σ).ep0State = σ.ep0State := by
  simp [ep1OnIn]

@[simp] theorem ep1OnIn_hwodd (σ : State) :
    (ep1OnIn σ).hwodd = σ.hwodd := by
  simp [ep1OnIn]

@[simp] theorem ep1OnIn_cfg (σ : State) :
    (ep1OnIn σ).cfg = σ.cfg := by
  simp [ep1OnIn]

@[simp] theorem ep1OnIn_schedule (σ : State) :
    (ep1OnIn σ).schedule = σ.schedule := by
  simp [ep1OnIn]

@[simp] theorem ep1OnIn_response (σ : State) :
    (ep1OnIn σ).response = σ.response := by
  simp [ep1OnIn]

@[simp] theorem ep1OnIn_result (σ : State) :
    (ep1OnIn σ).result = σ.result := by
  simp [ep1OnIn]

@[simp] theorem ep1OnIn_freeCount (σ : State) :
    (ep1OnIn σ).freeCount = σ.freeCount := by
  simp [ep1OnIn]

/-! ### ep1OnOut -/

@[simp] theorem ep1OnOut_istat (s : Slot) (σ : State) :
    (ep1OnOut s σ).istat = σ.istat := by
  simp [ep1OnOut]

@[simp] theorem ep1OnOut_inten (s : Slot) (σ : State) :
    (ep1OnOut s σ).inten = σ.inten := by
  simp [ep1OnOut]

@[simp] theorem ep1OnOut_errstat (s : Slot) (σ : State) :
    (ep1OnOut s σ).errstat = σ.errstat := by
  simp [ep1OnOut]

@[simp] theorem ep1OnOut_statFifo (s : Slot) (σ : State) :
    (ep1OnOut s σ).statFifo = σ.statFifo := by
  simp [ep1OnOut]

@[simp] theorem ep1OnOut_addr (s : Slot) (σ : State) :
    (ep1OnOut s σ).addr = σ.addr := by
  simp [ep1OnOut]

@[simp] theorem ep1OnOut_endpt (s : Slot) (σ : State) :
    (ep1OnOut s σ).endpt = σ.endpt := by
  simp [ep1OnOut]

@[simp] theorem ep1OnOut_par (s : Slot) (σ : State) :
    (ep1OnOut s σ).par = σ.par := by
  simp [ep1OnOut]

@[simp] theorem ep1OnOut_tog (s : Slot) (σ : State) :
    (ep1OnOut s σ).tog = σ.tog := by
  simp [ep1OnOut]

@[simp] theorem ep1OnOut_cur (s : Slot) (σ : State) :
    (ep1OnOut s σ).cur = σ.cur := by
  simp [ep1OnOut]

@[simp] theorem ep1OnOut_lastSetup (s : Slot) (σ : State) :
    (ep1OnOut s σ).lastSetup = σ.lastSetup := by
  simp [ep1OnOut]

@[simp] theorem ep1OnOut_dstatus (s : Slot) (σ : State) :
    (ep1OnOut s σ).dstatus = σ.dstatus := by
  simp [ep1OnOut]

@[simp] theorem ep1OnOut_dph (s : Slot) (σ : State) :
    (ep1OnOut s σ).dph = σ.dph := by
  simp [ep1OnOut]

@[simp] theorem ep1OnOut_ep0State (s : Slot) (σ : State) :
    (ep1OnOut s σ).ep0State = σ.ep0State := by
  simp [ep1OnOut]

@[simp] theorem ep1OnOut_hwodd (s : Slot) (σ : State) :
    (ep1OnOut s σ).hwodd = σ.hwodd := by
  simp [ep1OnOut]

@[simp] theorem ep1OnOut_cfg (s : Slot) (σ : State) :
    (ep1OnOut s σ).cfg = σ.cfg := by
  simp [ep1OnOut]

@[simp] theorem ep1OnOut_schedule (s : Slot) (σ : State) :
    (ep1OnOut s σ).schedule = σ.schedule := by
  simp [ep1OnOut]

@[simp] theorem ep1OnOut_response (s : Slot) (σ : State) :
    (ep1OnOut s σ).response = σ.response := by
  simp [ep1OnOut]

@[simp] theorem ep1OnOut_result (s : Slot) (σ : State) :
    (ep1OnOut s σ).result = σ.result := by
  simp [ep1OnOut]

@[simp] theorem ep1OnOut_freeCount (s : Slot) (σ : State) :
    (ep1OnOut s σ).freeCount = σ.freeCount := by
  simp [ep1OnOut]

/-! ### ep1Handler -/

@[simp] theorem ep1Handler_istat (stat : Byte) (σ : State) :
    (ep1Handler stat σ).istat = σ.istat := by
  unfold ep1Handler; split <;> simp

@[simp] theorem ep1Handler_inten (stat : Byte) (σ : State) :
    (ep1Handler stat σ).inten = σ.inten := by
  unfold ep1Handler; split <;> simp

@[simp] theorem ep1Handler_errstat (stat : Byte) (σ : State) :
    (ep1Handler stat σ).errstat = σ.errstat := by
  unfold ep1Handler; split <;> simp

@[simp] theorem ep1Handler_statFifo (stat : Byte) (σ : State) :
    (ep1Handler stat σ).statFifo = σ.statFifo := by
  unfold ep1Handler; split <;> simp

@[simp] theorem ep1Handler_addr (stat : Byte) (σ : State) :
    (ep1Handler stat σ).addr = σ.addr := by
  unfold ep1Handler; split <;> simp

@[simp] theorem ep1Handler_endpt (stat : Byte) (σ : State) :
    (ep1Handler stat σ).endpt = σ.endpt := by
  unfold ep1Handler; split <;> simp

@[simp] theorem ep1Handler_cur (stat : Byte) (σ : State) :
    (ep1Handler stat σ).cur = σ.cur := by
  unfold ep1Handler; split <;> simp

@[simp] theorem ep1Handler_lastSetup (stat : Byte) (σ : State) :
    (ep1Handler stat σ).lastSetup = σ.lastSetup := by
  unfold ep1Handler; split <;> simp

@[simp] theorem ep1Handler_dstatus (stat : Byte) (σ : State) :
    (ep1Handler stat σ).dstatus = σ.dstatus := by
  unfold ep1Handler; split <;> simp

@[simp] theorem ep1Handler_dph (stat : Byte) (σ : State) :
    (ep1Handler stat σ).dph = σ.dph := by
  unfold ep1Handler; split <;> simp

@[simp] theorem ep1Handler_ep0State (stat : Byte) (σ : State) :
    (ep1Handler stat σ).ep0State = σ.ep0State := by
  unfold ep1Handler; split <;> simp

@[simp] theorem ep1Handler_hwodd (stat : Byte) (σ : State) :
    (ep1Handler stat σ).hwodd = σ.hwodd := by
  unfold ep1Handler; split <;> simp

@[simp] theorem ep1Handler_cfg (stat : Byte) (σ : State) :
    (ep1Handler stat σ).cfg = σ.cfg := by
  unfold ep1Handler; split <;> simp

@[simp] theorem ep1Handler_schedule (stat : Byte) (σ : State) :
    (ep1Handler stat σ).schedule = σ.schedule := by
  unfold ep1Handler; split <;> simp

@[simp] theorem ep1Handler_response (stat : Byte) (σ : State) :
    (ep1Handler stat σ).response = σ.response := by
  unfold ep1Handler; split <;> simp

@[simp] theorem ep1Handler_result (stat : Byte) (σ : State) :
    (ep1Handler stat σ).result = σ.result := by
  unfold ep1Handler; split <;> simp

@[simp] theorem ep1Handler_freeCount (stat : Byte) (σ : State) :
    (ep1Handler stat σ).freeCount = σ.freeCount := by
  unfold ep1Handler; split <;> simp

/-! ### callHandler -/

@[simp] theorem callHandler_istat (stat : Byte) (σ : State) :
    (callHandler stat σ).istat = σ.istat := by
  unfold callHandler; split <;> simp

@[simp] theorem callHandler_inten (stat : Byte) (σ : State) :
    (callHandler stat σ).inten = σ.inten := by
  unfold callHandler; split <;> simp

@[simp] theorem callHandler_errstat (stat : Byte) (σ : State) :
    (callHandler stat σ).errstat = σ.errstat := by
  unfold callHandler; split <;> simp

@[simp] theorem callHandler_statFifo (stat : Byte) (σ : State) :
    (callHandler stat σ).statFifo = σ.statFifo := by
  unfold callHandler; split <;> simp

@[simp] theorem callHandler_dstatus (stat : Byte) (σ : State) :
    (callHandler stat σ).dstatus = σ.dstatus := by
  unfold callHandler; split <;> simp

@[simp] theorem callHandler_dph (stat : Byte) (σ : State) :
    (callHandler stat σ).dph = σ.dph := by
  unfold callHandler; split <;> simp

@[simp] theorem callHandler_hwodd (stat : Byte) (σ : State) :
    (callHandler stat σ).hwodd = σ.hwodd := by
  unfold callHandler; split <;> simp

@[simp] theorem callHandler_cfg (stat : Byte) (σ : State) :
    (callHandler stat σ).cfg = σ.cfg := by
  unfold callHandler; split <;> simp

@[simp] theorem callHandler_schedule (stat : Byte) (σ : State) :
    (callHandler stat σ).schedule = σ.schedule := by
  unfold callHandler; split <;> simp

@[simp] theorem callHandler_response (stat : Byte) (σ : State) :
    (callHandler stat σ).response = σ.response := by
  unfold callHandler; split <;> simp

@[simp] theorem callHandler_result (stat : Byte) (σ : State) :
    (callHandler stat σ).result = σ.result := by
  unfold callHandler; split <;> simp

@[simp] theorem callHandler_freeCount (stat : Byte) (σ : State) :
    (callHandler stat σ).freeCount = σ.freeCount := by
  unfold callHandler; split <;> simp

/-! ### drainOne -/

@[simp] theorem drainOne_inten (σ : State) :
    (drainOne σ).inten = σ.inten := by
  unfold drainOne readStat; split <;> simp

@[simp] theorem drainOne_errstat (σ : State) :
    (drainOne σ).errstat = σ.errstat := by
  unfold drainOne readStat; split <;> simp

@[simp] theorem drainOne_dph (σ : State) :
    (drainOne σ).dph = σ.dph := by
  unfold drainOne readStat; split <;> simp

@[simp] theorem drainOne_hwodd (σ : State) :
    (drainOne σ).hwodd = σ.hwodd := by
  unfold drainOne readStat; split <;> simp

@[simp] theorem drainOne_cfg (σ : State) :
    (drainOne σ).cfg = σ.cfg := by
  unfold drainOne readStat; split <;> simp

@[simp] theorem drainOne_schedule (σ : State) :
    (drainOne σ).schedule = σ.schedule := by
  unfold drainOne readStat; split <;> simp

@[simp] theorem drainOne_response (σ : State) :
    (drainOne σ).response = σ.response := by
  unfold drainOne readStat; split <;> simp

@[simp] theorem drainOne_result (σ : State) :
    (drainOne σ).result = σ.result := by
  unfold drainOne readStat; split <;> simp

/-! ### clearBdt -/

@[simp] theorem clearBdt_istat (n : Nat) (σ : State) :
    (clearBdt n σ).istat = σ.istat := by
  induction n with
  | zero => rfl
  | succ n ih => simpa [clearBdt] using ih

@[simp] theorem clearBdt_inten (n : Nat) (σ : State) :
    (clearBdt n σ).inten = σ.inten := by
  induction n with
  | zero => rfl
  | succ n ih => simpa [clearBdt] using ih

@[simp] theorem clearBdt_errstat (n : Nat) (σ : State) :
    (clearBdt n σ).errstat = σ.errstat := by
  induction n with
  | zero => rfl
  | succ n ih => simpa [clearBdt] using ih

@[simp] theorem clearBdt_statFifo (n : Nat) (σ : State) :
    (clearBdt n σ).statFifo = σ.statFifo := by
  induction n with
  | zero => rfl
  | succ n ih => simpa [clearBdt] using ih

@[simp] theorem clearBdt_addr (n : Nat) (σ : State) :
    (clearBdt n σ).addr = σ.addr := by
  induction n with
  | zero => rfl
  | succ n ih => simpa [clearBdt] using ih

@[simp] theorem clearBdt_endpt (n : Nat) (σ : State) :
    (clearBdt n σ).endpt = σ.endpt := by
  induction n with
  | zero => rfl
  | succ n ih => simpa [clearBdt] using ih

@[simp] theorem clearBdt_par (n : Nat) (σ : State) :
    (clearBdt n σ).par = σ.par := by
  induction n with
  | zero => rfl
  | succ n ih => simpa [clearBdt] using ih

@[simp] theorem clearBdt_tog (n : Nat) (σ : State) :
    (clearBdt n σ).tog = σ.tog := by
  induction n with
  | zero => rfl
  | succ n ih => simpa [clearBdt] using ih

@[simp] theorem clearBdt_cur (n : Nat) (σ : State) :
    (clearBdt n σ).cur = σ.cur := by
  induction n with
  | zero => rfl
  | succ n ih => simpa [clearBdt] using ih

@[simp] theorem clearBdt_lastSetup (n : Nat) (σ : State) :
    (clearBdt n σ).lastSetup = σ.lastSetup := by
  induction n with
  | zero => rfl
  | succ n ih => simpa [clearBdt] using ih

@[simp] theorem clearBdt_dstatus (n : Nat) (σ : State) :
    (clearBdt n σ).dstatus = σ.dstatus := by
  induction n with
  | zero => rfl
  | succ n ih => simpa [clearBdt] using ih

@[simp] theorem clearBdt_dph (n : Nat) (σ : State) :
    (clearBdt n σ).dph = σ.dph := by
  induction n with
  | zero => rfl
  | succ n ih => simpa [clearBdt] using ih

@[simp] theorem clearBdt_ep0State (n : Nat) (σ : State) :
    (clearBdt n σ).ep0State = σ.ep0State := by
  induction n with
  | zero => rfl
  | succ n ih => simpa [clearBdt] using ih

@[simp] theorem clearBdt_hwodd (n : Nat) (σ : State) :
    (clearBdt n σ).hwodd = σ.hwodd := by
  induction n with
  | zero => rfl
  | succ n ih => simpa [clearBdt] using ih

@[simp] theorem clearBdt_faults (n : Nat) (σ : State) :
    (clearBdt n σ).faults = σ.faults := by
  induction n with
  | zero => rfl
  | succ n ih => simpa [clearBdt] using ih

@[simp] theorem clearBdt_cfg (n : Nat) (σ : State) :
    (clearBdt n σ).cfg = σ.cfg := by
  induction n with
  | zero => rfl
  | succ n ih => simpa [clearBdt] using ih

@[simp] theorem clearBdt_schedule (n : Nat) (σ : State) :
    (clearBdt n σ).schedule = σ.schedule := by
  induction n with
  | zero => rfl
  | succ n ih => simpa [clearBdt] using ih

@[simp] theorem clearBdt_response (n : Nat) (σ : State) :
    (clearBdt n σ).response = σ.response := by
  induction n with
  | zero => rfl
  | succ n ih => simpa [clearBdt] using ih

@[simp] theorem clearBdt_result (n : Nat) (σ : State) :
    (clearBdt n σ).result = σ.result := by
  induction n with
  | zero => rfl
  | succ n ih => simpa [clearBdt] using ih

@[simp] theorem clearBdt_freeCount (n : Nat) (σ : State) :
    (clearBdt n σ).freeCount = σ.freeCount := by
  induction n with
  | zero => rfl
  | succ n ih => simpa [clearBdt] using ih

/-! ### reinitClear -/

@[simp] theorem reinitClear_istat (σ : State) :
    (reinitClear σ).istat = σ.istat := by
  simp [reinitClear]

@[simp] theorem reinitClear_inten (σ : State) :
    (reinitClear σ).inten = σ.inten := by
  simp [reinitClear]

@[simp] theorem reinitClear_errstat (σ : State) :
    (reinitClear σ).errstat = σ.errstat := by
  simp [reinitClear]

@[simp] theorem reinitClear_addr (σ : State) :
    (reinitClear σ).addr = σ.addr := by
  simp [reinitClear]

@[simp] theorem reinitClear_endpt (σ : State) :
    (reinitClear σ).endpt = σ.endpt := by
  simp [reinitClear]

@[simp] theorem reinitClear_dstatus (σ : State) :
    (reinitClear σ).dstatus = σ.dstatus := by
  simp [reinitClear]

@[simp] theorem reinitClear_dph (σ : State) :
    (reinitClear σ).dph = σ.dph := by
  simp [reinitClear]

@[simp] theorem reinitClear_ep0State (σ : State) :
    (reinitClear σ).ep0State = σ.ep0State := by
  simp [reinitClear]

@[simp] theorem reinitClear_cfg (σ : State) :
    (reinitClear σ).cfg = σ.cfg := by
  simp [reinitClear]

@[simp] theorem reinitClear_schedule (σ : State) :
    (reinitClear σ).schedule = σ.schedule := by
  simp [reinitClear]

@[simp] theorem reinitClear_response (σ : State) :
    (reinitClear σ).response = σ.response := by
  simp [reinitClear]

@[simp] theorem reinitClear_result (σ : State) :
    (reinitClear σ).result = σ.result := by
  simp [reinitClear]

@[simp] theorem reinitClear_freeCount (σ : State) :
    (reinitClear σ).freeCount = σ.freeCount := by
  simp [reinitClear]

/-! ### reinitArm -/

@[simp] theorem reinitArm_istat (σ : State) :
    (reinitArm σ).istat = σ.istat := by
  simp [reinitArm]

@[simp] theorem reinitArm_inten (σ : State) :
    (reinitArm σ).inten = σ.inten := by
  simp [reinitArm]

@[simp] theorem reinitArm_errstat (σ : State) :
    (reinitArm σ).errstat = σ.errstat := by
  simp [reinitArm]

@[simp] theorem reinitArm_statFifo (σ : State) :
    (reinitArm σ).statFifo = σ.statFifo := by
  simp [reinitArm]

@[simp] theorem reinitArm_addr (σ : State) :
    (reinitArm σ).addr = σ.addr := by
  simp [reinitArm]

@[simp] theorem reinitArm_endpt (σ : State) :
    (reinitArm σ).endpt = σ.endpt := by
  simp [reinitArm]

@[simp] theorem reinitArm_par (σ : State) :
    (reinitArm σ).par = σ.par := by
  simp [reinitArm]

@[simp] theorem reinitArm_tog (σ : State) :
    (reinitArm σ).tog = σ.tog := by
  simp [reinitArm]

@[simp] theorem reinitArm_cur (σ : State) :
    (reinitArm σ).cur = σ.cur := by
  simp [reinitArm]

@[simp] theorem reinitArm_lastSetup (σ : State) :
    (reinitArm σ).lastSetup = σ.lastSetup := by
  simp [reinitArm]

@[simp] theorem reinitArm_dstatus (σ : State) :
    (reinitArm σ).dstatus = σ.dstatus := by
  simp [reinitArm]

@[simp] theorem reinitArm_dph (σ : State) :
    (reinitArm σ).dph = σ.dph := by
  simp [reinitArm]

@[simp] theorem reinitArm_ep0State (σ : State) :
    (reinitArm σ).ep0State = σ.ep0State := by
  simp [reinitArm]

@[simp] theorem reinitArm_hwodd (σ : State) :
    (reinitArm σ).hwodd = σ.hwodd := by
  simp [reinitArm]

@[simp] theorem reinitArm_cfg (σ : State) :
    (reinitArm σ).cfg = σ.cfg := by
  simp [reinitArm]

@[simp] theorem reinitArm_schedule (σ : State) :
    (reinitArm σ).schedule = σ.schedule := by
  simp [reinitArm]

@[simp] theorem reinitArm_response (σ : State) :
    (reinitArm σ).response = σ.response := by
  simp [reinitArm]

@[simp] theorem reinitArm_result (σ : State) :
    (reinitArm σ).result = σ.result := by
  simp [reinitArm]

@[simp] theorem reinitArm_freeCount (σ : State) :
    (reinitArm σ).freeCount = σ.freeCount := by
  simp [reinitArm]

/-! ### reinitPrime -/

@[simp] theorem reinitPrime_istat (σ : State) :
    (reinitPrime σ).istat = σ.istat := by
  unfold reinitPrime; split <;> simp

@[simp] theorem reinitPrime_inten (σ : State) :
    (reinitPrime σ).inten = σ.inten := by
  unfold reinitPrime; split <;> simp

@[simp] theorem reinitPrime_errstat (σ : State) :
    (reinitPrime σ).errstat = σ.errstat := by
  unfold reinitPrime; split <;> simp

@[simp] theorem reinitPrime_statFifo (σ : State) :
    (reinitPrime σ).statFifo = σ.statFifo := by
  unfold reinitPrime; split <;> simp

@[simp] theorem reinitPrime_addr (σ : State) :
    (reinitPrime σ).addr = σ.addr := by
  unfold reinitPrime; split <;> simp

@[simp] theorem reinitPrime_endpt (σ : State) :
    (reinitPrime σ).endpt = σ.endpt := by
  unfold reinitPrime; split <;> simp

@[simp] theorem reinitPrime_cur (σ : State) :
    (reinitPrime σ).cur = σ.cur := by
  unfold reinitPrime; split <;> simp

@[simp] theorem reinitPrime_lastSetup (σ : State) :
    (reinitPrime σ).lastSetup = σ.lastSetup := by
  unfold reinitPrime; split <;> simp

@[simp] theorem reinitPrime_dstatus (σ : State) :
    (reinitPrime σ).dstatus = σ.dstatus := by
  unfold reinitPrime; split <;> simp

@[simp] theorem reinitPrime_dph (σ : State) :
    (reinitPrime σ).dph = σ.dph := by
  unfold reinitPrime; split <;> simp

@[simp] theorem reinitPrime_ep0State (σ : State) :
    (reinitPrime σ).ep0State = σ.ep0State := by
  unfold reinitPrime; split <;> simp

@[simp] theorem reinitPrime_hwodd (σ : State) :
    (reinitPrime σ).hwodd = σ.hwodd := by
  unfold reinitPrime; split <;> simp

@[simp] theorem reinitPrime_cfg (σ : State) :
    (reinitPrime σ).cfg = σ.cfg := by
  unfold reinitPrime; split <;> simp

@[simp] theorem reinitPrime_schedule (σ : State) :
    (reinitPrime σ).schedule = σ.schedule := by
  unfold reinitPrime; split <;> simp

@[simp] theorem reinitPrime_response (σ : State) :
    (reinitPrime σ).response = σ.response := by
  unfold reinitPrime; split <;> simp

@[simp] theorem reinitPrime_result (σ : State) :
    (reinitPrime σ).result = σ.result := by
  unfold reinitPrime; split <;> simp

@[simp] theorem reinitPrime_freeCount (σ : State) :
    (reinitPrime σ).freeCount = σ.freeCount := by
  unfold reinitPrime; split <;> simp

/-! ### reinitRegisters -/

@[simp] theorem reinitRegisters_statFifo (σ : State) :
    (reinitRegisters σ).statFifo = σ.statFifo := (rfl)

@[simp] theorem reinitRegisters_mem (σ : State) :
    (reinitRegisters σ).mem = σ.mem := (rfl)

@[simp] theorem reinitRegisters_par (σ : State) :
    (reinitRegisters σ).par = σ.par := (rfl)

@[simp] theorem reinitRegisters_tog (σ : State) :
    (reinitRegisters σ).tog = σ.tog := (rfl)

@[simp] theorem reinitRegisters_cur (σ : State) :
    (reinitRegisters σ).cur = σ.cur := (rfl)

@[simp] theorem reinitRegisters_lastSetup (σ : State) :
    (reinitRegisters σ).lastSetup = σ.lastSetup := (rfl)

@[simp] theorem reinitRegisters_dph (σ : State) :
    (reinitRegisters σ).dph = σ.dph := (rfl)

@[simp] theorem reinitRegisters_hwodd (σ : State) :
    (reinitRegisters σ).hwodd = σ.hwodd := (rfl)

@[simp] theorem reinitRegisters_faults (σ : State) :
    (reinitRegisters σ).faults = σ.faults := (rfl)

@[simp] theorem reinitRegisters_cfg (σ : State) :
    (reinitRegisters σ).cfg = σ.cfg := (rfl)

@[simp] theorem reinitRegisters_schedule (σ : State) :
    (reinitRegisters σ).schedule = σ.schedule := (rfl)

@[simp] theorem reinitRegisters_response (σ : State) :
    (reinitRegisters σ).response = σ.response := (rfl)

@[simp] theorem reinitRegisters_result (σ : State) :
    (reinitRegisters σ).result = σ.result := (rfl)

@[simp] theorem reinitRegisters_freeCount (σ : State) :
    (reinitRegisters σ).freeCount = σ.freeCount := (rfl)

/-! ### reinit -/

@[simp] theorem reinit_dph (σ : State) :
    (reinit σ).dph = σ.dph := by
  simp [reinit]

@[simp] theorem reinit_cfg (σ : State) :
    (reinit σ).cfg = σ.cfg := by
  simp [reinit]

@[simp] theorem reinit_schedule (σ : State) :
    (reinit σ).schedule = σ.schedule := by
  simp [reinit]

@[simp] theorem reinit_response (σ : State) :
    (reinit σ).response = σ.response := by
  simp [reinit]

@[simp] theorem reinit_result (σ : State) :
    (reinit σ).result = σ.result := by
  simp [reinit]

@[simp] theorem reinit_freeCount (σ : State) :
    (reinit σ).freeCount = σ.freeCount := by
  simp [reinit]

/-! ### leaveStalled -/

@[simp] theorem leaveStalled_istat (σ : State) :
    (leaveStalled σ).istat = σ.istat := (rfl)

@[simp] theorem leaveStalled_inten (σ : State) :
    (leaveStalled σ).inten = σ.inten := (rfl)

@[simp] theorem leaveStalled_errstat (σ : State) :
    (leaveStalled σ).errstat = σ.errstat := (rfl)

@[simp] theorem leaveStalled_statFifo (σ : State) :
    (leaveStalled σ).statFifo = σ.statFifo := (rfl)

@[simp] theorem leaveStalled_addr (σ : State) :
    (leaveStalled σ).addr = σ.addr := (rfl)

@[simp] theorem leaveStalled_endpt (σ : State) :
    (leaveStalled σ).endpt = σ.endpt := (rfl)

@[simp] theorem leaveStalled_mem (σ : State) :
    (leaveStalled σ).mem = σ.mem := (rfl)

@[simp] theorem leaveStalled_par (σ : State) :
    (leaveStalled σ).par = σ.par := (rfl)

@[simp] theorem leaveStalled_tog (σ : State) :
    (leaveStalled σ).tog = σ.tog := (rfl)

@[simp] theorem leaveStalled_cur (σ : State) :
    (leaveStalled σ).cur = σ.cur := (rfl)

@[simp] theorem leaveStalled_lastSetup (σ : State) :
    (leaveStalled σ).lastSetup = σ.lastSetup := (rfl)

@[simp] theorem leaveStalled_dstatus (σ : State) :
    (leaveStalled σ).dstatus = σ.dstatus := (rfl)

@[simp] theorem leaveStalled_dph (σ : State) :
    (leaveStalled σ).dph = σ.dph := (rfl)

@[simp] theorem leaveStalled_hwodd (σ : State) :
    (leaveStalled σ).hwodd = σ.hwodd := (rfl)

@[simp] theorem leaveStalled_faults (σ : State) :
    (leaveStalled σ).faults = σ.faults := (rfl)

@[simp] theorem leaveStalled_cfg (σ : State) :
    (leaveStalled σ).cfg = σ.cfg := (rfl)

@[simp] theorem leaveStalled_schedule (σ : State) :
    (leaveStalled σ).schedule = σ.schedule := (rfl)

@[simp] theorem leaveStalled_response (σ : State) :
    (leaveStalled σ).response = σ.response := (rfl)

@[simp] theorem leaveStalled_result (σ : State) :
    (leaveStalled σ).result = σ.result := (rfl)

@[simp] theorem leaveStalled_freeCount (σ : State) :
    (leaveStalled σ).freeCount = σ.freeCount := (rfl)

/-! ### irqUsbrst -/

@[simp] theorem irqUsbrst_cfg (σ : State) :
    (irqUsbrst σ).cfg = σ.cfg := by
  unfold irqUsbrst; split <;> simp

@[simp] theorem irqUsbrst_schedule (σ : State) :
    (irqUsbrst σ).schedule = σ.schedule := by
  unfold irqUsbrst; split <;> simp

@[simp] theorem irqUsbrst_response (σ : State) :
    (irqUsbrst σ).response = σ.response := by
  unfold irqUsbrst; split <;> simp

@[simp] theorem irqUsbrst_result (σ : State) :
    (irqUsbrst σ).result = σ.result := by
  unfold irqUsbrst; split <;> simp

@[simp] theorem irqUsbrst_freeCount (σ : State) :
    (irqUsbrst σ).freeCount = σ.freeCount := by
  unfold irqUsbrst; split <;> simp

/-! ### irqError -/

@[simp] theorem irqError_inten (σ : State) :
    (irqError σ).inten = σ.inten := by
  unfold irqError; split <;> simp

@[simp] theorem irqError_addr (σ : State) :
    (irqError σ).addr = σ.addr := by
  unfold irqError; split <;> simp

@[simp] theorem irqError_endpt (σ : State) :
    (irqError σ).endpt = σ.endpt := by
  unfold irqError; split <;> simp

@[simp] theorem irqError_mem (σ : State) :
    (irqError σ).mem = σ.mem := by
  unfold irqError; split <;> simp

@[simp] theorem irqError_par (σ : State) :
    (irqError σ).par = σ.par := by
  unfold irqError; split <;> simp

@[simp] theorem irqError_tog (σ : State) :
    (irqError σ).tog = σ.tog := by
  unfold irqError; split <;> simp

@[simp] theorem irqError_cur (σ : State) :
    (irqError σ).cur = σ.cur := by
  unfold irqError; split <;> simp

@[simp] theorem irqError_lastSetup (σ : State) :
    (irqError σ).lastSetup = σ.lastSetup := by
  unfold irqError; split <;> simp

@[simp] theorem irqError_dstatus (σ : State) :
    (irqError σ).dstatus = σ.dstatus := by
  unfold irqError; split <;> simp

@[simp] theorem irqError_ep0State (σ : State) :
    (irqError σ).ep0State = σ.ep0State := by
  unfold irqError; split <;> simp

@[simp] theorem irqError_hwodd (σ : State) :
    (irqError σ).hwodd = σ.hwodd := by
  unfold irqError; split <;> simp

@[simp] theorem irqError_faults (σ : State) :
    (irqError σ).faults = σ.faults := by
  unfold irqError; split <;> simp

@[simp] theorem irqError_cfg (σ : State) :
    (irqError σ).cfg = σ.cfg := by
  unfold irqError; split <;> simp

@[simp] theorem irqError_schedule (σ : State) :
    (irqError σ).schedule = σ.schedule := by
  unfold irqError; split <;> simp

@[simp] theorem irqError_response (σ : State) :
    (irqError σ).response = σ.response := by
  unfold irqError; split <;> simp

@[simp] theorem irqError_result (σ : State) :
    (irqError σ).result = σ.result := by
  unfold irqError; split <;> simp

@[simp] theorem irqError_freeCount (σ : State) :
    (irqError σ).freeCount = σ.freeCount := by
  unfold irqError; split <;> simp

/-! ### irqSoftok -/

@[simp] theorem irqSoftok_inten (σ : State) :
    (irqSoftok σ).inten = σ.inten := by
  unfold irqSoftok; split <;> simp

@[simp] theorem irqSoftok_errstat (σ : State) :
    (irqSoftok σ).errstat = σ.errstat := by
  unfold irqSoftok; split <;> simp

@[simp] theorem irqSoftok_addr (σ : State) :
    (irqSoftok σ).addr = σ.addr := by
  unfold irqSoftok; split <;> simp

@[simp] theorem irqSoftok_endpt (σ : State) :
    (irqSoftok σ).endpt = σ.endpt := by
  unfold irqSoftok; split <;> simp

@[simp] theorem irqSoftok_mem (σ : State) :
    (irqSoftok σ).mem = σ.mem := by
  unfold irqSoftok; split <;> simp

@[simp] theorem irqSoftok_par (σ : State) :
    (irqSoftok σ).par = σ.par := by
  unfold irqSoftok; split <;> simp

@[simp] theorem irqSoftok_tog (σ : State) :
    (irqSoftok σ).tog = σ.tog := by
  unfold irqSoftok; split <;> simp

@[simp] theorem irqSoftok_cur (σ : State) :
    (irqSoftok σ).cur = σ.cur := by
  unfold irqSoftok; split <;> simp

@[simp] theorem irqSoftok_lastSetup (σ : State) :
    (irqSoftok σ).lastSetup = σ.lastSetup := by
  unfold irqSoftok; split <;> simp

@[simp] theorem irqSoftok_dstatus (σ : State) :
    (irqSoftok σ).dstatus = σ.dstatus := by
  unfold irqSoftok; split <;> simp

@[simp] theorem irqSoftok_ep0State (σ : State) :
    (irqSoftok σ).ep0State = σ.ep0State := by
  unfold irqSoftok; split <;> simp

@[simp] theorem irqSoftok_hwodd (σ : State) :
    (irqSoftok σ).hwodd = σ.hwodd := by
  unfold irqSoftok; split <;> simp

@[simp] theorem irqSoftok_faults (σ : State) :
    (irqSoftok σ).faults = σ.faults := by
  unfold irqSoftok; split <;> simp

@[simp] theorem irqSoftok_cfg (σ : State) :
    (irqSoftok σ).cfg = σ.cfg := by
  unfold irqSoftok; split <;> simp

@[simp] theorem irqSoftok_schedule (σ : State) :
    (irqSoftok σ).schedule = σ.schedule := by
  unfold irqSoftok; split <;> simp

@[simp] theorem irqSoftok_response (σ : State) :
    (irqSoftok σ).response = σ.response := by
  unfold irqSoftok; split <;> simp

@[simp] theorem irqSoftok_result (σ : State) :
    (irqSoftok σ).result = σ.result := by
  unfold irqSoftok; split <;> simp

@[simp] theorem irqSoftok_freeCount (σ : State) :
    (irqSoftok σ).freeCount = σ.freeCount := by
  unfold irqSoftok; split <;> simp

/-! ### irqTokdne -/

@[simp] theorem irqTokdne_inten (σ : State) :
    (irqTokdne σ).inten = σ.inten := by
  unfold irqTokdne; split <;> simp

@[simp] theorem irqTokdne_errstat (σ : State) :
    (irqTokdne σ).errstat = σ.errstat := by
  unfold irqTokdne; split <;> simp

@[simp] theorem irqTokdne_hwodd (σ : State) :
    (irqTokdne σ).hwodd = σ.hwodd := by
  unfold irqTokdne; split <;> simp

@[simp] theorem irqTokdne_cfg (σ : State) :
    (irqTokdne σ).cfg = σ.cfg := by
  unfold irqTokdne; split <;> simp

@[simp] theorem irqTokdne_schedule (σ : State) :
    (irqTokdne σ).schedule = σ.schedule := by
  unfold irqTokdne; split <;> simp

@[simp] theorem irqTokdne_response (σ : State) :
    (irqTokdne σ).response = σ.response := by
  unfold irqTokdne; split <;> simp

@[simp] theorem irqTokdne_result (σ : State) :
    (irqTokdne σ).result = σ.result := by
  unfold irqTokdne; split <;> simp

/-! ### irqSleep -/

@[simp] theorem irqSleep_inten (σ : State) :
    (irqSleep σ).inten = σ.inten := by
  unfold irqSleep; split <;> simp

@[simp] theorem irqSleep_errstat (σ : State) :
    (irqSleep σ).errstat = σ.errstat := by
  unfold irqSleep; split <;> simp

@[simp] theorem irqSleep_addr (σ : State) :
    (irqSleep σ).addr = σ.addr := by
  unfold irqSleep; split <;> simp

@[simp] theorem irqSleep_endpt (σ : State) :
    (irqSleep σ).endpt = σ.endpt := by
  unfold irqSleep; split <;> simp

@[simp] theorem irqSleep_mem (σ : State) :
    (irqSleep σ).mem = σ.mem := by
  unfold irqSleep; split <;> simp

@[simp] theorem irqSleep_par (σ : State) :
    (irqSleep σ).par = σ.par := by
  unfold irqSleep; split <;> simp

@[simp] theorem irqSleep_tog (σ : State) :
    (irqSleep σ).tog = σ.tog := by
  unfold irqSleep; split <;> simp

@[simp] theorem irqSleep_cur (σ : State) :
    (irqSleep σ).cur = σ.cur := by
  unfold irqSleep; split <;> simp

@[simp] theorem irqSleep_lastSetup (σ : State) :
    (irqSleep σ).lastSetup = σ.lastSetup := by
  unfold irqSleep; split <;> simp

@[simp] theorem irqSleep_dstatus (σ : State) :
    (irqSleep σ).dstatus = σ.dstatus := by
  unfold irqSleep; split <;> simp

@[simp] theorem irqSleep_ep0State (σ : State) :
    (irqSleep σ).ep0State = σ.ep0State := by
  unfold irqSleep; split <;> simp

@[simp] theorem irqSleep_hwodd (σ : State) :
    (irqSleep σ).hwodd = σ.hwodd := by
  unfold irqSleep; split <;> simp

@[simp] theorem irqSleep_faults (σ : State) :
    (irqSleep σ).faults = σ.faults := by
  unfold irqSleep; split <;> simp

@[simp] theorem irqSleep_cfg (σ : State) :
    (irqSleep σ).cfg = σ.cfg := by
  unfold irqSleep; split <;> simp

@[simp] theorem irqSleep_schedule (σ : State) :
    (irqSleep σ).schedule = σ.schedule := by
  unfold irqSleep; split <;> simp

@[simp] theorem irqSleep_response (σ : State) :
    (irqSleep σ).response = σ.response := by
  unfold irqSleep; split <;> simp

@[simp] theorem irqSleep_result (σ : State) :
    (irqSleep σ).result = σ.result := by
  unfold irqSleep; split <;> simp

@[simp] theorem irqSleep_freeCount (σ : State) :
    (irqSleep σ).freeCount = σ.freeCount := by
  unfold irqSleep; split <;> simp

/-! ### irqStall -/

@[simp] theorem irqStall_inten (σ : State) :
    (irqStall σ).inten = σ.inten := by
  unfold irqStall; split <;> simp

@[simp] theorem irqStall_errstat (σ : State) :
    (irqStall σ).errstat = σ.errstat := by
  unfold irqStall; split <;> simp

@[simp] theorem irqStall_addr (σ : State) :
    (irqStall σ).addr = σ.addr := by
  unfold irqStall; split <;> simp

@[simp] theorem irqStall_mem (σ : State) :
    (irqStall σ).mem = σ.mem := by
  unfold irqStall; split <;> simp

@[simp] theorem irqStall_par (σ : State) :
    (irqStall σ).par = σ.par := by
  unfold irqStall; split <;> simp

@[simp] theorem irqStall_tog (σ : State) :
    (irqStall σ).tog = σ.tog := by
  unfold irqStall; split <;> simp

@[simp] theorem irqStall_cur (σ : State) :
    (irqStall σ).cur = σ.cur := by
  unfold irqStall; split <;> simp

@[simp] theorem irqStall_lastSetup (σ : State) :
    (irqStall σ).lastSetup = σ.lastSetup := by
  unfold irqStall; split <;> simp

@[simp] theorem irqStall_dstatus (σ : State) :
    (irqStall σ).dstatus = σ.dstatus := by
  unfold irqStall; split <;> simp

@[simp] theorem irqStall_hwodd (σ : State) :
    (irqStall σ).hwodd = σ.hwodd := by
  unfold irqStall; split <;> simp

@[simp] theorem irqStall_faults (σ : State) :
    (irqStall σ).faults = σ.faults := by
  unfold irqStall; split <;> simp

@[simp] theorem irqStall_cfg (σ : State) :
    (irqStall σ).cfg = σ.cfg := by
  unfold irqStall; split <;> simp

@[simp] theorem irqStall_schedule (σ : State) :
    (irqStall σ).schedule = σ.schedule := by
  unfold irqStall; split <;> simp

@[simp] theorem irqStall_response (σ : State) :
    (irqStall σ).response = σ.response := by
  unfold irqStall; split <;> simp

@[simp] theorem irqStall_result (σ : State) :
    (irqStall σ).result = σ.result := by
  unfold irqStall; split <;> simp

@[simp] theorem irqStall_freeCount (σ : State) :
    (irqStall σ).freeCount = σ.freeCount := by
  unfold irqStall; split <;> simp

end Sys2Proof.Machine
end

