-- ==== Sys2Proof/Laws/Formats.lean ====
section
/-! SUPPORT. The fields of each format read back as they were written. -/

namespace Sys2Proof.Machine

/-! ### BD_ARM (R91) -/

@[simp] theorem wordOwn_armWord (c : Count) (t : Bit) : wordOwn (armWord c t) = 1 := by
  ext i hi
  interval_cases i
  simp [wordOwn, armWord]

@[simp] theorem wordBC_armWord (c : Count) (t : Bit) : wordBC (armWord c t) = c := by
  ext i hi
  interval_cases i <;> simp [wordBC, armWord]

@[simp] theorem wordData01_armWord (c : Count) (t : Bit) : wordData01 (armWord c t) = t := by
  ext i hi
  interval_cases i
  simp [wordData01, armWord]

@[simp] theorem wordPid_armWord (c : Count) (t : Bit) : wordPid (armWord c t) = 0 := by
  ext i hi
  interval_cases i <;> simp [wordPid, armWord]

/-! ### BD_DONE (R92) -/

@[simp] theorem wordOwn_doneWord (n : Count) (t : Bit) (p : PidCode) : wordOwn (doneWord n t p) = 0 := by
  ext i hi
  interval_cases i
  simp [wordOwn, doneWord]

@[simp] theorem wordBC_doneWord (n : Count) (t : Bit) (p : PidCode) : wordBC (doneWord n t p) = n := by
  ext i hi
  interval_cases i <;> simp [wordBC, doneWord]

@[simp] theorem wordData01_doneWord (n : Count) (t : Bit) (p : PidCode) : wordData01 (doneWord n t p) = t := by
  ext i hi
  interval_cases i
  simp [wordData01, doneWord]

@[simp] theorem wordPid_doneWord (n : Count) (t : Bit) (p : PidCode) : wordPid (doneWord n t p) = p := by
  ext i hi
  interval_cases i <;> simp [wordPid, doneWord]

/-! ### A descriptor word with every field given -/

@[simp] theorem wordOwn_bdWordOf (n : Count) (o t : Bit) (p : PidCode) : wordOwn (bdWordOf n o t p) = o := by
  ext i hi
  interval_cases i
  simp [wordOwn, bdWordOf, doneWord]

@[simp] theorem wordBC_bdWordOf (n : Count) (o t : Bit) (p : PidCode) : wordBC (bdWordOf n o t p) = n := by
  ext i hi
  interval_cases i <;> simp [wordBC, bdWordOf, doneWord]

@[simp] theorem wordData01_bdWordOf (n : Count) (o t : Bit) (p : PidCode) : wordData01 (bdWordOf n o t p) = t := by
  ext i hi
  interval_cases i
  simp [wordData01, bdWordOf, doneWord]

@[simp] theorem wordPid_bdWordOf (n : Count) (o t : Bit) (p : PidCode) : wordPid (bdWordOf n o t p) = p := by
  ext i hi
  interval_cases i <;> simp [wordPid, bdWordOf, doneWord]

/-! ### The word 0, which REVOKE writes (R134) -/

@[simp] theorem wordOwn_zero : wordOwn 0 = 0 := by decide

@[simp] theorem wordPid_zero : wordPid 0 = 0 := by decide

/-! ### SLOT and STAT (R93, R95) -/

@[simp] theorem slotBits_endp (e : Endp) (d p : Bit) : (slotBits e d p).extractLsb' 2 4 = e := by
  revert e d p; decide

@[simp] theorem slotBits_dir (e : Endp) (d p : Bit) : (slotBits e d p).extractLsb' 1 1 = d := by
  revert e d p; decide

@[simp] theorem slotBits_parity (e : Endp) (d p : Bit) : (slotBits e d p).extractLsb' 0 1 = p := by
  revert e d p; decide

/-- The slot map is one to one (R130). -/
theorem slotBits_inj {e e' : Endp} {d d' p p' : Bit} :
    slotBits e d p = slotBits e' d' p' ↔ e = e' ∧ d = d' ∧ p = p' := by
  refine ⟨fun h => ?_, fun ⟨h1, h2, h3⟩ => by rw [h1, h2, h3]⟩
  exact ⟨by rw [← slotBits_endp e d p, h, slotBits_endp], by rw [← slotBits_dir e d p, h, slotBits_dir],
    by rw [← slotBits_parity e d p, h, slotBits_parity]⟩

@[simp] theorem statSlot_statWord (e : Endp) (d p : Bit) : statSlot (statWord e d p) = slotBits e d p := by
  revert e d p; decide

@[simp] theorem statEndp_statWord (e : Endp) (d p : Bit) : statEndp (statWord e d p) = e := by
  revert e d p; decide

@[simp] theorem statDir_statWord (e : Endp) (d p : Bit) : statDir (statWord e d p) = d := by
  revert e d p; decide

@[simp] theorem statOdd_statWord (e : Endp) (d p : Bit) : statOdd (statWord e d p) = p := by
  revert e d p; decide

/-- The reserved bits of a STAT entry are 0 (R95). -/
@[simp] theorem statWord_reserved (e : Endp) (d p : Bit) : (statWord e d p).extractLsb' 0 2 = 0 := by
  revert e d p; decide

/-- The slot a STAT value names, from its fields (R95). -/
theorem statSlot_eq (v : Byte) : statSlot v = slotBits (statEndp v) (statDir v) (statOdd v) := by
  revert v; decide

@[simp] theorem dirOfBit_dirBit (d : Dir) : dirOfBit (dirBit d) = d := by cases d <;> rfl

@[simp] theorem dirBit_dirOfBit (b : Bit) : dirBit (dirOfBit b) = b := by revert b; decide

/-! ### PID codes and requests (R94, R101) -/

@[simp] theorem pidKind_tokPid (k : TokKind) : pidKind (tokPid k) = some k := by cases k <;> decide

theorem pidKind_eq_some {pid : PidCode} {k : TokKind} : pidKind pid = some k ↔ pid = tokPid k := by
  revert pid; cases k <;> decide

/-! ### Little-endian pieces (R63) -/

theorem halfOf_halfBytes (v : Half) : halfOf (v.extractLsb' 0 8) (v.extractLsb' 8 8) = v := by
  unfold halfOf
  ext i hi
  simp only [BitVec.getElem_append, BitVec.getElem_extractLsb']
  split <;> (rw [← BitVec.getLsbD_eq_getElem]; congr 1; omega)

theorem wordOf_wordBytes (v : Word) :
    wordOf (v.extractLsb' 0 8) (v.extractLsb' 8 8) (v.extractLsb' 16 8) (v.extractLsb' 24 8) = v := by
  unfold wordOf
  ext i hi
  simp only [BitVec.getElem_append, BitVec.getElem_extractLsb']
  split
  · rw [← BitVec.getLsbD_eq_getElem]; congr 1; omega
  · split
    · rw [← BitVec.getLsbD_eq_getElem]; congr 1; omega
    · split <;> (rw [← BitVec.getLsbD_eq_getElem]; congr 1; omega)

/-! ### Register masks -/

/-- A flag's mask has exactly its own bit (R96). -/
theorem hasBit_flagMask (f g : Flag) : hasBit (flagMask f) (flagMask g) = decide (f = g) := by
  cases f <;> cases g <;> decide

end Sys2Proof.Machine
end

