-- ==== Sys2Proof/Laws/Memory.lean ====
section
/-! SUPPORT. What system memory's operations do: read after write, the canonical form, read-only bytes. -/

namespace Sys2Proof.Machine

/-! ### Cells -/

theorem lookupCell_insertCell (m : Memory) (a x : Nat) (b : Byte) :
    lookupCell (insertCell m a b) x = if x = a then some b else lookupCell m x := by
  induction m with
  | nil => simp [insertCell, lookupCell, eq_comm]
  | cons cell m ih =>
    obtain ⟨k, v⟩ := cell
    simp only [insertCell]
    split
    · simp [lookupCell, eq_comm (a := a)]
    · split
      · rename_i _ hk
        subst hk
        simp [lookupCell, eq_comm (a := k)]
        split <;> rfl
      · rename_i _ hk
        by_cases h : k = x
        · subst h; simp [lookupCell, hk]
        · simp [lookupCell, h, ih]

theorem lookupCell_eraseCell (m : Memory) (a x : Nat) :
    lookupCell (eraseCell m a) x = if x = a then none else lookupCell m x := by
  induction m with
  | nil => simp [eraseCell, lookupCell]
  | cons cell m ih =>
    obtain ⟨k, v⟩ := cell
    by_cases hk : k = a
    · subst hk
      by_cases h : x = k
      · subst h; simp [eraseCell, ih]
      · simp [eraseCell, lookupCell, ih, h, Ne.symm h]
    · by_cases h : k = x
      · subst h; simp [eraseCell, lookupCell, hk]
      · simp [eraseCell, lookupCell, hk, h, ih]

/-! ### Bytes -/

/-- A byte outside the read-only blocks reads back as written. -/
theorem readByte_writeByte_same {c : Config} {m : Memory} {a : Word} {b : Byte} (h : romByte c a.toNat = none) :
    readByte c (writeByte c m a b) a = b := by
  unfold readByte writeByte
  rw [h]
  by_cases hb : b = c.ramFill
  · simp [hb, lookupCell_eraseCell, unlisted, h]
  · simp [hb, lookupCell_insertCell]

/-- A write leaves every other address alone. -/
theorem readByte_writeByte_ne {c : Config} {m : Memory} {a x : Word} {b : Byte} (h : x ≠ a) :
    readByte c (writeByte c m a b) x = readByte c m x := by
  have hn : x.toNat ≠ a.toNat := fun e => h (BitVec.eq_of_toNat_eq e)
  unfold readByte writeByte
  split
  · rfl
  · split <;> simp [lookupCell_eraseCell, lookupCell_insertCell, hn]

/-- A write to a read-only address changes nothing. -/
theorem writeByte_rom {c : Config} {m : Memory} {a : Word} {b : Byte} (h : (romByte c a.toNat).isSome) :
    writeByte c m a b = m := by
  simp [writeByte, h]

/-! ### The canonical form -/

theorem risingFrom_mono {m : Memory} {lo lo' : Nat} (h : risingFrom m lo) (hl : lo' ≤ lo) : risingFrom m lo' := by
  cases m with
  | nil => rfl
  | cons cell m => simp only [risingFrom, Bool.and_eq_true, decide_eq_true_eq] at h ⊢; exact ⟨by omega, h.2⟩

theorem risingFrom_insertCell {m : Memory} {lo a : Nat} {b : Byte} (h : risingFrom m lo) (ha : lo ≤ a) :
    risingFrom (insertCell m a b) lo := by
  induction m generalizing lo with
  | nil => simp [insertCell, risingFrom, ha]
  | cons cell m ih =>
    obtain ⟨k, v⟩ := cell
    simp only [risingFrom, Bool.and_eq_true, decide_eq_true_eq] at h
    simp only [insertCell]
    split
    · simp only [risingFrom, Bool.and_eq_true, decide_eq_true_eq]
      exact ⟨ha, by omega, h.2⟩
    · split
      · rename_i _ hk
        subst hk
        simp [risingFrom, ha, h.2]
      · simp only [risingFrom, Bool.and_eq_true, decide_eq_true_eq]
        exact ⟨h.1, ih h.2 (by omega)⟩

theorem risingFrom_eraseCell {m : Memory} {lo a : Nat} (h : risingFrom m lo) : risingFrom (eraseCell m a) lo := by
  induction m generalizing lo with
  | nil => rfl
  | cons cell m ih =>
    obtain ⟨k, v⟩ := cell
    simp only [risingFrom, Bool.and_eq_true, decide_eq_true_eq] at h
    simp only [eraseCell]
    split
    · exact ih (risingFrom_mono h.2 (by omega))
    · simp only [risingFrom, Bool.and_eq_true, decide_eq_true_eq]
      exact ⟨h.1, ih h.2⟩

theorem mem_insertCell {m : Memory} {a : Nat} {b : Byte} {cell : Host.Cell} (h : cell ∈ insertCell m a b) :
    cell = (a, b) ∨ cell ∈ m := by
  induction m with
  | nil => simpa [insertCell] using h
  | cons q m ih =>
    obtain ⟨k, v⟩ := q
    simp only [insertCell] at h
    split at h
    · simpa using h
    · split at h
      · simp only [List.mem_cons] at h ⊢; tauto
      · simp only [List.mem_cons] at h ⊢
        rcases h with h | h
        · exact .inr (.inl h)
        · rcases ih h with h | h <;> tauto

theorem mem_eraseCell {m : Memory} {a : Nat} {cell : Host.Cell} (h : cell ∈ eraseCell m a) : cell ∈ m := by
  induction m with
  | nil => simp [eraseCell] at h
  | cons q m ih =>
    obtain ⟨k, v⟩ := q
    simp only [eraseCell] at h
    split at h
    · exact .tail _ (ih h)
    · rcases List.mem_cons.mp h with h | h
      · exact h ▸ .head _
      · exact .tail _ (ih h)

/-- The canonical form, as facts about the list. -/
theorem Memory.wf_iff {c : Config} {m : Memory} :
    Memory.wf c m = true ↔ risingFrom m 0 = true ∧
      ∀ cell ∈ m, cell.1 < 2 ^ 32 ∧ romByte c cell.1 = none ∧ cell.2 ≠ c.ramFill := by
  simp [Memory.wf, List.all_eq_true, and_assoc, Option.isNone_iff_eq_none]

/-- A byte write keeps the canonical form. -/
theorem wf_writeByte {c : Config} {m : Memory} {a : Word} {b : Byte} (h : Memory.wf c m) :
    Memory.wf c (writeByte c m a b) := by
  unfold writeByte
  split
  · exact h
  · rename_i hr
    obtain ⟨h1, h2⟩ := Memory.wf_iff.mp h
    split
    · exact Memory.wf_iff.mpr ⟨risingFrom_eraseCell h1, fun cell hc => h2 cell (mem_eraseCell hc)⟩
    · rename_i hb
      refine Memory.wf_iff.mpr ⟨risingFrom_insertCell h1 (Nat.zero_le _), fun cell hc => ?_⟩
      rcases mem_insertCell hc with rfl | hc
      · exact ⟨a.isLt, by simpa using hr, hb⟩
      · exact h2 cell hc

/-- A word write keeps the canonical form. -/
theorem wf_writeWord {c : Config} {m : Memory} {a v : Word} (h : Memory.wf c m) : Memory.wf c (writeWord c m a v) :=
  wf_writeByte (wf_writeByte (wf_writeByte (wf_writeByte h)))

/-- Packet writes keep the canonical form. -/
theorem wf_writeBytes {c : Config} {m : Memory} {a : Word} {bs : List Byte} (h : Memory.wf c m) :
    Memory.wf c (writeBytes c m a bs) := by
  induction bs generalizing m a with
  | nil => exact h
  | cons b bs ih => exact ih (wf_writeByte h)

/-- A descriptor word write keeps the canonical form. -/
theorem wf_writeBdWord {c : Config} {m : Memory} {s : Slot} {w : Word} (h : Memory.wf c m) :
    Memory.wf c (writeBdWord c m s w) := wf_writeWord h

/-- A buffer pointer write keeps the canonical form. -/
theorem wf_writeBdPtr {c : Config} {m : Memory} {s : Slot} {w : Word} (h : Memory.wf c m) :
    Memory.wf c (writeBdPtr c m s w) := wf_writeWord h

theorem wf_resetBdt {c : Config} {m : Memory} {n : Nat} (h : Memory.wf c m) : Memory.wf c (resetBdt c m n) := by
  induction n with
  | zero => exact h
  | succ n ih => exact wf_writeBdWord (wf_writeBdPtr ih)

/-- Memory after power-on has the canonical form, for every configuration. -/
theorem wf_powerOnMemory (c : Config) : Memory.wf c (powerOnMemory c) := wf_resetBdt (by simp [Memory.wf, risingFrom])

/-! ### Read-only bytes -/

theorem lookupCell_none_of_rom {c : Config} {m : Memory} {a : Nat}
    (h : ∀ cell ∈ m, romByte c cell.1 = none) (hr : (romByte c a).isSome) : lookupCell m a = none := by
  induction m with
  | nil => rfl
  | cons cell m ih =>
    obtain ⟨k, v⟩ := cell
    have hk : k ≠ a := by
      rintro rfl
      have := h (k, v) (.head _)
      simp [this] at hr
    simp [lookupCell, hk, ih (fun q hq => h q (.tail _ hq))]

/-- A read-only byte reads as the configuration's, whatever was written (R264). -/
theorem readByte_rom {c : Config} {m : Memory} {a : Word} {b : Byte} (hw : Memory.wf c m)
    (h : romByte c a.toNat = some b) : readByte c m a = b := by
  have := lookupCell_none_of_rom (fun q hq => ((Memory.wf_iff.mp hw).2 q hq).2.1) (a := a.toNat) (by simp [h])
  simp [readByte, this, unlisted, h]

/-- Where a read-only byte lies. -/
theorem romByte_some_region {c : Config} {a : Nat} {b : Byte} (h : romByte c a = some b) :
    ∃ d ∈ romBlocks c, d.pointer.toNat ≤ a ∧ a < d.pointer.toNat + d.bytes.length := by
  obtain ⟨d, hd, hb⟩ := List.exists_of_findSome?_eq_some h
  unfold blockByte at hb
  split at hb
  · have := (List.getElem?_eq_some_iff.mp hb).1
    exact ⟨d, hd, by omega, by omega⟩
  · simp at hb

/-- An address of the BDT is not read-only (R66). -/
theorem romByte_bdt {c : Config} (hc : ConfigOk c) {a : Nat} (h1 : c.bdtBase.toNat ≤ a) (h2 : a < c.bdtBase.toNat + 512) :
    romByte c a = none := by
  by_contra hn
  obtain ⟨b, hb⟩ := Option.ne_none_iff_exists'.mp hn
  obtain ⟨d, hd, h3, h4⟩ := romByte_some_region hb
  have hp := (List.pairwise_cons.mp hc.2.2.1).1 (blockRegion d)
    (List.mem_append_right _ (List.mem_map_of_mem hd))
  simp only [Region.disjoint, bdtRegion, blockRegion] at hp
  omega

/-- An address of an RX buffer is not read-only (R66). -/
theorem romByte_rx {c : Config} (hc : ConfigOk c) {r : Region} (hr : r ∈ rxRegions c) {a : Nat}
    (h1 : r.base ≤ a) (h2 : a < r.base + r.size) : romByte c a = none := by
  by_contra hn
  obtain ⟨b, hb⟩ := Option.ne_none_iff_exists'.mp hn
  obtain ⟨d, hd, h3, h4⟩ := romByte_some_region hb
  have hp := (List.pairwise_append.mp (List.pairwise_cons.mp hc.2.2.1).2).2.2 r hr (blockRegion d)
    (List.mem_map_of_mem hd)
  simp only [Region.disjoint, blockRegion] at hp
  omega

/-- The BDT and an RX buffer share no byte (R66). -/
theorem bdt_rx_disjoint {c : Config} (hc : ConfigOk c) {r : Region} (hr : r ∈ rxRegions c) :
    Region.disjoint (bdtRegion c) r :=
  (List.pairwise_cons.mp hc.2.2.1).1 r (List.mem_append_left _ hr)

/-! ### Words -/

theorem toNat_add_small {a : Word} {k : Nat} (h : a.toNat + k < 2 ^ 32) : (a + BitVec.ofNat 32 k).toNat = a.toNat + k := by
  rw [BitVec.toNat_add, BitVec.toNat_ofNat, Nat.mod_eq_of_lt (a := k) (by omega), Nat.mod_eq_of_lt h]

/-- Every byte outside the four of a word write reads as before. -/
theorem readByte_writeWord_ne {c : Config} {m : Memory} {a x v : Word}
    (h0 : x ≠ a) (h1 : x ≠ a + 1) (h2 : x ≠ a + 2) (h3 : x ≠ a + 3) :
    readByte c (writeWord c m a v) x = readByte c m x := by
  unfold writeWord
  rw [readByte_writeByte_ne h3, readByte_writeByte_ne h2, readByte_writeByte_ne h1, readByte_writeByte_ne h0]

/-- A word outside the read-only blocks reads back as written. -/
theorem readWord_writeWord_same {c : Config} {m : Memory} {a v : Word}
    (h0 : romByte c a.toNat = none) (h1 : romByte c (a + 1).toNat = none)
    (h2 : romByte c (a + 2).toNat = none) (h3 : romByte c (a + 3).toNat = none) :
    readWord c (writeWord c m a v) a = v := by
  have e0 : readByte c (writeWord c m a v) a = v.extractLsb' 0 8 := by
    unfold writeWord
    rw [readByte_writeByte_ne (by bv_omega), readByte_writeByte_ne (by bv_omega), readByte_writeByte_ne (by bv_omega),
      readByte_writeByte_same h0]
  have e1 : readByte c (writeWord c m a v) (a + 1) = v.extractLsb' 8 8 := by
    unfold writeWord
    rw [readByte_writeByte_ne (by bv_omega), readByte_writeByte_ne (by bv_omega), readByte_writeByte_same h1]
  have e2 : readByte c (writeWord c m a v) (a + 2) = v.extractLsb' 16 8 := by
    unfold writeWord
    rw [readByte_writeByte_ne (by bv_omega), readByte_writeByte_same h2]
  have e3 : readByte c (writeWord c m a v) (a + 3) = v.extractLsb' 24 8 := by
    unfold writeWord
    rw [readByte_writeByte_same h3]
  unfold readWord
  rw [e0, e1, e2, e3]
  exact wordOf_wordBytes v

/-- Two words whose bytes do not meet. -/
abbrev wordsApart (a x : Word) : Prop := a.toNat + 4 ≤ x.toNat ∨ x.toNat + 4 ≤ a.toNat

/-- A word write leaves a word elsewhere alone. -/
theorem readWord_writeWord_ne {c : Config} {m : Memory} {a x v : Word}
    (ha : a.toNat + 4 ≤ 2 ^ 32) (hx : x.toNat + 4 ≤ 2 ^ 32) (h : wordsApart a x) :
    readWord c (writeWord c m a v) x = readWord c m x := by
  unfold readWord
  unfold wordsApart at h
  rw [readByte_writeWord_ne (by bv_omega) (by bv_omega) (by bv_omega) (by bv_omega),
    readByte_writeWord_ne (by bv_omega) (by bv_omega) (by bv_omega) (by bv_omega),
    readByte_writeWord_ne (by bv_omega) (by bv_omega) (by bv_omega) (by bv_omega),
    readByte_writeWord_ne (by bv_omega) (by bv_omega) (by bv_omega) (by bv_omega)]

/-! ### Descriptors (R62) -/

/-- Under the start-up requirements slot `s` lies at BDT_BASE + 8 s, with no wrap. -/
theorem bdAddr_toNat {c : Config} (hc : ConfigOk c) (s : Slot) : (bdAddr c s).toNat = c.bdtBase.toNat + 8 * s.toNat := by
  have h := hc.2.1 (bdtRegion c) (.head _)
  simp only [bdtRegion] at h
  have hs := s.isLt
  unfold bdAddr
  rw [BitVec.toNat_add, BitVec.toNat_mul, BitVec.toNat_setWidth, show (8 : Word).toNat = 8 from rfl]
  omega

theorem bdAddr_lt {c : Config} (hc : ConfigOk c) (s : Slot) : (bdAddr c s).toNat + 8 ≤ 2 ^ 32 := by
  have h := hc.2.1 (bdtRegion c) (.head _)
  simp only [bdtRegion] at h
  have hs := s.isLt
  rw [bdAddr_toNat hc]
  omega

theorem bdAddr_ptr_toNat {c : Config} (hc : ConfigOk c) (s : Slot) : (bdAddr c s + 4).toNat = (bdAddr c s).toNat + 4 :=
  toNat_add_small (k := 4) (by have := bdAddr_lt hc s; omega)

theorem romByte_bd {c : Config} (hc : ConfigOk c) (s : Slot) {a : Nat} (h1 : (bdAddr c s).toNat ≤ a)
    (h2 : a < (bdAddr c s).toNat + 8) : romByte c a = none := by
  have hs := s.isLt
  rw [bdAddr_toNat hc] at h1 h2
  exact romByte_bdt hc (by omega) (by omega)

theorem bdAddr_apart {c : Config} (hc : ConfigOk c) {s t : Slot} (h : s ≠ t) :
    (bdAddr c s).toNat + 8 ≤ (bdAddr c t).toNat ∨ (bdAddr c t).toNat + 8 ≤ (bdAddr c s).toNat := by
  rw [bdAddr_toNat hc, bdAddr_toNat hc]
  have : s.toNat ≠ t.toNat := fun e => h (BitVec.eq_of_toNat_eq e)
  omega

/-- BD[s].word reads back as written. -/
theorem readBdWord_writeBdWord_same {c : Config} (hc : ConfigOk c) (m : Memory) (s : Slot) (w : Word) :
    readBdWord c (writeBdWord c m s w) s = w := by
  have h := bdAddr_lt hc s
  apply readWord_writeWord_same <;> apply romByte_bd hc s <;> bv_omega

/-- BD[s].ptr reads back as written. -/
theorem readBdPtr_writeBdPtr_same {c : Config} (hc : ConfigOk c) (m : Memory) (s : Slot) (p : Word) :
    readBdPtr c (writeBdPtr c m s p) s = p := by
  have h := bdAddr_lt hc s
  apply readWord_writeWord_same <;> apply romByte_bd hc s <;> bv_omega

/-- Writing a slot's word leaves every pointer alone. -/
theorem readBdPtr_writeBdWord {c : Config} (hc : ConfigOk c) (m : Memory) (s t : Slot) (w : Word) :
    readBdPtr c (writeBdWord c m s w) t = readBdPtr c m t := by
  have h := bdAddr_lt hc s
  have h' := bdAddr_lt hc t
  have e := bdAddr_ptr_toNat hc t
  have ha : s = t ∨ _ := (eq_or_ne s t).imp_right (bdAddr_apart hc)
  apply readWord_writeWord_ne
  · omega
  · omega
  · unfold wordsApart
    rcases ha with rfl | ha <;> omega

/-- Writing a slot's pointer leaves every word alone. -/
theorem readBdWord_writeBdPtr {c : Config} (hc : ConfigOk c) (m : Memory) (s t : Slot) (p : Word) :
    readBdWord c (writeBdPtr c m s p) t = readBdWord c m t := by
  have h := bdAddr_lt hc s
  have h' := bdAddr_lt hc t
  have e := bdAddr_ptr_toNat hc s
  have ha : s = t ∨ _ := (eq_or_ne s t).imp_right (bdAddr_apart hc)
  apply readWord_writeWord_ne
  · omega
  · omega
  · unfold wordsApart
    rcases ha with rfl | ha <;> omega

/-- Writing a slot's word leaves every other slot's word alone. -/
theorem readBdWord_writeBdWord_ne {c : Config} (hc : ConfigOk c) (m : Memory) {s t : Slot} (w : Word) (hst : s ≠ t) :
    readBdWord c (writeBdWord c m s w) t = readBdWord c m t := by
  have h := bdAddr_lt hc s
  have h' := bdAddr_lt hc t
  have ha := bdAddr_apart hc hst
  apply readWord_writeWord_ne
  · omega
  · omega
  · unfold wordsApart; omega

/-- Writing a slot's pointer leaves every other slot's pointer alone. -/
theorem readBdPtr_writeBdPtr_ne {c : Config} (hc : ConfigOk c) (m : Memory) {s t : Slot} (p : Word) (hst : s ≠ t) :
    readBdPtr c (writeBdPtr c m s p) t = readBdPtr c m t := by
  have h := bdAddr_lt hc s
  have h' := bdAddr_lt hc t
  have e := bdAddr_ptr_toNat hc s
  have e' := bdAddr_ptr_toNat hc t
  have ha := bdAddr_apart hc hst
  apply readWord_writeWord_ne
  · omega
  · omega
  · unfold wordsApart; omega

theorem readByte_writeBdWord_outside {c : Config} (hc : ConfigOk c) (m : Memory) {s : Slot} (w : Word) {a : Word}
    (h : ¬ inSlot c s a) : readByte c (writeBdWord c m s w) a = readByte c m a := by
  have hl := bdAddr_lt hc s
  unfold inSlot at h
  apply readByte_writeWord_ne <;> bv_omega

theorem readByte_writeBdPtr_outside {c : Config} (hc : ConfigOk c) (m : Memory) {s : Slot} (p : Word) {a : Word}
    (h : ¬ inSlot c s a) : readByte c (writeBdPtr c m s p) a = readByte c m a := by
  have hl := bdAddr_lt hc s
  unfold inSlot at h
  apply readByte_writeWord_ne <;> bv_omega

/-! ### Packets -/

theorem not_inPacket_succ {a x : Word} {n : Nat} (h : ¬ inPacket a (n + 1) x) : x ≠ a ∧ ¬ inPacket (a + 1) n x := by
  unfold inPacket at *
  have hne : x ≠ a := by rintro rfl; simp at h
  refine ⟨hne, ?_⟩
  bv_omega

/-- Packet writes leave every address outside the packet alone. -/
theorem readByte_writeBytes_outside {c : Config} {m : Memory} {a x : Word} {bs : List Byte}
    (h : ¬ inPacket a bs.length x) : readByte c (writeBytes c m a bs) x = readByte c m x := by
  induction bs generalizing m a with
  | nil => rfl
  | cons b bs ih =>
    obtain ⟨hne, h'⟩ := not_inPacket_succ h
    exact (ih h').trans (readByte_writeByte_ne hne)

/-- The bytes of a packet read back as written, where memory is not read-only. -/
theorem readByte_writeBytes_inside {c : Config} {m : Memory} {a : Word} {bs : List Byte} {i : Nat} {b : Byte}
    (hl : bs.length ≤ 2 ^ 32) (hb : bs[i]? = some b) (hr : romByte c (a + BitVec.ofNat 32 i).toNat = none) :
    readByte c (writeBytes c m a bs) (a + BitVec.ofNat 32 i) = b := by
  induction bs generalizing m a i with
  | nil => simp at hb
  | cons x bs ih =>
    simp only [List.length_cons] at hl
    cases i with
    | zero =>
      simp only [List.getElem?_cons_zero, Option.some.injEq] at hb
      subst hb
      have e : a + BitVec.ofNat 32 0 = a := by simp
      rw [e] at hr ⊢
      have hout : ¬ inPacket (a + 1) bs.length a := by unfold inPacket; bv_omega
      exact (readByte_writeBytes_outside hout).trans (readByte_writeByte_same hr)
    | succ i =>
      have e : a + BitVec.ofNat 32 (i + 1) = a + 1 + BitVec.ofNat 32 i := by
        rw [BitVec.add_assoc]; congr 1; apply BitVec.eq_of_toNat_eq; simp [Nat.add_comm]
      rw [e] at hr ⊢
      exact ih (by omega) (by simpa using hb) hr

theorem length_readBytes (c : Config) (m : Memory) (a : Word) (n : Nat) : (readBytes c m a n).length = n := by
  induction n generalizing a with
  | zero => rfl
  | succ n ih => simp [readBytes, ih]

/-- The bytes a packet read gives, one by one. -/
theorem getElem?_readBytes (c : Config) (m : Memory) (a : Word) (n : Nat) {i : Nat} (hi : i < n) :
    (readBytes c m a n)[i]? = some (readByte c m (a + BitVec.ofNat 32 i)) := by
  induction n generalizing a i with
  | zero => omega
  | succ n ih =>
    cases i with
    | zero => simp [readBytes]
    | succ i =>
      have e : a + BitVec.ofNat 32 (i + 1) = a + 1 + BitVec.ofNat 32 i := by
        rw [BitVec.add_assoc]; congr 1; apply BitVec.eq_of_toNat_eq; simp [Nat.add_comm]
      rw [e, ← ih (a + 1) (by omega)]
      rfl

end Sys2Proof.Machine
end

