-- ==== Sys2Proof/Laws/Ops.lean ====
section
/-! SUPPORT. One lemma per shared operation: everything it can do. -/

namespace Sys2Proof.Machine

/-! ### Per-endpoint registers -/

theorem getEp_setEp {α : Type} (v : Vector α 16) (e e' : Endp) (x : α) :
    getEp (setEp v e x) e' = if e' = e then x else getEp v e' := by
  unfold getEp setEp
  by_cases h : e' = e
  · subst h; simp
  · rw [if_neg h]
    have hne : e.toNat ≠ e'.toNat := fun h' => h (BitVec.eq_of_toNat_eq h'.symm)
    simp [hne]

@[simp] theorem getEp_setEp_same {α : Type} (v : Vector α 16) (e : Endp) (x : α) : getEp (setEp v e x) e = x := by
  rw [getEp_setEp, if_pos rfl]

theorem getEp_ext {α : Type} {v w : Vector α 16} (h : ∀ e, getEp v e = getEp w e) : v = w := by
  apply Vector.ext
  intro i hi
  have := h (BitVec.ofNat 4 i)
  simpa [getEp, BitVec.toNat_ofNat, Nat.mod_eq_of_lt hi] using this

@[simp] theorem DirPair.get_put (p : DirPair) (b : Bit) (d d' : Dir) :
    (p.put b d).get d' = if d' = d then b else p.get d' := by
  cases d <;> cases d' <;> rfl

/-- Writing one bit, and reading any. -/
theorem getDir_setDir (v : Vector DirPair 16) (e e' : Endp) (d d' : Dir) (b : Bit) :
    getDir (setDir v e d b) e' d' = if e' = e ∧ d' = d then b else getDir v e' d' := by
  unfold getDir setDir
  rw [getEp_setEp]
  by_cases h : e' = e
  · subst h; simp
  · simp [h]

/-- Two tables with the same bits are the same. -/
theorem getDir_ext {v w : Vector DirPair 16} (h : ∀ e d, getDir v e d = getDir w e d) : v = w :=
  getEp_ext fun e => by
    have h1 := h e .rx
    have h2 := h e .tx
    unfold getDir DirPair.get at h1 h2
    generalize getEp v e = p at *
    generalize getEp w e = q at *
    cases p; cases q; simp_all

/-- A flip changes exactly one bit (R9). -/
theorem flipped_flipDir (v : Vector DirPair 16) (e : Endp) (d : Dir) : Flipped v (flipDir v e d) e d :=
  fun _ _ => getDir_setDir ..

theorem getDir_flipDir (v : Vector DirPair 16) (e e' : Endp) (d d' : Dir) :
    getDir (flipDir v e d) e' d' = if e' = e ∧ d' = d then getDir v e d ^^^ 1 else getDir v e' d' := getDir_setDir ..

@[simp] theorem getDir_flipDir_same (v : Vector DirPair 16) (e : Endp) (d : Dir) :
    getDir (flipDir v e d) e d = getDir v e d ^^^ 1 := by simp [getDir_flipDir]

@[simp] theorem xor_one_xor_one (b : Bit) : b ^^^ 1 ^^^ 1 = b := by revert b; decide

@[simp] theorem xor_one_ne (b : Bit) : b ^^^ 1 ≠ b := by revert b; decide

/-- Two flips are none. -/
@[simp] theorem flipDir_flipDir (v : Vector DirPair 16) (e : Endp) (d : Dir) : flipDir (flipDir v e d) e d = v :=
  getDir_ext fun e' d' => by
    rw [getDir_flipDir]
    split
    · next h => rw [h.1, h.2, getDir_flipDir_same, xor_one_xor_one]
    · next h => rw [getDir_flipDir, if_neg h]

theorem endptWritten_setEp (v : Vector Byte 16) (e : Endp) (x : Byte) : EndptWritten v (setEp v e x) e x :=
  fun _ => getEp_setEp ..

/-! ### The fault record -/

/-- Recording a name adds it and nothing else (R41). -/
theorem mem_insertFault (fs : List Fault) (f g : Fault) : g ∈ insertFault fs f ↔ g ∈ fs ∨ g = f := by
  induction fs with
  | nil => simp [insertFault]
  | cons h fs ih =>
    unfold insertFault
    split
    · next hf => subst hf; simp only [List.mem_cons]; tauto
    · split
      · simp only [List.mem_cons]; tauto
      · simp only [List.mem_cons, ih]; tauto

theorem slot_inj {f g : Fault} (h : f.slot = g.slot) : f = g := by
  cases f; cases g; simp_all [Fault.slot]

/-- The record stays a set in rising order. -/
theorem pairwise_insertFault {fs : List Fault} (f : Fault) (h : fs.Pairwise (fun a b => a.slot < b.slot)) :
    (insertFault fs f).Pairwise (fun a b => a.slot < b.slot) := by
  induction fs with
  | nil => simp [insertFault]
  | cons g fs ih =>
    obtain ⟨hg, hfs⟩ := List.pairwise_cons.mp h
    unfold insertFault
    split
    · exact h
    · next hne =>
      split
      · next hlt =>
        refine List.pairwise_cons.mpr ⟨fun x hx => ?_, h⟩
        rcases List.mem_cons.mp hx with rfl | hx
        · exact hlt
        · have := hg x hx; bv_omega
      · next hge =>
        refine List.pairwise_cons.mpr ⟨fun x hx => ?_, ih hfs⟩
        rcases (mem_insertFault fs f x).mp hx with hx | rfl
        · exact hg x hx
        · have : x.slot ≠ g.slot := fun e => hne (slot_inj e)
          bv_omega

/-! ### ARM, REVOKE, TRANSMIT, COMPLETE -/

@[simp] theorem wordOwn_doneWord_ne (n : Count) (t : Bit) (p : PidCode) : (wordOwn (doneWord n t p) = 1) = False := by
  simp

/-- Writing a slot's word and keeping its pointer. -/
theorem slotWritten_setBdWord {σ : State} (hc : ConfigOk σ.cfg) (s : Slot) (w : Word) :
    SlotWritten σ.cfg σ.mem (setBdWord s w σ).mem s w (bdPtr σ s) where
  word := readBdWord_writeBdWord_same hc ..
  ptr := readBdPtr_writeBdWord hc ..
  frame _ h := readByte_writeBdWord_outside hc _ _ h

/-- ARM writes nothing but memory and the fault record. -/
theorem arm_eq (s : Slot) (p : Word) (n : Count) (t : Bit) (σ : State) :
    arm s p n t σ = { σ with mem := (arm s p n t σ).mem, faults := (arm s p n t σ).faults } := by
  unfold arm checkOwner
  split <;> rfl

theorem arm_mem (s : Slot) (p : Word) (n : Count) (t : Bit) (σ : State) :
    (arm s p n t σ).mem = writeBdWord σ.cfg (writeBdPtr σ.cfg σ.mem s p) s (armWord n t) := by
  unfold arm checkOwner
  split <;> rfl

/-- ARM's descriptor (R131). -/
theorem slotWritten_arm {σ : State} (hc : ConfigOk σ.cfg) (s : Slot) (p : Word) (n : Count) (t : Bit) :
    SlotWritten σ.cfg σ.mem (arm s p n t σ).mem s (armWord n t) p := by
  rw [arm_mem]
  refine ⟨readBdWord_writeBdWord_same hc .., ?_, fun a h => ?_⟩
  · rw [readBdPtr_writeBdWord hc, readBdPtr_writeBdPtr_same hc]
  · rw [readByte_writeBdWord_outside hc _ _ h, readByte_writeBdPtr_outside hc _ _ h]

/-- ARM's fault (R131, R273). -/
theorem faultRecorded_arm (s : Slot) (p : Word) (n : Count) (t : Bit) (σ : State) :
    FaultRecorded σ (arm s p n t σ).faults s := by
  intro f
  have e : (arm s p n t σ).faults = (checkOwner s σ).faults := rfl
  rw [e]
  by_cases h : wordOwn (bdWord σ s) = 1
  · have hs : checkOwner s σ = raiseFault (.ownViolation s) σ := if_pos (decide_eq_true h)
    rw [hs]
    exact (mem_insertFault ..).trans ⟨fun hf => hf.imp_right fun hf => ⟨h, hf⟩, fun hf => hf.imp_right And.right⟩
  · have hs : checkOwner s σ = σ := if_neg (by simpa [bdOwned] using h)
    rw [hs]
    exact ⟨.inl, fun hf => hf.resolve_right fun hf => h hf.1⟩

/-- REVOKE's descriptor (R134). -/
theorem slotWritten_revoke {σ : State} (hc : ConfigOk σ.cfg) (s : Slot) :
    SlotWritten σ.cfg σ.mem (revoke s σ).mem s 0 (bdPtr σ s) := slotWritten_setBdWord hc s 0

/-- TRANSMIT writes nothing but memory, the fault record, PAR and TOG. -/
theorem transmit_eq (e : Endp) (p : Word) (n : Count) (σ : State) :
    transmit e p n σ =
      { σ with
        mem := (transmit e p n σ).mem, faults := (transmit e p n σ).faults,
        par := flipDir σ.par e .tx, tog := flipDir σ.tog e .tx } := by
  unfold transmit arm checkOwner
  split <;> rfl

theorem transmit_mem (e : Endp) (p : Word) (n : Count) (σ : State) :
    (transmit e p n σ).mem = (arm (transmitSlot σ e) p n (getDir σ.tog e .tx) σ).mem := by
  unfold transmit; rfl

theorem transmit_faults (e : Endp) (p : Word) (n : Count) (σ : State) :
    (transmit e p n σ).faults = (arm (transmitSlot σ e) p n (getDir σ.tog e .tx) σ).faults := by
  unfold transmit; rfl

theorem slotWritten_transmit {σ : State} (hc : ConfigOk σ.cfg) (e : Endp) (p : Word) (n : Count) :
    SlotWritten σ.cfg σ.mem (transmit e p n σ).mem (transmitSlot σ e) (armWord n (getDir σ.tog e .tx)) p := by
  rw [transmit_mem]
  exact slotWritten_arm hc ..

theorem faultRecorded_transmit (e : Endp) (p : Word) (n : Count) (σ : State) :
    FaultRecorded σ (transmit e p n σ).faults (transmitSlot σ e) := by
  rw [transmit_faults]
  exact faultRecorded_arm _ _ _ _ _

/-- COMPLETE, with every field it writes (R151). -/
theorem complete_eq (e : Endp) (d : Dir) (n : Count) (k : TokKind) (σ : State) :
    complete e d n k σ =
      { σ with
        mem := (complete e d n k σ).mem, hwodd := flipDir σ.hwodd e d, istat := σ.istat ||| 0x08,
        statFifo := σ.statFifo ++ [statWord e (dirBit d) (getDir σ.hwodd e d)] } := rfl

theorem slotWritten_complete {σ : State} (hc : ConfigOk σ.cfg) (e : Endp) (d : Dir) (n : Count) (k : TokKind) :
    SlotWritten σ.cfg σ.mem (complete e d n k σ).mem (sieSlot σ e d)
      (doneWord n (wordData01 (bdWord σ (sieSlot σ e d))) (tokPid k)) (bdPtr σ (sieSlot σ e d)) :=
  slotWritten_setBdWord hc _ _

/-! ### What a written slot leaves of the others -/

/-- A slot's bytes lie in the BDT. -/
theorem inBdt_of_inSlot {c : Config} (hc : ConfigOk c) {s : Slot} {a : Word} (h : inSlot c s a) : inBdt c a := by
  unfold inSlot at h
  rw [bdAddr_toNat hc] at h
  have := s.isLt
  unfold inBdt
  omega

theorem inSlot_bdAddr_add {c : Config} (hc : ConfigOk c) (s : Slot) {k : Nat} (hk : k < 8) :
    inSlot c s (bdAddr c s + BitVec.ofNat 32 k) := by
  have := bdAddr_lt hc s
  unfold inSlot
  rw [toNat_add_small (by omega)]
  omega

theorem not_inSlot_of_ne {c : Config} (hc : ConfigOk c) {s t : Slot} (h : s ≠ t) {a : Word} (ha : inSlot c t a) :
    ¬ inSlot c s a := by
  have := bdAddr_apart hc h
  unfold inSlot at *
  omega

/-- Memories that agree on a slot's bytes agree on its descriptor. -/
theorem readBd_congr {c : Config} (hc : ConfigOk c) {m m' : Memory} {t : Slot}
    (h : ∀ a, inSlot c t a → readByte c m' a = readByte c m a) :
    readBdWord c m' t = readBdWord c m t ∧ readBdPtr c m' t = readBdPtr c m t := by
  have e (k : Nat) (hk : k < 8) := h _ (inSlot_bdAddr_add hc t hk)
  have a0 : bdAddr c t = bdAddr c t + BitVec.ofNat 32 0 := by simp
  have a5 : bdAddr c t + 4 + 1 = bdAddr c t + BitVec.ofNat 32 5 := by rw [BitVec.add_assoc]; rfl
  have a6 : bdAddr c t + 4 + 2 = bdAddr c t + BitVec.ofNat 32 6 := by rw [BitVec.add_assoc]; rfl
  have a7 : bdAddr c t + 4 + 3 = bdAddr c t + BitVec.ofNat 32 7 := by rw [BitVec.add_assoc]; rfl
  constructor
  · unfold readBdWord readWord
    rw [show readByte c m' (bdAddr c t) = readByte c m (bdAddr c t) by rw [a0]; exact e 0 (by omega),
      show readByte c m' (bdAddr c t + 1) = readByte c m (bdAddr c t + 1) from e 1 (by omega),
      show readByte c m' (bdAddr c t + 2) = readByte c m (bdAddr c t + 2) from e 2 (by omega),
      show readByte c m' (bdAddr c t + 3) = readByte c m (bdAddr c t + 3) from e 3 (by omega)]
  · unfold readBdPtr readWord
    rw [show readByte c m' (bdAddr c t + 4) = readByte c m (bdAddr c t + 4) from e 4 (by omega), a5, a6, a7,
      e 5 (by omega), e 6 (by omega), e 7 (by omega)]

/-- Every other slot's descriptor is as before. -/
theorem SlotWritten.other {c : Config} (hc : ConfigOk c) {m m' : Memory} {s t : Slot} {w p : Word}
    (h : SlotWritten c m m' s w p) (hst : s ≠ t) : readBdWord c m' t = readBdWord c m t ∧ readBdPtr c m' t = readBdPtr c m t :=
  readBd_congr hc fun a ha => h.frame a (not_inSlot_of_ne hc hst ha)

/-- Outside the BDT every byte is as before. -/
theorem SlotWritten.outside {c : Config} (hc : ConfigOk c) {m m' : Memory} {s : Slot} {w p : Word}
    (h : SlotWritten c m m' s w p) {a : Word} (ha : ¬ inBdt c a) : readByte c m' a = readByte c m a :=
  h.frame a fun hs => ha (inBdt_of_inSlot hc hs)

/-- Two slots written one after the other. -/
theorem SlotWritten.both {c : Config} (hc : ConfigOk c) {m m' m'' : Memory} {s s' : Slot} {w p w' p' : Word}
    (h : SlotWritten c m m' s w p) (h' : SlotWritten c m' m'' s' w' p') (hs : s' ≠ s) :
    SlotsWritten c m m'' s w p s' w' p' where
  word := by rw [(h'.other hc hs).1, h.word]
  ptr := by rw [(h'.other hc hs).2, h.ptr]
  word' := h'.word
  ptr' := h'.ptr
  frame a ha ha' := by rw [h'.frame a ha', h.frame a ha]

/-! ### Acknowledging flags -/

/-- Acknowledging a flag other than TOKDNE clears it, and nothing else changes (R21). -/
theorem ackFlag_eq {f : Flag} (hf : f ≠ .tokdne) (σ : State) :
    ackFlag f σ = { σ with istat := σ.istat &&& ~~~flagMask f } := by
  have h : hasBit (flagMask f) (flagMask .tokdne) = false := by rw [hasBit_flagMask, decide_eq_false hf]
  simp only [ackFlag, writeIstat, h]
  rfl

/-- Acknowledging TOKDNE removes the FIFO's head; the flag then follows the FIFO (R21, R36). -/
theorem ackFlag_tokdne (σ : State) :
    ackFlag .tokdne σ =
      { σ with
        statFifo := σ.statFifo.tail
        istat := (σ.istat &&& 0xF7) ||| (if σ.statFifo.tail = [] then 0 else 0x08) } := rfl

/-- Writing ERRSTAT's own value back clears it (R223). -/
theorem writeErrstat_self (σ : State) : writeErrstat σ.errstat σ = { σ with errstat := 0 } := by
  have h : σ.errstat &&& ~~~σ.errstat = 0 := by simp
  simp only [writeErrstat, h]

theorem hasBit_iff (x m : Byte) : hasBit x m = true ↔ x &&& m ≠ 0 := by simp [hasBit]

theorem hasBit_eq_false_iff (x m : Byte) : hasBit x m = false ↔ x &&& m = 0 := by simp [hasBit]

theorem getEp_map (v : Vector Byte 16) (f : Byte → Byte) (e : Endp) : getEp (v.map f) e = f (getEp v e) := by
  simp [getEp]

/-! ### Packets -/

theorem bytesAt_loadBytes (p : Word) (n : Nat) (σ : State) : BytesAt σ p n (loadBytes p n σ) :=
  ⟨length_readBytes .., fun _ hi => getElem?_readBytes _ _ _ _ hi⟩

/-- A packet stored through a slot, and the slot's word written after it (R152, R154). -/
theorem packetStored_of {σ : State} (hc : ConfigOk σ.cfg) {s : Slot} {bs : List Byte} (w : Word)
    (hl : bs.length ≤ 2 ^ 32) (ha : BufferApart σ s bs.length) :
    PacketStored σ (writeBdWord σ.cfg (writeBytes σ.cfg σ.mem (bdPtr σ s) bs) s w) s w bs := by
  have hbd := readBd_congr hc (m := σ.mem) (m' := writeBytes σ.cfg σ.mem (bdPtr σ s) bs) (t := s)
    fun a h => readByte_writeBytes_outside fun hp => ha a hp h
  refine ⟨readBdWord_writeBdWord_same hc .., ?_, fun i b hb hr => ?_, fun a h h' => ?_⟩
  · rw [readBdPtr_writeBdWord hc, hbd.2]; rfl
  · have hi : i < bs.length := (List.getElem?_eq_some_iff.mp hb).1
    have hin : inPacket (bdPtr σ s) bs.length (bdPtr σ s + BitVec.ofNat 32 i) := by
      unfold inPacket
      rw [BitVec.add_comm, BitVec.add_sub_cancel, BitVec.toNat_ofNat]
      omega
    rw [readByte_writeBdWord_outside hc _ _ (ha _ hin)]
    exact readByte_writeBytes_inside hl hb hr
  · rw [readByte_writeBdWord_outside hc _ _ h]
    exact readByte_writeBytes_outside h'

/-- Storing a packet apart from a slot leaves the slot's descriptor alone. -/
theorem bd_storeBytes {σ : State} (hc : ConfigOk σ.cfg) {s : Slot} {bs : List Byte} {p : Word}
    (ha : ∀ a, inPacket p bs.length a → ¬ inSlot σ.cfg s a) :
    bdWord (storeBytes p bs σ) s = bdWord σ s ∧ bdPtr (storeBytes p bs σ) s = bdPtr σ s :=
  readBd_congr hc fun a h => readByte_writeBytes_outside fun hp => ha a hp h

/-! ### ACCEPT -/

/-- The bit ENDPT keeps of EPSTALL's clearing: reserved bits are 0 (R108 e). -/
theorem clear_epstall (x : Byte) : x &&& ~~~epstall &&& endptMask = x &&& 0x0D := by revert x; decide

theorem clearStall_eq (e : Endp) (σ : State) :
    clearStall e σ = { σ with endpt := setEp σ.endpt e (getEp σ.endpt e &&& 0x0D) } := by
  unfold clearStall writeEndpt
  rw [clear_epstall]

theorem setStall_eq (e : Endp) (σ : State) :
    setStall e σ = { σ with endpt := setEp σ.endpt e ((getEp σ.endpt e ||| 0x02) &&& 0x0F) } := rfl

/-- A foreign or disabled token ends at once (R150, checks 1 and 2). -/
theorem accept_ignored {k : TokKind} {a : UsbAddr} {e : Endp} {σ : State}
    (h : a ≠ σ.addr ∨ endptHas σ e (enableMask k) = false) :
    accept k a e σ = ({ σ with response := .none }, .ended) := by
  unfold accept
  by_cases ha : a ≠ σ.addr
  · rw [if_pos ha]
  · rw [if_neg ha, if_pos (h.resolve_left ha)]

/-- An enabled endpoint without handshakes (U6). -/
theorem accept_noHandshake {k : TokKind} {e : Endp} {σ : State} (h : endptHas σ e (enableMask k) = true)
    (h' : endptHas σ e ephshk = false) : accept k σ.addr e σ = (σ, .noHandshake) := by
  simp [accept, h, h']

/-- A stalled endpoint (R150, check 3). -/
theorem accept_stalled {k : TokKind} {e : Endp} {σ : State} (hk : k ≠ .setup) (h : endptHas σ e (enableMask k) = true)
    (h' : endptHas σ e ephshk = true) (h'' : endptHas σ e epstall = true) :
    accept k σ.addr e σ = ({ σ with istat := σ.istat ||| 0x80, response := .stall }, .ended) := by
  unfold accept
  rw [if_neg (by simp), h, h', if_neg (by simp), if_neg (by simp), if_neg hk, if_pos h'']
  rfl

/-- An IN or OUT token with no usable descriptor (R150, checks 4 and 5). -/
theorem accept_nak {k : TokKind} {e : Endp} {σ : State} (hk : k ≠ .setup) (h : endptHas σ e (enableMask k) = true)
    (h' : endptHas σ e ephshk = true) (h'' : endptHas σ e epstall = false)
    (hs : statFifoDepth ≤ σ.statFifo.length ∨ bdOwned σ (sieSlot σ e (tokDir k)) = false) :
    accept k σ.addr e σ = ({ σ with response := .nak }, .ended) := by
  have ht : turnAway k σ = { σ with response := .nak } := by cases k <;> first | rfl | exact absurd rfl hk
  unfold accept acceptSlot
  rw [if_neg (by simp), h, h', if_neg (by simp), if_neg (by simp), if_neg hk, h'', if_neg (by simp), ht]
  rcases hs with hs | hs
  · rw [if_pos hs]
  · rw [hs]; split <;> simp

/-- A SETUP token with no usable descriptor: EPSTALL is cleared all the same (R150). -/
theorem accept_setup_ignored {e : Endp} {σ : State} (h : endptHas σ e eprxen = true) (h' : endptHas σ e ephshk = true)
    (hs : statFifoDepth ≤ σ.statFifo.length ∨ bdOwned σ (sieSlot σ e .rx) = false) :
    accept .setup σ.addr e σ = ({ clearStall e σ with response := .none }, .ended) := by
  have hs' : statFifoDepth ≤ (clearStall e σ).statFifo.length ∨
      bdOwned (clearStall e σ) (sieSlot (clearStall e σ) e (tokDir .setup)) = false := hs
  unfold accept acceptSlot
  rw [if_neg (by simp), show enableMask .setup = eprxen from rfl, h, h', if_neg (by simp), if_neg (by simp), if_pos rfl]
  rcases hs' with hs' | hs'
  · rw [if_pos hs']; rfl
  · rw [hs']; split <;> rfl

/-- A token that passes every check (R150, check 6). -/
theorem accept_accepted {k : TokKind} {a : UsbAddr} {e : Endp} {σ : State} (h : Acceptable k a e σ) :
    accept k a e σ = (if k = .setup then clearStall e σ else σ, .accepted (sieSlot σ e (tokDir k))) := by
  obtain ⟨ha, h1, h2, h3, h4, h5⟩ := h
  subst ha
  unfold accept
  rw [if_neg (by simp), h1, h2, if_neg (by simp), if_neg (by simp)]
  by_cases hk : k = .setup
  · subst hk
    have h4' : ¬ statFifoDepth ≤ (clearStall e σ).statFifo.length := by simpa using h4
    have h5' : bdOwned (clearStall e σ) (sieSlot (clearStall e σ) e (tokDir .setup)) = true := h5
    rw [if_pos rfl, if_pos rfl, acceptSlot, if_neg h4', if_pos h5']
    rfl
  · rw [if_neg hk, if_neg hk, h3.resolve_left hk, if_neg (by simp), acceptSlot, if_neg (by omega), if_pos h5]

/-- Every way ACCEPT can end. -/
theorem accept_cases (k : TokKind) (a : UsbAddr) (e : Endp) (σ : State) :
    (accept k a e σ = ({ σ with response := .none }, .ended) ∧
      (a ≠ σ.addr ∨ endptHas σ e (enableMask k) = false)) ∨
    (accept k a e σ = (σ, .noHandshake) ∧ endptHas σ e (enableMask k) = true ∧ endptHas σ e ephshk = false) ∨
    (accept k a e σ = ({ σ with istat := σ.istat ||| 0x80, response := .stall }, .ended) ∧ k ≠ .setup ∧
      a = σ.addr ∧ endptHas σ e (enableMask k) = true ∧ endptHas σ e epstall = true) ∨
    (accept k a e σ = ({ σ with response := .nak }, .ended) ∧ k ≠ .setup) ∨
    (accept k a e σ = ({ clearStall e σ with response := .none }, .ended) ∧ k = .setup) ∨
    (accept k a e σ = (if k = .setup then clearStall e σ else σ, .accepted (sieSlot σ e (tokDir k))) ∧
      Acceptable k a e σ) := by
  by_cases h1 : a ≠ σ.addr ∨ endptHas σ e (enableMask k) = false
  · exact .inl ⟨accept_ignored h1, h1⟩
  simp only [ne_eq, not_or, not_not, Bool.not_eq_false] at h1
  obtain ⟨rfl, h1⟩ := h1
  cases h2 : endptHas σ e ephshk
  · exact .inr (.inl ⟨accept_noHandshake h1 h2, h1, rfl⟩)
  by_cases hs : statFifoDepth ≤ σ.statFifo.length ∨ bdOwned σ (sieSlot σ e (tokDir k)) = false
  · by_cases hk : k = .setup
    · subst hk
      exact .inr (.inr (.inr (.inr (.inl ⟨accept_setup_ignored h1 h2 hs, rfl⟩))))
    · cases h3 : endptHas σ e epstall
      · exact .inr (.inr (.inr (.inl ⟨accept_nak hk h1 h2 h3 hs, hk⟩)))
      · exact .inr (.inr (.inl ⟨accept_stalled hk h1 h2 h3, hk, rfl, h1, rfl⟩))
  · simp only [not_or, Bool.not_eq_false] at hs
    by_cases hk : k = .setup
    · have ha : Acceptable k σ.addr e σ := ⟨rfl, h1, h2, .inl hk, by omega, hs.2⟩
      exact .inr (.inr (.inr (.inr (.inr ⟨accept_accepted ha, ha⟩))))
    · cases h3 : endptHas σ e epstall
      · have ha : Acceptable k σ.addr e σ := ⟨rfl, h1, h2, .inr h3, by omega, hs.2⟩
        exact .inr (.inr (.inr (.inr (.inr ⟨accept_accepted ha, ha⟩))))
      · exact .inr (.inr (.inl ⟨accept_stalled hk h1 h2 h3, hk, rfl, h1, rfl⟩))

end Sys2Proof.Machine
end

