-- ==== Sys2Proof/Laws/Engine.lean ====
section
/-! SUPPORT. What the handlers, the requests and their parts keep, said once: one relation between the state before and
the state after, shown of each part and composed. -/

namespace Sys2Proof.Machine

/-- What every operation a handler is made of keeps. -/
structure EngineKeeps (σ τ : State) : Prop where
  cfg : τ.cfg = σ.cfg
  istat : τ.istat = σ.istat
  inten : τ.inten = σ.inten
  errstat : τ.errstat = σ.errstat
  statFifo : τ.statFifo = σ.statFifo
  hwodd : τ.hwodd = σ.hwodd
  dstatus : τ.dstatus = σ.dstatus
  dph : τ.dph = σ.dph
  schedule : τ.schedule = σ.schedule
  memory : Memory.wf σ.cfg σ.mem = true → Memory.wf σ.cfg τ.mem = true
  outside : ConfigOk σ.cfg → ∀ a, ¬ inBdt σ.cfg a → memByte τ a = memByte σ a
  rom : ∀ a : Word, romByte σ.cfg a.toNat ≠ none → memByte τ a = memByte σ a
  faultOrder : σ.faults.Pairwise (fun f g => f.slot < g.slot) → τ.faults.Pairwise (fun f g => f.slot < g.slot)
  faults : ∀ f ∈ σ.faults, f ∈ τ.faults
  endpt : ∀ e, getEp τ.endpt e = getEp σ.endpt e ∨ (e = 0 ∧ getEp τ.endpt e = (getEp σ.endpt e ||| 0x02) &&& 0x0F)
  cursor : (σ.cur.valid = false → σ.cur = Cursor.empty) → τ.cur.valid = false → τ.cur = Cursor.empty

namespace EngineKeeps

theorem refl (σ : State) : EngineKeeps σ σ :=
  ⟨rfl, rfl, rfl, rfl, rfl, rfl, rfl, rfl, rfl, id, fun _ _ _ => rfl, fun _ _ => rfl, id, fun _ => id,
    fun _ => .inl rfl, id⟩

theorem trans {σ τ ω : State} (h : EngineKeeps σ τ) (h' : EngineKeeps τ ω) : EngineKeeps σ ω where
  cfg := h'.cfg.trans h.cfg
  istat := h'.istat.trans h.istat
  inten := h'.inten.trans h.inten
  errstat := h'.errstat.trans h.errstat
  statFifo := h'.statFifo.trans h.statFifo
  hwodd := h'.hwodd.trans h.hwodd
  dstatus := h'.dstatus.trans h.dstatus
  dph := h'.dph.trans h.dph
  schedule := h'.schedule.trans h.schedule
  memory hm := h.cfg ▸ h'.memory (h.cfg ▸ h.memory hm)
  outside hc a ha := (h'.outside (h.cfg ▸ hc) a (h.cfg ▸ ha)).trans (h.outside hc a ha)
  rom a ha := (h'.rom a (h.cfg ▸ ha)).trans (h.rom a ha)
  faultOrder ho := h'.faultOrder (h.faultOrder ho)
  faults f hf := h'.faults f (h.faults f hf)
  endpt e := by
    rcases h.endpt e with h1 | ⟨he, h1⟩ <;> rcases h'.endpt e with h2 | ⟨he', h2⟩
    · exact .inl (h2.trans h1)
    · exact .inr ⟨he', by rw [h2, h1]⟩
    · exact .inr ⟨he, h2.trans h1⟩
    · refine .inr ⟨he, ?_⟩
      rw [h2, h1]
      generalize getEp σ.endpt e = x
      revert x
      decide
  cursor hv := h'.cursor (h.cursor hv)

/-- A change that leaves memory, the fault record, the endpoint registers and the SIE's state alone, and keeps the
cursor's form. -/
theorem update (σ : State) (par tog : Vector DirPair 16) (cur : Cursor) (lastSetup : BitVec 64) (ep0State : Ep0State)
    (addr : UsbAddr)
    (hc : (σ.cur.valid = false → σ.cur = Cursor.empty) → cur.valid = false → cur = Cursor.empty) :
    EngineKeeps σ { σ with
      par := par, tog := tog, cur := cur, lastSetup := lastSetup, ep0State := ep0State, addr := addr } :=
  ⟨rfl, rfl, rfl, rfl, rfl, rfl, rfl, rfl, rfl, id, fun _ _ _ => rfl, fun _ _ => rfl, id, fun _ => id,
    fun _ => .inl rfl, hc⟩

end EngineKeeps

theorem readByte_writeByte_rom {c : Config} {m : Memory} {a x : Word} {b : Byte} (hx : romByte c x.toNat ≠ none) :
    readByte c (writeByte c m a b) x = readByte c m x := by
  by_cases h : x = a
  · subst h
    rw [writeByte_rom (Option.isSome_iff_ne_none.mpr hx)]
  · exact readByte_writeByte_ne h

/-- A word write leaves every read-only byte alone (R72). -/
theorem readByte_writeWord_rom {c : Config} {m : Memory} {a x v : Word} (hx : romByte c x.toNat ≠ none) :
    readByte c (writeWord c m a v) x = readByte c m x := by
  unfold writeWord
  rw [readByte_writeByte_rom hx, readByte_writeByte_rom hx, readByte_writeByte_rom hx, readByte_writeByte_rom hx]

/-- So does a packet write. -/
theorem readByte_writeBytes_rom {c : Config} {m : Memory} {a x : Word} {bs : List Byte}
    (hx : romByte c x.toNat ≠ none) : readByte c (writeBytes c m a bs) x = readByte c m x := by
  induction bs generalizing m a with
  | nil => rfl
  | cons b bs ih => exact (ih (m := writeByte c m a b) (a := a + 1)).trans (readByte_writeByte_rom hx)

theorem engineKeeps_setBdWord (s : Slot) (w : Word) (σ : State) : EngineKeeps σ (setBdWord s w σ) :=
  ⟨rfl, rfl, rfl, rfl, rfl, rfl, rfl, rfl, rfl, wf_writeBdWord,
    fun hc _ ha => readByte_writeBdWord_outside hc _ _ fun h => ha (inBdt_of_inSlot hc h),
    fun _ ha => readByte_writeWord_rom ha, id, fun _ => id, fun _ => .inl rfl, id⟩

theorem engineKeeps_setBdPtr (s : Slot) (p : Word) (σ : State) : EngineKeeps σ (setBdPtr s p σ) :=
  ⟨rfl, rfl, rfl, rfl, rfl, rfl, rfl, rfl, rfl, wf_writeBdPtr,
    fun hc _ ha => readByte_writeBdPtr_outside hc _ _ fun h => ha (inBdt_of_inSlot hc h),
    fun _ ha => readByte_writeWord_rom ha, id, fun _ => id, fun _ => .inl rfl, id⟩

theorem engineKeeps_checkOwner (s : Slot) (σ : State) : EngineKeeps σ (checkOwner s σ) := by
  unfold checkOwner
  split
  · exact ⟨rfl, rfl, rfl, rfl, rfl, rfl, rfl, rfl, rfl, id, fun _ _ _ => rfl, fun _ _ => rfl, pairwise_insertFault _,
      fun f hf => (mem_insertFault ..).mpr (.inl hf), fun _ => .inl rfl, id⟩
  · exact .refl σ

theorem engineKeeps_arm (s : Slot) (p : Word) (n : Count) (t : Bit) (σ : State) : EngineKeeps σ (arm s p n t σ) :=
  ((engineKeeps_checkOwner s σ).trans (engineKeeps_setBdPtr ..)).trans (engineKeeps_setBdWord ..)

theorem engineKeeps_revoke (s : Slot) (σ : State) : EngineKeeps σ (revoke s σ) := engineKeeps_setBdWord ..

theorem engineKeeps_transmit (e : Endp) (p : Word) (n : Count) (σ : State) : EngineKeeps σ (transmit e p n σ) :=
  (engineKeeps_arm (transmitSlot σ e) p n (getDir σ.tog e .tx) σ).trans (.update _ _ _ _ _ _ _ id)

theorem engineKeeps_ep0Stall (σ : State) : EngineKeeps σ (ep0Stall σ) :=
  ⟨rfl, rfl, rfl, rfl, rfl, rfl, rfl, rfl, rfl, id, fun _ _ _ => rfl, fun _ _ => rfl, id, fun _ => id,
    fun e => by
      by_cases h : e = 0
      · subst h
        exact .inr ⟨rfl, getEp_setEp_same ..⟩
      · exact .inl ((getEp_setEp ..).trans (if_neg h)), id⟩

theorem engineKeeps_reqUnsupported (σ : State) : EngineKeeps σ (reqUnsupported σ) :=
  (engineKeeps_ep0Stall σ).trans (.update _ _ _ _ _ _ _ id)

theorem engineKeeps_sendSecond (p : Word) (len : Half) (σ : State) : EngineKeeps σ (sendSecond p len σ) := by
  unfold sendSecond
  dsimp only
  split
  · exact engineKeeps_transmit ..
  · exact (engineKeeps_transmit 0 p (chunk len) σ).trans (.update _ _ _ _ _ _ _ fun _ h => by cases h)

theorem engineKeeps_send (p : Word) (len : Half) (σ : State) : EngineKeeps σ (send p len σ) := by
  unfold send
  dsimp only
  split
  · exact engineKeeps_transmit ..
  · exact (engineKeeps_transmit 0 p (chunk len) σ).trans (engineKeeps_sendSecond ..)

theorem engineKeeps_statusStage (σ : State) : EngineKeeps σ (statusStage σ) :=
  (engineKeeps_send 0 0 σ).trans (.update _ _ _ _ _ _ _ id)

theorem engineKeeps_getDescriptor (v x l : Half) (σ : State) : EngineKeeps σ (getDescriptor v x l σ) := by
  unfold getDescriptor
  split
  · exact engineKeeps_reqUnsupported σ
  · next p len _ => exact (engineKeeps_send p (truncateLength len l) σ).trans (.update _ _ _ _ _ _ _ id)

theorem engineKeeps_setupRequest (σ : State) : EngineKeeps σ (setupRequest σ) := by
  unfold setupRequest
  split
  · exact engineKeeps_statusStage σ
  · exact engineKeeps_statusStage σ
  · exact engineKeeps_getDescriptor ..
  · exact engineKeeps_getDescriptor ..
  · exact engineKeeps_reqUnsupported σ

theorem engineKeeps_openTransfer (s : Slot) (p : Word) (σ : State) : EngineKeeps σ (openTransfer s p σ) := by
  have h0 : EngineKeeps σ { σ with lastSetup := readSetup σ.cfg σ.mem p } := .update _ _ _ _ _ _ _ id
  have h1 := h0.trans (engineKeeps_arm s p 8 1 _)
  have h2 := (h1.trans (engineKeeps_revoke (slotBits 0 1 0) _)).trans (engineKeeps_revoke (slotBits 0 1 1) _)
  exact h2.trans (.update _ _ _ _ _ _ _ fun _ _ => rfl)

theorem engineKeeps_ep0OnSetup (s : Slot) (p : Word) (σ : State) : EngineKeeps σ (ep0OnSetup s p σ) :=
  (engineKeeps_openTransfer s p σ).trans (engineKeeps_setupRequest _)

theorem engineKeeps_pushChunk (σ : State) : EngineKeeps σ (pushChunk σ) := by
  unfold pushChunk
  split
  · refine (engineKeeps_transmit 0 σ.cur.ptr (chunk σ.cur.len) σ).trans (.update _ _ _ _ _ _ _ fun _ h => ?_)
    revert h
    show (cursorAfter σ.cur).valid = false → cursorAfter σ.cur = Cursor.empty
    unfold cursorAfter
    dsimp only
    split
    · exact fun h => by cases h
    · exact fun _ => rfl
  · exact .refl σ

theorem engineKeeps_applyAddress (σ : State) : EngineKeeps σ (applyAddress σ) := .update _ _ _ _ _ _ _ id

theorem engineKeeps_ep0OnIn (σ : State) : EngineKeeps σ (ep0OnIn σ) :=
  ((engineKeeps_pushChunk σ).trans (engineKeeps_applyAddress _)).trans (.update _ _ _ _ _ _ _ id)

theorem engineKeeps_ep0OnOut (s : Slot) (σ : State) : EngineKeeps σ (ep0OnOut s σ) :=
  (engineKeeps_arm s (bdPtr σ s) 8 1 σ).trans (.update _ _ _ _ _ _ _ id)

theorem engineKeeps_ep0Handler (v : Byte) (σ : State) : EngineKeeps σ (ep0Handler v σ) := by
  unfold ep0Handler
  split
  · exact engineKeeps_ep0OnSetup ..
  · exact engineKeeps_ep0OnIn σ
  · exact engineKeeps_ep0OnOut ..
  · exact .refl σ

theorem engineKeeps_ep1OnIn (σ : State) : EngineKeeps σ (ep1OnIn σ) := engineKeeps_transmit ..

theorem engineKeeps_ep1OnOut (s : Slot) (σ : State) : EngineKeeps σ (ep1OnOut s σ) := engineKeeps_arm ..

theorem engineKeeps_ep1Handler (v : Byte) (σ : State) : EngineKeeps σ (ep1Handler v σ) := by
  unfold ep1Handler
  split
  · exact engineKeeps_ep1OnIn σ
  · exact engineKeeps_ep1OnOut ..
  · exact .refl σ
  · exact .refl σ

/-- Every handler keeps what `EngineKeeps` names. -/
theorem engineKeeps_callHandler (v : Byte) (σ : State) : EngineKeeps σ (callHandler v σ) := by
  unfold callHandler
  split
  · exact engineKeeps_ep0Handler v σ
  · exact engineKeeps_ep1Handler v σ
  · exact .refl σ

end Sys2Proof.Machine
end

