-- ==== Sys2Proof/Laws/Ep0.lean ====
section
/-! SUPPORT. SEND and the cursor, by the length they are given (R188, R189). -/

namespace Sys2Proof.Machine

theorem chunk_short {len : Half} (h : len.toNat < 8) : chunk len = BitVec.ofNat 10 len.toNat := by
  unfold chunk
  rw [if_pos (BitVec.lt_def.mpr h)]
  bv_omega

theorem remaining_short {len : Half} (h : len.toNat < 8) : remaining len (chunk len) = 0 := by
  rw [chunk_short h]
  unfold remaining
  bv_omega

theorem chunk_short_lt {len : Half} (h : len.toNat < 8) : chunk len < 8 := by
  rw [chunk_short h]
  bv_omega

theorem chunk_full {len : Half} (h : 8 ≤ len.toNat) : chunk len = 8 := by
  unfold chunk
  exact if_neg fun h' => absurd (BitVec.lt_def.mp h') (by simpa using h)

theorem remaining_full (len : Half) : remaining len 8 = len - 8 := by
  unfold remaining
  bv_omega

theorem advance_full (p : Word) : advance p 8 = p + 8 := rfl

/-- Fewer than 8 bytes are one packet. -/
theorem send_short (p : Word) {len : Half} (h : len.toNat < 8) (σ : State) :
    send p len σ = transmit 0 p (BitVec.ofNat 10 len.toNat) σ := by
  unfold send
  dsimp only
  rw [if_pos ⟨remaining_short h, chunk_short_lt h⟩, chunk_short h]

/-- From 8 to 15 bytes: a full packet and a short or empty one. -/
theorem send_two (p : Word) {len : Half} (h : 8 ≤ len.toNat) (h' : len.toNat < 16) (σ : State) :
    send p len σ = transmit 0 (p + 8) (BitVec.ofNat 10 (len.toNat - 8)) (transmit 0 p 8 σ) := by
  have hl : (len - 8).toNat < 8 := by bv_omega
  have hn : (len - 8).toNat = len.toNat - 8 := by bv_omega
  unfold send
  dsimp only
  rw [chunk_full h, if_neg fun h => absurd h.2 (by decide), remaining_full, advance_full]
  unfold sendSecond
  dsimp only
  rw [if_pos ⟨remaining_short hl, chunk_short_lt hl⟩, chunk_short hl, hn]

/-- 16 bytes or more: two full packets, and the rest, or an owed empty packet, to the cursor. -/
theorem send_more (p : Word) {len : Half} (h : 16 ≤ len.toNat) (σ : State) :
    send p len σ = { transmit 0 (p + 8) 8 (transmit 0 p 8 σ) with
      cur := { valid := true, ptr := p + 16, len := len - 16 } } := by
  have hl : 8 ≤ (len - 8).toNat := by bv_omega
  have e1 : len - 8 - 8 = len - 16 := by bv_omega
  have e2 : p + 8 + 8 = p + 16 := by bv_omega
  unfold send
  dsimp only
  rw [chunk_full (by omega), if_neg fun h => absurd h.2 (by decide), remaining_full, advance_full]
  unfold sendSecond
  dsimp only
  rw [chunk_full hl, if_neg fun h => absurd h.2 (by decide), remaining_full, advance_full, e1, e2]

/-- The cursor after a full chunk. -/
theorem cursorAfter_full {cur : Cursor} (h : 8 ≤ cur.len.toNat) :
    cursorAfter cur = { valid := true, ptr := cur.ptr + 8, len := cur.len - 8 } := by
  unfold cursorAfter
  dsimp only
  rw [chunk_full h, if_pos (Or.inr rfl), remaining_full, advance_full]

/-- The cursor after a short chunk. -/
theorem cursorAfter_short {cur : Cursor} (h : cur.len.toNat < 8) : cursorAfter cur = Cursor.empty := by
  unfold cursorAfter
  dsimp only
  rw [remaining_short h]
  have := chunk_short_lt h
  exact if_neg (by rintro (h | h) <;> bv_omega)

end Sys2Proof.Machine
end

