-- ==== Sys2Proof/Laws/Reset.lean ====
section
/-! SUPPORT. REINIT and power-on: what the BDT holds afterwards, slot by slot. -/

namespace Sys2Proof.Machine

/-- Clearing slots 0 to n - 1 (R222). -/
theorem clearBdt_slot {σ : State} (hc : ConfigOk σ.cfg) (n : Nat) (hn : n ≤ 64) (s : Slot) :
    (bdWord (clearBdt n σ) s = if s.toNat < n then 0 else bdWord σ s) ∧
    (bdPtr (clearBdt n σ) s = if s.toNat < n then 0 else bdPtr σ s) := by
  induction n with
  | zero => simp [clearBdt]
  | succ n ih =>
    obtain ⟨ih1, ih2⟩ := ih (by omega)
    have hc' : ConfigOk (clearBdt n σ).cfg := by rw [clearBdt_cfg]; exact hc
    have hw := slotWritten_setBdWord hc' (BitVec.ofNat 6 n) 0
    unfold clearBdt
    have e1 : bdWord (setBdPtr (BitVec.ofNat 6 n) 0 (setBdWord (BitVec.ofNat 6 n) 0 (clearBdt n σ))) s =
        bdWord (setBdWord (BitVec.ofNat 6 n) 0 (clearBdt n σ)) s := readBdWord_writeBdPtr hc' ..
    rw [e1]
    have hns : (BitVec.ofNat 6 n).toNat = n := by rw [BitVec.toNat_ofNat]; omega
    by_cases hs : BitVec.ofNat 6 n = s
    · subst hs
      rw [hns, if_pos (by omega), if_pos (by omega)]
      exact ⟨hw.word, readBdPtr_writeBdPtr_same hc' ..⟩
    · have hne : s.toNat ≠ n := fun h => hs (BitVec.eq_of_toNat_eq (by rw [hns, h]))
      have ho := hw.other hc' hs
      have e2 : bdPtr (setBdPtr (BitVec.ofNat 6 n) 0 (setBdWord (BitVec.ofNat 6 n) 0 (clearBdt n σ))) s =
          bdPtr (setBdWord (BitVec.ofNat 6 n) 0 (clearBdt n σ)) s := readBdPtr_writeBdPtr_ne hc' _ _ hs
      rw [e2]
      refine ⟨(ho.1.trans ih1).trans ?_, (ho.2.trans ih2).trans ?_⟩ <;> congr 1 <;> exact propext ⟨by omega, by omega⟩

/-- Clearing the BDT writes nothing outside it. -/
theorem clearBdt_outside {σ : State} (hc : ConfigOk σ.cfg) (n : Nat) {a : Word} (ha : ¬ inBdt σ.cfg a) :
    memByte (clearBdt n σ) a = memByte σ a := by
  induction n with
  | zero => rfl
  | succ n ih =>
    have hc' : ConfigOk (clearBdt n σ).cfg := by rw [clearBdt_cfg]; exact hc
    have ha' : ¬ inSlot (clearBdt n σ).cfg (BitVec.ofNat 6 n) a := by
      rw [clearBdt_cfg]; exact fun h => ha (inBdt_of_inSlot hc h)
    unfold clearBdt
    refine Eq.trans ?_ ih
    exact (readByte_writeBdPtr_outside hc' _ _ ha').trans (readByte_writeBdWord_outside hc' _ _ ha')

end Sys2Proof.Machine
end

