-- ==== Sys2Proof/Laws/Step.lean ====
section
/-! SUPPORT. One lemma per kind of turn: what `step` does with it, and every way a step can give a next state. -/

namespace Sys2Proof.Machine

theorem fetch_ok {σ : State} (hc : ConfigOk σ.cfg) :
    fetch σ = match σ.schedule with
      | [] => fetchEngine (beginTurn [] σ)
      | .engine :: rest => fetchEngine (beginTurn rest σ)
      | .host record :: rest => fetchHost record (beginTurn rest σ)
      | .call record :: rest => fetchCall record (beginTurn rest σ) := if_pos hc

/-- A configuration that breaks the start-up requirements (R305). -/
theorem step_badConfiguration {σ : State} (hc : ¬ ConfigOk σ.cfg) : step σ = .refused .badConfiguration := by
  simp only [step, fetch, if_neg hc]

/-- A HOST turn (R105). -/
theorem step_host {σ : State} {bs more : List Byte} {rest : List Turn} {i : Instr} (hc : ConfigOk σ.cfg)
    (hs : σ.schedule = .host bs :: rest) (hd : decode bs = .ok (i, more)) :
    step σ = if i.isHostEvent then exec i (beginTurn rest σ) else .refused .notAHostEvent := by
  simp only [step, fetch_ok hc, hs, fetchHost, hd]
  cases i.isHostEvent <;> rfl

/-- An operation run alone. -/
theorem step_call {σ : State} {bs more : List Byte} {rest : List Turn} {i : Instr} (hc : ConfigOk σ.cfg)
    (hs : σ.schedule = .call bs :: rest) (hd : decode bs = .ok (i, more)) : step σ = exec i (beginTurn rest σ) := by
  simp only [step, fetch_ok hc, hs, fetchCall, hd]

/-- Bytes that are no operation. -/
theorem step_undecoded {σ : State} {bs : List Byte} {rest : List Turn} {e : DecodeError} (hc : ConfigOk σ.cfg)
    (hs : σ.schedule = .host bs :: rest ∨ σ.schedule = .call bs :: rest) (hd : decode bs = .error e) :
    step σ = .refused (.undecoded e) := by
  rcases hs with hs | hs <;> simp only [step, fetch_ok hc, hs, fetchHost, fetchCall, hd]

/-- Whose turn the ENGINE may take: its own, or any with nothing scheduled. -/
abbrev engineTurn (σ : State) (rest : List Turn) : Prop :=
  σ.schedule = .engine :: rest ∨ (σ.schedule = [] ∧ rest = [])

/-- The ENGINE's turn (R220). -/
theorem step_engine {σ : State} {rest : List Turn} (hc : ConfigOk σ.cfg) (hs : engineTurn σ rest) :
    step σ = if engineEnabled σ then exec (phaseInstr σ.dph) (beginTurn rest σ) else .next (beginTurn rest σ) := by
  have hf : fetch σ = fetchEngine (beginTurn rest σ) := by
    rcases hs with hs | ⟨hs, rfl⟩ <;> rw [fetch_ok hc, hs]
  have he : engineEnabled (beginTurn rest σ) = engineEnabled σ := rfl
  rw [step, hf, fetchEngine, he]
  cases engineEnabled σ <;> rfl

/-- Every way a step can give a next state. -/
theorem step_cases {σ τ : State} (h : step σ = .next τ) : ConfigOk σ.cfg ∧
    ((∃ bs more rest i, σ.schedule = .host bs :: rest ∧ decode bs = .ok (i, more) ∧ i.isHostEvent = true ∧
        exec i (beginTurn rest σ) = .next τ) ∨
      (∃ bs more rest i, σ.schedule = .call bs :: rest ∧ decode bs = .ok (i, more) ∧
        exec i (beginTurn rest σ) = .next τ) ∨
      (∃ rest, engineTurn σ rest ∧ engineEnabled σ = true ∧ exec (phaseInstr σ.dph) (beginTurn rest σ) = .next τ) ∨
      (∃ rest, engineTurn σ rest ∧ engineEnabled σ = false ∧ τ = beginTurn rest σ)) := by
  by_cases hc : ConfigOk σ.cfg
  · refine ⟨hc, ?_⟩
    have engine {rest : List Turn} (hs : engineTurn σ rest) :
        (∃ rest, engineTurn σ rest ∧ engineEnabled σ = true ∧
            exec (phaseInstr σ.dph) (beginTurn rest σ) = .next τ) ∨
          (∃ rest, engineTurn σ rest ∧ engineEnabled σ = false ∧ τ = beginTurn rest σ) := by
      rw [step_engine hc hs] at h
      cases he : engineEnabled σ
      · rw [he] at h
        exact .inr ⟨rest, hs, rfl, (Host.Outcome.next.inj h).symm⟩
      · rw [he] at h
        exact .inl ⟨rest, hs, rfl, h⟩
    match hs : σ.schedule with
    | [] => exact .inr (.inr (engine (.inr ⟨hs, rfl⟩)))
    | .engine :: rest => exact .inr (.inr (engine (.inl hs)))
    | .host bs :: rest =>
      match hd : decode bs with
      | .error e => rw [step_undecoded hc (.inl hs) hd] at h; cases h
      | .ok (i, more) =>
        rw [step_host hc hs hd] at h
        cases hi : i.isHostEvent
        · rw [hi] at h; cases h
        · rw [hi] at h
          exact .inl ⟨bs, more, rest, i, rfl, hd, hi, h⟩
    | .call bs :: rest =>
      match hd : decode bs with
      | .error e => rw [step_undecoded hc (.inr hs) hd] at h; cases h
      | .ok (i, more) =>
        rw [step_call hc hs hd] at h
        exact .inr (.inl ⟨bs, more, rest, i, rfl, hd, h⟩)
  · rw [step_badConfiguration hc] at h
    cases h

end Sys2Proof.Machine
end

