-- ==== Sys2Proof/Laws/Invariant.lean ====
section
/-! SUPPORT. Each part of a step keeps the invariant `Inv`. -/

namespace Sys2Proof.Machine

/-! ### Masks -/

theorem or_reserved {x m r : Byte} (hx : x &&& r = 0) (hm : m &&& r = 0) : (x ||| m) &&& r = 0 := by
  have h : (x ||| m) &&& r = (x &&& r) ||| (m &&& r) := by ext i hi; simp [Bool.and_or_distrib_right]
  rw [h, hx, hm]; rfl

theorem and_reserved {x m r : Byte} (hx : x &&& r = 0) : (x &&& m) &&& r = 0 := by
  have h : (x &&& m) &&& r = (x &&& r) &&& m := by ext i hi; simp [Bool.and_right_comm]
  rw [h, hx]; simp

theorem hasBit_or (x y m : Byte) : hasBit (x ||| y) m = (hasBit x m || hasBit y m) := by
  have h : (x ||| y) &&& m = (x &&& m) ||| (y &&& m) := by ext i hi; simp [Bool.and_or_distrib_right]
  rw [Bool.eq_iff_iff, Bool.or_eq_true, hasBit_iff, hasBit_iff, hasBit_iff, h]
  constructor
  · intro hne
    by_contra hn
    push Not at hn
    exact hne (by rw [hn.1, hn.2]; rfl)
  · intro hor h0
    have hx : x &&& m = 0 := by
      ext i hi
      have := congrArg (fun b => b[i]) h0
      simp only [BitVec.getElem_or] at this
      simpa using (Bool.or_eq_false_iff.mp (this.trans (by simp))).1
    have hy : y &&& m = 0 := by
      ext i hi
      have := congrArg (fun b => b[i]) h0
      simp only [BitVec.getElem_or] at this
      simpa using (Bool.or_eq_false_iff.mp (this.trans (by simp))).2
    rcases hor with h1 | h1
    · exact h1 hx
    · exact h1 hy

/-- Clearing a flag clears its own bit. -/
theorem hasBit_and_not_same (x m : Byte) : hasBit (x &&& ~~~m) m = false := by
  rw [hasBit_eq_false_iff]
  ext i hi
  simp

/-- Clearing a flag leaves the others. -/
theorem hasBit_and_not_flag {f g : Flag} (h : g ≠ f) (x : Byte) :
    hasBit (x &&& ~~~flagMask f) (flagMask g) = hasBit x (flagMask g) := by
  have hm : ~~~flagMask f &&& flagMask g = flagMask g := by cases f <;> cases g <;> first | exact absurd rfl h | decide
  unfold hasBit
  rw [BitVec.and_assoc, hm]

/-- Setting a flag leaves the others. -/
theorem hasBit_or_flag {f g : Flag} (h : g ≠ f) (x : Byte) :
    hasBit (x ||| flagMask f) (flagMask g) = hasBit x (flagMask g) := by
  rw [hasBit_or, hasBit_flagMask, decide_eq_false h.symm, Bool.or_false]

/-! ### Updates the invariant does not speak of -/

theorem Inv.update {σ : State} (h : Inv σ) (par tog hwodd : Vector DirPair 16) (lastSetup : BitVec 64) (dph : Dph)
    (ep0State : Ep0State) (addr : UsbAddr) (schedule : List Turn) (response : Response) (result : OpResult)
    (freeCount : Nat) :
    Inv { σ with
      par := par, tog := tog, hwodd := hwodd, lastSetup := lastSetup, dph := dph, ep0State := ep0State, addr := addr,
      schedule := schedule, response := response, result := result, freeCount := freeCount } :=
  ⟨h.memory, h.tokdne, h.error, h.fifoLength, h.statReserved, h.istatReserved, h.intenReserved, h.errstatReserved,
    h.endptReserved, h.handshake, h.cursor, h.endptHigh, h.latch, h.latchReserved, h.faultOrder⟩

theorem inv_beginTurn {σ : State} (h : Inv σ) (rest : List Turn) : Inv (beginTurn rest σ) := h.update ..

theorem inv_setPhase {σ : State} (h : Inv σ) (p : Dph) : Inv (setPhase p σ) := h.update ..

/-! ### The ENGINE's operations -/

/-- A handler, or any part of one, keeps the invariant. -/
theorem inv_of_engineKeeps {σ τ : State} (h : Inv σ) (k : EngineKeeps σ τ) : Inv τ where
  memory := by rw [k.cfg]; exact k.memory h.memory
  tokdne := by rw [k.istat, k.statFifo]; exact h.tokdne
  error := by rw [k.istat, k.errstat]; exact h.error
  fifoLength := by rw [k.statFifo]; exact h.fifoLength
  statReserved := by rw [k.statFifo]; exact h.statReserved
  istatReserved := by rw [k.istat]; exact h.istatReserved
  intenReserved := by rw [k.inten]; exact h.intenReserved
  errstatReserved := by rw [k.errstat]; exact h.errstatReserved
  endptReserved e := by
    rcases k.endpt e with h1 | ⟨-, h1⟩
    · rw [h1]; exact h.endptReserved e
    · rw [h1]
      generalize getEp σ.endpt e = x
      revert x; decide
  handshake e := by
    rcases k.endpt e with h1 | ⟨-, h1⟩
    · rw [h1]; exact h.handshake e
    · have h2 := h.handshake e
      rw [h1]
      clear h1
      generalize getEp σ.endpt e = x at *
      revert x; decide
  cursor := k.cursor h.cursor
  endptHigh e he := by
    rcases k.endpt e with h1 | ⟨rfl, -⟩
    · rw [h1]; exact h.endptHigh e he
    · simp at he
  latch := by rw [k.dstatus, k.statFifo]; exact h.latch
  latchReserved := by rw [k.dstatus]; exact h.latchReserved
  faultOrder := k.faultOrder h.faultOrder

/-- Interrupt entry (R279). -/
theorem inv_enterRun {σ : State} (h : Inv σ) : Inv (enterRun σ) where
  memory := h.memory
  tokdne := h.tokdne
  error := h.error
  fifoLength := h.fifoLength
  statReserved := h.statReserved
  istatReserved := h.istatReserved
  intenReserved := h.intenReserved
  errstatReserved := h.errstatReserved
  endptReserved := h.endptReserved
  handshake := h.handshake
  cursor := h.cursor
  endptHigh := h.endptHigh
  latch hl := of_decide_eq_true (h.tokdne.symm.trans hl)
  latchReserved := h.istatReserved
  faultOrder := h.faultOrder

/-- A flag the invariant does not tie to anything is set. -/
theorem inv_setFlag {σ : State} (h : Inv σ) {f : Flag} (h1 : f ≠ .tokdne) (h2 : f ≠ .error) : Inv (setFlag f σ) where
  memory := h.memory
  tokdne := (hasBit_or_flag h1.symm _).trans h.tokdne
  error := (hasBit_or_flag h2.symm _).trans h.error
  fifoLength := h.fifoLength
  statReserved := h.statReserved
  istatReserved := or_reserved h.istatReserved (by cases f <;> decide)
  intenReserved := h.intenReserved
  errstatReserved := h.errstatReserved
  endptReserved := h.endptReserved
  handshake := h.handshake
  cursor := h.cursor
  endptHigh := h.endptHigh
  latch := h.latch
  latchReserved := h.latchReserved
  faultOrder := h.faultOrder

/-- A flag other than TOKDNE and ERROR is acknowledged. -/
theorem inv_ackFlag {σ : State} (h : Inv σ) {f : Flag} (h1 : f ≠ .tokdne) (h2 : f ≠ .error) : Inv (ackFlag f σ) := by
  rw [ackFlag_eq h1]
  exact
    { memory := h.memory
      tokdne := (hasBit_and_not_flag h1.symm _).trans h.tokdne
      error := (hasBit_and_not_flag h2.symm _).trans h.error
      fifoLength := h.fifoLength
      statReserved := h.statReserved
      istatReserved := and_reserved h.istatReserved
      intenReserved := h.intenReserved
      errstatReserved := h.errstatReserved
      endptReserved := h.endptReserved
      handshake := h.handshake
      cursor := h.cursor
      endptHigh := h.endptHigh
      latch := h.latch
      latchReserved := h.latchReserved
      faultOrder := h.faultOrder }

/-- A link error (R157): flag and ERRSTAT go together. -/
theorem inv_recordLinkError {σ : State} (h : Inv σ) (k : LinkError) : Inv (recordLinkError k σ) where
  memory := h.memory
  tokdne := (hasBit_or_flag (f := .error) (g := .tokdne) (by decide) _).trans h.tokdne
  error := by
    have h1 : hasBit (σ.istat ||| flagMask .error) (flagMask .error) = true := by
      rw [hasBit_or, hasBit_flagMask]; simp
    have h2 : σ.errstat ||| linkMask k ≠ 0 := by
      intro h0
      have h3 := congrArg (fun x => hasBit x (linkMask k)) h0
      rw [hasBit_or, show hasBit (linkMask k) (linkMask k) = true by cases k <;> decide, Bool.or_true] at h3
      cases k <;> exact absurd h3 (by decide)
    exact h1.trans (decide_eq_true h2).symm
  fifoLength := h.fifoLength
  statReserved := h.statReserved
  istatReserved := or_reserved h.istatReserved (by decide)
  intenReserved := h.intenReserved
  errstatReserved := or_reserved h.errstatReserved (by cases k <;> decide)
  endptReserved := h.endptReserved
  handshake := h.handshake
  cursor := h.cursor
  endptHigh := h.endptHigh
  latch := h.latch
  latchReserved := h.latchReserved
  faultOrder := h.faultOrder

/-- The error phase (R223): ERRSTAT and the flag are cleared together. -/
theorem inv_clearErrors {σ : State} (h : Inv σ) : Inv (ackFlag .error (writeErrstat σ.errstat σ)) := by
  rw [writeErrstat_self, ackFlag_eq (by decide)]
  exact
    { memory := h.memory
      tokdne := (hasBit_and_not_flag (f := .error) (g := .tokdne) (by decide) _).trans h.tokdne
      error := hasBit_and_not_same ..
      fifoLength := h.fifoLength
      statReserved := h.statReserved
      istatReserved := and_reserved h.istatReserved
      intenReserved := h.intenReserved
      errstatReserved := by simp
      endptReserved := h.endptReserved
      handshake := h.handshake
      cursor := h.cursor
      endptHigh := h.endptHigh
      latch := h.latch
      latchReserved := h.latchReserved
      faultOrder := h.faultOrder }

/-- The end of a drain iteration: the head removed, and ISTAT latched (R225). -/
theorem inv_ackTokdne {σ : State} (h : Inv σ) : Inv (enterRun (ackFlag .tokdne σ)) := by
  rw [ackFlag_tokdne]
  have ht : hasBit ((σ.istat &&& 0xF7) ||| (if σ.statFifo.tail = [] then 0 else 0x08)) (flagMask .tokdne) =
      decide (σ.statFifo.tail ≠ []) := by
    rw [hasBit_or, show (0xF7 : Byte) = ~~~flagMask .tokdne by decide, hasBit_and_not_same]
    by_cases he : σ.statFifo.tail = [] <;> simp [he] <;> decide
  have hr : ((σ.istat &&& 0xF7) ||| (if σ.statFifo.tail = [] then 0 else 0x08)) &&& ~~~irqMask = 0 :=
    or_reserved (and_reserved h.istatReserved) (by split <;> decide)
  exact
    { memory := h.memory
      tokdne := ht
      error := by
        refine Eq.trans ?_ h.error
        show hasBit ((σ.istat &&& 0xF7) ||| (if σ.statFifo.tail = [] then 0 else 0x08)) (flagMask .error) = _
        rw [hasBit_or, show (0xF7 : Byte) = ~~~flagMask .tokdne by decide,
          hasBit_and_not_flag (f := .tokdne) (g := .error) (by decide)]
        split <;> simp [hasBit, flagMask]
      fifoLength := le_trans (by simp) h.fifoLength
      statReserved := fun v hv => h.statReserved v (List.mem_of_mem_tail hv)
      istatReserved := hr
      intenReserved := h.intenReserved
      errstatReserved := h.errstatReserved
      endptReserved := h.endptReserved
      handshake := h.handshake
      cursor := h.cursor
      endptHigh := h.endptHigh
      latch := fun hl => of_decide_eq_true (ht.symm.trans hl)
      latchReserved := hr
      faultOrder := h.faultOrder }

/-- The endpoint registers change bit 1 only, and keep their form. -/
theorem inv_endpt {σ : State} (h : Inv σ) {ep : Vector Byte 16}
    (he : ∀ e, getEp ep e = getEp σ.endpt e ∨ getEp ep e = getEp σ.endpt e &&& ~~~epstall ∨
      getEp ep e = getEp σ.endpt e &&& 0x0D) : Inv { σ with endpt := ep } where
  memory := h.memory
  tokdne := h.tokdne
  error := h.error
  fifoLength := h.fifoLength
  statReserved := h.statReserved
  istatReserved := h.istatReserved
  intenReserved := h.intenReserved
  errstatReserved := h.errstatReserved
  endptReserved e := by
    have h0 := h.endptReserved e
    show getEp ep e &&& _ = 0
    rcases he e with h1 | h1 | h1 <;> rw [h1]
    · exact h0
    · exact and_reserved h0
    · exact and_reserved h0
  handshake e := by
    have h0 := h.handshake e
    show hasBit (getEp ep e) _ = true → hasBit (getEp ep e) _ = true
    rcases he e with h1 | h1 | h1 <;> rw [h1] <;> clear h1 <;> generalize getEp σ.endpt e = x at * <;>
      revert x <;> decide
  cursor := h.cursor
  endptHigh e h2 := by
    have h0 := h.endptHigh e h2
    show getEp ep e = 0
    rcases he e with h1 | h1 | h1 <;> rw [h1, h0] <;> decide
  latch := h.latch
  latchReserved := h.latchReserved
  faultOrder := h.faultOrder

theorem inv_clearStall {σ : State} (h : Inv σ) (e : Endp) : Inv (clearStall e σ) := by
  rw [clearStall_eq]
  refine inv_endpt h fun e' => ?_
  rw [getEp_setEp]
  split
  · next he => subst he; exact .inr (.inr rfl)
  · exact .inl rfl

theorem inv_clearAllStalls {σ : State} (h : Inv σ) : Inv (clearAllStalls σ) :=
  inv_endpt h fun _ => .inr (.inl (getEp_map ..))

/-! ### The SIE's operations -/

theorem inv_storeBytes {σ : State} (h : Inv σ) (p : Word) (bs : List Byte) : Inv (storeBytes p bs σ) :=
  ⟨wf_writeBytes h.memory, h.tokdne, h.error, h.fifoLength, h.statReserved, h.istatReserved, h.intenReserved,
    h.errstatReserved, h.endptReserved, h.handshake, h.cursor, h.endptHigh, h.latch, h.latchReserved, h.faultOrder⟩

/-- COMPLETE, with room in the FIFO (R151). -/
theorem inv_complete {σ : State} (h : Inv σ) (hf : σ.statFifo.length < statFifoDepth) (e : Endp) (d : Dir) (n : Count)
    (k : TokKind) : Inv (complete e d n k σ) where
  memory := wf_writeBdWord h.memory
  tokdne := by
    show hasBit (σ.istat ||| flagMask .tokdne) (flagMask .tokdne) = decide (σ.statFifo ++ [_] ≠ [])
    rw [hasBit_or, hasBit_flagMask]; simp
  error := (hasBit_or_flag (f := .tokdne) (g := .error) (by decide) _).trans h.error
  fifoLength := by
    show (σ.statFifo ++ [_]).length ≤ statFifoDepth
    rw [List.length_append]; exact hf
  statReserved v hv := by
    rcases List.mem_append.mp hv with hv | hv
    · exact h.statReserved v hv
    · rw [List.mem_singleton.mp hv]; exact statWord_reserved ..
  istatReserved := or_reserved h.istatReserved (by decide)
  intenReserved := h.intenReserved
  errstatReserved := h.errstatReserved
  endptReserved := h.endptReserved
  handshake := h.handshake
  cursor := h.cursor
  endptHigh := h.endptHigh
  latch _ := List.append_ne_nil_of_right_ne_nil _ (List.cons_ne_nil _ _)
  latchReserved := h.latchReserved
  faultOrder := h.faultOrder

/-- ACCEPT, however it ends (R150). -/
theorem inv_accept {σ : State} (h : Inv σ) (k : TokKind) (a : UsbAddr) (e : Endp) : Inv (accept k a e σ).1 := by
  rcases accept_cases k a e σ with ⟨h1, -⟩ | ⟨h1, -⟩ | ⟨h1, -⟩ | ⟨h1, -⟩ | ⟨h1, -⟩ | ⟨h1, -⟩ <;> rw [h1]
  · exact h.update ..
  · exact h
  · exact (inv_setFlag h (f := .stall) (by decide) (by decide)).update ..
  · exact h.update ..
  · exact (inv_clearStall h e).update ..
  · dsimp only
    split
    · exact inv_clearStall h e
    · exact h

/-- An accepted token leaves room in the FIFO. -/
theorem accept_room {k : TokKind} {a : UsbAddr} {e : Endp} {σ τ : State} {s : Slot}
    (h : accept k a e σ = (τ, .accepted s)) : τ.statFifo.length < statFifoDepth := by
  rcases accept_cases k a e σ with ⟨h1, -⟩ | ⟨h1, -⟩ | ⟨h1, -⟩ | ⟨h1, -⟩ | ⟨h1, -⟩ | ⟨h1, h2⟩ <;> rw [h1] at h <;>
    simp only [Prod.mk.injEq, reduceCtorEq, and_false] at h
  rw [← h.1]
  split
  · simpa using h2.2.2.2.2.1
  · exact h2.2.2.2.2.1

/-! ### Phases and REINIT -/

/-- The two enabled endpoints after REINIT (R222). -/
theorem getEp_resetEndpt (e : Endp) :
    getEp (((Vector.replicate 16 0x00).set 0 endptEnabled).set 1 endptEnabled) e =
      if e.toNat ≤ 1 then endptEnabled else 0 := by
  revert e; decide

/-- REINIT's register values, over a cleared FIFO and cursor (R222). -/
theorem inv_reinitRegisters {σ : State} (hm : Memory.wf σ.cfg σ.mem = true) (hs : σ.statFifo = [])
    (hc : σ.cur.valid = false → σ.cur = Cursor.empty) (hf : σ.faults.Pairwise (fun f g => f.slot < g.slot)) :
    Inv (reinitRegisters σ) where
  memory := hm
  tokdne := (by decide : hasBit 0 (flagMask .tokdne) = decide (([] : List Byte) ≠ [])).trans
    (by rw [show (reinitRegisters σ).statFifo = [] from hs])
  error := (by decide : hasBit 0 (flagMask .error) = decide ((0 : Byte) ≠ 0))
  fifoLength := by rw [show (reinitRegisters σ).statFifo = [] from hs]; decide
  statReserved := by rw [show (reinitRegisters σ).statFifo = [] from hs]; simp
  istatReserved := (by decide : (0 : Byte) &&& ~~~irqMask = 0)
  intenReserved := (by decide : irqMask &&& irqMask &&& ~~~irqMask = 0)
  errstatReserved := (by decide : (0 : Byte) &&& ~~~errMask = 0)
  endptReserved e := by
    rw [show getEp (reinitRegisters σ).endpt e = _ from getEp_resetEndpt e]
    split <;> decide
  handshake e := by
    rw [show getEp (reinitRegisters σ).endpt e = _ from getEp_resetEndpt e]
    split <;> decide
  cursor := hc
  endptHigh e he := by
    rw [show getEp (reinitRegisters σ).endpt e = _ from getEp_resetEndpt e, if_neg (by omega)]
  latch hl := absurd hl (by decide : ¬ hasBit 0 (flagMask .tokdne) = true)
  latchReserved := (by decide : (0 : Byte) &&& ~~~irqMask = 0)
  faultOrder := hf

theorem wf_clearBdt {σ : State} (h : Memory.wf σ.cfg σ.mem = true) (n : Nat) :
    Memory.wf σ.cfg (clearBdt n σ).mem = true := by
  induction n with
  | zero => exact h
  | succ n ih =>
    have hc : (clearBdt n σ).cfg = σ.cfg := clearBdt_cfg ..
    have hw := wf_writeBdPtr (s := BitVec.ofNat 6 n) (w := 0) (wf_writeBdWord (s := BitVec.ofNat 6 n) (w := 0) ih)
    rw [← hc] at hw ⊢
    exact hw

/-- REINIT's arms keep what every part of a handler keeps. -/
theorem engineKeeps_reinitArms (σ : State) : EngineKeeps σ (reinitPrime (reinitArm σ)) := by
  have h : EngineKeeps σ (reinitArm σ) :=
    (((engineKeeps_arm _ _ _ _ σ).trans (engineKeeps_arm ..)).trans (engineKeeps_arm ..)).trans (engineKeeps_arm ..)
  unfold reinitPrime
  split
  · exact h.trans (engineKeeps_transmit ..)
  · exact h

/-- REINIT gives a state that meets the invariant, from one whose memory and fault record are in form (R222). -/
theorem inv_reinit {σ : State} (h : Inv σ) : Inv (reinit σ) := by
  have k := engineKeeps_reinitArms (reinitClear σ)
  have hcfg : (reinitClear σ).cfg = σ.cfg := reinitClear_cfg σ
  apply inv_reinitRegisters
  · rw [k.cfg]
    refine k.memory ?_
    rw [hcfg]
    exact wf_clearBdt (σ := { σ with
      hwodd := Vector.replicate 16 DirPair.zero, statFifo := [], par := Vector.replicate 16 DirPair.zero,
      tog := Vector.replicate 16 DirPair.zero, cur := Cursor.empty, lastSetup := 0 }) h.memory 64
  · rw [k.statFifo]
    exact clearBdt_statFifo ..
  · exact k.cursor fun _ => clearBdt_cur ..
  · exact k.faultOrder (by rw [show (reinitClear σ).faults = σ.faults from clearBdt_faults ..]; exact h.faultOrder)

/-- One drain iteration (R225). -/
theorem inv_drainOne {σ : State} (h : Inv σ) : Inv (drainOne σ) := by
  have h1 : Inv (readStat σ).2 := by
    unfold readStat
    split
    · exact h
    · exact h.update ..
  exact inv_ackTokdne (inv_of_engineKeeps h1 (engineKeeps_callHandler ..))

theorem inv_leaveStalled {σ : State} (h : Inv σ) : Inv (leaveStalled σ) := h.update ..

end Sys2Proof.Machine
end

