-- ==== Sys2Proof/Laws/PerInstr.lean ====
section
/-! SUPPORT. A law of every operation, one lemma per constructor. -/

namespace Sys2Proof.Laws.HostEventPoint

open Sys2Proof

-- One proof at a time: side by side these many small ones take more threads than the checker's memory limit allows.
set_option Elab.async false

/-- The operations recorded at the bus's decode point (R107 point 1) are the seven HOST events of R105, and no
others. -/
def Statement (i : Instr) : Prop :=
  i.isHostEvent = true ↔ (encode i).head? = some 0x01 ∨ (encode i).head? = some 0x02

theorem of_event {i : Instr} (h : i.isHostEvent = true)
    (h' : (encode i).head? = some 0x01 ∨ (encode i).head? = some 0x02) : Statement i := iff_of_true h h'

theorem of_other {i : Instr} (b : Byte) (h : i.isHostEvent = false) (h' : (encode i).head? = some b)
    (hb : b ≠ 0x01 ∧ b ≠ 0x02 := by decide) : Statement i := by
  refine iff_of_false (by simp [h]) ?_
  rw [h']
  rintro (e | e)
  · exact hb.1 (Option.some.inj e)
  · exact hb.2 (Option.some.inj e)

theorem tokOut (a : UsbAddr) (e : Endp) (t : Bit) (b : List Byte) : Statement (.tokOut a e t b) := of_event rfl (.inl rfl)

theorem tokSof : Statement (.tokSof) := of_event rfl (.inl rfl)

theorem tokIn (a : UsbAddr) (e : Endp) (hs : Handshake) : Statement (.tokIn a e hs) := of_event rfl (.inl rfl)

theorem tokSetup (a : UsbAddr) (e : Endp) (b : List Byte) : Statement (.tokSetup a e b) := of_event rfl (.inl rfl)

theorem busReset : Statement (.busReset) := of_event rfl (.inr rfl)

theorem busError (k : LinkError) : Statement (.busError k) := of_event rfl (.inr rfl)

theorem busSleep : Statement (.busSleep) := of_event rfl (.inr rfl)

theorem irqUsbrst : Statement (.irqUsbrst) := of_other 0x03 rfl rfl

theorem reinit : Statement (.reinit) := of_other 0x10 rfl rfl

theorem irqError : Statement (.irqError) := of_other 0x03 rfl rfl

theorem irqSoftok : Statement (.irqSoftok) := of_other 0x03 rfl rfl

theorem irqTokdne : Statement (.irqTokdne) := of_other 0x03 rfl rfl

theorem irqSleep : Statement (.irqSleep) := of_other 0x03 rfl rfl

theorem irqStall : Statement (.irqStall) := of_other 0x03 rfl rfl

theorem ep0Handler (d p : Bit) : Statement (.ep0Handler d p) := of_other 0x04 rfl rfl

theorem ep1Handler (d p : Bit) : Statement (.ep1Handler d p) := of_other 0x04 rfl rfl

theorem defaultHandler (e : Endp) (d p : Bit) : Statement (.defaultHandler e d p) := of_other 0x04 rfl rfl

theorem ep0OnSetup (bc : Count) (t : Bit) (s : Slot) (ptr : Word) : Statement (.ep0OnSetup bc t s ptr) := of_other 0x05 rfl rfl

theorem ep0OnIn : Statement (.ep0OnIn) := of_other 0x05 rfl rfl

theorem ep0OnOut (s : Slot) : Statement (.ep0OnOut s) := of_other 0x05 rfl rfl

theorem ep0OnOther (bc : Count) (own t : Bit) (pid : PidCode) : Statement (.ep0OnOther bc own t pid) := of_other 0x05 rfl rfl

theorem ep1OnIn : Statement (.ep1OnIn) := of_other 0x06 rfl rfl

theorem ep1OnOut (s : Slot) : Statement (.ep1OnOut s) := of_other 0x06 rfl rfl

theorem ep1OnOther (bc : Count) (own t : Bit) (pid : PidCode) : Statement (.ep1OnOther bc own t pid) := of_other 0x06 rfl rfl

theorem setupRequest : Statement (.setupRequest) := of_other 0x11 rfl rfl

theorem setAddress (wValue wIndex wLength : Half) : Statement (.setAddress wValue wIndex wLength) := of_other 0x07 rfl rfl

theorem setConfiguration (wValue wIndex wLength : Half) : Statement (.setConfiguration wValue wIndex wLength) := of_other 0x07 rfl rfl

theorem getDescriptorDev (wValue wIndex wLength : Half) : Statement (.getDescriptorDev wValue wIndex wLength) := of_other 0x07 rfl rfl

theorem getDescriptorIf (wValue wIndex wLength : Half) : Statement (.getDescriptorIf wValue wIndex wLength) := of_other 0x07 rfl rfl

theorem reqUnsupported (rt wValue wIndex wLength : Half) : Statement (.reqUnsupported rt wValue wIndex wLength) := of_other 0x07 rfl rfl

theorem lookup (wValue wIndex : Half) : Statement (.lookup wValue wIndex) := of_other 0x12 rfl rfl

theorem indexFor (e : Endp) (d : Dir) (p : Bit) : Statement (.indexFor e d p) := of_other 0x13 rfl rfl

theorem arm (s : Slot) (ptr : Word) (count : Count) (toggle : Bit) : Statement (.arm s ptr count toggle) := of_other 0x14 rfl rfl

theorem pidOf (s : Slot) : Statement (.pidOf s) := of_other 0x15 rfl rfl

theorem take (s : Slot) : Statement (.take s) := of_other 0x16 rfl rfl

theorem revoke (s : Slot) : Statement (.revoke s) := of_other 0x17 rfl rfl

theorem transmit (e : Endp) (ptr : Word) (count : Count) : Statement (.transmit e ptr count) := of_other 0x18 rfl rfl

theorem send (p : Word) (len : Half) : Statement (.send p len) := of_other 0x19 rfl rfl

theorem ep0Stall : Statement (.ep0Stall) := of_other 0x1A rfl rfl

theorem accept (kind : TokKind) (a : UsbAddr) (e : Endp) : Statement (.accept kind a e) := of_other 0x1B rfl rfl

theorem complete (e : Endp) (d : Dir) (n : Count) (kind : TokKind) : Statement (.complete e d n kind) := of_other 0x1C rfl rfl

end Sys2Proof.Laws.HostEventPoint
end

