-- ==== Sys2Proof/Tests/Slice0.lean ====
section
/-! SUPPORT. Tests: well-formedness refuses ill-formed terms, words written out from the spec decode to what they stand
for, one step of each operation on the spec's own examples, and for every statement a witness of its hypotheses. -/

namespace Sys2Proof.Tests

open Sys2Proof Sys2Proof.Machine

-- One proof at a time: the kernel's evaluations side by side take more threads than the checker's memory limit allows.
set_option Elab.async false

/-! ### Well-formedness refuses -/

theorem test_wf_refuses_long_out_packet : (Instr.tokOut 0 0 0 (List.replicate 1024 0)).wf = false := by decide +kernel

theorem test_wf_admits_longest_out_packet : (Instr.tokOut 0 0 0 (List.replicate 1023 0)).wf = true := by decide +kernel

theorem test_wf_refuses_setup_lengths :
    (Instr.tokSetup 0 0 [0, 0, 0, 0, 0, 0, 0]).wf = false ∧
    (Instr.tokSetup 0 0 [0, 0, 0, 0, 0, 0, 0, 0, 0]).wf = false := by decide

theorem test_wf_refuses_default_handler_of_0_and_1 :
    (Instr.defaultHandler 0 0 0).wf = false ∧ (Instr.defaultHandler 1 0 0).wf = false ∧
    (Instr.defaultHandler 2 0 0).wf = true := by decide

theorem test_wf_refuses_foreign_slots :
    (Instr.ep0OnSetup 8 0 2 0).wf = false ∧ (Instr.ep0OnOut 4).wf = false ∧ (Instr.ep1OnOut 0).wf = false ∧
    (Instr.ep1OnOut 6).wf = false := by decide

theorem test_wf_refuses_case_pids :
    (Instr.ep0OnOther 0 0 0 0xD).wf = false ∧ (Instr.ep0OnOther 0 0 0 0x9).wf = false ∧
    (Instr.ep1OnOther 0 0 0 0x1).wf = false ∧ (Instr.ep1OnOther 0 0 0 0xD).wf = true := by decide

theorem test_wf_refuses_known_requests :
    (Instr.reqUnsupported 0x0500 0 0 0).wf = false ∧ (Instr.reqUnsupported 0x0681 0 0 0).wf = false ∧
    (Instr.reqUnsupported 0x0580 0 0 0).wf = true := by decide

/-! ### Decoding: words written out from spec 30_encoding -/

/-- R94: OUT 0001, SOF 0101, IN 1001, SETUP 1101. -/
theorem test_decode_tokens :
    decode [0x01, 0b00000001, 5, 1, 1, 2, 0, 0xAA, 0xBB] = .ok (.tokOut 5 1 1 [0xAA, 0xBB], []) ∧
    decode [0x01, 0b00000101] = .ok (.tokSof, []) ∧
    decode [0x01, 0b00001001, 127, 15, 1] = .ok (.tokIn 127 15 .noack, []) ∧
    decode [0x01, 0b00001101, 0, 0, 0x80, 6, 0, 1, 0, 0, 0x12, 0] =
      .ok (.tokSetup 0 0 [0x80, 6, 0, 1, 0, 0, 0x12, 0], []) := by decide

/-- R96, R97: the flag each bus condition sets. -/
theorem test_decode_bus :
    decode [0x02, 0b00000001] = .ok (.busReset, []) ∧ decode [0x02, 0b00000010, 3] = .ok (.busError .bts, []) ∧
    decode [0x02, 0b00010000] = .ok (.busSleep, []) := by decide

/-- R96: the six flags. -/
theorem test_decode_phases :
    decode [0x03, 0b00000001] = .ok (.irqUsbrst, []) ∧ decode [0x03, 0b00000010] = .ok (.irqError, []) ∧
    decode [0x03, 0b00000100] = .ok (.irqSoftok, []) ∧ decode [0x03, 0b00001000] = .ok (.irqTokdne, []) ∧
    decode [0x03, 0b00010000] = .ok (.irqSleep, []) ∧ decode [0x03, 0b10000000] = .ok (.irqStall, []) ∧
    decode [0x10] = .ok (.reinit, []) := by decide

/-- R95: `eeeedp00`. -/
theorem test_decode_handlers :
    decode [0x04, 0b00001000] = .ok (.ep0Handler 1 0, []) ∧ decode [0x04, 0b00010100] = .ok (.ep1Handler 0 1, []) ∧
    decode [0x04, 0b11111100] = .ok (.defaultHandler 15 1 1, []) := by decide

/-- R92, R94: `000000cccccccccc000000000tpppp00`; the words 0x00080034, 0x00080064, 0x00000044, 0x00000014, 0x00040024,
0x00030004, 0x00080034. -/
theorem test_decode_cases :
    decode [0x05, 0b00110100, 0, 0b00001000, 0, 0, 0, 2, 0, 0x20] = .ok (.ep0OnSetup 8 0 0 0x20000200, []) ∧
    decode [0x05, 0b01100100, 0, 0b00001000, 0] = .ok (.ep0OnIn, []) ∧
    decode [0x05, 0b01000100, 0, 0, 0, 1] = .ok (.ep0OnOut 1, []) ∧
    decode [0x05, 0b00010100, 0, 0, 0] = .ok (.ep0OnOther 0 0 0 0x5, []) ∧
    decode [0x06, 0b00100100, 0, 0b00000100, 0] = .ok (.ep1OnIn, []) ∧
    decode [0x06, 0b00000100, 0, 0b00000011, 0, 4] = .ok (.ep1OnOut 4, []) ∧
    decode [0x06, 0b00110100, 0, 0b00001000, 0] = .ok (.ep1OnOther 8 0 0 0xD, []) := by decide

/-- R100, R101: the first two packet bytes are bmRequestType, bRequest. -/
theorem test_decode_requests :
    decode [0x07, 0x00, 0x05, 0x05, 0, 0, 0, 0, 0] = .ok (.setAddress 5 0 0, []) ∧
    decode [0x07, 0x00, 0x09, 0x01, 0, 0, 0, 0, 0] = .ok (.setConfiguration 1 0 0, []) ∧
    decode [0x07, 0x80, 0x06, 0x00, 0x01, 0, 0, 0x12, 0x00] = .ok (.getDescriptorDev 0x0100 0 18, []) ∧
    decode [0x07, 0x81, 0x06, 0x00, 0x22, 0, 0, 0x34, 0x00] = .ok (.getDescriptorIf 0x2200 0 52, []) ∧
    decode [0x07, 0x80, 0x08, 0, 0, 0, 0, 0x01, 0x00] = .ok (.reqUnsupported 0x0880 0 0 1, []) ∧
    decode [0x11] = .ok (.setupRequest, []) ∧
    decode [0x12, 0x01, 0x03, 0x09, 0x04] = .ok (.lookup 0x0301 0x0409, []) := by decide

/-- R91, R93: `000000cccccccccc000000001t000000` and `eeeedp`. -/
theorem test_decode_bdt :
    decode [0x13, 0b00000111] = .ok (.indexFor 1 .tx 1, []) ∧
    decode [0x14, 0b11000000, 0, 0b00001000, 0, 2, 0x78, 0x56, 0x34, 0x12] = .ok (.arm 2 0x12345678 8 1, []) ∧
    decode [0x15, 0b00000010] = .ok (.pidOf 2, []) ∧ decode [0x16, 0b00111111] = .ok (.take 63, []) ∧
    decode [0x17, 0, 0, 0, 0, 3] = .ok (.revoke 3, []) ∧
    decode [0x18, 0b10000000, 0, 0b00000100, 0, 1, 0x20, 0x02, 0, 0x20] = .ok (.transmit 1 0x20000220 4, []) ∧
    decode [0x19, 0, 0x10, 0, 0, 0x12, 0] = .ok (.send 0x1000 18, []) ∧ decode [0x1A] = .ok (.ep0Stall, []) ∧
    decode [0x1B, 0x0D, 0, 0] = .ok (.accept .setup 0 0, []) ∧
    decode [0x1C, 0b00100100, 0, 0b00000100, 0, 1, 1] = .ok (.complete 1 .tx 4 .inTok, []) := by decide

/-- Reserved and foreign encodings are refused by name (R108). -/
theorem test_decode_refuses :
    decode [0x01, 0x03] = .error (.unknownPid 0x03) ∧ decode [0x02, 0x08] = .error (.unknownFlag 0x08) ∧
    decode [0x03, 0x20] = .error (.unknownFlag 0x20) ∧ decode [0x04, 0x01] = .error .reservedBits ∧
    decode [0x14, 0x40, 0, 8, 0, 2, 0, 0, 0, 0] = .error .reservedBits ∧ decode [0x20] = .error (.unknownPoint 0x20) ∧
    decode [0x01, 0x09, 128, 0, 0] = .error .operandRange ∧ decode [] = .error .truncated := by decide

/-- The words of the opcode table, as the host numbers them. -/
theorem test_decode_table_words :
    decodeTableWord 8 0x0D = some (.tokSetup 0 0 [0, 0, 0, 0, 0, 0, 0, 0]) ∧ decodeTableWord 8 0x05 = some .tokSof ∧
    decodeTableWord 8 0x80 = some .irqStall ∧ decodeTableWord 16 0x0500 = some (.setAddress 0 0 0) ∧
    decodeTableWord 32 0x00000080 = some (.arm 0 0 0 0) ∧ decodeTableWord 64 0 = some .setupRequest := by decide

/-! ### States -/

/-- The bytes of the reset BDT that are not 0, written out from the table of R44. -/
def resetMemory : Memory :=
  [(0x20000000, 0x80), (0x20000002, 8), (0x20000005, 0x02), (0x20000007, 0x20)] ++
  [(0x20000008, 0x80), (0x2000000A, 8), (0x2000000C, 0x08), (0x2000000D, 0x02), (0x2000000F, 0x20)] ++
  [(0x20000020, 0x80), (0x20000022, 8), (0x20000024, 0x10), (0x20000025, 0x02), (0x20000027, 0x20)] ++
  [(0x20000028, 0x80), (0x2000002A, 8), (0x2000002C, 0x18), (0x2000002D, 0x02), (0x2000002F, 0x20)] ++
  [(0x20000030, 0x80), (0x20000032, 4), (0x20000034, 0x20), (0x20000035, 0x02), (0x20000037, 0x20)]

/-- The reset state, its memory written out. -/
def base : State := { State.reset with mem := resetMemory }

theorem test_reset_memory : base = State.reset := by decide +kernel

/-- The state an outcome gives. -/
def next? : Host.Outcome State Fault Refusal → Option State
  | .next τ => some τ
  | .fault _ => none
  | .refused _ => none

/-- Whether an operation gives a next state that meets a check. -/
def after (i : Instr) (σ : State) (check : State → Bool) : Bool := ((next? (exec i σ)).map check).getD false

/-- The reset state with slot `s` at a word and a pointer. -/
def withSlot (s : Slot) (w p : Word) : State := setBdWord s w (setBdPtr s p base)

/-- The reset state with endpoint 0 stalled. -/
def stalled : State := { base with endpt := setEp base.endpt 0 0x0F, ep0State := .stalled }

/-- The reset state with four completions waiting. -/
def full : State := { base with statFifo := [0x40, 0x40, 0x40, 0x40], istat := 0x08 }

/-- The first bytes of a GET_DESCRIPTOR of the device descriptor. -/
def getDevice : List Byte := [0x80, 0x06, 0x00, 0x01, 0x00, 0x00, 0x12, 0x00]

/-- The reset state after an endpoint-0 SETUP in slot 0 was served, with TOG[0][TX] = 1. -/
def dataNext : State := { base with tog := setDir base.tog 0 .tx 1 }

/-! ### One step of each operation, on the spec's examples -/

/-- R152's example. -/
theorem test_tokSetup : after (.tokSetup 0 0 getDevice) base (fun τ =>
    bdWord τ 0 = 0x00080034 && loadBytes τ.cfg.ep0RxBuf0 8 τ = getDevice && τ.statFifo = [0x00] && τ.istat = 0x08 &&
    getDir τ.hwodd 0 .rx = 1 && τ.response = .ack) = true := by decide +kernel

/-- R153's example. -/
theorem test_tokIn : after (.tokIn 0 0 .ack) (withSlot 2 0x000800C0 0x1000) (fun τ =>
    τ.response = .data1 (List.replicate 8 0) && bdWord τ 2 = 0x00080064 && τ.statFifo = [0x08] &&
    getDir τ.hwodd 0 .tx = 1) = true := by decide +kernel

/-- R153, no handshake: the descriptor stays. -/
theorem test_tokIn_noack : after (.tokIn 0 1 .noack) base (fun τ =>
    τ.errstat = 0x10 && τ.istat = 0x02 && bdWord τ 6 = 0x00040080 && τ.statFifo = []) = true := by decide +kernel

/-- R154's example. -/
theorem test_tokOut : after (.tokOut 0 0 1 [])
    { withSlot 1 0x000800C0 0x20000208 with hwodd := setDir base.hwodd 0 .rx 1 } (fun τ =>
    τ.response = .ack && bdWord τ 1 = 0x00000044 && τ.statFifo = [0x04] && getDir τ.hwodd 0 .rx = 0) = true := by
  decide +kernel

/-- R154: the other toggle is acknowledged and dropped. -/
theorem test_tokOut_repeated : after (.tokOut 0 0 1 [1, 2]) base (fun τ =>
    decide (τ = { base with response := .ack })) = true := by decide +kernel

/-- R155 to R158's examples. -/
theorem test_bus_events :
    after .tokSof base (fun τ => τ.istat = 0x04) = true ∧
    after .busReset { base with istat := 0x08 } (fun τ => τ.istat = 0x09) = true ∧
    after (.busError .crc16) base (fun τ => τ.errstat = 0x04 && τ.istat = 0x02) = true ∧
    after .busSleep base (fun τ => τ.istat = 0x10) = true := by decide +kernel

/-- R221's example: USBRST supersedes TOKDNE. -/
theorem test_irqUsbrst : after .irqUsbrst { full with istat := 0x09 } (fun τ =>
    decide (τ = base)) = true := by decide +kernel

/-- R222: REINIT from a state with everything changed gives the reset state, FAULT kept. -/
theorem test_reinit : after .reinit { stalled with addr := 5, errstat := 0x14, faults := [.ownViolation 2] } (fun τ =>
    decide (τ = { base with faults := [.ownViolation 2] })) = true := by decide +kernel

/-- R223, R224, R226's examples. -/
theorem test_acknowledge_phases :
    after .irqError { base with dstatus := 0x02, errstat := 0x14, istat := 0x02 } (fun τ =>
      τ.errstat = 0 && τ.istat = 0 && τ.dph = .sof) = true ∧
    after .irqSoftok { base with dstatus := 0x04, istat := 0x14 } (fun τ =>
      τ.istat = 0x10 && τ.dph = .tok) = true ∧
    after .irqSleep { base with dstatus := 0x10, istat := 0x90 } (fun τ =>
      τ.istat = 0x80 && τ.dph = .stall) = true := by decide +kernel

/-- R225: one entry of two is drained, TOKDNE stays, and DSTATUS follows. -/
theorem test_irqTokdne : after .irqTokdne { full with statFifo := [0x40, 0x44], dstatus := 0x0C, istat := 0x8C }
    (fun τ => τ.statFifo = [0x44] && τ.istat = 0x8C && τ.dstatus = 0x8C && τ.dph = .tok) = true := by decide +kernel

/-- R227. -/
theorem test_irqStall : after .irqStall { stalled with dstatus := 0x80, istat := 0x80 } (fun τ =>
    getEp τ.endpt 0 = 0x0D && τ.istat = 0 && τ.ep0State = .idle && τ.dph = .idle) = true := by decide +kernel

/-- R180's example: STAT 0x08, BD[2].word = 0x00080064 selects EP0_ON_IN, which moves the cursor. -/
theorem test_ep0Handler : after (.ep0Handler 1 0)
    { withSlot 2 0x00080064 0 with cur := { valid := true, ptr := 0x1008, len := 2 } } (fun τ =>
    τ.cur = Cursor.empty && getDir τ.par 0 .tx = 1) = true := by decide +kernel

/-- R250's example: STAT 0x18, BD[6].word = 0x00040024 selects EP1_ON_IN. -/
theorem test_ep1Handler : after (.ep1Handler 1 0) (withSlot 6 0x00040024 0) (fun τ =>
    bdWord τ 7 = 0x000400C0) = true := by decide +kernel

/-- R181 and program P1: the packet is kept, the buffer goes back with DATA1, the descriptor is armed. -/
theorem test_ep0OnSetup : after (.ep0OnSetup 8 0 0 0x20000200)
    (storeBytes 0x20000200 getDevice (withSlot 0 0x00080034 0x20000200)) (fun τ =>
    τ.lastSetup = 0x0012000001000680 && bdWord τ 0 = 0x000800C0 && bdWord τ 2 = 0x000800C0 &&
    bdWord τ 3 = 0x00080080 && τ.cur = { valid := true, ptr := 0x1010, len := 2 } && τ.ep0State = .sendingData) =
    true := by decide +kernel

/-- R189's example. -/
theorem test_ep0OnIn : after .ep0OnIn { dataNext with cur := { valid := true, ptr := 0x1010, len := 2 } } (fun τ =>
    bdWord τ 2 = 0x000200C0 && bdPtr τ 2 = 0x1010 && τ.cur = Cursor.empty && getDir τ.par 0 .tx = 1 &&
    getDir τ.tog 0 .tx = 0) = true := by decide +kernel

/-- R189: SET_ADDRESS takes effect with wValue[6:0] = 0x185[6:0] = 5. -/
theorem test_ep0OnIn_address : after .ep0OnIn
    { base with lastSetup := 0x0000000001850500, ep0State := .statusOk } (fun τ =>
    τ.addr = 5 && τ.ep0State = .idle) = true := by decide +kernel

/-- R190's and R252's examples. -/
theorem test_out_cases :
    after (.ep0OnOut 1) (withSlot 1 0x00000044 0x20000208) (fun τ =>
      bdWord τ 1 = 0x000800C0 && bdPtr τ 1 = 0x20000208 && τ.faults = []) = true ∧
    after (.ep1OnOut 4) (withSlot 4 0x00030004 0x20000210) (fun τ => bdWord τ 4 = 0x00080080) = true := by
  decide +kernel

/-- R191, R229, R253: nothing. -/
theorem test_other_cases :
    after (.ep0OnOther 0 1 0 0) base (fun τ => decide (τ = base)) = true ∧
    after (.ep1OnOther 8 0 0 0xD) base (fun τ => decide (τ = base)) = true ∧
    after (.defaultHandler 2 0 0) base (fun τ => decide (τ = base)) = true := by decide +kernel

/-- R251's example. -/
theorem test_ep1OnIn : after .ep1OnIn base (fun τ =>
    bdWord τ 7 = 0x000400C0 && bdPtr τ 7 = τ.cfg.reportBase && getDir τ.par 1 .tx = 0 && getDir τ.tog 1 .tx = 0) =
    true := by decide +kernel

/-- R182: RT = 0x0500 is SET_ADDRESS, RT = 0x0580 is not. -/
theorem test_setupRequest :
    after .setupRequest { base with lastSetup := 0x0000000000050500 } (fun τ => τ.ep0State = .statusOk) = true ∧
    after .setupRequest { base with lastSetup := 0x0000000000050580 } (fun τ =>
      τ.ep0State = .stalled && getEp τ.endpt 0 = 0x0F) = true := by decide +kernel

/-- R183, R184: an empty packet, DATA1; ADDR is not written. -/
theorem test_status_requests :
    after (.setAddress 5 0 0) dataNext (fun τ =>
      bdWord τ 2 = 0x000000C0 && bdWord τ 3 = 0 && τ.addr = 0 && τ.ep0State = .statusOk) = true ∧
    after (.setConfiguration 1 0 0) dataNext (fun τ => bdWord τ 2 = 0x000000C0 && τ.ep0State = .statusOk) = true := by
  decide +kernel

/-- R185: a hit is cut to wLength; a pair not in the table stalls. -/
theorem test_getDescriptor :
    after (.getDescriptorDev 0x0100 0 5) dataNext (fun τ =>
      bdWord τ 2 = 0x000500C0 && bdPtr τ 2 = 0x1000 && bdWord τ 3 = 0 && τ.ep0State = .sendingData) = true ∧
    after (.getDescriptorIf 0x0301 0 255) dataNext (fun τ =>
      τ.ep0State = .stalled && getEp τ.endpt 0 = 0x0F && bdWord τ 2 = 0) = true := by decide +kernel

/-- R186, R187's example. -/
theorem test_stall_requests :
    after (.reqUnsupported 0x0580 0 0 0) base (fun τ =>
      getEp τ.endpt 0 = 0x0F && τ.ep0State = .stalled) = true ∧
    after .ep0Stall base (fun τ => getEp τ.endpt 0 = 0x0F && τ.ep0State = .idle) = true := by decide +kernel

/-- R262's examples. -/
theorem test_lookup :
    after (.lookup 0x0100 0) base (fun τ => τ.result = .found 0x1000 18) = true ∧
    after (.lookup 0x0600 0) base (fun τ => τ.result = .miss) = true := by decide +kernel

/-- R130's example, and the last slot. -/
theorem test_indexFor :
    after (.indexFor 1 .tx 1) base (fun τ => τ.result = .slot 7) = true ∧
    after (.indexFor 15 .tx 1) base (fun τ => τ.result = .slot 63) = true := by decide +kernel

/-- R131's example, on an owned slot: the fault is recorded, and the word still written. -/
theorem test_arm : after (.arm 0 0x20000200 8 1) base (fun τ =>
    bdWord τ 0 = 0x000800C0 && bdPtr τ 0 = 0x20000200 && τ.faults = [.ownViolation 0]) = true := by decide +kernel

/-- R132's and R133's examples. -/
theorem test_pidOf_take :
    after (.pidOf 2) (withSlot 2 0x00080064 0) (fun τ => τ.result = .pid 0x9) = true ∧
    after (.take 0) (withSlot 0 0x00080034 0x20000200) (fun τ => τ.result = .taken 0xD 8 0x20000200) = true := by
  decide +kernel

/-- R134's example: the pointer stays. -/
theorem test_revoke : after (.revoke 3) (withSlot 3 0x00000080 0x1008) (fun τ =>
    bdWord τ 3 = 0 && bdPtr τ 3 = 0x1008 && τ.faults = []) = true := by decide +kernel

/-- R136's example. -/
theorem test_transmit : after (.transmit 0 0x1000 8) dataNext (fun τ =>
    bdWord τ 2 = 0x000800C0 && bdPtr τ 2 = 0x1000 && getDir τ.par 0 .tx = 1 && getDir τ.tog 0 .tx = 0) = true := by
  decide +kernel

/-- R188's example, and a send of 16 bytes: the empty packet is owed. -/
theorem test_send :
    after (.send 0x1000 18) dataNext (fun τ =>
      bdWord τ 2 = 0x000800C0 && bdWord τ 3 = 0x00080080 && bdPtr τ 3 = 0x1008 &&
      τ.cur = { valid := true, ptr := 0x1010, len := 2 } && getDir τ.par 0 .tx = 0 && getDir τ.tog 0 .tx = 1) = true ∧
    after (.send 0x1000 16) dataNext (fun τ => τ.cur = { valid := true, ptr := 0x1010, len := 0 }) = true := by
  decide +kernel

/-- R150: a stalled endpoint stalls an IN; a SETUP clears EPSTALL. -/
theorem test_accept :
    after (.accept .inTok 0 0) stalled (fun τ =>
      τ.result = .ended && τ.response = .stall && τ.istat = 0x80) = true ∧
    after (.accept .setup 0 0) stalled (fun τ =>
      τ.result = .accepted 0 && getEp τ.endpt 0 = 0x0D && τ.istat = 0) = true := by decide +kernel

/-- R151, on the primed report. -/
theorem test_complete : after (.complete 1 .tx 4 .inTok) base (fun τ =>
    bdWord τ 6 = 0x00040024 && τ.statFifo = [0x18] && τ.istat = 0x08 && getDir τ.hwodd 1 .tx = 1) = true := by
  decide +kernel

/-- R66, R72: a write to a read-only byte changes nothing (log 9). -/
theorem test_read_only_bytes :
    writeByte Config.default [] 0x1000 0xFF = [] ∧
    writeByte Config.default [] 0x30000000 0xFF = [(0x30000000, 0xFF)] ∧
    writeByte Config.default [(0x30000000, 0xFF)] 0x30000000 0 = [] := by decide +kernel

/-- A word on the wire runs as the first operation after reset. -/
theorem test_withFetchWord : ((next? (step (base.withFetchWord 8 0x0D))).map fun τ => τ.response) =
    some .ack := by decide +kernel

/-! ### Witnesses: concrete states and operands that meet the hypotheses of each statement together -/

theorem base_inv : Inv base where
  memory := by decide +kernel
  tokdne := by decide +kernel
  error := by decide +kernel
  fifoLength := by decide +kernel
  statReserved := by decide +kernel
  istatReserved := by decide +kernel
  intenReserved := by decide +kernel
  errstatReserved := by decide +kernel
  endptReserved := by decide +kernel
  handshake := by decide +kernel
  cursor := by decide +kernel
  endptHigh := by decide +kernel
  latch := by decide +kernel
  latchReserved := by decide +kernel
  faultOrder := by decide +kernel

theorem base_runInv : RunInv base where
  base := base_inv
  configOk := by decide +kernel
  schedule := by decide +kernel
  rxPtr := by decide +kernel
  rxCount := by decide +kernel
  ownedWord := by decide +kernel
  rxPid := by decide +kernel
  txPid := by decide +kernel
  highSlots := by decide +kernel
  txSource := by unfold inStore; decide +kernel
  cursorSource := by unfold inStore; decide +kernel
  inten := by decide +kernel
  endpt0 := by decide +kernel
  endpt1 := by decide +kernel
  fifoEndpoints := by decide +kernel
  fifoRx := by decide +kernel
  fifoRxOnce := by decide +kernel
  ep1 := .inl (by unfold ep1Armed; decide +kernel)
  faultSlots := by decide +kernel

/-- A step that passes a check is a next state that meets it. -/
theorem next_of_check {o : Host.Outcome State Fault Refusal} (check : State → Bool)
    (h : ((next? o).map check).getD false = true) : ∃ τ, o = .next τ ∧ check τ = true := by
  cases o with
  | next τ => exact ⟨τ, rfl, by simpa [next?] using h⟩
  | fault f => simp [next?] at h
  | refused r => simp [next?] at h

/-- The reset configuration with a BDT one byte off its alignment. -/
def misaligned : Config := { Config.default with bdtBase := 0x20000001 }

/-- The reset configuration with a buffer that ends past the address space. -/
def tooHigh : Config := { Config.default with ep0RxBuf0 := 0xFFFFFFF9 }

/-- The reset configuration with two buffers that share a byte. -/
def overlapping : Config := { Config.default with ep0RxBuf1 := 0x20000207 }

/-- The reset configuration with endpoint-1 buffers of one size, and both far from the rest. -/
def sized (n : Nat) (p : Word) : Config := { Config.default with ep1RxSize := n, ep1RxBuf0 := 0x30000000, ep1RxBuf1 := p }

/-- The reset configuration with an empty device descriptor. -/
def shortDescriptor : Config := { Config.default with descDevice := { pointer := 0x1000, bytes := [] } }

/-- The reset configuration without a first report. -/
def unprimed : Config := { Config.default with ep1Prime := .never }

/-- The reset state with a FIFO of `n` completions of endpoint 4. -/
def queued (n : Nat) : State := { base with statFifo := List.replicate n 0x40, istat := 0x08 }

/-- The reset state with endpoint 2 enabled, but without handshakes. -/
def noHandshakes : State := { base with endpt := setEp base.endpt 2 0x0C }

/-- A state with much in progress: on endpoint 0 a transfer's first packet armed and the rest in the cursor, and endpoint
1's report sent and not yet served. -/
def busy : State :=
  { setBdWord 6 0x00040024 (withSlot 2 0x000800C0 0x1000) with
    istat := 0x88, statFifo := [0x18], dstatus := 0x08, dph := .tok, hwodd := setDir base.hwodd 1 .tx 1
    ep0State := .sendingData, cur := { valid := true, ptr := 0x1008, len := 10 } }

/-- The same, with endpoint 0 stalled. -/
def busyStalled : State := { busy with endpt := setEp base.endpt 0 0x0F, ep0State := .stalled }

/-- A state with a schedule. -/
def running (σ : State) (turns : List Turn) : State := { σ with schedule := turns }

theorem busy_inv : Inv busy where
  memory := by decide +kernel
  tokdne := by decide +kernel
  error := by decide +kernel
  fifoLength := by decide +kernel
  statReserved := by decide +kernel
  istatReserved := by decide +kernel
  intenReserved := by decide +kernel
  errstatReserved := by decide +kernel
  endptReserved := by decide +kernel
  handshake := by decide +kernel
  cursor := by decide +kernel
  endptHigh := by decide +kernel
  latch := by decide +kernel
  latchReserved := by decide +kernel
  faultOrder := by decide +kernel

theorem busy_runInv : RunInv busy where
  base := busy_inv
  configOk := by decide +kernel
  schedule := by decide +kernel
  rxPtr := by decide +kernel
  rxCount := by decide +kernel
  ownedWord := by decide +kernel
  rxPid := by decide +kernel
  txPid := by decide +kernel
  highSlots := by decide +kernel
  txSource := by unfold inStore; decide +kernel
  cursorSource := by unfold inStore; decide +kernel
  inten := by decide +kernel
  endpt0 := by decide +kernel
  endpt1 := by decide +kernel
  fifoEndpoints := by decide +kernel
  fifoRx := by decide +kernel
  fifoRxOnce := by decide +kernel
  ep1 := .inr (.inl (by unfold ep1Sent; decide +kernel))
  faultSlots := by decide +kernel

theorem busyStalled_inv : Inv busyStalled :=
  { busy_inv with
    endptReserved := by decide +kernel
    handshake := by decide +kernel
    endptHigh := by decide +kernel }

theorem busyStalled_runInv : RunInv busyStalled :=
  { busy_runInv with
    base := busyStalled_inv
    endpt0 := by decide +kernel
    endpt1 := by decide +kernel }

/-- `Inv` says nothing of the schedule. -/
theorem inv_running {σ : State} (h : Inv σ) (turns : List Turn) : Inv (running σ turns) :=
  ⟨h.memory, h.tokdne, h.error, h.fifoLength, h.statReserved, h.istatReserved, h.intenReserved, h.errstatReserved,
    h.endptReserved, h.handshake, h.cursor, h.endptHigh, h.latch, h.latchReserved, h.faultOrder⟩

/-- `RunInv` says of the schedule that its turns are real. -/
theorem runInv_running {σ : State} (h : RunInv σ) (turns : List Turn) (ht : ∀ t ∈ turns, t.real = true) :
    RunInv (running σ turns) :=
  ⟨inv_running h.base turns, h.configOk, ht, h.rxPtr, h.rxCount, h.ownedWord, h.rxPid, h.txPid, h.highSlots,
    h.txSource, h.cursorSource, h.inten, h.endpt0, h.endpt1, h.fifoEndpoints, h.fifoRx, h.fifoRxOnce, h.ep1,
    h.faultSlots⟩

/-- Boundary operands: the widest count, the highest slot field, the longest OUT packet. -/
theorem witness_DecodeEncode :
    (Instr.tokOut 127 15 1 (List.replicate 1023 0)).wf = true ∧ (Instr.tokOut 0 0 0 []).wf = true ∧
    (Instr.ep0OnSetup 1023 1 1 0xFFFFFFFF).wf = true ∧ (Instr.ep1OnOther 1023 1 1 0xF).wf = true ∧
    (Instr.reqUnsupported 0xFFFF 0xFFFF 0xFFFF 0xFFFF).wf = true := by decide +kernel

theorem witness_DecodedIsWellFormed :
    decode [0x03, 0x08, 7] = .ok (.irqTokdne, [7]) ∧ decode [0x1A] = .ok (.ep0Stall, []) := by decide

theorem witness_StepRunsDecodedInstruction :
    ConfigOk base.cfg ∧
    decode [0x01, 0x05] = .ok (.tokSof, []) ∧ Instr.tokSof.isHostEvent = true ∧
    decode [0x1A] = .ok (.ep0Stall, []) ∧
    busy.schedule = [] ∧ busy.dph ≠ .idle ∧
    (full.dph = .idle ∧ full.istat &&& full.inten ≠ 0) ∧
    (running base [.engine]).schedule = [.engine] ∧ base.dph = .idle ∧ base.istat &&& base.inten = 0 := by
  decide +kernel

/-- A BDT one byte off its alignment, a buffer past the end of the address space, two overlapping ranges, a buffer size
over 1023, and a descriptor of the wrong length each break the requirements. -/
theorem witness_StepRefusesWhatIsNotAdmitted :
    ¬ ConfigOk misaligned ∧
    ¬ ConfigOk tooHigh ∧
    ¬ ConfigOk overlapping ∧
    ¬ ConfigOk (sized 1024 0x30001000) ∧
    ¬ ConfigOk shortDescriptor ∧
    ConfigOk base.cfg ∧ decode [0x01, 0x03] = .error (.unknownPid 0x03) ∧
    decode [0x10] = .ok (.reinit, []) ∧ Instr.reinit.isHostEvent = false := by
  refine ⟨?_, ?_, ?_, ?_, ?_, ?_, ?_, ?_, ?_⟩ <;> decide +kernel

theorem witness_StepKeepsInv :
    Inv (running base [.call [0x1A]]) ∧ (∃ τ, step (running base [.call [0x1A]]) = .next τ) ∧
    Inv busy ∧ ∃ τ, step busy = .next τ := by
  refine ⟨inv_running base_inv _, ?_, busy_inv, ?_⟩
  · exact (next_of_check (fun τ => τ.endpt[0] = 0x0F) (by decide +kernel)).imp fun _ h => h.1
  · exact (next_of_check (fun τ => τ.statFifo = []) (by decide +kernel)).imp fun _ h => h.1

theorem witness_PowerOnMeetsRunInv :
    ConfigOk Config.default ∧ ConfigOk unprimed ∧
    ConfigOk (sized 0 0x30000000) ∧
    ConfigOk (sized 1023 0xFFFFFC01) := by
  refine ⟨?_, ?_, ?_, ?_⟩ <;> decide +kernel

/-- A HOST turn and an ENGINE turn, the first with a data packet. -/
theorem witness_StepKeepsRunInv :
    RunInv (running base [.host [0x01, 0x09, 0, 1, 0], .engine]) ∧
    (∃ τ, step (running base [.host [0x01, 0x09, 0, 1, 0], .engine]) = .next τ) ∧
    RunInv busy ∧ ∃ τ, step busy = .next τ := by
  refine ⟨runInv_running base_runInv _ (by decide), ?_, busy_runInv, ?_⟩
  · exact (next_of_check (fun τ => τ.statFifo = [0x18]) (by decide +kernel)).imp fun _ h => h.1
  · exact (next_of_check (fun τ => τ.statFifo = []) (by decide +kernel)).imp fun _ h => h.1

/-- The first and the last byte of a descriptor are read-only; the bytes around it are not. -/
theorem witness_StoreNeverWritten :
    (∃ τ, step (running base [.call [0x1A]]) = .next τ) ∧
    romByte base.cfg (0x1000 : Word).toNat ≠ none ∧ romByte base.cfg (0x1011 : Word).toNat ≠ none ∧
    romByte base.cfg (0x1012 : Word).toNat = none := by
  refine ⟨(next_of_check (fun τ => τ.endpt[0] = 0x0F) (by decide +kernel)).imp fun _ h => h.1, ?_⟩
  decide +kernel

/-- The bytes just below the BDT and just above the last RX buffer are in neither. -/
theorem witness_StepWritesOnlyBdtAndBuffers :
    RunInv busy ∧ (∃ τ, step busy = .next τ) ∧
    (¬ inBdt busy.cfg 0x1FFFFFFF ∧
      ∀ r ∈ rxRegions busy.cfg, (0x1FFFFFFF : Word).toNat < r.base ∨ r.base + r.size ≤ (0x1FFFFFFF : Word).toNat) ∧
    (¬ inBdt busy.cfg 0x20000220 ∧
      ∀ r ∈ rxRegions busy.cfg, (0x20000220 : Word).toNat < r.base ∨ r.base + r.size ≤ (0x20000220 : Word).toNat) := by
  refine ⟨busy_runInv, (next_of_check (fun τ => τ.statFifo = []) (by decide +kernel)).imp fun _ h => h.1, ?_⟩
  decide +kernel

/-- The report under DATA0, and a descriptor's first packet under DATA1. -/
theorem witness_DataPacketsComeFromTheStore :
    RunInv (running base [.host [0x01, 0x09, 0, 1, 0]]) ∧
    (∃ τ, step (running base [.host [0x01, 0x09, 0, 1, 0]]) = .next τ ∧ τ.response = .data0 [0, 0, 0, 0]) ∧
    RunInv (running busy [.host [0x01, 0x09, 0, 0, 1]]) ∧
    (∃ τ, step (running busy [.host [0x01, 0x09, 0, 0, 1]]) = .next τ ∧
      τ.response = .data1 (List.replicate 8 0)) := by
  refine ⟨runInv_running base_runInv _ (by decide), ?_, runInv_running busy_runInv _ (by decide), ?_⟩
  · exact (next_of_check (fun τ => τ.response = .data0 [0, 0, 0, 0]) (by decide +kernel)).imp
      fun _ h => ⟨h.1, of_decide_eq_true h.2⟩
  · exact (next_of_check (fun τ => τ.response = .data1 (List.replicate 8 0)) (by decide +kernel)).imp
      fun _ h => ⟨h.1, of_decide_eq_true h.2⟩

theorem witness_FaultsAreSticky :
    ∃ τ, exec .reinit { base with faults := [.ownViolation 2] } = .next τ ∧
      .ownViolation 2 ∈ ({ base with faults := [.ownViolation 2] } : State).faults :=
  (next_of_check (fun _ => true) (by decide +kernel)).imp fun _ h => ⟨h.1, by decide⟩

/-- REINIT clears the address; the IN case after SET_ADDRESS writes it. -/
theorem witness_AddressWriters :
    (∃ τ, exec .reinit { base with addr := 5 } = .next τ ∧ decide (τ.addr ≠ 5) = true) ∧
    (∃ τ, exec .ep0OnIn { base with lastSetup := 0x0000000000050500 } = .next τ ∧ decide (τ.addr ≠ base.addr) = true) :=
  ⟨next_of_check (fun τ => τ.addr ≠ 5) (by decide +kernel),
    next_of_check (fun τ => τ.addr ≠ base.addr) (by decide +kernel)⟩

theorem witness_EnableBitWriters :
    (∃ τ, exec .irqStall { stalled with dstatus := 0x80, istat := 0x80 } = .next τ) ∧
    Instr.irqStall ≠ .reinit ∧ Instr.irqStall ≠ .irqUsbrst :=
  ⟨(next_of_check (fun _ => true) (by decide +kernel)).imp fun _ h => h.1, by decide, by decide⟩

theorem witness_HostEventsLeaveTheEngineAlone :
    (Instr.tokSetup 0 0 getDevice).isHostEvent = true ∧ ∃ τ, exec (.tokSetup 0 0 getDevice) base = .next τ :=
  ⟨rfl, (next_of_check (fun _ => true) (by decide +kernel)).imp fun _ h => h.1⟩

theorem witness_EngineOperationsComplete :
    ConfigOk base.cfg ∧ Instr.irqTokdne.isHostEvent = false ∧ (∀ k a e, Instr.irqTokdne ≠ .accept k a e) ∧
    (∀ e d n k, Instr.irqTokdne ≠ .complete e d n k) ∧ ¬ inBdt base.cfg 0x20000200 ∧ ¬ inBdt base.cfg 0x1FFFFFFF :=
  ⟨by decide +kernel, rfl, fun _ _ _ => nofun, fun _ _ _ _ => nofun, by decide +kernel, by decide +kernel⟩

theorem witness_BothResetsLeaveTheResetTable :
    ConfigOk Config.default ∧ ConfigOk unprimed ∧ Memory.wf busy.cfg busy.mem = true ∧
    ({ busy with istat := 0x89 } : State).istat &&& 0x01 ≠ 0 ∧ ¬ inBdt busy.cfg 0x20000200 := by
  refine ⟨?_, ?_, ?_, ?_, ?_⟩ <;> decide +kernel

theorem witness_ReinitGivesThePowerOnState :
    ConfigOk busy.cfg ∧ ¬ inBdt busy.cfg 0x20000200 ∧ ¬ inBdt busy.cfg 0x1FFFFFFF := by decide +kernel

/-- Another address; an endpoint that is not enabled; a setup packet. -/
theorem witness_ForeignTokensAreIgnored :
    (1 : UsbAddr) ≠ base.addr ∧ endptHas base 2 (enableMask .setup) = false ∧
    endptHas base 15 (enableMask .outTok) = false ∧ endptHas base 2 (enableMask .inTok) = false ∧
    getDevice.length = 8 ∧ endptHas base 2 eprxen = false ∧ endptHas base 15 eptxen = false := by decide +kernel

theorem witness_StalledEndpointsAnswerStall :
    endptHas stalled 0 eptxen = true ∧ endptHas stalled 0 eprxen = true ∧ endptHas stalled 0 ephshk = true ∧
    endptHas stalled 0 epstall = true := by decide +kernel

/-- The FIFO full, and a descriptor that is not owned, for IN, OUT and SETUP. -/
theorem witness_TokensWithoutDescriptorAreTurnedAway :
    (endptHas full 0 eptxen = true ∧ endptHas full 0 eprxen = true ∧ endptHas full 0 ephshk = true ∧
      endptHas full 0 epstall = false ∧ 4 ≤ full.statFifo.length) ∧
    (endptHas base 0 eptxen = true ∧ endptHas base 0 ephshk = true ∧ endptHas base 0 epstall = false ∧
      bdOwned base (sieSlot base 0 .tx) = false) ∧
    (endptHas (withSlot 0 0x00080034 0x20000200) 0 eprxen = true ∧
      endptHas (withSlot 0 0x00080034 0x20000200) 0 ephshk = true ∧
      endptHas (withSlot 0 0x00080034 0x20000200) 0 epstall = false ∧
      bdOwned (withSlot 0 0x00080034 0x20000200) (sieSlot (withSlot 0 0x00080034 0x20000200) 0 .rx) = false) ∧
    getDevice.length = 8 := by decide +kernel

/-- Another address; an endpoint not enabled; a stalled endpoint; a SETUP (also while stalled), an OUT and an IN that
pass the first checks, with the FIFO full, one place left, and empty. -/
theorem witness_AcceptChecksInOrder :
    ((1 : UsbAddr) ≠ base.addr ∧ endptHas base 2 (enableMask .inTok) = false) ∧
    (TokKind.inTok ≠ .setup ∧ endptHas stalled 0 (enableMask .inTok) = true ∧ endptHas stalled 0 ephshk = true ∧
      endptHas stalled 0 epstall = true) ∧
    (endptHas full 0 (enableMask .outTok) = true ∧ endptHas full 0 ephshk = true ∧ endptHas full 0 epstall = false ∧
      4 ≤ full.statFifo.length) ∧
    Acceptable .setup 0 0 stalled ∧ Acceptable .outTok 0 1 (queued 3) ∧ Acceptable .inTok 0 1 base := by
  refine ⟨?_, ?_, ?_, ?_, ?_, ?_⟩ <;> decide +kernel

theorem witness_CompleteWritesBack :
    ConfigOk (queued 3).cfg ∧ (queued 3).statFifo.length < 4 := by
  decide +kernel

/-- A buffer that shares no byte with its slot, addresses near. -/
theorem bufferApart_of {σ : State} {s : Slot} {n : Nat}
    (h : (bdAddr σ.cfg s).toNat + 8 ≤ (bdPtr σ s).toNat ∧ (bdPtr σ s).toNat + n ≤ 2 ^ 32) : BufferApart σ s n := by
  intro a ha
  simp only [inPacket, inSlot] at *
  generalize bdPtr σ s = p at *
  generalize bdAddr σ.cfg s = q at *
  bv_omega

/-- For the first clauses of the three token statements: ACCEPT ends a token of each kind, at another address, stalled,
and with the FIFO full. -/
theorem witness_accept_ends :
    (∃ τ, exec (.accept .setup 1 0) base = .next τ ∧ decide (τ.result = .ended) = true) ∧
    (∃ τ, exec (.accept .inTok 0 0) stalled = .next τ ∧ decide (τ.result = .ended) = true) ∧
    (∃ τ, exec (.accept .outTok 0 0) full = .next τ ∧ decide (τ.result = .ended) = true) :=
  ⟨next_of_check (fun τ => τ.result = .ended) (by decide +kernel),
    next_of_check (fun τ => τ.result = .ended) (by decide +kernel),
    next_of_check (fun τ => τ.result = .ended) (by decide +kernel)⟩

theorem witness_SetupTokenIsTaken :
    ConfigOk base.cfg ∧ Acceptable .setup 0 0 base ∧ getDevice.length = 8 ∧
    8 ≤ (wordBC (bdWord base (sieSlot base 0 .rx))).toNat ∧ BufferApart base (sieSlot base 0 .rx) 8 :=
  ⟨by decide +kernel, by decide +kernel, rfl, by decide +kernel, bufferApart_of (by decide +kernel)⟩

/-- The report, and an empty packet. -/
theorem witness_InTokenSendsTheArmedPacket :
    ConfigOk base.cfg ∧ Acceptable .inTok 0 1 base ∧ Acceptable .inTok 0 0 (withSlot 2 0x000000C0 0) := by
  refine ⟨?_, ?_, ?_⟩ <;> decide +kernel

/-- The longest packet that fits, the empty packet, and the other toggle. -/
theorem witness_OutTokenIsTakenOrDropped :
    ConfigOk base.cfg ∧ Acceptable .outTok 0 0 base ∧
    getDevice.length = (wordBC (bdWord base (sieSlot base 0 .rx))).toNat ∧
    BufferApart base (sieSlot base 0 .rx) 8 ∧ BufferApart base (sieSlot base 0 .rx) 0 ∧
    (1 : Bit) ≠ wordData01 (bdWord base (sieSlot base 0 .rx)) :=
  ⟨by decide +kernel, by decide +kernel, by decide +kernel, bufferApart_of (by decide +kernel),
    bufferApart_of (by decide +kernel), by decide +kernel⟩

/-- Seven and nine bytes of setup; a slot armed for 7; nine bytes into a slot armed for 8; no EPHSHK; a full FIFO. -/
theorem witness_TrafficThatIsNotAdmitted :
    (List.replicate 7 (0 : Byte)).length ≠ 8 ∧ (List.replicate 9 (0 : Byte)).length ≠ 8 ∧
    Acceptable .setup 0 0 (withSlot 0 0x00070080 0x20000200) ∧
    (wordBC (bdWord (withSlot 0 0x00070080 0x20000200) (sieSlot base 0 .rx))).toNat < 8 ∧
    Acceptable .outTok 0 0 base ∧
    (wordBC (bdWord base (sieSlot base 0 .rx))).toNat < (List.replicate 9 (0 : Byte)).length ∧
    (endptHas noHandshakes 2 (enableMask .inTok) = true ∧
      endptHas noHandshakes 2 (enableMask .setup) = true ∧
      endptHas noHandshakes 2 eptxen = true ∧ endptHas noHandshakes 2 eprxen = true ∧
      endptHas noHandshakes 2 ephshk = false ∧ (List.replicate 8 (0 : Byte)).length = 8) ∧
    4 ≤ full.statFifo.length := by decide +kernel

/-- An IN that is stalled, an IN that is not, and a stalled endpoint in a real run. -/
theorem witness_StallFlagExactlyWithStallHandshake :
    (Instr.tokIn 0 0 .ack).isHostEvent = true ∧ stalled.response = .none ∧
    (∃ τ, exec (.tokIn 0 0 .ack) stalled = .next τ ∧ decide (τ.response = .stall) = true) ∧
    (∃ τ, exec (.tokIn 0 0 .ack) base = .next τ ∧ decide (τ.response = .nak) = true) ∧
    RunInv busyStalled ∧ endptHas busyStalled 0 epstall = true :=
  ⟨rfl, rfl, next_of_check (fun τ => τ.response = .stall) (by decide +kernel),
    next_of_check (fun τ => τ.response = .nak) (by decide +kernel), busyStalled_runInv, by decide +kernel⟩

/-- For ResetCheckPhase, ErrorPhase, AcknowledgeOnlyPhases, StallPhase: each flag latched, and not. -/
theorem witness_phases :
    (full.istat &&& 0x01 = 0 ∧ (0x09 : Byte) &&& 0x01 ≠ 0) ∧
    (({ base with dstatus := 0x02 } : State).dstatus &&& 0x02 ≠ 0 ∧ base.dstatus &&& 0x02 = 0) ∧
    (({ base with dstatus := 0x04 } : State).dstatus &&& 0x04 ≠ 0 ∧ base.dstatus &&& 0x04 = 0) ∧
    (({ base with dstatus := 0x10 } : State).dstatus &&& 0x10 ≠ 0 ∧ base.dstatus &&& 0x10 = 0) ∧
    (({ base with dstatus := 0x80 } : State).dstatus &&& 0x80 ≠ 0 ∧ base.dstatus &&& 0x80 = 0) := by decide +kernel

theorem witness_DrainIteration :
    (busy.dstatus &&& 0x08 ≠ 0 ∧ busy.statFifo = 0x18 :: []) ∧
    (({ full with dstatus := 0x08 } : State).dstatus &&& 0x08 ≠ 0 ∧ full.statFifo = 0x40 :: [0x40, 0x40, 0x40]) ∧
    base.dstatus &&& 0x08 = 0 := by decide +kernel

theorem witness_DrainWithAnEmptyFifoIsFree :
    ({ base with dstatus := 0x08 } : State).dstatus &&& 0x08 ≠ 0 ∧
    ({ base with dstatus := 0x08 } : State).statFifo = [] := by decide +kernel

/-- A run with completions, one without, and one that begins with a bus reset. -/
theorem witness_RunServesEverything :
    (Inv { busy with dstatus := 0, dph := .idle } ∧ ({ busy with dph := .idle } : State).istat &&& 0x01 = 0) ∧
    (Inv { base with istat := 0x14 } ∧ irq { base with istat := 0x14 } = true) ∧
    (Inv { base with istat := 0x01 } ∧ ({ base with istat := 0x01 } : State).istat &&& 0x01 ≠ 0) ∧
    ConfigOk base.cfg ∧ base.schedule = [] ∧ base.dph = .idle ∧ irq busy = true ∧
    irq { base with istat := 0x01 } = true := by
  refine ⟨⟨⟨?_, ?_, ?_, ?_, ?_, ?_, ?_, ?_, ?_, ?_, ?_, ?_, ?_, ?_, ?_⟩, ?_⟩,
    ⟨⟨?_, ?_, ?_, ?_, ?_, ?_, ?_, ?_, ?_, ?_, ?_, ?_, ?_, ?_, ?_⟩, ?_⟩,
    ⟨⟨?_, ?_, ?_, ?_, ?_, ?_, ?_, ?_, ?_, ?_, ?_, ?_, ?_, ?_, ?_⟩, ?_⟩, ?_⟩ <;> decide +kernel

/-- The four cases of endpoint 0 and the cases of endpoint 1: the words a completed or reclaimed slot holds. -/
theorem witness_HandlersFollowThePid :
    (∀ w ∈ [(0x00080034 : Word), 0x00080064, 0x00000044, 0], ∃ σ : State, w = bdWord σ 2 ∧ (2 : Slot) = slotBits 0 1 0) ∧
    (∀ w ∈ [(0x00040024 : Word), 0x00030004, 0x00080034, 0], ∃ σ : State, w = bdWord σ 6 ∧ (6 : Slot) = slotBits 1 1 0) := by
  constructor
  · intro w hw
    refine ⟨withSlot 2 w 0, ?_, by decide⟩
    simp only [List.mem_cons, List.not_mem_nil, or_false] at hw
    rcases hw with rfl | rfl | rfl | rfl <;> decide +kernel
  · intro w hw
    refine ⟨withSlot 6 w 0, ?_, by decide⟩
    simp only [List.mem_cons, List.not_mem_nil, or_false] at hw
    rcases hw with rfl | rfl | rfl | rfl <;> decide +kernel

theorem witness_SetupCaseOpensTheTransfer :
    ConfigOk base.cfg ∧ ((0 : Slot) = 0 ∨ (0 : Slot) = 1) ∧ ((1 : Slot) = 0 ∨ (1 : Slot) = 1) ∧
    ¬ inSlot base.cfg 0 0x20000008 ∧ ¬ inSlot base.cfg 2 0x20000008 ∧ ¬ inSlot base.cfg 3 0x20000008 := by
  decide +kernel

/-- A GET_DESCRIPTOR of the device descriptor: RT 0x0680, wValue 0x0100, wIndex 0, wLength 18. -/
theorem witness_RequestDecode :
    let σ : State := { base with lastSetup := 0x0012000001000680 }
    (0x0680 : Half) = setupByte σ.lastSetup 1 ++ setupByte σ.lastSetup 0 ∧
    (0x0100 : Half) = setupByte σ.lastSetup 3 ++ setupByte σ.lastSetup 2 ∧
    (0x0000 : Half) = setupByte σ.lastSetup 5 ++ setupByte σ.lastSetup 4 ∧
    (0x0012 : Half) = setupByte σ.lastSetup 7 ++ setupByte σ.lastSetup 6 := by decide +kernel

theorem witness_StatusStageRequests :
    ConfigOk base.cfg ∧ (Instr.setAddress 0xFFFF 0 0 = .setAddress 0xFFFF 0 0 ∨
      Instr.setAddress 0xFFFF 0 0 = .setConfiguration 0xFFFF 0 0) := ⟨by decide +kernel, .inl rfl⟩

/-- A hit and a miss, by either variant. -/
theorem witness_GetDescriptorSendsTheEntry :
    (exec (.lookup 0x0100 0) base = .next { base with result := .found 0x1000 18 }) ∧
    (exec (.lookup 0x0101 0) base = .next { base with result := .miss }) := ⟨rfl, rfl⟩

theorem witness_SendArmsOneOrTwoPackets :
    ConfigOk base.cfg ∧ (0 : Half).toNat < 8 ∧ (7 : Half).toNat < 8 ∧ 8 ≤ (8 : Half).toNat ∧ 8 ≤ (15 : Half).toNat ∧
    8 ≤ (16 : Half).toNat ∧ 8 ≤ (0xFFFF : Half).toNat := by decide +kernel

/-- No transfer; 8 bytes left; 7 bytes left; an empty packet owed. -/
theorem witness_InCaseMovesTheCursor :
    base.cur.valid = false ∧ ConfigOk base.cfg ∧
    (∀ n : Half, ({ base with cur := { valid := true, ptr := 0x1000, len := n } } : State).cur.valid = true) :=
  ⟨rfl, by decide +kernel, fun _ => rfl⟩

theorem witness_CursorDrainsInTurn :
    busy.cur = { valid := true, ptr := 0x1008, len := 10 } ∧ 1 ≤ (10 : Half).toNat / 8 ∧ 0 ≤ (7 : Half).toNat / 8 := by
  decide +kernel

/-- For ArmHandsTheSlotOver, RevokeReclaims, TransmitArmsAndFlips, Ep1SendsTheReportAgain, OutCasesGiveTheBufferBack:
a configuration that meets the requirements, also with empty endpoint-1 buffers. -/
theorem witness_configOk : ConfigOk base.cfg ∧ ConfigOk (sized 0 0x30000000) := by decide +kernel

/-- The schedule of a GET_DESCRIPTOR of the device descriptor with wLength `l`, of `n` bytes sent, and one turn more. -/
def controlRead (l : Half) (n : Nat) : List Turn :=
  (.host (encode (.tokSetup base.addr 0 (packetBytes 0x0680 0x0100 0 l))) :: List.replicate 7 .engine) ++
    (List.replicate (n / 8 + 1) (.host (encode (.tokIn base.addr 0 .ack)) :: List.replicate 7 .engine)).flatten ++
    [.engine]

/-- Device descriptor, wLength 0 and 8 and 16 (the last packet is empty), 18 (it has two bytes), and 255 (the length of the
entry cuts). -/
theorem witness_ControlReadDeliversTheDescriptor :
    (RunInv (running base (controlRead 0 0)) ∧ RunInv (running base (controlRead 8 8)) ∧
      RunInv (running base (controlRead 16 16)) ∧ RunInv (running base (controlRead 18 18)) ∧
      RunInv (running base (controlRead 255 18))) ∧
    (0 = min (18 : Half).toNat (0 : Half).toNat ∧ 8 = min (18 : Half).toNat (8 : Half).toNat ∧
      16 = min (18 : Half).toNat (16 : Half).toNat ∧ 18 = min (18 : Half).toNat (18 : Half).toNat ∧
      18 = min (18 : Half).toNat (255 : Half).toNat) ∧
    (∀ ts : List Turn, (running base ts).dph = .idle ∧ (running base ts).istat = 0 ∧
      bdOwned (running base ts) (sieSlot (running base ts) 0 .rx) = true ∧
      getDir (running base ts).par 0 .tx = getDir (running base ts).hwodd 0 .tx ∧
      lookupDesc (running base ts).cfg 0x0100 0 = some (0x1000, 18) ∧ (running base ts).schedule = ts) ∧
    ∀ t ∈ [Turn.engine], t.real = true := by
  refine ⟨⟨?_, ?_, ?_, ?_, ?_⟩, by decide, fun ts => ⟨rfl, rfl, ?_, rfl, ?_, rfl⟩, by decide⟩
  iterate 5 exact runInv_running base_runInv _ (by decide +kernel)
  · have h : bdOwned base (sieSlot base 0 .rx) = true := by decide +kernel
    exact h
  · have h : lookupDesc base.cfg 0x0100 0 = some (0x1000, 18) := by decide +kernel
    exact h

/-- The keys of the table (R261). -/
def sixKeys : List (Half × Half) :=
  [(0x0100, 0x0000), (0x0200, 0x0000), (0x0300, 0x0000), (0x0301, 0x0409), (0x0302, 0x0409), (0x2200, 0x0000)]

/-- Neighbours of the keys: the wrong language, the next string, another index, a class descriptor. -/
theorem witness_LookupFindsTheSixKeys :
    LengthsOk base.cfg ∧ ((0x0301 : Half), (0x0000 : Half)) ∉ sixKeys ∧ ((0x0303 : Half), (0x0409 : Half)) ∉ sixKeys ∧
    ((0x0100 : Half), (0x0001 : Half)) ∉ sixKeys ∧ ((0x2100 : Half), (0x0000 : Half)) ∉ sixKeys := by decide +kernel

end Sys2Proof.Tests
end

section
/-! PROOF. What each kind of operation keeps: the SIE's operations, the handlers and their parts, the phases. -/

namespace Sys2Proof.Machine

open Sys2Proof

/-! ### The three kinds of operation -/

/-- The SIE's operations: the seven events, ACCEPT and COMPLETE. -/
def isSie : Instr → Bool
  | .accept .. | .complete .. => true
  | i => i.isHostEvent

/-- The dispatcher's phases, and REINIT. -/
def isPhase : Instr → Bool
  | .irqUsbrst | .reinit | .irqError | .irqSoftok | .irqTokdne | .irqSleep | .irqStall => true
  | _ => false

/-! ### ACCEPT and the tokens: every way to a next state -/

/-- Where ACCEPT ends the step, only the answer, ISTAT.STALL or one EPSTALL changed. -/
theorem accept_ended {k : TokKind} {a : UsbAddr} {e : Endp} {σ τ : State} (h : accept k a e σ = (τ, .ended)) :
    ∃ r, τ = { σ with response := r } ∨ τ = { setFlag .stall σ with response := r } ∨
      τ = { clearStall e σ with response := r } := by
  rcases accept_cases k a e σ with ⟨h1, -⟩ | ⟨h1, -⟩ | ⟨h1, -⟩ | ⟨h1, -⟩ | ⟨h1, -⟩ | ⟨h1, -⟩ <;> rw [h1] at h <;>
    simp only [Prod.mk.injEq, reduceCtorEq, and_false, and_true] at h
  · exact ⟨_, .inl h.symm⟩
  · exact ⟨_, .inr (.inl h.symm)⟩
  · exact ⟨_, .inl h.symm⟩
  · exact ⟨_, .inr (.inr h.symm)⟩

/-- Where ACCEPT accepts, every check passed, and only a SETUP's EPSTALL changed. -/
theorem acceptable_of_accept {k : TokKind} {a : UsbAddr} {e : Endp} {σ τ : State} {s : Slot}
    (h : accept k a e σ = (τ, .accepted s)) :
    Acceptable k a e σ ∧ s = sieSlot σ e (tokDir k) ∧ τ = if k = .setup then clearStall e σ else σ := by
  rcases accept_cases k a e σ with ⟨h1, -⟩ | ⟨h1, -⟩ | ⟨h1, -⟩ | ⟨h1, -⟩ | ⟨h1, -⟩ | ⟨h1, h2⟩ <;> rw [h1] at h <;>
    simp only [Prod.mk.injEq, reduceCtorEq, and_false, Acceptance.accepted.injEq] at h
  exact ⟨h2, h.2.symm, h.1.symm⟩

/-- A packet received on endpoint `e`: stored where the slot points, completed and acknowledged (R152, R154). -/
def received (e : Endp) (n : Count) (k : TokKind) (b : List Byte) (σ : State) : State :=
  { complete e .rx n k (storeBytes (bdPtr σ (sieSlot σ e .rx)) b σ) with response := .ack }

theorem execTokSetup_cases {a : UsbAddr} {e : Endp} {b : List Byte} {σ τ : State}
    (h : execTokSetup a e b σ = .next τ) :
    accept .setup a e σ = (τ, .ended) ∨
    (Acceptable .setup a e σ ∧ b.length ≤ (wordBC (bdWord σ (sieSlot σ e .rx))).toNat ∧
      τ = received e 8 .setup b (clearStall e σ)) := by
  unfold execTokSetup at h
  split at h
  · cases h
  next hb =>
    split at h
    · next heq => cases h; exact .inl heq
    · cases h
    · next s heq =>
      obtain ⟨hacc, rfl, hτ⟩ := acceptable_of_accept heq
      rw [if_pos rfl] at hτ
      subst hτ
      split at h
      · cases h
      · next hc =>
        cases h
        refine .inr ⟨hacc, ?_, rfl⟩
        have hc' : ¬ wordBC (bdWord σ (sieSlot σ e .rx)) < 8 := hc
        bv_omega

theorem execTokIn_cases {a : UsbAddr} {e : Endp} {hs : Handshake} {σ τ : State} (h : execTokIn a e hs σ = .next τ) :
    accept .inTok a e σ = (τ, .ended) ∨
    (Acceptable .inTok a e σ ∧
      (τ = { complete e .tx (wordBC (bdWord σ (sieSlot σ e .tx))) .inTok σ with
          response := dataPacket σ (sieSlot σ e .tx) } ∨
        τ = { recordLinkError .bto σ with response := dataPacket σ (sieSlot σ e .tx) })) := by
  unfold execTokIn at h
  split at h
  · next heq => cases h; exact .inl heq
  · cases h
  · next s heq =>
    obtain ⟨hacc, rfl, hτ⟩ := acceptable_of_accept heq
    rw [if_neg (by decide)] at hτ
    subst hτ
    cases hs with
    | ack => cases h; exact .inr ⟨hacc, .inl rfl⟩
    | noack => cases h; exact .inr ⟨hacc, .inr rfl⟩

theorem execTokOut_cases {a : UsbAddr} {e : Endp} {t : Bit} {b : List Byte} {σ τ : State}
    (h : execTokOut a e t b σ = .next τ) :
    accept .outTok a e σ = (τ, .ended) ∨
    (Acceptable .outTok a e σ ∧ (τ = { σ with response := .ack } ∨
      (b.length ≤ (wordBC (bdWord σ (sieSlot σ e .rx))).toNat ∧
        τ = received e (BitVec.ofNat 10 b.length) .outTok b σ))) := by
  unfold execTokOut at h
  split at h
  · next heq => cases h; exact .inl heq
  · cases h
  · next s heq =>
    obtain ⟨hacc, rfl, hτ⟩ := acceptable_of_accept heq
    rw [if_neg (by decide)] at hτ
    subst hτ
    split at h
    · cases h; exact .inr ⟨hacc, .inl rfl⟩
    · split at h
      · cases h
      · next hc => cases h; exact .inr ⟨hacc, .inr ⟨Nat.le_of_not_lt hc, rfl⟩⟩

theorem execAccept_cases {k : TokKind} {a : UsbAddr} {e : Endp} {σ τ : State} (h : execAccept k a e σ = .next τ) :
    ∃ r, τ = { (accept k a e σ).1 with result := r } := by
  unfold execAccept at h
  split at h
  · next heq => cases h; exact ⟨_, by rw [heq]⟩
  · next heq => cases h; exact ⟨_, by rw [heq]⟩
  · cases h

theorem execComplete_cases {e : Endp} {d : Dir} {n : Count} {k : TokKind} {σ τ : State}
    (h : execComplete e d n k σ = .next τ) : σ.statFifo.length < statFifoDepth ∧ τ = complete e d n k σ := by
  unfold execComplete at h
  split at h
  · cases h
  · next hf => cases h; exact ⟨Nat.lt_of_not_le hf, rfl⟩

/-! ### The SIE's operations -/

/-- What every operation of the SIE keeps: the ENGINE's registers, the fault record, and of the endpoint registers all
but EPSTALL (R285, R26). -/
structure SieKeeps (σ τ : State) : Prop where
  inten : τ.inten = σ.inten
  addr : τ.addr = σ.addr
  par : τ.par = σ.par
  tog : τ.tog = σ.tog
  cur : τ.cur = σ.cur
  lastSetup : τ.lastSetup = σ.lastSetup
  dstatus : τ.dstatus = σ.dstatus
  dph : τ.dph = σ.dph
  ep0State : τ.ep0State = σ.ep0State
  faults : τ.faults = σ.faults
  cfg : τ.cfg = σ.cfg
  schedule : τ.schedule = σ.schedule
  endpt : ∀ e, getEp τ.endpt e &&& 0x0D = getEp σ.endpt e &&& 0x0D

namespace SieKeeps

theorem trans {σ τ ω : State} (h : SieKeeps σ τ) (h' : SieKeeps τ ω) : SieKeeps σ ω :=
  ⟨h'.inten.trans h.inten, h'.addr.trans h.addr, h'.par.trans h.par, h'.tog.trans h.tog, h'.cur.trans h.cur,
    h'.lastSetup.trans h.lastSetup, h'.dstatus.trans h.dstatus, h'.dph.trans h.dph, h'.ep0State.trans h.ep0State,
    h'.faults.trans h.faults, h'.cfg.trans h.cfg, h'.schedule.trans h.schedule,
    fun e => (h'.endpt e).trans (h.endpt e)⟩

/-- The registers the SIE writes, memory and the outputs are not spoken of. -/
theorem update (σ : State) (istat errstat : Byte) (statFifo : List Byte) (mem : Memory) (hwodd : Vector DirPair 16)
    (response : Response) (result : OpResult) :
    SieKeeps σ { σ with
      istat := istat, errstat := errstat, statFifo := statFifo, mem := mem, hwodd := hwodd, response := response,
      result := result } :=
  ⟨rfl, rfl, rfl, rfl, rfl, rfl, rfl, rfl, rfl, rfl, rfl, rfl, fun _ => rfl⟩

end SieKeeps

theorem sieKeeps_clearStall (e : Endp) (σ : State) : SieKeeps σ (clearStall e σ) where
  inten := rfl
  addr := rfl
  par := rfl
  tog := rfl
  cur := rfl
  lastSetup := rfl
  dstatus := rfl
  dph := rfl
  ep0State := rfl
  faults := rfl
  cfg := rfl
  schedule := rfl
  endpt e' := by
    rw [clearStall_eq]
    dsimp only
    rw [getEp_setEp]
    split
    · next he => subst he; rw [BitVec.and_assoc]; rfl
    · rfl

theorem sieKeeps_accept (k : TokKind) (a : UsbAddr) (e : Endp) (σ : State) : SieKeeps σ (accept k a e σ).1 := by
  match h : accept k a e σ with
  | (τ, .ended) =>
    obtain ⟨r, rfl | rfl | rfl⟩ := accept_ended h
    · exact .update ..
    · exact .update ..
    · exact (sieKeeps_clearStall e σ).trans (.update ..)
  | (τ, .accepted s) =>
    obtain ⟨-, -, rfl⟩ := acceptable_of_accept h
    dsimp only
    split
    · exact sieKeeps_clearStall e σ
    · exact .update ..
  | (τ, .noHandshake) =>
    rcases accept_cases k a e σ with ⟨h1, -⟩ | ⟨h1, -⟩ | ⟨h1, -⟩ | ⟨h1, -⟩ | ⟨h1, -⟩ | ⟨h1, -⟩ <;> rw [h1] at h <;>
      simp only [Prod.mk.injEq, reduceCtorEq, and_false, and_true] at h
    subst h
    exact .update ..

/-- Every operation of the SIE that answers a next state. -/
theorem sieKeeps_exec {i : Instr} {σ τ : State} (hi : isSie i = true) (h : exec i σ = .next τ) : SieKeeps σ τ := by
  have ended {k a e} (ha : accept k a e σ = (τ, .ended)) : SieKeeps σ τ := by
    have := sieKeeps_accept k a e σ
    rwa [ha] at this
  match i, hi with
  | .tokOut a e t b, _ =>
    rcases execTokOut_cases h with ha | ⟨-, rfl | ⟨-, rfl⟩⟩
    · exact ended ha
    · exact .update ..
    · exact .update ..
  | .tokIn a e hs, _ =>
    rcases execTokIn_cases h with ha | ⟨-, rfl | rfl⟩
    · exact ended ha
    · exact .update ..
    · exact .update ..
  | .tokSetup a e b, _ =>
    rcases execTokSetup_cases h with ha | ⟨-, -, rfl⟩
    · exact ended ha
    · exact (sieKeeps_clearStall e σ).trans (.update ..)
  | .tokSof, _ => cases h; exact .update ..
  | .busReset, _ => cases h; exact .update ..
  | .busError k, _ => cases h; exact .update ..
  | .busSleep, _ => cases h; exact .update ..
  | .accept k a e, _ =>
    obtain ⟨r, rfl⟩ := execAccept_cases h
    exact (sieKeeps_accept k a e σ).trans (.update ..)
  | .complete e d n k, _ =>
    obtain ⟨-, rfl⟩ := execComplete_cases h
    exact .update ..

/-! ### The handlers and their parts -/

/-- A returned value is nothing `EngineKeeps` speaks of. -/
theorem engineKeeps_result (σ : State) (r : OpResult) : EngineKeeps σ { σ with result := r } :=
  ⟨rfl, rfl, rfl, rfl, rfl, rfl, rfl, rfl, rfl, id, fun _ _ _ => rfl, fun _ _ => rfl, id, fun _ => id,
    fun _ => .inl rfl, id⟩

/-- ADDR after the operation is as before, or SET_ADDRESS took effect (R189). -/
def AddrKept (σ τ : State) : Prop := τ.addr = σ.addr ∨ lastRT σ = 0x0500 ∧ τ.addr = lastAddress σ

theorem addrKept_ep0OnIn (σ : State) : AddrKept σ (ep0OnIn σ) := by
  have ha : (ep0OnIn σ).addr =
      if lastRT (pushChunk σ) = 0x0500 then lastAddress (pushChunk σ) else (pushChunk σ).addr := rfl
  have hl : (pushChunk σ).lastSetup = σ.lastSetup := pushChunk_lastSetup σ
  unfold AddrKept
  rw [ha, pushChunk_addr]
  unfold lastRT lastAddress lastValue
  rw [hl]
  split
  · next h => exact .inr ⟨h, rfl⟩
  · exact .inl rfl

theorem addrKept_ep0Handler (v : Byte) (σ : State) : AddrKept σ (ep0Handler v σ) := by
  unfold ep0Handler
  split
  · exact .inl (ep0OnSetup_addr ..)
  · exact addrKept_ep0OnIn σ
  · exact .inl (ep0OnOut_addr ..)
  · exact .inl rfl

theorem addrKept_callHandler (v : Byte) (σ : State) : AddrKept σ (callHandler v σ) := by
  unfold callHandler
  split
  · exact addrKept_ep0Handler v σ
  · exact .inl (ep1Handler_addr ..)
  · exact .inl rfl

/-- The two operations that may write ADDR, apart from the phases. -/
def mayApplyAddress (i : Instr) : Prop := i = .ep0OnIn ∨ ∃ d p, i = .ep0Handler d p

/-- Every handler, case, request and sub-operation of the ENGINE answers a next state; what it keeps, and ADDR. -/
theorem exec_enginePart {i : Instr} (σ : State) (hs : isSie i = false) (hp : isPhase i = false) :
    ∃ τ, exec i σ = .next τ ∧ EngineKeeps σ τ ∧ (τ.addr = σ.addr ∨ mayApplyAddress i ∧ AddrKept σ τ) := by
  match i, hs, hp with
  | .ep0Handler d p, _, _ =>
    exact ⟨_, rfl, engineKeeps_ep0Handler .., .inr ⟨.inr ⟨d, p, rfl⟩, addrKept_ep0Handler ..⟩⟩
  | .ep1Handler _ _, _, _ => exact ⟨_, rfl, engineKeeps_ep1Handler .., .inl (ep1Handler_addr ..)⟩
  | .defaultHandler .., _, _ => exact ⟨_, rfl, .refl σ, .inl rfl⟩
  | .ep0OnSetup .., _, _ => exact ⟨_, rfl, engineKeeps_ep0OnSetup .., .inl (ep0OnSetup_addr ..)⟩
  | .ep0OnIn, _, _ => exact ⟨_, rfl, engineKeeps_ep0OnIn σ, .inr ⟨.inl rfl, addrKept_ep0OnIn σ⟩⟩
  | .ep0OnOut _, _, _ => exact ⟨_, rfl, engineKeeps_ep0OnOut .., .inl (ep0OnOut_addr ..)⟩
  | .ep0OnOther .., _, _ => exact ⟨_, rfl, .refl σ, .inl rfl⟩
  | .ep1OnIn, _, _ => exact ⟨_, rfl, engineKeeps_ep1OnIn σ, .inl (ep1OnIn_addr ..)⟩
  | .ep1OnOut _, _, _ => exact ⟨_, rfl, engineKeeps_ep1OnOut .., .inl (ep1OnOut_addr ..)⟩
  | .ep1OnOther .., _, _ => exact ⟨_, rfl, .refl σ, .inl rfl⟩
  | .setupRequest, _, _ => exact ⟨_, rfl, engineKeeps_setupRequest σ, .inl (setupRequest_addr ..)⟩
  | .setAddress .., _, _ => exact ⟨_, rfl, engineKeeps_statusStage σ, .inl (statusStage_addr ..)⟩
  | .setConfiguration .., _, _ => exact ⟨_, rfl, engineKeeps_statusStage σ, .inl (statusStage_addr ..)⟩
  | .getDescriptorDev .., _, _ => exact ⟨_, rfl, engineKeeps_getDescriptor .., .inl (getDescriptor_addr ..)⟩
  | .getDescriptorIf .., _, _ => exact ⟨_, rfl, engineKeeps_getDescriptor .., .inl (getDescriptor_addr ..)⟩
  | .reqUnsupported .., _, _ => exact ⟨_, rfl, engineKeeps_reqUnsupported σ, .inl (reqUnsupported_addr ..)⟩
  | .lookup v x, _, _ =>
    show ∃ τ, execLookup v x σ = _ ∧ _
    unfold execLookup
    split
    · exact ⟨_, rfl, engineKeeps_result .., .inl rfl⟩
    · exact ⟨_, rfl, engineKeeps_result .., .inl rfl⟩
  | .indexFor .., _, _ => exact ⟨_, rfl, engineKeeps_result .., .inl rfl⟩
  | .arm .., _, _ => exact ⟨_, rfl, engineKeeps_arm .., .inl (arm_addr ..)⟩
  | .pidOf _, _, _ => exact ⟨_, rfl, engineKeeps_result .., .inl rfl⟩
  | .take _, _, _ => exact ⟨_, rfl, engineKeeps_result .., .inl rfl⟩
  | .revoke _, _, _ => exact ⟨_, rfl, engineKeeps_revoke .., .inl rfl⟩
  | .transmit .., _, _ => exact ⟨_, rfl, engineKeeps_transmit .., .inl (transmit_addr ..)⟩
  | .send .., _, _ => exact ⟨_, rfl, engineKeeps_send .., .inl (send_addr ..)⟩
  | .ep0Stall, _, _ => exact ⟨_, rfl, engineKeeps_ep0Stall σ, .inl rfl⟩

/-- The same, of an operation known to have answered. -/
theorem enginePart_of_exec {i : Instr} {σ τ : State} (hs : isSie i = false) (hp : isPhase i = false)
    (h : exec i σ = .next τ) : EngineKeeps σ τ ∧ (τ.addr = σ.addr ∨ mayApplyAddress i ∧ AddrKept σ τ) := by
  obtain ⟨ω, hω, hk⟩ := exec_enginePart σ hs hp
  obtain rfl : ω = τ := Host.Outcome.next.inj (hω.symm.trans h)
  exact hk

/-! ### The phases -/

theorem engineKeeps_readStat (σ : State) : EngineKeeps σ (readStat σ).2 := by
  unfold readStat
  split
  · exact .refl σ
  · exact ⟨rfl, rfl, rfl, rfl, rfl, rfl, rfl, rfl, rfl, id, fun _ _ _ => rfl, fun _ _ => rfl, id, fun _ => id,
      fun _ => .inl rfl, id⟩

/-- The state a drain iteration's handler leaves, before TOKDNE is acknowledged (R225). -/
def served (σ : State) : State := callHandler (readStat σ).1 (readStat σ).2

theorem engineKeeps_served (σ : State) : EngineKeeps σ (served σ) :=
  (engineKeeps_readStat σ).trans (engineKeeps_callHandler ..)

theorem addrKept_served (σ : State) : AddrKept σ (served σ) := by
  have h := addrKept_callHandler (readStat σ).1 (readStat σ).2
  have ha : (readStat σ).2.addr = σ.addr := by unfold readStat; split <;> rfl
  have hl : (readStat σ).2.lastSetup = σ.lastSetup := by unfold readStat; split <;> rfl
  unfold AddrKept lastRT lastAddress lastValue at *
  rwa [ha, hl] at h

/-- A drain iteration, with every field it writes (R225). -/
theorem drainOne_eq (σ : State) :
    drainOne σ =
      { served σ with
        statFifo := σ.statFifo.tail
        istat := (σ.istat &&& 0xF7) ||| (if σ.statFifo.tail = [] then 0 else 0x08)
        dstatus := (σ.istat &&& 0xF7) ||| (if σ.statFifo.tail = [] then 0 else 0x08) } := by
  have k := engineKeeps_served σ
  show enterRun (ackFlag .tokdne (served σ)) = _
  rw [ackFlag_tokdne, k.statFifo, k.istat]
  rfl

/-- Every way D_IDLE can end (R221). -/
theorem irqUsbrst_cases (σ : State) :
    (latched .usbrst (enterRun σ) = true ∧ irqUsbrst σ = endRun (reinit (enterRun σ))) ∨
      (latched .usbrst (enterRun σ) = false ∧ irqUsbrst σ = setPhase .err (enterRun σ)) := by
  unfold irqUsbrst
  cases latched .usbrst (enterRun σ) <;> simp

/-- Every way D_TOK can end (R225). -/
theorem irqTokdne_cases (σ : State) :
    (latched .tokdne σ = true ∧ irqTokdne σ = setPhase .tok (drainOne σ)) ∨
      (latched .tokdne σ = false ∧ irqTokdne σ = setPhase .sleep σ) := by
  unfold irqTokdne
  cases latched .tokdne σ <;> simp

/-- D_STALL clears EPSTALL everywhere or leaves the endpoint registers alone (R227). -/
theorem irqStall_endpt (σ : State) (e : Endp) :
    getEp (irqStall σ).endpt e = getEp σ.endpt e ∨ getEp (irqStall σ).endpt e = getEp σ.endpt e &&& ~~~epstall := by
  unfold irqStall
  split
  · exact .inr (getEp_map ..)
  · exact .inl rfl

/-- REINIT removes no fault (R41). -/
theorem mem_faults_reinit {σ : State} {f : Fault} (hf : f ∈ σ.faults) : f ∈ (reinit σ).faults := by
  have hc : f ∈ (reinitClear σ).faults := by
    rw [show (reinitClear σ).faults = σ.faults from clearBdt_faults ..]
    exact hf
  exact (engineKeeps_reinitArms (reinitClear σ)).faults f hc

end Sys2Proof.Machine
end

section
/-! PROOF. Power-on and every step keep `Inv` (R43). -/

namespace Sys2Proof.Machine

open Sys2Proof

/-- The power-on state meets the invariant, whatever the configuration. -/
theorem inv_powerOn (c : Config) : Inv (State.powerOn c) where
  memory := wf_powerOnMemory c
  tokdne := (by decide : hasBit 0 (flagMask .tokdne) = decide (([] : List Byte) ≠ []))
  error := (by decide : hasBit 0 (flagMask .error) = decide ((0 : Byte) ≠ 0))
  fifoLength := Nat.zero_le _
  statReserved _ hv := by cases hv
  istatReserved := (by decide : (0 : Byte) &&& ~~~irqMask = 0)
  intenReserved := (by decide : (0x9F : Byte) &&& ~~~irqMask = 0)
  errstatReserved := (by decide : (0 : Byte) &&& ~~~errMask = 0)
  endptReserved e := by
    rw [show getEp (State.powerOn c).endpt e = _ from getEp_resetEndpt e]
    split <;> decide
  handshake e := by
    rw [show getEp (State.powerOn c).endpt e = _ from getEp_resetEndpt e]
    split <;> decide
  cursor _ := rfl
  endptHigh e he := by
    rw [show getEp (State.powerOn c).endpt e = _ from getEp_resetEndpt e, if_neg (by omega)]
  latch hl := absurd hl (by decide : ¬ hasBit 0 (flagMask .tokdne) = true)
  latchReserved := (by decide : (0 : Byte) &&& ~~~irqMask = 0)
  faultOrder := .nil

/-! ### The SIE -/

/-- Where ACCEPT ends the step, the invariant holds. -/
theorem inv_of_accept_ended {σ τ : State} {k : TokKind} {a : UsbAddr} {e : Endp} (h : Inv σ)
    (ha : accept k a e σ = (τ, .ended)) : Inv τ := by
  have := inv_accept h k a e
  rwa [ha] at this

/-- A received packet, with room in the FIFO (R152, R154). -/
theorem inv_received {σ : State} (h : Inv σ) (hf : σ.statFifo.length < statFifoDepth) (e : Endp) (n : Count)
    (k : TokKind) (b : List Byte) : Inv (received e n k b σ) :=
  (inv_complete (inv_storeBytes h (bdPtr σ (sieSlot σ e .rx)) b) hf e .rx n k).update ..

/-- Every operation of the SIE keeps the invariant. -/
theorem inv_exec_sie {i : Instr} {σ τ : State} (hi : isSie i = true) (h : Inv σ) (hx : exec i σ = .next τ) : Inv τ := by
  match i, hi with
  | .tokOut a e t b, _ =>
    rcases execTokOut_cases hx with ha | ⟨⟨-, -, -, -, hroom, -⟩, rfl | ⟨-, rfl⟩⟩
    · exact inv_of_accept_ended h ha
    · exact h.update ..
    · exact inv_received h hroom ..
  | .tokIn a e hs, _ =>
    rcases execTokIn_cases hx with ha | ⟨⟨-, -, -, -, hroom, -⟩, rfl | rfl⟩
    · exact inv_of_accept_ended h ha
    · exact (inv_complete h hroom ..).update ..
    · exact (inv_recordLinkError h .bto).update ..
  | .tokSetup a e b, _ =>
    rcases execTokSetup_cases hx with ha | ⟨⟨-, -, -, -, hroom, -⟩, -, rfl⟩
    · exact inv_of_accept_ended h ha
    · exact inv_received (inv_clearStall h e) hroom ..
  | .tokSof, _ => cases hx; exact inv_setFlag h (by decide) (by decide)
  | .busReset, _ => cases hx; exact inv_setFlag h (by decide) (by decide)
  | .busError k, _ => cases hx; exact inv_recordLinkError h k
  | .busSleep, _ => cases hx; exact inv_setFlag h (by decide) (by decide)
  | .accept k a e, _ =>
    obtain ⟨r, rfl⟩ := execAccept_cases hx
    exact (inv_accept h k a e).update ..
  | .complete e d n k, _ =>
    obtain ⟨hroom, rfl⟩ := execComplete_cases hx
    exact inv_complete h hroom ..

/-! ### The phases -/

theorem inv_irqUsbrst {σ : State} (h : Inv σ) : Inv (irqUsbrst σ) := by
  rcases irqUsbrst_cases σ with ⟨-, e⟩ | ⟨-, e⟩ <;> rw [e]
  · exact inv_setPhase (inv_reinit (inv_enterRun h)) _
  · exact inv_setPhase (inv_enterRun h) _

theorem inv_irqError {σ : State} (h : Inv σ) : Inv (irqError σ) := by
  unfold irqError
  split
  · exact inv_setPhase (inv_clearErrors h) _
  · exact inv_setPhase h _

theorem inv_irqSoftok {σ : State} (h : Inv σ) : Inv (irqSoftok σ) := by
  unfold irqSoftok
  split
  · exact inv_setPhase (inv_ackFlag h (by decide) (by decide)) _
  · exact inv_setPhase h _

theorem inv_irqTokdne {σ : State} (h : Inv σ) : Inv (irqTokdne σ) := by
  rcases irqTokdne_cases σ with ⟨-, e⟩ | ⟨-, e⟩ <;> rw [e]
  · exact inv_setPhase (inv_drainOne h) _
  · exact inv_setPhase h _

theorem inv_irqSleep {σ : State} (h : Inv σ) : Inv (irqSleep σ) := by
  unfold irqSleep
  split
  · exact inv_setPhase (inv_ackFlag h (by decide) (by decide)) _
  · exact inv_setPhase h _

theorem inv_irqStall {σ : State} (h : Inv σ) : Inv (irqStall σ) := by
  unfold irqStall
  split
  · exact inv_setPhase (inv_leaveStalled (inv_ackFlag (inv_clearAllStalls h) (by decide) (by decide))) _
  · exact inv_setPhase h _

theorem inv_exec_phase {i : Instr} {σ τ : State} (hi : isPhase i = true) (h : Inv σ) (hx : exec i σ = .next τ) :
    Inv τ := by
  match i, hi with
  | .irqUsbrst, _ => cases hx; exact inv_irqUsbrst h
  | .reinit, _ => cases hx; exact inv_reinit h
  | .irqError, _ => cases hx; exact inv_irqError h
  | .irqSoftok, _ => cases hx; exact inv_irqSoftok h
  | .irqTokdne, _ => cases hx; exact inv_irqTokdne h
  | .irqSleep, _ => cases hx; exact inv_irqSleep h
  | .irqStall, _ => cases hx; exact inv_irqStall h

/-! ### Every operation, and every step -/

/-- Every operation keeps the invariant. -/
theorem inv_exec {i : Instr} {σ τ : State} (h : Inv σ) (hx : exec i σ = .next τ) : Inv τ := by
  cases hs : isSie i
  · cases hp : isPhase i
    · exact inv_of_engineKeeps h (enginePart_of_exec hs hp hx).1
    · exact inv_exec_phase hp h hx
  · exact inv_exec_sie hs h hx

/-- Every step keeps the invariant: it runs an operation, or waits. -/
theorem inv_step {σ τ : State} (h : Inv σ) (hx : step σ = .next τ) : Inv τ := by
  obtain ⟨-, ⟨_, _, rest, _, -, -, -, hx⟩ | ⟨_, _, rest, _, -, -, hx⟩ | ⟨rest, -, -, hx⟩ | ⟨rest, -, -, rfl⟩⟩ :=
    step_cases hx
  · exact inv_exec (inv_beginTurn h rest) hx
  · exact inv_exec (inv_beginTurn h rest) hx
  · exact inv_exec (inv_beginTurn h rest) hx
  · exact inv_beginTurn h rest

end Sys2Proof.Machine

open Sys2Proof.Machine

/-- Settles O7: the power-on values, register by register. -/
theorem powerOnMeetsInv : Obligations.PowerOnMeetsInv := inv_powerOn

/-- Settles O8: a step runs one operation of the SIE, of the handlers or of the dispatcher, and each keeps `Inv`. -/
theorem stepKeepsInv : Obligations.StepKeepsInv := fun _ _ => inv_step
end

section
/-! PROOF. Who writes the fault record, ADDR and the enable bits (R41, R25, R26). -/

namespace Sys2Proof.Machine

open Sys2Proof

/-- A phase, or REINIT, removes no fault (R41). -/
theorem mem_faults_phase {i : Instr} {σ τ : State} {f : Fault} (hi : isPhase i = true) (hx : exec i σ = .next τ)
    (hf : f ∈ σ.faults) : f ∈ τ.faults := by
  match i, hi with
  | .irqUsbrst, _ =>
    cases hx
    rcases irqUsbrst_cases σ with ⟨-, e⟩ | ⟨-, e⟩ <;> rw [e]
    · exact mem_faults_reinit (σ := enterRun σ) hf
    · exact hf
  | .reinit, _ => cases hx; exact mem_faults_reinit hf
  | .irqError, _ => cases hx; rwa [irqError_faults]
  | .irqSoftok, _ => cases hx; rwa [irqSoftok_faults]
  | .irqTokdne, _ =>
    cases hx
    rcases irqTokdne_cases σ with ⟨-, e⟩ | ⟨-, e⟩ <;> rw [e]
    · rw [drainOne_eq]
      exact (engineKeeps_served σ).faults f hf
    · exact hf
  | .irqSleep, _ => cases hx; rwa [irqSleep_faults]
  | .irqStall, _ => cases hx; rwa [irqStall_faults]

/-- ADDR after a phase: 0 after a reset, and otherwise only the drain iteration can write it (R25). -/
theorem addr_phase {i : Instr} {σ τ : State} (hi : isPhase i = true) (hx : exec i σ = .next τ) :
    τ.addr = σ.addr ∨ (i = .reinit ∨ i = .irqUsbrst) ∧ τ.addr = 0 ∨ i = .irqTokdne ∧ AddrKept σ τ := by
  match i, hi with
  | .irqUsbrst, _ =>
    cases hx
    rcases irqUsbrst_cases σ with ⟨-, e⟩ | ⟨-, e⟩ <;> rw [e]
    · exact .inr (.inl ⟨.inr rfl, rfl⟩)
    · exact .inl rfl
  | .reinit, _ => cases hx; exact .inr (.inl ⟨.inl rfl, rfl⟩)
  | .irqError, _ => cases hx; exact .inl (irqError_addr σ)
  | .irqSoftok, _ => cases hx; exact .inl (irqSoftok_addr σ)
  | .irqTokdne, _ =>
    cases hx
    rcases irqTokdne_cases σ with ⟨-, e⟩ | ⟨-, e⟩ <;> rw [e]
    · rw [drainOne_eq]
      exact .inr (.inr ⟨rfl, addrKept_served σ⟩)
    · exact .inl rfl
  | .irqSleep, _ => cases hx; exact .inl (irqSleep_addr σ)
  | .irqStall, _ => cases hx; exact .inl (irqStall_addr σ)

/-- A handler leaves the enable and handshake bits alone: it can only set EPSTALL (R187). -/
theorem EngineKeeps.enableBits {σ τ : State} (k : EngineKeeps σ τ) (e : Endp) :
    getEp τ.endpt e &&& 0x0D = getEp σ.endpt e &&& 0x0D := by
  rcases k.endpt e with h | ⟨-, h⟩ <;> rw [h]
  generalize getEp σ.endpt e = x
  revert x
  decide

/-- So does every phase but the reset check (R227 clears EPSTALL alone). -/
theorem enableBits_phase {i : Instr} {σ τ : State} (hi : isPhase i = true) (hr : i ≠ .reinit) (hu : i ≠ .irqUsbrst)
    (hx : exec i σ = .next τ) (e : Endp) : getEp τ.endpt e &&& 0x0D = getEp σ.endpt e &&& 0x0D := by
  match i, hi with
  | .irqUsbrst, _ => exact absurd rfl hu
  | .reinit, _ => exact absurd rfl hr
  | .irqError, _ => cases hx; rw [irqError_endpt]
  | .irqSoftok, _ => cases hx; rw [irqSoftok_endpt]
  | .irqTokdne, _ =>
    cases hx
    rcases irqTokdne_cases σ with ⟨-, h⟩ | ⟨-, h⟩ <;> rw [h]
    · rw [drainOne_eq]
      exact (engineKeeps_served σ).enableBits e
    · rfl
  | .irqSleep, _ => cases hx; rw [irqSleep_endpt]
  | .irqStall, _ =>
    cases hx
    rcases irqStall_endpt σ e with h | h <;> rw [h]
    rw [BitVec.and_assoc]
    rfl

end Sys2Proof.Machine

open Sys2Proof Sys2Proof.Machine

/-- Settles O14: the SIE keeps the record, ARM only adds to it, and no phase removes a name. -/
theorem faultsAreSticky : Obligations.FaultsAreSticky := by
  intro i σ τ f hx hf
  cases hs : isSie i
  · cases hp : isPhase i
    · exact (enginePart_of_exec hs hp hx).1.faults f hf
    · exact mem_faults_phase hp hx hf
  · rwa [(sieKeeps_exec hs hx).faults]

/-- Settles O15: of the handlers' parts only the IN case writes ADDR, and of the phases only the two that run it or
REINIT. -/
theorem addressWriters : Obligations.AddressWriters := by
  intro i σ τ hx hne
  have applied : AddrKept σ τ → lastRT σ = 0x0500 ∧ τ.addr = (lastValue σ).extractLsb' 0 7 :=
    fun h => h.resolve_left hne
  cases hs : isSie i
  · cases hp : isPhase i
    · obtain ⟨hi, hk⟩ := (enginePart_of_exec hs hp hx).2.resolve_left hne
      exact .inr ⟨hi.imp_right .inl, applied hk⟩
    · rcases addr_phase hp hx with h | h | ⟨hi, hk⟩
      · exact absurd h hne
      · exact .inl h
      · exact .inr ⟨.inr (.inr hi), applied hk⟩
  · exact absurd (sieKeeps_exec hs hx).addr hne

/-- Settles O16: the SIE, the handlers and the STALL phase write EPSTALL only. -/
theorem enableBitWriters : Obligations.EnableBitWriters := by
  intro i σ τ e hx hr hu
  cases hs : isSie i
  · cases hp : isPhase i
    · exact (enginePart_of_exec hs hp hx).1.enableBits e
    · exact enableBits_phase hp hr hu hx e
  · exact (sieKeeps_exec hs hx).endpt e
end

section
/-! PROOF. The drain iteration with an empty FIFO (U1; log 7, log 17). -/

namespace Sys2Proof.Machine

open Sys2Proof

/-- A STAT value is its fields, when its reserved bits are 0 (R95). -/
theorem statWord_fields {v : Byte} (h : v.extractLsb' 0 2 = 0) : statWord (statEndp v) (statDir v) (statOdd v) = v := by
  revert v
  decide

/-- Running a STAT value's handler alone is what the dispatcher calls (R228). -/
theorem exec_handlerInstr {v : Byte} (h : v.extractLsb' 0 2 = 0) (σ : State) :
    exec (handlerInstr v) σ = .next (callHandler v σ) := by
  have hv := statWord_fields h
  unfold handlerInstr callHandler
  cases ht : handlerTable (statEndp v) with
  | ep0 =>
    have he : statEndp v = 0 := by
      revert ht
      generalize statEndp v = e
      revert e
      decide
    rw [he] at hv
    exact congrArg (fun w => Host.Outcome.next (ep0Handler w σ)) hv
  | ep1 =>
    have he : statEndp v = 1 := by
      revert ht
      generalize statEndp v = e
      revert e
      decide
    rw [he] at hv
    exact congrArg (fun w => Host.Outcome.next (ep1Handler w σ)) hv
  | default => rfl

/-- The free value of STAT has its reserved bits 0 (R43 c). -/
theorem freeStat_reserved (x : BitVec 6) : (x ++ 0#2).extractLsb' 0 2 = 0 := by
  revert x
  decide

end Sys2Proof.Machine

open Sys2Proof Sys2Proof.Machine

/-- Settles O37: with no head, STAT reads the free value and moves the counter on; the rest is a drain iteration. -/
theorem drainWithAnEmptyFifoIsFree : Obligations.DrainWithAnEmptyFifoIsFree := by
  intro σ hl hf
  have hread : readStat σ = (freeStatBits σ.freeCount ++ 0#2, { σ with freeCount := σ.freeCount + 1 }) := by
    unfold readStat
    rw [hf]
  have hserved : served σ =
      callHandler (freeStatBits σ.freeCount ++ 0#2) { σ with freeCount := σ.freeCount + 1 } := by
    unfold served
    rw [hread]
  have hlatched : latched .tokdne σ = true := (hasBit_iff ..).mpr hl
  refine ⟨served σ, ?_, (engineKeeps_served σ).statFifo.trans hf, ?_⟩
  · rw [hserved]
    exact exec_handlerInstr (freeStat_reserved _) _
  · show Host.Outcome.next (irqTokdne σ) = _
    rcases irqTokdne_cases σ with ⟨-, e⟩ | ⟨h, -⟩
    · have ht : (σ.istat &&& 0xF7) ||| (if ([] : List Byte) = [] then 0 else 0x08) = σ.istat &&& 0xF7 := by simp
      have hk : (served σ).statFifo = [] := (engineKeeps_served σ).statFifo.trans hf
      rw [e, drainOne_eq, hf, List.tail_nil, ht]
      simp only [← hk]
      rfl
    · rw [hlatched] at h
      cases h
end

section
/-! PROOF. Reading a descriptor after ARM, REVOKE, TRANSMIT and COMPLETE: the written slot and every other. -/

namespace Sys2Proof.Machine

open Sys2Proof

/-- The descriptors of a state whose memory is another's but for one slot. -/
theorem bd_of_slotWritten {σ τ : State} {s : Slot} {w p : Word} (hc : ConfigOk σ.cfg) (hcfg : τ.cfg = σ.cfg)
    (h : SlotWritten σ.cfg σ.mem τ.mem s w p) (t : Slot) :
    bdWord τ t = (if t = s then w else bdWord σ t) ∧ bdPtr τ t = (if t = s then p else bdPtr σ t) := by
  unfold bdWord bdPtr
  rw [hcfg]
  by_cases ht : t = s
  · subst ht
    rw [if_pos rfl, if_pos rfl]
    exact ⟨h.word, h.ptr⟩
  · rw [if_neg ht, if_neg ht]
    exact h.other hc (Ne.symm ht)

theorem bdWord_arm {σ : State} (hc : ConfigOk σ.cfg) (s t : Slot) (p : Word) (n : Count) (b : Bit) :
    bdWord (arm s p n b σ) t = if t = s then armWord n b else bdWord σ t :=
  (bd_of_slotWritten hc (arm_cfg ..) (slotWritten_arm hc s p n b) t).1

theorem bdPtr_arm {σ : State} (hc : ConfigOk σ.cfg) (s t : Slot) (p : Word) (n : Count) (b : Bit) :
    bdPtr (arm s p n b σ) t = if t = s then p else bdPtr σ t :=
  (bd_of_slotWritten hc (arm_cfg ..) (slotWritten_arm hc s p n b) t).2

theorem bdWord_transmit {σ : State} (hc : ConfigOk σ.cfg) (e : Endp) (t : Slot) (p : Word) (n : Count) :
    bdWord (transmit e p n σ) t = if t = transmitSlot σ e then armWord n (getDir σ.tog e .tx) else bdWord σ t :=
  (bd_of_slotWritten hc (transmit_cfg ..) (slotWritten_transmit hc e p n) t).1

theorem bdPtr_transmit {σ : State} (hc : ConfigOk σ.cfg) (e : Endp) (t : Slot) (p : Word) (n : Count) :
    bdPtr (transmit e p n σ) t = if t = transmitSlot σ e then p else bdPtr σ t :=
  (bd_of_slotWritten hc (transmit_cfg ..) (slotWritten_transmit hc e p n) t).2

/-- ARM on a slot the ENGINE owns records no fault (R131). -/
theorem arm_faults_of_free {σ : State} {s : Slot} (h : bdOwned σ s = false) (p : Word) (n : Count) (b : Bit) :
    (arm s p n b σ).faults = σ.faults := by
  show (checkOwner s σ).faults = σ.faults
  rw [checkOwner, h]
  rfl

theorem transmit_faults_of_free {σ : State} {e : Endp} (h : bdOwned σ (transmitSlot σ e) = false) (p : Word)
    (n : Count) : (transmit e p n σ).faults = σ.faults :=
  (transmit_faults ..).trans (arm_faults_of_free h ..)

theorem bdOwned_of_word_eq {σ τ : State} {s : Slot} (h : bdWord τ s = bdWord σ s) : bdOwned τ s = bdOwned σ s := by
  unfold bdOwned
  rw [h]

theorem bdOwned_of_word_zero {σ : State} {s : Slot} (h : bdWord σ s = 0) : bdOwned σ s = false := by
  unfold bdOwned
  rw [h]
  rfl

theorem bdOwned_arm_ne {σ : State} (hc : ConfigOk σ.cfg) {s t : Slot} (h : t ≠ s) (p : Word) (n : Count) (b : Bit) :
    bdOwned (arm s p n b σ) t = bdOwned σ t :=
  bdOwned_of_word_eq ((bdWord_arm hc ..).trans (if_neg h))

end Sys2Proof.Machine
end

section
/-! PROOF. REINIT and power-on leave the table of R44. -/

namespace Sys2Proof.Machine

open Sys2Proof

/-! ### Power-on -/

/-- Slots 0 to n - 1 written from the table. -/
theorem readBd_resetBdt {c : Config} (hc : ConfigOk c) (m : Memory) {n : Nat} (hn : n ≤ 64) (s : Slot) :
    (readBdWord c (resetBdt c m n) s = if s.toNat < n then resetWord c s else readBdWord c m s) ∧
    (readBdPtr c (resetBdt c m n) s = if s.toNat < n then resetPtr c s else readBdPtr c m s) := by
  induction n with
  | zero => exact ⟨rfl, rfl⟩
  | succ n ih =>
    obtain ⟨ihw, ihp⟩ := ih (by omega)
    have hns : (BitVec.ofNat 6 n).toNat = n := by rw [BitVec.toNat_ofNat]; omega
    unfold resetBdt
    rw [readBdPtr_writeBdWord hc]
    by_cases hs : BitVec.ofNat 6 n = s
    · subst hs
      rw [hns, if_pos (by omega), if_pos (by omega), readBdWord_writeBdWord_same hc, readBdPtr_writeBdPtr_same hc]
      exact ⟨rfl, rfl⟩
    · have hne : s.toNat ≠ n := fun h => hs (BitVec.eq_of_toNat_eq (by rw [hns, h]))
      have hlt : s.toNat < n + 1 ↔ s.toNat < n := by omega
      rw [readBdWord_writeBdWord_ne hc _ _ hs, readBdWord_writeBdPtr hc, readBdPtr_writeBdPtr_ne hc _ _ hs]
      simp only [hlt]
      exact ⟨ihw, ihp⟩

theorem readBd_powerOnMemory {c : Config} (hc : ConfigOk c) (s : Slot) :
    readBdWord c (powerOnMemory c) s = resetWord c s ∧ readBdPtr c (powerOnMemory c) s = resetPtr c s := by
  have h := readBd_resetBdt hc [] (le_refl 64) s
  rwa [if_pos s.isLt, if_pos s.isLt] at h

/-- The table's words, in the order of REINIT's writes, the last first (R44, R222). -/
theorem resetWord_eq (c : Config) (s : Slot) :
    resetWord c s =
      if s = 6 ∧ c.ep1Prime = .atReset then armWord 4 0
      else if s = 5 ∨ s = 4 then armWord (BitVec.ofNat 10 c.ep1RxSize) 0
      else if s = 1 ∨ s = 0 then armWord 8 0 else 0 := by
  unfold resetWord
  by_cases h01 : s = 0 ∨ s = 1
  · rcases h01 with rfl | rfl <;> simp
  · by_cases h45 : s = 4 ∨ s = 5
    · rcases h45 with rfl | rfl <;> simp
    · have h01' : ¬ (s = 1 ∨ s = 0) := fun h => h01 h.symm
      have h45' : ¬ (s = 5 ∨ s = 4) := fun h => h45 h.symm
      simp only [Bool.or_eq_true, Bool.and_eq_true, decide_eq_true_eq, h01, h45, h01', h45', if_false]

/-- The table's pointers, in the same order. -/
theorem resetPtr_eq (c : Config) (s : Slot) :
    resetPtr c s =
      if s = 6 ∧ c.ep1Prime = .atReset then c.reportBase
      else if s = 5 then c.ep1RxBuf1 else if s = 4 then c.ep1RxBuf0 else if s = 1 then c.ep0RxBuf1
      else if s = 0 then c.ep0RxBuf0 else 0 := by
  unfold resetPtr
  by_cases h : s = 0 ∨ s = 1 ∨ s = 4 ∨ s = 5
  · rcases h with rfl | rfl | rfl | rfl <;> simp
  · simp only [not_or] at h
    simp only [Bool.and_eq_true, decide_eq_true_eq, h, if_false]

/-! ### REINIT -/

/-- REINIT's first lines, before the BDT is cleared (R222). -/
def clearRegisters (σ : State) : State :=
  { σ with
    hwodd := Vector.replicate 16 DirPair.zero, statFifo := [], par := Vector.replicate 16 DirPair.zero,
    tog := Vector.replicate 16 DirPair.zero, cur := Cursor.empty, lastSetup := 0 }

theorem reinitClear_eq (σ : State) : reinitClear σ = clearBdt 64 (clearRegisters σ) := rfl

/-- After REINIT's first lines every descriptor is clear (R222). -/
theorem bd_reinitClear {σ : State} (hc : ConfigOk σ.cfg) (s : Slot) :
    bdWord (reinitClear σ) s = 0 ∧ bdPtr (reinitClear σ) s = 0 := by
  have h := clearBdt_slot (σ := clearRegisters σ) hc 64 (le_refl 64) s
  rwa [if_pos s.isLt, if_pos s.isLt, ← reinitClear_eq] at h

/-- The four RX slots armed, the others as they were (R222). -/
theorem bdWord_reinitArm {σ : State} (hc : ConfigOk σ.cfg) (s : Slot) :
    bdWord (reinitArm σ) s =
      if s = 5 ∨ s = 4 then armWord (BitVec.ofNat 10 σ.cfg.ep1RxSize) 0 else if s = 1 ∨ s = 0 then armWord 8 0
      else bdWord σ s := by
  unfold reinitArm
  rw [bdWord_arm (by simpa using hc), bdWord_arm (by simpa using hc), bdWord_arm (by simpa using hc), bdWord_arm hc]
  simp only [show slotBits 1 0 1 = 5 from rfl, show slotBits 1 0 0 = 4 from rfl, show slotBits 0 0 1 = 1 from rfl,
    show slotBits 0 0 0 = 0 from rfl]
  split_ifs <;> tauto

theorem bdPtr_reinitArm {σ : State} (hc : ConfigOk σ.cfg) (s : Slot) :
    bdPtr (reinitArm σ) s =
      if s = 5 then σ.cfg.ep1RxBuf1 else if s = 4 then σ.cfg.ep1RxBuf0 else if s = 1 then σ.cfg.ep0RxBuf1
      else if s = 0 then σ.cfg.ep0RxBuf0 else bdPtr σ s := by
  unfold reinitArm
  rw [bdPtr_arm (by simpa using hc), bdPtr_arm (by simpa using hc), bdPtr_arm (by simpa using hc), bdPtr_arm hc]
  rfl

/-- Over a cleared BDT the four arms find every slot the ENGINE's own. -/
theorem faults_reinitArm {σ : State} (hc : ConfigOk σ.cfg) (h0 : ∀ s, bdOwned σ s = false) :
    (reinitArm σ).faults = σ.faults := by
  unfold reinitArm
  rw [arm_faults_of_free, arm_faults_of_free, arm_faults_of_free, arm_faults_of_free (h0 _)]
  · rw [bdOwned_arm_ne hc (by decide), h0]
  · rw [bdOwned_arm_ne (by simpa using hc) (by decide), bdOwned_arm_ne hc (by decide), h0]
  · rw [bdOwned_arm_ne (by simpa using hc) (by decide), bdOwned_arm_ne (by simpa using hc) (by decide),
      bdOwned_arm_ne hc (by decide), h0]

theorem transmitSlot_of_par {σ : State} (h : σ.par = Vector.replicate 16 DirPair.zero) : transmitSlot σ 1 = 6 := by
  unfold transmitSlot
  rw [h]
  decide

theorem toggles_reinitArm (σ : State) : (reinitArm (reinitClear σ)).par = Vector.replicate 16 DirPair.zero ∧
    (reinitArm (reinitClear σ)).tog = Vector.replicate 16 DirPair.zero :=
  ⟨(reinitArm_par _).trans (clearBdt_par ..), (reinitArm_tog _).trans (clearBdt_tog ..)⟩

theorem getDir_zero (e : Endp) (d : Dir) : getDir (Vector.replicate 16 DirPair.zero) e d = 0 := by
  cases d <;> revert e <;> decide

theorem flipDir_zero_ep1 : flipDir (Vector.replicate 16 DirPair.zero) 1 .tx =
    (Vector.replicate 16 DirPair.zero).set 1 { rx := 0, tx := 1 } := by decide

/-- PAR and TOG after REINIT: one TRANSMIT where endpoint 1 is primed (R44). -/
theorem toggles_reinit (σ : State) : (reinit σ).par = resetToggles σ.cfg ∧ (reinit σ).tog = resetToggles σ.cfg := by
  obtain ⟨hpar, htog⟩ := toggles_reinitArm σ
  show (reinitPrime (reinitArm (reinitClear σ))).par = _ ∧ (reinitPrime (reinitArm (reinitClear σ))).tog = _
  unfold reinitPrime resetToggles
  rw [reinitArm_cfg, reinitClear_cfg]
  cases σ.cfg.ep1Prime with
  | atReset =>
    dsimp only
    rw [transmit_eq]
    dsimp only
    rw [hpar, htog, flipDir_zero_ep1]
    exact ⟨rfl, rfl⟩
  | never => exact ⟨hpar, htog⟩

section
variable {σ : State} (hc : ConfigOk σ.cfg)
include hc

theorem configOk_reinitArm : ConfigOk (reinitArm (reinitClear σ)).cfg := by simpa using hc

theorem bdOwned_reinitArm_6 : bdOwned (reinitArm (reinitClear σ)) 6 = false := by
  apply bdOwned_of_word_zero
  rw [bdWord_reinitArm (by simpa using hc)]
  exact (bd_reinitClear hc 6).1

/-- REINIT records no fault (R222, R41). -/
theorem faults_reinit : (reinit σ).faults = σ.faults := by
  have h0 (s : Slot) : bdOwned (reinitClear σ) s = false := bdOwned_of_word_zero (bd_reinitClear hc s).1
  have ha : (reinitArm (reinitClear σ)).faults = σ.faults :=
    (faults_reinitArm (by simpa using hc) h0).trans (clearBdt_faults ..)
  show (reinitPrime (reinitArm (reinitClear σ))).faults = σ.faults
  unfold reinitPrime
  split
  · rw [transmit_faults_of_free _ _ _, ha]
    rw [transmitSlot_of_par (toggles_reinitArm σ).1]
    exact bdOwned_reinitArm_6 hc
  · exact ha

/-- REINIT's descriptors are those of the table (R222, R44). -/
theorem bd_reinit (s : Slot) : bdWord (reinit σ) s = resetWord σ.cfg s ∧ bdPtr (reinit σ) s = resetPtr σ.cfg s := by
  have hcfg : (reinitClear σ).cfg = σ.cfg := reinitClear_cfg σ
  have hw := bdWord_reinitArm (σ := reinitClear σ) (by simpa using hc) s
  have hp := bdPtr_reinitArm (σ := reinitClear σ) (by simpa using hc) s
  rw [(bd_reinitClear hc s).1, hcfg] at hw
  rw [(bd_reinitClear hc s).2, hcfg] at hp
  obtain ⟨hpar, htog⟩ := toggles_reinitArm σ
  show bdWord (reinitPrime (reinitArm (reinitClear σ))) s = _ ∧ bdPtr (reinitPrime (reinitArm (reinitClear σ))) s = _
  unfold reinitPrime
  rw [reinitArm_cfg, hcfg, resetWord_eq, resetPtr_eq]
  cases σ.cfg.ep1Prime with
  | atReset =>
    dsimp only
    rw [bdWord_transmit (configOk_reinitArm hc), bdPtr_transmit (configOk_reinitArm hc), transmitSlot_of_par hpar, htog,
      getDir_zero, hw, hp]
    simp only [and_true, and_self]
  | never =>
    dsimp only
    rw [hw, hp]
    simp only [reduceCtorEq, and_false, if_false, and_self]

end

/-- REINIT gives the power-on state, but for memory, DPH, FAULT and the model's own fields (R222, R44). -/
theorem reinit_eq {σ : State} (hc : ConfigOk σ.cfg) :
    reinit σ =
      { State.powerOn σ.cfg with
        mem := (reinit σ).mem, dph := σ.dph, faults := σ.faults, schedule := σ.schedule, response := σ.response,
        result := σ.result, freeCount := σ.freeCount } := by
  apply state_ext
  case inten => exact (by decide : irqMask &&& irqMask = 0x9F)
  case statFifo => exact (reinitPrime_statFifo _).trans ((reinitArm_statFifo _).trans (clearBdt_statFifo ..))
  case cur => exact (reinitPrime_cur _).trans ((reinitArm_cur _).trans (clearBdt_cur ..))
  case lastSetup => exact (reinitPrime_lastSetup _).trans ((reinitArm_lastSetup _).trans (clearBdt_lastSetup ..))
  case hwodd => exact (reinitPrime_hwodd _).trans ((reinitArm_hwodd _).trans (clearBdt_hwodd ..))
  case par => exact (toggles_reinit σ).1
  case tog => exact (toggles_reinit σ).2
  case faults => exact faults_reinit hc
  case dph => exact reinit_dph σ
  case cfg => exact reinit_cfg σ
  case schedule => exact reinit_schedule σ
  case response => exact reinit_response σ
  case result => exact reinit_result σ
  case freeCount => exact reinit_freeCount σ
  all_goals rfl

/-- REINIT writes nothing outside the BDT. -/
theorem reinit_outside {σ : State} (hc : ConfigOk σ.cfg) {a : Word} (ha : ¬ inBdt σ.cfg a) :
    memByte (reinit σ) a = memByte σ a := by
  have hcfg : (reinitClear σ).cfg = σ.cfg := reinitClear_cfg σ
  have h1 : memByte (reinitClear σ) a = memByte σ a := clearBdt_outside (σ := clearRegisters σ) hc 64 ha
  exact ((engineKeeps_reinitArms _).outside (hcfg.symm ▸ hc) a (hcfg.symm ▸ ha)).trans h1

theorem wf_reinit {σ : State} (h : Memory.wf σ.cfg σ.mem = true) : Memory.wf σ.cfg (reinit σ).mem = true := by
  have hcfg : (reinitClear σ).cfg = σ.cfg := reinitClear_cfg σ
  have h1 : Memory.wf σ.cfg (reinitClear σ).mem = true := wf_clearBdt (σ := clearRegisters σ) h 64
  exact hcfg ▸ (engineKeeps_reinitArms (reinitClear σ)).memory (hcfg.symm ▸ h1)

/-! ### The table -/

/-- Every range of the memory map ends inside the address space (R305). -/
theorem region_end_le {c : Config} (hc : ConfigOk c) {r : Region} (hr : r ∈ regions c) : r.base + r.size ≤ 2 ^ 32 := by
  obtain ⟨-, hends, -⟩ := hc
  exact hends r hr

theorem ep1RxSize_le {c : Config} (hc : ConfigOk c) : c.ep1RxSize ≤ 1023 := by
  obtain ⟨-, -, -, hsize, -⟩ := hc
  exact hsize

theorem blockRegion_mem {c : Config} {d : DescBlock} (hd : d ∈ romBlocks c) : blockRegion d ∈ regions c :=
  List.mem_cons_of_mem _ (List.mem_append_right _ (List.mem_map_of_mem hd))

theorem rxRegion_mem {c : Config} {r : Region} (hr : r ∈ rxRegions c) : r ∈ regions c :=
  List.mem_cons_of_mem _ (List.mem_append_left _ hr)

/-- The report reads as configured, in every canonical memory (R254, R66). -/
theorem loadBytes_report {σ : State} (hc : ConfigOk σ.cfg) (hm : Memory.wf σ.cfg σ.mem = true) :
    loadBytes σ.cfg.reportBase 4 σ = reportBytes σ.cfg.report := by
  have hr := region_end_le hc (blockRegion_mem (d := reportBlock σ.cfg) (.head _))
  have hlen : (reportBytes σ.cfg.report).length = 4 := rfl
  apply List.ext_getElem?
  intro i
  by_cases hi : i < 4
  · have hb := List.getElem?_eq_getElem (hlen.symm ▸ hi)
    have ha : (σ.cfg.reportBase + BitVec.ofNat 32 i).toNat = σ.cfg.reportBase.toNat + i :=
      toNat_add_small (by simp only [blockRegion, reportBlock, hlen] at hr; omega)
    have hrom : romByte σ.cfg (σ.cfg.reportBase + BitVec.ofNat 32 i).toNat = (reportBytes σ.cfg.report)[i]? := by
      simp [ha, romByte, romBlocks, blockByte, reportBlock, hb]
    rw [loadBytes, getElem?_readBytes _ _ _ _ hi, hb, readByte_rom hm (hrom.trans hb)]
  · rw [List.getElem?_eq_none (by rw [loadBytes, length_readBytes]; omega), List.getElem?_eq_none (by omega)]

theorem getDir_resetToggles (c : Config) (e : Endp) (d : Dir) :
    getDir (resetToggles c) e d = if e = 1 ∧ d = .tx ∧ c.ep1Prime = .atReset then 1 else 0 := by
  unfold resetToggles
  cases c.ep1Prime <;> cases d <;> revert e <;> decide

/-- BD_ARM of endpoint 1's RX size, as the table writes it (R44). -/
theorem armWord_rxSize {n : Nat} (h : n ≤ 1023) :
    armWord (BitVec.ofNat 10 n) 0 = (BitVec.ofNat 32 n <<< 16) ||| 0x80 := by
  have e : (BitVec.ofNat 10 n).setWidth 32 = BitVec.ofNat 32 n := by bv_omega
  simp [armWord, e]

/-- The table holds of the power-on registers over any canonical memory whose BDT is the table's. -/
theorem resetTable_of_bdt {c : Config} (hc : ConfigOk c) {m : Memory} (hm : Memory.wf c m = true)
    (hbd : ∀ s, readBdWord c m s = resetWord c s ∧ readBdPtr c m s = resetPtr c s) (fs : List Fault)
    (ts : List Turn) (r : Response) (x : OpResult) (n : Nat) :
    ResetTable c { State.powerOn c with
      mem := m, faults := fs, schedule := ts, response := r, result := x, freeCount := n } where
  istat := rfl
  inten := rfl
  errstat := rfl
  statFifo := rfl
  addr := rfl
  endpt := getEp_resetEndpt
  word s := by
    refine ((hbd s).1.trans (resetWord_eq c s)).trans ?_
    rw [armWord_rxSize (ep1RxSize_le hc)]
    by_cases h6 : s = 6
    · subst h6; simp; rfl
    · simp only [h6, false_and, if_false]
      by_cases h01 : s = 0 ∨ s = 1
      · rcases h01 with rfl | rfl <;> rfl
      · simp only [h01, if_false, or_comm]
  ptr s := by
    refine (hbd s).2.trans ?_
    simp [resetPtr]
  par := getDir_resetToggles c
  tog := getDir_resetToggles c
  hwodd := getDir_zero
  cur := rfl
  lastSetup := rfl
  dstatus := rfl
  dph := rfl
  ep0State := rfl
  report := loadBytes_report (σ := { State.powerOn c with mem := m }) hc hm

end Sys2Proof.Machine

open Sys2Proof Sys2Proof.Machine

/-- Settles O19: power-on and REINIT have the same registers, and both leave the BDT as the table has it. -/
theorem bothResetsLeaveTheResetTable : Obligations.BothResetsLeaveTheResetTable := by
  refine ⟨fun c hc => ⟨?_, rfl⟩, fun σ hc hm hr => ?_⟩
  · exact resetTable_of_bdt hc (wf_powerOnMemory c) (readBd_powerOnMemory hc) [] [] .none .none 0
  · have hlatched : latched .usbrst (enterRun σ) = true := (hasBit_iff ..).mpr hr
    have hx : exec .irqUsbrst σ = .next (endRun (reinit (enterRun σ))) := by
      show Host.Outcome.next (irqUsbrst σ) = _
      rcases irqUsbrst_cases σ with ⟨-, e⟩ | ⟨h, -⟩
      · rw [e]
      · rw [hlatched] at h; cases h
    refine ⟨_, hx, ?_, faults_reinit (σ := enterRun σ) hc, fun a ha => reinit_outside (σ := enterRun σ) hc ha⟩
    have hbd (s : Slot) := bd_reinit (σ := enterRun σ) hc s
    unfold bdWord bdPtr at hbd
    rw [reinit_cfg] at hbd
    rw [reinit_eq (σ := enterRun σ) hc]
    exact resetTable_of_bdt hc (wf_reinit (σ := enterRun σ) hm) hbd _ _ _ _ _
end

section
/-! PROOF. `RunInv` in parts: what it says of one descriptor, of what the handlers work on, of the queue of completions,
and of endpoint 1. -/

namespace Sys2Proof.Machine

open Sys2Proof

/-! ### One descriptor -/

/-- What `RunInv` says of slot `s` with word `w` and pointer `p`. -/
structure SlotOk (c : Config) (s : Slot) (w p : Word) : Prop where
  rxPtr : rxSlot s = true → p = resetPtr c s
  rxCount : rxSlot s = true → wordOwn w = 1 → wordBC w = rxSize c s
  ownedWord : wordOwn w = 1 → w = armWord (wordBC w) (wordData01 w)
  rxPid : rxSlot s = true → wordPid w ≠ tokPid .inTok
  txPid : txSlot s = true → wordPid w = tokPid .inTok ∨ wordPid w = 0
  high : 8 ≤ s.toNat → w = 0 ∧ p = 0
  txSource : txSlot s = true → wordOwn w = 1 → inStore c p (wordBC w).toNat

theorem rxSlot_lt {s : Slot} (h : rxSlot s = true) : s.toNat < 8 := by
  revert s; decide

theorem txSlot_lt {s : Slot} (h : txSlot s = true) : s.toNat < 8 := by
  revert s; decide

theorem not_txSlot {s : Slot} (h : rxSlot s = true) : ¬ txSlot s = true := by
  revert s; decide

theorem not_rxSlot {s : Slot} (h : txSlot s = true) : ¬ rxSlot s = true := fun hr => not_txSlot hr h

/-- The slots of endpoints 0 and 1, by direction (R93). -/
theorem rxSlot_slotBits {e : Endp} (he : e = 0 ∨ e = 1) (p : Bit) : rxSlot (slotBits e 0 p) = true := by
  rcases he with rfl | rfl <;> revert p <;> decide

theorem txSlot_slotBits {e : Endp} (he : e = 0 ∨ e = 1) (p : Bit) : txSlot (slotBits e 1 p) = true := by
  rcases he with rfl | rfl <;> revert p <;> decide

/-- An RX slot handed to the SIE with its own buffer and size (R181, R190, R252). -/
theorem slotOk_armRx {c : Config} {s : Slot} (h : rxSlot s = true) (b : Bit) :
    SlotOk c s (armWord (rxSize c s) b) (resetPtr c s) where
  rxPtr _ := rfl
  rxCount _ _ := wordBC_armWord ..
  ownedWord _ := by simp
  rxPid _ := by rw [wordPid_armWord]; decide
  txPid ht := absurd ht (not_txSlot h)
  high h8 := absurd h8 (Nat.not_le_of_lt (rxSlot_lt h))
  txSource ht := absurd ht (not_txSlot h)

/-- A TX slot handed to the SIE with bytes of the store (R136). -/
theorem slotOk_armTx {c : Config} {s : Slot} {p : Word} {n : Count} (h : txSlot s = true) (hp : inStore c p n.toNat)
    (b : Bit) : SlotOk c s (armWord n b) p where
  rxPtr hr := absurd hr (not_rxSlot h)
  rxCount hr := absurd hr (not_rxSlot h)
  ownedWord _ := by simp
  rxPid hr := absurd hr (not_rxSlot h)
  txPid _ := .inr (wordPid_armWord ..)
  high h8 := absurd h8 (Nat.not_le_of_lt (txSlot_lt h))
  txSource _ _ := by rw [wordBC_armWord]; exact hp

/-- A completed RX slot (R151). -/
theorem slotOk_doneRx {c : Config} {s : Slot} (h : rxSlot s = true) (n : Count) (b : Bit) {k : TokKind}
    (hk : k ≠ .inTok) : SlotOk c s (doneWord n b (tokPid k)) (resetPtr c s) where
  rxPtr _ := rfl
  rxCount _ ho := (wordOwn_doneWord_ne .. ▸ ho).elim
  ownedWord  ho := (wordOwn_doneWord_ne .. ▸ ho).elim
  rxPid _ := by
    rw [wordPid_doneWord]
    cases k with
    | inTok => exact absurd rfl hk
    | setup => decide
    | outTok => decide
  txPid ht := absurd ht (not_txSlot h)
  high h8 := absurd h8 (Nat.not_le_of_lt (rxSlot_lt h))
  txSource ht := absurd ht (not_txSlot h)

/-- A completed TX slot (R151). -/
theorem slotOk_doneTx {c : Config} {s : Slot} (h : txSlot s = true) (n : Count) (b : Bit) (p : Word) :
    SlotOk c s (doneWord n b (tokPid .inTok)) p where
  rxPtr hr := absurd hr (not_rxSlot h)
  rxCount hr := absurd hr (not_rxSlot h)
  ownedWord  ho := (wordOwn_doneWord_ne .. ▸ ho).elim
  rxPid hr := absurd hr (not_rxSlot h)
  txPid _ := .inl (wordPid_doneWord ..)
  high h8 := absurd h8 (Nat.not_le_of_lt (txSlot_lt h))
  txSource _ ho := (wordOwn_doneWord_ne .. ▸ ho).elim

/-- A slot with word 0 that is no RX slot (R134, R44). -/
theorem slotOk_zero {c : Config} {s : Slot} {p : Word} (h : ¬ rxSlot s = true) (hp : 8 ≤ s.toNat → p = 0) :
    SlotOk c s 0 p where
  rxPtr hr := absurd hr h
  rxCount hr := absurd hr h
  ownedWord ho := by rw [wordOwn_zero] at ho; cases ho
  rxPid hr := absurd hr h
  txPid _ := .inr wordPid_zero
  high h8 := ⟨rfl, hp h8⟩
  txSource _ ho := by rw [wordOwn_zero] at ho; cases ho

/-! ### The parts -/

/-- Every descriptor is as `RunInv` has it. -/
def SlotsOk (σ : State) : Prop := ∀ t, SlotOk σ.cfg t (bdWord σ t) (bdPtr σ t)

/-- What the handlers work on: descriptors, the cursor, the fault record. -/
structure EngineOk (σ : State) : Prop where
  configOk : ConfigOk σ.cfg
  slots : SlotsOk σ
  cursorSource : σ.cur.valid = true → inStore σ.cfg σ.cur.ptr σ.cur.len.toNat
  faultSlots : ∀ f ∈ σ.faults, f.slot = 2 ∨ f.slot = 3

/-- The completions not served yet. -/
structure QueueOk (σ : State) : Prop where
  endpoints : ∀ v ∈ σ.statFifo, statEndp v = 0 ∨ statEndp v = 1
  rx : ∀ v ∈ σ.statFifo, statDir v = 0 → bdOwned σ (statSlot v) = false
  rxOnce : (σ.statFifo.filter (fun v => statDir v = 0)).Nodup

/-- Endpoint 1's TX side is in step (R312, R316). -/
def Ep1InStep (σ : State) : Prop := ep1Armed σ ∨ ep1Sent σ ∨ ep1Silent σ

theorem bdOwned_iff {σ : State} {s : Slot} : bdOwned σ s = true ↔ wordOwn (bdWord σ s) = 1 := decide_eq_true_iff

theorem RunInv.engineOk {σ : State} (h : RunInv σ) : EngineOk σ where
  configOk := h.configOk
  slots s :=
    { rxPtr := h.rxPtr s
      rxCount := fun hr ho => h.rxCount s hr (bdOwned_iff.mpr ho)
      ownedWord := fun ho => h.ownedWord s (bdOwned_iff.mpr ho)
      rxPid := h.rxPid s
      txPid := h.txPid s
      high := h.highSlots s
      txSource := fun ht ho => h.txSource s ht (bdOwned_iff.mpr ho) }
  cursorSource := h.cursorSource
  faultSlots := h.faultSlots

theorem RunInv.queueOk {σ : State} (h : RunInv σ) : QueueOk σ := ⟨h.fifoEndpoints, h.fifoRx, h.fifoRxOnce⟩

/-- `RunInv` from its parts. -/
theorem runInv_of_parts {σ : State} (base : Inv σ) (ok : EngineOk σ) (schedule : ∀ t ∈ σ.schedule, t.real = true)
    (inten : σ.inten = irqMask)
    (endpt0 : getEp σ.endpt 0 = endptEnabled ∨ getEp σ.endpt 0 = endptEnabled ||| epstall)
    (endpt1 : getEp σ.endpt 1 = endptEnabled) (queue : QueueOk σ) (ep1 : Ep1InStep σ) : RunInv σ where
  base := base
  configOk := ok.configOk
  schedule := schedule
  rxPtr s := (ok.slots s).rxPtr
  rxCount s hr ho := (ok.slots s).rxCount hr (bdOwned_iff.mp ho)
  ownedWord s ho := (ok.slots s).ownedWord (bdOwned_iff.mp ho)
  rxPid s := (ok.slots s).rxPid
  txPid s := (ok.slots s).txPid
  highSlots s := (ok.slots s).high
  txSource s ht ho := (ok.slots s).txSource ht (bdOwned_iff.mp ho)
  cursorSource := ok.cursorSource
  inten := inten
  endpt0 := endpt0
  endpt1 := endpt1
  fifoEndpoints := queue.endpoints
  fifoRx := queue.rx
  fifoRxOnce := queue.rxOnce
  ep1 := ep1
  faultSlots := ok.faultSlots

/-- Registers the other parts do not speak of may change, if `Inv` holds of the result. -/
theorem RunInv.congr {σ τ : State} (h : RunInv σ) (hi : Inv τ)
    (e : τ = { σ with
      istat := τ.istat, errstat := τ.errstat, addr := τ.addr, endpt := τ.endpt, lastSetup := τ.lastSetup,
      dstatus := τ.dstatus, dph := τ.dph, ep0State := τ.ep0State, schedule := τ.schedule, response := τ.response,
      result := τ.result, freeCount := τ.freeCount })
    (hs : ∀ t ∈ τ.schedule, t.real = true)
    (h0 : getEp τ.endpt 0 = endptEnabled ∨ getEp τ.endpt 0 = endptEnabled ||| epstall)
    (h1 : getEp τ.endpt 1 = endptEnabled) : RunInv τ := by
  have ok := h.engineOk
  have q := h.queueOk
  rw [e] at hi ⊢
  exact runInv_of_parts hi ⟨ok.configOk, ok.slots, ok.cursorSource, ok.faultSlots⟩ hs h.inten h0 h1
    ⟨q.endpoints, q.rx, q.rxOnce⟩ h.ep1

/-- The same, where the endpoint registers and the schedule stay. -/
theorem RunInv.congr' {σ τ : State} (h : RunInv σ) (hi : Inv τ)
    (e : τ = { σ with
      istat := τ.istat, errstat := τ.errstat, addr := τ.addr, lastSetup := τ.lastSetup, dstatus := τ.dstatus,
      dph := τ.dph, ep0State := τ.ep0State, response := τ.response, result := τ.result, freeCount := τ.freeCount }) :
    RunInv τ := by
  have hs : τ.schedule = σ.schedule := by rw [e]
  have he : τ.endpt = σ.endpt := by rw [e]
  refine h.congr hi ?_ (hs.symm ▸ h.schedule) (he.symm ▸ h.endpt0) (he.symm ▸ h.endpt1)
  rw [hs, he]
  exact e

/-! ### A slot written -/

theorem slotsOk_write {σ τ : State} {s : Slot} {w p : Word} (hc : ConfigOk σ.cfg) (h : SlotsOk σ)
    (hcfg : τ.cfg = σ.cfg) (hw : SlotWritten σ.cfg σ.mem τ.mem s w p) (hs : SlotOk σ.cfg s w p) : SlotsOk τ := by
  intro t
  obtain ⟨hword, hptr⟩ := bd_of_slotWritten hc hcfg hw t
  rw [hcfg, hword, hptr]
  by_cases ht : t = s
  · subst ht
    rw [if_pos rfl, if_pos rfl]
    exact hs
  · rw [if_neg ht, if_neg ht]
    exact h t

/-- ARM on a slot that stays in form; only endpoint 0's TX slots may be the SIE's (R131, R273). -/
theorem EngineOk.arm {σ : State} (h : EngineOk σ) {s : Slot} {p : Word} {n : Count} {b : Bit}
    (hs : SlotOk σ.cfg s (armWord n b) p) (hf : bdOwned σ s = true → s = 2 ∨ s = 3) : EngineOk (arm s p n b σ) where
  configOk := by rw [arm_cfg]; exact h.configOk
  slots := slotsOk_write h.configOk h.slots (arm_cfg ..) (slotWritten_arm h.configOk ..) hs
  cursorSource := by rw [arm_cur, arm_cfg]; exact h.cursorSource
  faultSlots f hm := by
    rcases (faultRecorded_arm s p n b σ f).mp hm with hm | ⟨ho, rfl⟩
    · exact h.faultSlots f hm
    · exact hf (bdOwned_iff.mpr ho)

/-- The same of TRANSMIT. -/
theorem EngineOk.transmit {σ : State} (h : EngineOk σ) {e : Endp} {p : Word} {n : Count}
    (he : e = 0 ∨ e = 1) (hp : inStore σ.cfg p n.toNat)
    (hf : bdOwned σ (transmitSlot σ e) = true → transmitSlot σ e = 2 ∨ transmitSlot σ e = 3) :
    EngineOk (transmit e p n σ) :=
  have k := h.arm (slotOk_armTx (b := getDir σ.tog e .tx) (txSlot_slotBits he (getDir σ.par e .tx)) hp) hf
  ⟨k.configOk, k.slots, k.cursorSource, k.faultSlots⟩

theorem EngineOk.revoke {σ : State} (h : EngineOk σ) {s : Slot} (hs : txSlot s = true) : EngineOk (revoke s σ) where
  configOk := h.configOk
  slots := slotsOk_write h.configOk h.slots rfl (slotWritten_revoke h.configOk s)
    (slotOk_zero (not_rxSlot hs) fun h8 => absurd h8 (Nat.not_le_of_lt (txSlot_lt hs)))
  cursorSource := h.cursorSource
  faultSlots := h.faultSlots

/-! ### The queue -/

/-- A STAT value in form is its slot (R95). -/
theorem eq_of_statSlot_eq {u v : Byte} (hu : u.extractLsb' 0 2 = 0) (hv : v.extractLsb' 0 2 = 0)
    (h : statSlot u = statSlot v) : u = v := by
  rw [statSlot_eq u, statSlot_eq v, slotBits_inj] at h
  obtain ⟨h1, h2, h3⟩ := h
  rw [← statWord_fields hu, ← statWord_fields hv, h1, h2, h3]

/-- The head was served: its slot may be the SIE's again, the others' are as before (R225). -/
theorem QueueOk.pop {σ τ : State} {v : Byte} {vs : List Byte} (q : QueueOk σ)
    (hr : ∀ u ∈ σ.statFifo, u.extractLsb' 0 2 = 0) (hσ : σ.statFifo = v :: vs) (hτ : τ.statFifo = vs)
    (hk : ∀ t, rxSlot t = true → t ≠ statSlot v → bdOwned τ t = bdOwned σ t) : QueueOk τ := by
  obtain ⟨hend, hrx, honce⟩ := q
  rw [hσ] at hr hend hrx honce
  refine ⟨fun u hu => ?_, fun u hu hd => ?_, ?_⟩
  · exact hend u (.tail _ (hτ ▸ hu))
  · rw [hτ] at hu
    have hslot : rxSlot (statSlot u) = true := by
      rw [statSlot_eq, hd]
      exact rxSlot_slotBits (hend u (.tail _ hu)) _
    have hne : statSlot u ≠ statSlot v := by
      intro heq
      obtain rfl := eq_of_statSlot_eq (hr u (.tail _ hu)) (hr v (.head _)) heq
      rw [List.filter_cons_of_pos (by simpa using hd), List.nodup_cons] at honce
      exact honce.1 (List.mem_filter.mpr ⟨hu, by simpa using hd⟩)
    rw [hk _ hslot hne]
    exact hrx u (.tail _ hu) hd
  · rw [hτ]
    exact honce.sublist ((List.sublist_cons_self v vs).filter _)

/-- A token completed on a slot the SIE owned (R151). -/
theorem QueueOk.push {σ τ : State} {e : Endp} {d p : Bit} (q : QueueOk σ) (he : e = 0 ∨ e = 1)
    (ho : bdOwned σ (slotBits e d p) = true) (hτ : τ.statFifo = σ.statFifo ++ [statWord e d p])
    (hk : ∀ t, t ≠ slotBits e d p → bdOwned τ t = bdOwned σ t) (hd : bdOwned τ (slotBits e d p) = false) :
    QueueOk τ := by
  refine ⟨fun u hu => ?_, fun u hu hu0 => ?_, ?_⟩ <;> rw [hτ] at *
  · rcases List.mem_append.mp hu with hu | hu
    · exact q.endpoints u hu
    · rw [List.mem_singleton.mp hu, statEndp_statWord]
      exact he
  · by_cases hs : statSlot u = slotBits e d p
    · rw [hs]; exact hd
    · rcases List.mem_append.mp hu with hu | hu
      · rw [hk _ hs]; exact q.rx u hu hu0
      · rw [List.mem_singleton.mp hu, statSlot_statWord] at hs
        exact absurd rfl hs
  · have hnew : statWord e d p ∉ σ.statFifo ∨ d ≠ 0 := by
      by_contra hn
      simp only [not_or, not_not] at hn
      have := q.rx _ hn.1 (by rw [statDir_statWord]; exact hn.2)
      rw [statSlot_statWord, ho] at this
      cases this
    rw [List.filter_append, List.nodup_append]
    refine ⟨q.rxOnce, (List.nodup_singleton _).sublist List.filter_sublist, fun u hu w hw => ?_⟩
    obtain ⟨hu, -⟩ := List.mem_filter.mp hu
    obtain ⟨hw, hw0⟩ := List.mem_filter.mp hw
    rw [List.mem_singleton.mp hw] at hw0 ⊢
    rw [decide_eq_true_eq, statDir_statWord] at hw0
    rintro rfl
    exact hnew.elim (fun h => h hu) (fun h => h hw0)

/-! ### Endpoint 1 -/

/-- Whether a completion is one of endpoint 1's IN side. -/
def isEp1In (v : Byte) : Bool := statEndp v = 1 && statDir v = 1

theorem ep1InEntries_eq (σ : State) : ep1InEntries σ = σ.statFifo.filter isEp1In := rfl

theorem isEp1In_iff {v : Byte} : isEp1In v = true ↔ statEndp v = 1 ∧ statDir v = 1 := by simp [isEp1In]

theorem ep1Slot_flip_ne (p : Bit) : ep1Slot (p ^^^ 1) ≠ ep1Slot p := by
  unfold ep1Slot
  rw [Ne, slotBits_inj]
  exact fun h => xor_one_ne p h.2.2

/-- Endpoint 1 stays in step where its TX descriptors, bits and completions stay. -/
theorem Ep1InStep.congr {σ τ : State} (h : Ep1InStep σ) (hcfg : τ.cfg = σ.cfg)
    (hbd : ∀ p, bdWord τ (ep1Slot p) = bdWord σ (ep1Slot p) ∧ bdPtr τ (ep1Slot p) = bdPtr σ (ep1Slot p))
    (hh : getDir τ.hwodd 1 .tx = getDir σ.hwodd 1 .tx) (hp : getDir τ.par 1 .tx = getDir σ.par 1 .tx)
    (ht : getDir τ.tog 1 .tx = getDir σ.tog 1 .tx) (hq : ep1InEntries τ = ep1InEntries σ) : Ep1InStep τ := by
  have ho (p : Bit) : bdOwned τ (ep1Slot p) = bdOwned σ (ep1Slot p) := bdOwned_of_word_eq (hbd p).1
  unfold Ep1InStep ep1Armed ep1Sent ep1Silent at *
  simp only [hcfg, hh, hp, ht, hq, ho, hbd]
  exact h

end Sys2Proof.Machine
end

section
/-! PROOF. The handlers keep the parts of `RunInv`: which slots they write, and that every pointer they arm or keep lies
in the store. -/

namespace Sys2Proof.Machine

open Sys2Proof

/-! ### Places in the store (R263) -/

/-- Part of a run of bytes of the store is one too. -/
theorem inStore_part {c : Config} (hc : ConfigOk c) {p : Word} {n : Nat} (h : inStore c p n) {k m : Nat}
    (hm : k + m ≤ n) : inStore c (p + BitVec.ofNat 32 k) m := by
  rcases Nat.eq_zero_or_pos m with rfl | hpos
  · exact .inl rfl
  · rcases h with rfl | ⟨d, hd, h1, h2⟩
    · omega
    · have hr := region_end_le hc (blockRegion_mem hd)
      simp only [blockRegion] at hr
      have ha : (p + BitVec.ofNat 32 k).toNat = p.toNat + k := toNat_add_small (by omega)
      exact .inr ⟨d, hd, by omega, by omega⟩

/-- A run of bytes cut short. -/
theorem inStore_shorter {c : Config} {p : Word} {n m : Nat} (h : inStore c p n) (hm : m ≤ n) : inStore c p m := by
  rcases h with rfl | ⟨d, hd, h1, h2⟩
  · exact .inl (by omega)
  · exact .inr ⟨d, hd, h1, by omega⟩

/-- The report's four bytes lie in the store. -/
theorem inStore_report (c : Config) : inStore c c.reportBase (4 : Count).toNat :=
  .inr ⟨reportBlock c, .head _, le_refl _, le_refl _⟩

/-- A hit of the scan is one of the entries. -/
theorem mem_of_scanTable {ds : List DescEntry} {v i : Half} {p : Word} {len : Half}
    (h : scanTable ds v i = some (p, len)) : ∃ d ∈ ds, d.pointer = p ∧ d.length = len := by
  induction ds with
  | nil => cases h
  | cons d ds ih =>
    unfold scanTable at h
    split at h
    · simp only [Option.some.injEq, Prod.mk.injEq] at h
      exact ⟨d, .head _, h⟩
    · obtain ⟨x, hx, hp⟩ := ih h
      exact ⟨x, .tail _ hx, hp⟩

/-- Every entry of the table is a block of the store (R261). -/
theorem mem_descTable {c : Config} {x : DescEntry} (h : x ∈ descTable c) :
    ∃ d ∈ romBlocks c, x.pointer = d.pointer ∧ x.length.toNat ≤ d.bytes.length := by
  have key (v i : Half) (d : DescBlock) (hd : d ∈ romBlocks c) :
      ∃ b ∈ romBlocks c, (descEntry v i d).pointer = b.pointer ∧ (descEntry v i d).length.toNat ≤ b.bytes.length :=
    ⟨d, hd, rfl, by rw [descEntry, BitVec.toNat_ofNat]; exact Nat.mod_le ..⟩
  simp only [descTable, List.mem_cons, List.not_mem_nil, or_false] at h
  rcases h with rfl | rfl | rfl | rfl | rfl | rfl <;> exact key _ _ _ (by simp [romBlocks])

/-- LOOKUP's hit lies in the store (R262, R263). -/
theorem inStore_lookupDesc {c : Config} {v i : Half} {p : Word} {len : Half} (h : lookupDesc c v i = some (p, len)) :
    inStore c p len.toNat := by
  obtain ⟨x, hx, rfl, rfl⟩ := mem_of_scanTable h
  obtain ⟨d, hd, hp, hl⟩ := mem_descTable hx
  exact .inr ⟨d, hd, by rw [hp], by rw [hp]; omega⟩

theorem truncateLength_le (len l : Half) : (truncateLength len l).toNat ≤ len.toNat := by
  unfold truncateLength
  split
  · exact le_refl _
  · bv_omega

theorem chunk_toNat_le (len : Half) : (chunk len).toNat ≤ len.toNat := by
  by_cases h : len.toNat < 8
  · rw [chunk_short h, BitVec.toNat_ofNat]
    exact Nat.mod_le ..
  · rw [chunk_full (by omega)]
    exact Nat.le_of_not_lt h

/-! ### Endpoint 0's work -/

/-- What endpoint 0's handler, or a part of it serving slot `s`, does to the descriptors and to endpoint 1. -/
structure Work (s : Slot) (σ τ : State) : Prop where
  ok : EngineOk τ
  cfg : τ.cfg = σ.cfg
  bd : ∀ t, t ≠ s → t ≠ 2 → t ≠ 3 → bdWord τ t = bdWord σ t ∧ bdPtr τ t = bdPtr σ t
  par : getDir τ.par 1 .tx = getDir σ.par 1 .tx
  tog : getDir τ.tog 1 .tx = getDir σ.tog 1 .tx

namespace Work

theorem refl {s : Slot} {σ : State} (h : EngineOk σ) : Work s σ σ := ⟨h, rfl, fun _ _ _ _ => ⟨rfl, rfl⟩, rfl, rfl⟩

theorem trans {s : Slot} {σ τ ω : State} (h : Work s σ τ) (h' : Work s τ ω) : Work s σ ω where
  ok := h'.ok
  cfg := h'.cfg.trans h.cfg
  bd t h1 h2 h3 := ⟨(h'.bd t h1 h2 h3).1.trans (h.bd t h1 h2 h3).1, (h'.bd t h1 h2 h3).2.trans (h.bd t h1 h2 h3).2⟩
  par := h'.par.trans h.par
  tog := h'.tog.trans h.tog

/-- Registers the relation does not speak of. -/
theorem update {s : Slot} {σ τ : State} (h : Work s σ τ) (endpt : Vector Byte 16) (lastSetup : BitVec 64)
    (ep0State : Ep0State) (addr : UsbAddr) :
    Work s σ { τ with endpt := endpt, lastSetup := lastSetup, ep0State := ep0State, addr := addr } :=
  ⟨⟨h.ok.configOk, h.ok.slots, h.ok.cursorSource, h.ok.faultSlots⟩, h.cfg, h.bd, h.par, h.tog⟩

/-- A new cursor, inside the store. -/
theorem setCursor {s : Slot} {σ τ : State} (h : Work s σ τ) {cur : Cursor}
    (hc : cur.valid = true → inStore σ.cfg cur.ptr cur.len.toNat) : Work s σ { τ with cur := cur } :=
  ⟨⟨h.ok.configOk, h.ok.slots, fun hv => h.cfg.symm ▸ hc hv, h.ok.faultSlots⟩, h.cfg, h.bd, h.par, h.tog⟩

/-- TOG[0][TX] forced to 1, and the cursor emptied (R181). -/
theorem openState {s : Slot} {σ τ : State} (h : Work s σ τ) (ep0State : Ep0State) :
    Work s σ { τ with tog := setDir τ.tog 0 .tx 1, cur := Cursor.empty, ep0State := ep0State } :=
  ⟨⟨h.ok.configOk, h.ok.slots, fun hv => (by cases hv), h.ok.faultSlots⟩, h.cfg, h.bd, h.par,
    ((getDir_setDir ..).trans (if_neg (by decide))).trans h.tog⟩

end Work

theorem transmitSlot_ep0 (σ : State) : transmitSlot σ 0 = 2 ∨ transmitSlot σ 0 = 3 := by
  unfold transmitSlot
  generalize getDir σ.par 0 .tx = p
  revert p
  decide

section
variable {s : Slot} {σ : State} (h : EngineOk σ)
include h

theorem work_transmit {p : Word} {n : Count} (hp : inStore σ.cfg p n.toNat) : Work s σ (transmit 0 p n σ) where
  ok := h.transmit (.inl rfl) hp fun _ => transmitSlot_ep0 σ
  cfg := transmit_cfg ..
  bd t _ h2 h3 := by
    have hne : t ≠ transmitSlot σ 0 := by
      rcases transmitSlot_ep0 σ with e | e <;> rw [e] <;> assumption
    rw [bdWord_transmit h.configOk, bdPtr_transmit h.configOk, if_neg hne, if_neg hne]
    exact ⟨rfl, rfl⟩
  par := by
    rw [transmit_eq]
    exact (getDir_flipDir ..).trans (if_neg (by decide))
  tog := by
    rw [transmit_eq]
    exact (getDir_flipDir ..).trans (if_neg (by decide))

/-- An RX slot the ENGINE owns, given back with its own buffer (R181, R190, R252). -/
theorem work_arm {n : Count} (hs : rxSlot s = true) (ho : bdOwned σ s = false) (hn : n = rxSize σ.cfg s) (b : Bit) :
    Work s σ (arm s (bdPtr σ s) n b σ) where
  ok := by
    refine h.arm ?_ fun ho' => by rw [ho] at ho'; cases ho'
    rw [(h.slots s).rxPtr hs, hn]
    exact slotOk_armRx hs b
  cfg := arm_cfg ..
  bd t ht _ _ := by
    rw [bdWord_arm h.configOk, bdPtr_arm h.configOk, if_neg ht, if_neg ht]
    exact ⟨rfl, rfl⟩
  par := by rw [arm_par]
  tog := by rw [arm_tog]

theorem work_revoke {t : Slot} (ht : t = 2 ∨ t = 3) : Work s σ (revoke t σ) where
  ok := h.revoke (by rcases ht with rfl | rfl <;> rfl)
  cfg := rfl
  bd u _ h2 h3 := by
    obtain ⟨hw, hp⟩ := bd_of_slotWritten h.configOk (revoke_cfg ..) (slotWritten_revoke h.configOk t) u
    have hne : u ≠ t := by rcases ht with rfl | rfl <;> assumption
    rw [if_neg hne] at hw hp
    exact ⟨hw, hp⟩
  par := rfl
  tog := rfl

/-- SEND, of bytes of the store (R188). -/
theorem work_send {p : Word} {len : Half} (hp : inStore σ.cfg p len.toNat) : Work s σ (send p len σ) := by
  have first (hl : 8 ≤ len.toNat) : Work s σ (transmit 0 p 8 σ) := work_transmit h (inStore_shorter hp hl)
  by_cases h8 : len.toNat < 8
  · rw [send_short p h8]
    exact work_transmit h (inStore_shorter hp (by bv_omega))
  · have w := first (by omega)
    by_cases h16 : len.toNat < 16
    · rw [send_two p (by omega) h16]
      refine w.trans (work_transmit w.ok ?_)
      rw [w.cfg]
      exact inStore_part h.configOk hp (k := 8) (by bv_omega)
    · rw [send_more p (by omega)]
      have w' : Work s σ (transmit 0 (p + 8) 8 (transmit 0 p 8 σ)) := by
        refine w.trans (work_transmit w.ok ?_)
        rw [w.cfg]
        exact inStore_part h.configOk hp (k := 8) (m := 8) (by omega)
      exact w'.setCursor fun _ => inStore_part h.configOk hp (k := 16) (by bv_omega)

theorem work_statusStage : Work s σ (statusStage σ) :=
  (work_send h (p := 0) (len := 0) (.inl rfl)).update _ _ _ _

theorem work_reqUnsupported : Work s σ (reqUnsupported σ) := (Work.refl h).update _ _ _ _

theorem work_getDescriptor (v x l : Half) : Work s σ (getDescriptor v x l σ) := by
  unfold getDescriptor
  split
  · exact work_reqUnsupported h
  · next p len hl =>
    exact (work_send h (inStore_shorter (inStore_lookupDesc hl) (truncateLength_le len l))).update _ _ _ _

theorem work_setupRequest : Work s σ (setupRequest σ) := by
  unfold setupRequest
  split
  · exact work_statusStage h
  · exact work_statusStage h
  · exact work_getDescriptor h ..
  · exact work_getDescriptor h ..
  · exact work_reqUnsupported h

/-- The SETUP case, before the request (R181). -/
theorem work_openTransfer (hs : s = 0 ∨ s = 1) (ho : bdOwned σ s = false) :
    Work s σ (openTransfer s (bdPtr σ s) σ) := by
  have hrx : rxSlot s = true := by rcases hs with rfl | rfl <;> rfl
  have hsize : (8 : Count) = rxSize σ.cfg s := by rcases hs with rfl | rfl <;> rfl
  have w0 : Work s σ { σ with lastSetup := readSetup σ.cfg σ.mem (bdPtr σ s) } := (Work.refl h).update _ _ _ _
  have w1 := w0.trans (work_arm w0.ok hrx ho hsize 1)
  have w2 := w1.trans (work_revoke w1.ok (t := slotBits 0 1 0) (.inl rfl))
  have w3 := w2.trans (work_revoke w2.ok (t := slotBits 0 1 1) (.inr rfl))
  exact w3.openState .setupReceived

theorem work_ep0OnSetup (hs : s = 0 ∨ s = 1) (ho : bdOwned σ s = false) :
    Work s σ (ep0OnSetup s (bdPtr σ s) σ) :=
  (work_openTransfer h hs ho).trans (work_setupRequest (work_openTransfer h hs ho).ok)

/-- The next chunk of a transfer (R189). -/
theorem work_pushChunk : Work s σ (pushChunk σ) := by
  unfold pushChunk
  split
  · next hv =>
    have hp := h.cursorSource hv
    refine (work_transmit h (inStore_shorter hp (chunk_toNat_le _))).setCursor fun hv' => ?_
    by_cases h8 : σ.cur.len.toNat < 8
    · rw [cursorAfter_short h8] at hv'
      cases hv'
    · rw [cursorAfter_full (by omega)]
      exact inStore_part h.configOk hp (k := 8) (by bv_omega)
  · exact .refl h

theorem work_ep0OnIn : Work s σ (ep0OnIn σ) := ((work_pushChunk h).update _ _ _ _).update _ _ _ _

theorem work_ep0OnOut (hs : s = 0 ∨ s = 1) (ho : bdOwned σ s = false) : Work s σ (ep0OnOut s σ) := by
  have hrx : rxSlot s = true := by rcases hs with rfl | rfl <;> rfl
  have hsize : (8 : Count) = rxSize σ.cfg s := by rcases hs with rfl | rfl <;> rfl
  exact (work_arm h hrx ho hsize 1).update _ _ _ _

end

/-! ### The handlers of a completion -/

theorem callHandler_ep0 {v : Byte} (h : statEndp v = 0) (σ : State) : callHandler v σ = ep0Handler v σ := by
  unfold callHandler
  rw [h]
  rfl

theorem callHandler_ep1 {v : Byte} (h : statEndp v = 1) (σ : State) : callHandler v σ = ep1Handler v σ := by
  unfold callHandler
  rw [h]
  rfl

theorem bit_cases (b : Bit) : b = 0 ∨ b = 1 := by revert b; decide

theorem bit_ne_zero {b : Bit} (h : b ≠ 0) : b = 1 := (bit_cases b).resolve_left h

/-- Endpoint 0's handler (R180): a case of an RX completion gives back a slot the ENGINE owns; a TX completion is an IN
or no token. -/
theorem work_ep0Handler {σ : State} (h : EngineOk σ) {v : Byte} (hv : statEndp v = 0)
    (ho : statDir v = 0 → bdOwned σ (statSlot v) = false) : Work (statSlot v) σ (ep0Handler v σ) := by
  have hk := h.slots (statSlot v)
  have hslot : statSlot v = slotBits 0 (statDir v) (statOdd v) := by rw [statSlot_eq, hv]
  by_cases hd : statDir v = 0
  · have h01 : statSlot v = 0 ∨ statSlot v = 1 := by
      rw [hslot, hd]
      generalize statOdd v = p
      revert p
      decide
    unfold ep0Handler
    split
    · exact work_ep0OnSetup h h01 (ho hd)
    · exact work_ep0OnIn h
    · exact work_ep0OnOut h h01 (ho hd)
    · exact .refl h
  · have htx : txSlot (statSlot v) = true := by
      rw [hslot, bit_ne_zero hd]
      exact txSlot_slotBits (.inl rfl) _
    unfold ep0Handler
    rcases hk.txPid htx with hp | hp
    · rw [show (takeSlot σ (statSlot v)).1 = _ from hp, pidKind_tokPid]
      exact work_ep0OnIn h
    · rw [show (takeSlot σ (statSlot v)).1 = _ from hp]
      exact .refl h

/-- Endpoint 1's handler of an RX completion (R250, R252). -/
theorem work_ep1Handler_rx {σ : State} (h : EngineOk σ) {v : Byte} (hv : statEndp v = 1) (hd : statDir v = 0)
    (ho : bdOwned σ (statSlot v) = false) : Work (statSlot v) σ (ep1Handler v σ) := by
  have hslot : statSlot v = slotBits 1 0 (statOdd v) := by rw [statSlot_eq, hv, hd]
  have hrx : rxSlot (statSlot v) = true := by
    rw [hslot]
    exact rxSlot_slotBits (.inr rfl) _
  have hsize : BitVec.ofNat 10 σ.cfg.ep1RxSize = rxSize σ.cfg (statSlot v) := by
    rw [hslot]
    generalize statOdd v = p
    revert p
    have key : ∀ p : Bit, ((slotBits 1 0 p = 0 || slotBits 1 0 p = 1) = true) = False := by decide
    intro p
    simp only [rxSize, key, if_false]
  unfold ep1Handler
  split
  · next hp =>
    rw [pidKind_eq_some] at hp
    exact absurd hp ((h.slots _).rxPid hrx)
  · exact work_arm h hrx ho hsize 0
  · exact .refl h
  · exact .refl h

/-! ### Endpoint 1's IN case -/

section
variable {σ : State} (h : EngineOk σ) (h1 : ep1Sent σ)
include h1

/-- The report goes where the SIE looks next (R251, R312). -/
theorem transmitSlot_of_ep1Sent : transmitSlot σ 1 = ep1Slot (getDir σ.hwodd 1 .tx) := by
  obtain ⟨-, -, -, hpar, -⟩ := h1
  unfold transmitSlot
  rw [hpar]
  rfl

include h

theorem bd_ep1OnIn (t : Slot) :
    bdWord (ep1OnIn σ) t =
        (if t = ep1Slot (getDir σ.hwodd 1 .tx) then armWord 4 (getDir σ.tog 1 .tx) else bdWord σ t) ∧
      bdPtr (ep1OnIn σ) t = (if t = ep1Slot (getDir σ.hwodd 1 .tx) then σ.cfg.reportBase else bdPtr σ t) := by
  rw [← transmitSlot_of_ep1Sent h1]
  exact ⟨bdWord_transmit h.configOk .., bdPtr_transmit h.configOk ..⟩

theorem engineOk_ep1OnIn : EngineOk (ep1OnIn σ) := by
  have hslot := transmitSlot_of_ep1Sent h1
  obtain ⟨hfree, -⟩ := h1
  refine h.transmit (.inr rfl) (inStore_report _) fun ho => ?_
  rw [hslot, hfree] at ho
  cases ho

theorem bdOwned_ep1OnIn_rx {t : Slot} (ht : rxSlot t = true) : bdOwned (ep1OnIn σ) t = bdOwned σ t := by
  refine bdOwned_of_word_eq ((bd_ep1OnIn h h1 t).1.trans (if_neg ?_))
  rintro rfl
  exact not_txSlot ht (txSlot_slotBits (.inr rfl) _)

/-- Endpoint 1 with its report sent, and the completion served: the report is armed again (R251, R312). -/
theorem ep1Armed_ep1OnIn {vs : List Byte} (hq : vs.filter isEp1In = []) (istat dstatus : Byte) :
    ep1Armed { ep1OnIn σ with statFifo := vs, istat := istat, dstatus := dstatus } := by
  have hbd := bd_ep1OnIn h h1
  obtain ⟨-, hfree, -, hpar, htog, -⟩ := h1
  have hpar' : getDir (ep1OnIn σ).par 1 .tx = getDir σ.hwodd 1 .tx ^^^ 1 := by
    rw [ep1OnIn, transmit_eq, ← hpar]
    exact getDir_flipDir_same ..
  have htog' : getDir (ep1OnIn σ).tog 1 .tx = getDir σ.hwodd 1 .tx ^^^ 1 := by
    rw [ep1OnIn, transmit_eq, ← htog]
    exact getDir_flipDir_same ..
  have hhw : (ep1OnIn σ).hwodd = σ.hwodd := ep1OnIn_hwodd σ
  have hcfg : (ep1OnIn σ).cfg = σ.cfg := ep1OnIn_cfg σ
  generalize ep1OnIn σ = τ at *
  unfold ep1Armed
  dsimp only
  rw [hhw]
  refine ⟨?_, ?_, ?_, hpar', htog', hq⟩
  · exact (hbd _).1.trans ((if_pos rfl).trans (congrArg (armWord 4) htog))
  · exact (hbd _).2.trans ((if_pos rfl).trans (congrArg Config.reportBase hcfg.symm))
  · exact (bdOwned_of_word_eq ((hbd _).1.trans (if_neg (ep1Slot_flip_ne _)))).trans hfree

end

end Sys2Proof.Machine
end

section
/-! PROOF. Power-on meets `RunInv`, and every step of HOST or ENGINE keeps it. -/

namespace Sys2Proof.Machine

open Sys2Proof

/-! ### Reset -/

/-- The table's descriptors are in form (R44). -/
theorem slotOk_reset (c : Config) (s : Slot) : SlotOk c s (resetWord c s) (resetPtr c s) := by
  by_cases hr : rxSlot s = true
  · have hw : resetWord c s = armWord (rxSize c s) 0 := by
      simp only [rxSlot, Bool.or_eq_true, decide_eq_true_eq] at hr
      rcases hr with ((rfl | rfl) | rfl) | rfl <;> rfl
    rw [hw]
    exact slotOk_armRx hr 0
  · have hr' := hr
    simp only [rxSlot, Bool.or_eq_true, decide_eq_true_eq, not_or] at hr
    obtain ⟨⟨⟨h0, h1⟩, h4⟩, h5⟩ := hr
    rw [resetWord_eq, resetPtr_eq]
    simp only [h0, h1, h4, h5, or_self, if_false]
    by_cases h6 : s = 6 ∧ c.ep1Prime = .atReset
    · rw [if_pos h6, if_pos h6, h6.1]
      exact slotOk_armTx rfl (inStore_report c) 0
    · rw [if_neg h6, if_neg h6]
      exact slotOk_zero hr' fun _ => rfl

/-- After a reset endpoint 1 is primed, or silent (R44, R316). -/
theorem ep1_of_bdt {σ : State} (hbd : ∀ s, bdWord σ s = resetWord σ.cfg s ∧ bdPtr σ s = resetPtr σ.cfg s)
    (hh : σ.hwodd = Vector.replicate 16 DirPair.zero) (hp : σ.par = resetToggles σ.cfg)
    (ht : σ.tog = resetToggles σ.cfg) (hq : σ.statFifo = []) : Ep1InStep σ := by
  have hent : ep1InEntries σ = [] := by rw [ep1InEntries, hq]; rfl
  have h7 : bdOwned σ 7 = false := bdOwned_of_word_zero ((hbd 7).1.trans (resetWord_eq ..))
  cases hprime : σ.cfg.ep1Prime with
  | atReset =>
    have htog : getDir (resetToggles σ.cfg) 1 .tx = 1 :=
      (getDir_resetToggles ..).trans (if_pos ⟨rfl, rfl, hprime⟩)
    refine .inl ?_
    unfold ep1Armed
    rw [hh, getDir_zero, hp, ht, htog]
    refine ⟨?_, ?_, h7, rfl, rfl, hent⟩
    · exact ((hbd 6).1.trans (resetWord_eq ..)).trans (if_pos ⟨rfl, hprime⟩)
    · exact ((hbd 6).2.trans (resetPtr_eq ..)).trans (if_pos ⟨rfl, hprime⟩)
  | never =>
    have h6 : bdOwned σ 6 = false := by
      refine bdOwned_of_word_zero ((hbd 6).1.trans ((resetWord_eq ..).trans (if_neg ?_)))
      rw [hprime]
      exact fun h => by cases h.2
    exact .inr (.inr ⟨hprime, h6, h7, hent⟩)

/-- The power-on registers, over any memory whose BDT is the table's, meet the invariant of real runs. -/
theorem runInv_of_bdt {c : Config} (hc : ConfigOk c) {m : Memory} (hm : Memory.wf c m = true)
    (hbd : ∀ s, readBdWord c m s = resetWord c s ∧ readBdPtr c m s = resetPtr c s) {fs : List Fault}
    (hfs : ∀ f ∈ fs, f.slot = 2 ∨ f.slot = 3) (hfo : fs.Pairwise (fun f g => f.slot < g.slot)) {ts : List Turn}
    (hts : ∀ t ∈ ts, t.real = true) (r : Response) (x : OpResult) (n : Nat) :
    RunInv { State.powerOn c with
      mem := m, faults := fs, schedule := ts, response := r, result := x, freeCount := n } := by
  have hi := inv_powerOn c
  refine runInv_of_parts ?_ ⟨hc, fun s => ?_, fun hv => (by cases hv), hfs⟩ hts rfl (.inl (getEp_resetEndpt 0))
    (getEp_resetEndpt 1) ⟨?_, ?_, List.nodup_nil⟩ (ep1_of_bdt hbd rfl rfl rfl rfl)
  · exact ⟨hm, hi.tokdne, hi.error, hi.fifoLength, hi.statReserved, hi.istatReserved, hi.intenReserved,
      hi.errstatReserved, hi.endptReserved, hi.handshake, hi.cursor, hi.endptHigh, hi.latch, hi.latchReserved, hfo⟩
  · have h := slotOk_reset c s
    rw [← (hbd s).1, ← (hbd s).2] at h
    exact h
  · exact fun v hv => absurd hv List.not_mem_nil
  · exact fun v hv => absurd hv List.not_mem_nil

theorem runInv_powerOn {c : Config} (hc : ConfigOk c) : RunInv (State.powerOn c) :=
  runInv_of_bdt hc (wf_powerOnMemory c) (readBd_powerOnMemory hc) (fs := []) (fun _ h => by cases h) .nil (ts := [])
    (fun _ h => by cases h) .none .none 0

/-- The reset check with USBRST set (R221, R222). -/
theorem runInv_endRun_reinit {σ : State} (h : RunInv σ) : RunInv (endRun (reinit σ)) := by
  have hc := h.configOk
  have hbd (s : Slot) := bd_reinit hc s
  unfold bdWord bdPtr at hbd
  rw [reinit_cfg] at hbd
  rw [reinit_eq hc]
  exact runInv_of_bdt hc (wf_reinit h.base.memory) hbd h.faultSlots h.base.faultOrder h.schedule _ _ _

/-! ### The SIE -/

/-- EPSTALL cleared on one endpoint (R150). -/
theorem runInv_clearStall {σ : State} (h : RunInv σ) (e : Endp) : RunInv (clearStall e σ) := by
  have he (e' : Endp) : getEp (clearStall e σ).endpt e' =
      if e' = e then getEp σ.endpt e &&& 0x0D else getEp σ.endpt e' := by
    rw [clearStall_eq]
    exact getEp_setEp ..
  refine h.congr (inv_clearStall h.base e) rfl h.schedule ?_ ?_
  · rw [he]
    split
    · next h0 =>
      rw [← h0]
      rcases h.endpt0 with hx | hx <;> rw [hx] <;> decide
    · exact h.endpt0
  · rw [he]
    split
    · next h1 =>
      rw [← h1, h.endpt1]
      decide
    · exact h.endpt1

/-- Where ACCEPT ends the step. -/
theorem runInv_accept_ended {σ τ : State} {k : TokKind} {a : UsbAddr} {e : Endp} (h : RunInv σ)
    (ha : accept k a e σ = (τ, .ended)) : RunInv τ := by
  have hi := inv_of_accept_ended h.base ha
  obtain ⟨r, rfl | rfl | rfl⟩ := accept_ended ha
  · exact h.congr' hi rfl
  · exact h.congr' hi rfl
  · exact (runInv_clearStall h e).congr' hi rfl

/-- Only endpoints 0 and 1 are enabled (R43 e). -/
theorem endp_of_enabled {σ : State} (h : Inv σ) {e : Endp} {k : TokKind} (he : endptHas σ e (enableMask k) = true) :
    e = 0 ∨ e = 1 := by
  by_contra hn
  have h2 : 2 ≤ e.toNat := by bv_omega
  unfold endptHas at he
  rw [h.endptHigh e h2] at he
  cases k <;> cases he

/-- An RX slot's buffer is one of the four ranges. -/
theorem rxBuffer_mem (c : Config) {s : Slot} (hs : rxSlot s = true) :
    { base := (resetPtr c s).toNat, size := if s = 0 ∨ s = 1 then 8 else c.ep1RxSize } ∈ rxRegions c := by
  simp only [rxSlot, Bool.or_eq_true, decide_eq_true_eq] at hs
  rcases hs with ((rfl | rfl) | rfl) | rfl <;> simp [rxRegions, resetPtr]

theorem rxSize_toNat {c : Config} (hc : ConfigOk c) (s : Slot) :
    (rxSize c s).toNat = if s = 0 ∨ s = 1 then 8 else c.ep1RxSize := by
  have := ep1RxSize_le hc
  unfold rxSize
  simp only [Bool.or_eq_true, decide_eq_true_eq]
  split
  · rfl
  · rw [BitVec.toNat_ofNat]
    omega

/-- No byte of an RX buffer is one of the BDT (R66). -/
theorem rxBuffer_apart {c : Config} (hc : ConfigOk c) {s : Slot} (hs : rxSlot s = true) {n : Nat}
    (hn : n ≤ (rxSize c s).toNat) (t : Slot) {a : Word} (ha : inPacket (resetPtr c s) n a) : ¬ inSlot c t a := by
  intro hslot
  have hm := rxBuffer_mem c hs
  have hdis := bdt_rx_disjoint hc hm
  have hend := region_end_le hc (rxRegion_mem hm)
  have hin := inBdt_of_inSlot hc hslot
  rw [rxSize_toNat hc] at hn
  simp only [Region.disjoint, bdtRegion] at hdis hend
  unfold inPacket at ha
  unfold inBdt at hin
  bv_omega

/-- A packet stored in an RX slot's buffer leaves every descriptor alone. -/
theorem runInv_storeBytes {σ : State} (h : RunInv σ) {s : Slot} (hs : rxSlot s = true) {b : List Byte}
    (hb : b.length ≤ (rxSize σ.cfg s).toNat) :
    RunInv (storeBytes (bdPtr σ s) b σ) ∧ ∀ t, bdWord (storeBytes (bdPtr σ s) b σ) t = bdWord σ t := by
  have hp : bdPtr σ s = resetPtr σ.cfg s := h.rxPtr s hs
  have hbd (t : Slot) := bd_storeBytes (σ := σ) h.configOk (s := t) (bs := b) (p := bdPtr σ s) fun a ha =>
    rxBuffer_apart h.configOk hs hb t (hp ▸ ha)
  have ok := h.engineOk
  have q := h.queueOk
  have ho (t : Slot) : bdOwned (storeBytes (bdPtr σ s) b σ) t = bdOwned σ t := bdOwned_of_word_eq (hbd t).1
  refine ⟨runInv_of_parts (inv_storeBytes h.base ..) ⟨ok.configOk, fun t => ?_, ok.cursorSource, ok.faultSlots⟩
    h.schedule h.inten h.endpt0 h.endpt1 ⟨q.endpoints, fun v hv hd => (ho _).trans (q.rx v hv hd), q.rxOnce⟩
    (Ep1InStep.congr h.ep1 rfl (fun p => hbd _) rfl rfl rfl rfl), fun t => (hbd t).1⟩
  rw [(hbd t).1, (hbd t).2]
  exact ok.slots t

/-- The direction bit of the token's pair, and what it leaves in the slot (R151). -/
theorem slotOk_done {c : Config} {e : Endp} {k : TokKind} {w p : Word} {q : Bit} (he : e = 0 ∨ e = 1)
    (h : SlotOk c (slotBits e (dirBit (tokDir k)) q) w p) (n : Count) (b : Bit) :
    SlotOk c (slotBits e (dirBit (tokDir k)) q) (doneWord n b (tokPid k)) p := by
  cases k with
  | inTok => exact slotOk_doneTx (txSlot_slotBits he q) n b p
  | setup =>
    have hr := rxSlot_slotBits he q
    rw [h.rxPtr hr]
    exact slotOk_doneRx hr n b (by decide)
  | outTok =>
    have hr := rxSlot_slotBits he q
    rw [h.rxPtr hr]
    exact slotOk_doneRx hr n b (by decide)

/-- A completion of another endpoint or direction is none of endpoint 1's IN side. -/
theorem ep1InEntries_append (fifo : List Byte) {e : Endp} {d p : Bit} (h : ¬ (e = 1 ∧ d = 1)) :
    (fifo ++ [statWord e d p]).filter isEp1In = fifo.filter isEp1In := by
  rw [List.filter_append, List.filter_cons_of_neg (by simpa [isEp1In] using h), List.filter_nil, List.append_nil]

/-- A slot that COMPLETE wrote is the ENGINE's (R151). -/
theorem bdOwned_complete {σ : State} (hc : ConfigOk σ.cfg) (e : Endp) (d : Dir) (n : Count) (k : TokKind) :
    bdOwned (complete e d n k σ) (sieSlot σ e d) = false := by
  have hw := (bd_of_slotWritten hc (complete_cfg ..) (slotWritten_complete hc e d n k) (sieSlot σ e d)).1
  rw [if_pos rfl] at hw
  unfold bdOwned
  rw [hw, wordOwn_doneWord]
  rfl

/-- Where the SIE owns the slot it uses next, endpoint 1's report is armed there (R312). -/
theorem ep1Armed_of_owned {σ : State} (h : Ep1InStep σ) (ho : bdOwned σ (ep1Slot (getDir σ.hwodd 1 .tx)) = true) :
    ep1Armed σ := by
  rcases h with harm | ⟨hfree, -⟩ | ⟨-, h0, h1, -⟩
  · exact harm
  · rw [hfree] at ho
    cases ho
  · rcases bit_cases (getDir σ.hwodd 1 .tx) with hp | hp <;> rw [hp] at ho
    · rw [h0] at ho; cases ho
    · rw [h1] at ho; cases ho

/-- The IN token of endpoint 1 takes it from armed to sent (R151, R312). -/
theorem ep1Sent_complete {σ : State} (hc : ConfigOk σ.cfg) (h : ep1Armed σ) (n : Count) :
    ep1Sent (complete 1 .tx n .inTok σ) := by
  have hbd (t : Slot) := (bd_of_slotWritten hc (complete_cfg ..) (slotWritten_complete hc 1 .tx n .inTok) t).1
  have hhw : (complete 1 .tx n .inTok σ).hwodd = flipDir σ.hwodd 1 .tx := rfl
  obtain ⟨-, -, hfree, hpar, htog, hq⟩ := h
  unfold ep1Sent
  dsimp only
  rw [hhw, getDir_flipDir_same, xor_one_xor_one]
  refine ⟨?_, bdOwned_complete hc 1 .tx n .inTok, ?_, hpar, htog, ?_⟩
  · exact (bdOwned_of_word_eq ((hbd _).trans (if_neg (ep1Slot_flip_ne _)))).trans hfree
  · rw [show ep1Slot (getDir σ.hwodd 1 .tx) = sieSlot σ 1 .tx from rfl, hbd, if_pos rfl, wordPid_doneWord]
  · rw [ep1InEntries_eq] at hq ⊢
    rw [complete_eq]
    dsimp only
    rw [List.filter_append, hq, List.nil_append, List.filter_cons_of_pos (by simp [isEp1In, dirBit]), List.filter_nil]
    rfl

/-- COMPLETE leaves endpoint 1 in step. -/
theorem ep1_complete {σ : State} (h : RunInv σ) {e : Endp} {k : TokKind} (n : Count)
    (ho : bdOwned σ (sieSlot σ e (tokDir k)) = true) : Ep1InStep (complete e (tokDir k) n k σ) := by
  by_cases h1 : e = 1 ∧ dirBit (tokDir k) = 1
  · obtain ⟨rfl, hd⟩ := h1
    cases k with
    | inTok => exact .inr (.inl (ep1Sent_complete h.configOk (ep1Armed_of_owned h.ep1 ho) n))
    | setup => cases hd
    | outTok => cases hd
  · have hne (p : Bit) : ep1Slot p ≠ sieSlot σ e (tokDir k) := by
      unfold ep1Slot sieSlot
      rw [Ne, slotBits_inj]
      exact fun hx => h1 ⟨hx.1.symm, hx.2.1.symm⟩
    refine Ep1InStep.congr h.ep1 (complete_cfg ..) (fun p => ?_) ?_ rfl rfl (ep1InEntries_append _ h1)
    · have hp := bd_of_slotWritten h.configOk (complete_cfg ..) (slotWritten_complete h.configOk e (tokDir k) n k)
        (ep1Slot p)
      rwa [if_neg (hne p), if_neg (hne p)] at hp
    · exact (getDir_flipDir ..).trans (if_neg fun hx => h1 ⟨hx.1.symm, by rw [← hx.2]; rfl⟩)

/-- COMPLETE of a token that ACCEPT let through (R151). -/
theorem runInv_complete {σ : State} (h : RunInv σ) {e : Endp} {k : TokKind} (n : Count) (he : e = 0 ∨ e = 1)
    (hroom : σ.statFifo.length < statFifoDepth) (ho : bdOwned σ (sieSlot σ e (tokDir k)) = true) :
    RunInv (complete e (tokDir k) n k σ) := by
  have ok := h.engineOk
  have hw := slotWritten_complete h.configOk e (tokDir k) n k
  have hbd (t : Slot) := (bd_of_slotWritten h.configOk (complete_cfg ..) hw t).1
  refine runInv_of_parts (inv_complete h.base hroom ..) ⟨ok.configOk, ?_, ok.cursorSource, ok.faultSlots⟩ h.schedule
    h.inten h.endpt0 h.endpt1 ?_ (ep1_complete h n ho)
  · exact slotsOk_write h.configOk ok.slots rfl hw (slotOk_done he (ok.slots _) ..)
  · exact h.queueOk.push he ho rfl (fun t ht => bdOwned_of_word_eq ((hbd t).trans (if_neg ht)))
      (bdOwned_complete h.configOk ..)

/-- A packet received on an armed RX slot (R152, R154). -/
theorem runInv_received {σ : State} (h : RunInv σ) {e : Endp} {k : TokKind} (hk : tokDir k = .rx) (n : Count)
    (he : e = 0 ∨ e = 1) (hroom : σ.statFifo.length < statFifoDepth) (ho : bdOwned σ (sieSlot σ e .rx) = true)
    {b : List Byte} (hb : b.length ≤ (wordBC (bdWord σ (sieSlot σ e .rx))).toNat) : RunInv (received e n k b σ) := by
  have hrx : rxSlot (sieSlot σ e .rx) = true := rxSlot_slotBits he _
  rw [h.rxCount _ hrx ho] at hb
  obtain ⟨hst, hword⟩ := runInv_storeBytes h hrx hb
  have hc := runInv_complete (k := k) hst n he hroom (by
    rw [hk]
    exact (bdOwned_of_word_eq (hword _)).trans ho)
  rw [hk] at hc
  exact hc.congr' (inv_received h.base hroom ..) rfl

/-- Every HOST event keeps the invariant of real runs. -/
theorem runInv_exec_event {i : Instr} {σ τ : State} (hi : i.isHostEvent = true) (h : RunInv σ)
    (hx : exec i σ = .next τ) : RunInv τ := by
  have hb : Inv τ := inv_exec h.base hx
  match i, hi with
  | .tokOut a e t b, _ =>
    rcases execTokOut_cases hx with ha | ⟨⟨-, hen, -, -, hroom, ho⟩, rfl | ⟨hlen, rfl⟩⟩
    · exact runInv_accept_ended h ha
    · exact h.congr' hb rfl
    · exact runInv_received h rfl _ (endp_of_enabled h.base hen) hroom ho hlen
  | .tokIn a e hs, _ =>
    rcases execTokIn_cases hx with ha | ⟨⟨-, hen, -, -, hroom, ho⟩, rfl | rfl⟩
    · exact runInv_accept_ended h ha
    · exact (runInv_complete (k := .inTok) h _ (endp_of_enabled h.base hen) hroom ho).congr' hb rfl
    · exact h.congr' hb rfl
  | .tokSetup a e b, _ =>
    rcases execTokSetup_cases hx with ha | ⟨⟨-, hen, -, -, hroom, ho⟩, hlen, rfl⟩
    · exact runInv_accept_ended h ha
    · exact runInv_received (runInv_clearStall h e) rfl _ (endp_of_enabled h.base hen) hroom ho hlen
  | .tokSof, _ => cases hx; exact h.congr' hb rfl
  | .busReset, _ => cases hx; exact h.congr' hb rfl
  | .busError k, _ => cases hx; exact h.congr' hb rfl
  | .busSleep, _ => cases hx; exact h.congr' hb rfl

/-! ### The drain iteration -/

/-- What the handler of the FIFO's head leaves of the parts, and endpoint 1 with the head removed. -/
structure HeadServed (v : Byte) (vs : List Byte) (σ τ : State) : Prop where
  ok : EngineOk τ
  rx : ∀ t, rxSlot t = true → t ≠ statSlot v → bdOwned τ t = bdOwned σ t
  ep1 : ∀ istat dstatus, Ep1InStep { τ with statFifo := vs, istat := istat, dstatus := dstatus }

/-- Work on other slots than endpoint 1's TX pair, for a completion that is none of its IN side. -/
theorem headServed_of_work {v : Byte} {vs : List Byte} {σ τ : State} (h : RunInv σ) (hf : σ.statFifo = v :: vs)
    (hv : ¬ (statEndp v = 1 ∧ statDir v = 1)) (hw : τ.hwodd = σ.hwodd) (w : Work (statSlot v) σ τ) :
    HeadServed v vs σ τ where
  ok := w.ok
  rx t ht hne := by
    refine bdOwned_of_word_eq (w.bd t hne ?_ ?_).1 <;> rintro rfl <;> cases ht
  ep1 istat dstatus := by
    refine Ep1InStep.congr h.ep1 w.cfg (fun p => ?_) (congrArg (getDir · 1 .tx) hw) w.par w.tog ?_
    · refine w.bd (ep1Slot p) ?_ ?_ ?_
      · rw [statSlot_eq]
        unfold ep1Slot
        rw [Ne, slotBits_inj]
        exact fun hx => hv ⟨hx.1.symm, hx.2.1.symm⟩
      · revert p; decide
      · revert p; decide
    · rw [ep1InEntries_eq, ep1InEntries_eq, hf, List.filter_cons_of_neg (mt isEp1In_iff.mp hv)]

/-- A completion of endpoint 1's IN side means that the report was sent, and it is the only one (R312). -/
theorem ep1Sent_of_head {v : Byte} {vs : List Byte} {σ : State} (h : Ep1InStep σ) (hf : σ.statFifo = v :: vs)
    (hv : isEp1In v = true) :
    ep1Sent σ ∧ v = statWord 1 1 (getDir σ.hwodd 1 .tx ^^^ 1) ∧ vs.filter isEp1In = [] := by
  have hq : ep1InEntries σ = v :: vs.filter isEp1In := by rw [ep1InEntries_eq, hf, List.filter_cons_of_pos hv]
  rcases h with ⟨-, -, -, -, -, hnone⟩ | hsent | ⟨-, -, -, hnone⟩
  · rw [hnone] at hq
    cases hq
  · have hone := hsent
    obtain ⟨-, -, -, -, -, hone⟩ := hone
    rw [hone, List.cons.injEq] at hq
    exact ⟨hsent, hq.1.symm, hq.2.symm⟩
  · rw [hnone] at hq
    cases hq

/-- Endpoint 1's IN completion at the head (R250, R251). -/
theorem headServed_ep1In {v : Byte} {vs : List Byte} {σ : State} (h : RunInv σ) (hf : σ.statFifo = v :: vs)
    (hv : isEp1In v = true) : HeadServed v vs σ (callHandler v σ) := by
  have ok := h.engineOk
  obtain ⟨hsent, hword, hnone⟩ := ep1Sent_of_head h.ep1 hf hv
  have hpid : (takeSlot σ (statSlot v)).1 = tokPid .inTok := by
    obtain ⟨-, -, hpid, -⟩ := hsent
    rw [hword, statSlot_statWord]
    exact hpid
  have hcall : callHandler v σ = ep1OnIn σ := by
    rw [callHandler_ep1 (isEp1In_iff.mp hv).1, ep1Handler, hpid, pidKind_tokPid]
  rw [hcall]
  exact ⟨engineOk_ep1OnIn ok hsent, fun t ht _ => bdOwned_ep1OnIn_rx ok hsent ht,
    fun _ _ => .inl (ep1Armed_ep1OnIn ok hsent hnone _ _)⟩

/-- The handler of the FIFO's head, whichever endpoint and direction it names (R225, R228). -/
theorem headServed {v : Byte} {vs : List Byte} {σ : State} (h : RunInv σ) (hf : σ.statFifo = v :: vs) :
    HeadServed v vs σ (callHandler v σ) := by
  by_cases hv : isEp1In v = true
  · exact headServed_ep1In h hf hv
  · rw [isEp1In_iff] at hv
    refine headServed_of_work h hf hv (callHandler_hwodd v σ) ?_
    have hmem : v ∈ σ.statFifo := hf ▸ List.mem_cons_self
    have hfree : statDir v = 0 → bdOwned σ (statSlot v) = false := h.fifoRx v hmem
    rcases h.fifoEndpoints v hmem with he | he
    · rw [callHandler_ep0 he]
      exact work_ep0Handler h.engineOk he hfree
    · have hd : statDir v = 0 := (bit_cases _).resolve_right fun hd => hv ⟨he, hd⟩
      rw [callHandler_ep1 he]
      exact work_ep1Handler_rx h.engineOk he hd (hfree hd)

/-- A handler sets at most endpoint 0's EPSTALL (R187). -/
theorem EngineKeeps.endpt01 {σ τ : State} (k : EngineKeeps σ τ) (h : RunInv σ) :
    (getEp τ.endpt 0 = endptEnabled ∨ getEp τ.endpt 0 = endptEnabled ||| epstall) ∧
      getEp τ.endpt 1 = endptEnabled := by
  constructor
  · rcases k.endpt 0 with h0 | ⟨-, h0⟩ <;> rw [h0]
    · exact h.endpt0
    · rcases h.endpt0 with hx | hx <;> rw [hx] <;> decide
  · rcases k.endpt 1 with h1 | ⟨hx, -⟩
    · rw [h1]
      exact h.endpt1
    · cases hx

/-- One drain iteration (R225). -/
theorem runInv_drainOne {σ : State} (h : RunInv σ) (hl : latched .tokdne σ = true) : RunInv (drainOne σ) := by
  obtain ⟨v, vs, hf⟩ := List.exists_cons_of_ne_nil (h.base.latch hl)
  have hi := inv_drainOne h.base
  have k := engineKeeps_served σ
  have hserved : served σ = callHandler v σ := by
    unfold served readStat
    rw [hf]
  obtain ⟨hok, hrx, hep1⟩ := headServed h hf
  rw [← hserved] at hok hrx hep1
  obtain ⟨h0, h1⟩ := k.endpt01 h
  rw [drainOne_eq, hf, List.tail_cons] at hi ⊢
  refine runInv_of_parts hi ⟨hok.configOk, hok.slots, hok.cursorSource, hok.faultSlots⟩ (k.schedule ▸ h.schedule)
    (k.inten.trans h.inten) h0 h1 (h.queueOk.pop h.base.statReserved hf rfl hrx) (hep1 ..)

/-! ### The phases, and the step -/

theorem runInv_enterRun {σ : State} (h : RunInv σ) : RunInv (enterRun σ) := h.congr' (inv_enterRun h.base) rfl

theorem runInv_setPhase {σ : State} (h : RunInv σ) (p : Dph) : RunInv (setPhase p σ) :=
  h.congr' (inv_setPhase h.base p) rfl

/-- D_STALL leaves endpoint 0 enabled and not stalled, or as it was (R227). -/
theorem runInv_irqStall {σ : State} (h : RunInv σ) : RunInv (irqStall σ) := by
  have hi := inv_irqStall h.base
  refine h.congr hi ?_ ?_ ?_ ?_
  · unfold irqStall
    split <;> rfl
  · rw [irqStall_schedule]
    exact h.schedule
  · rcases irqStall_endpt σ 0 with he | he <;> rw [he]
    · exact h.endpt0
    · rcases h.endpt0 with hx | hx <;> rw [hx] <;> decide
  · rcases irqStall_endpt σ 1 with he | he <;> rw [he, h.endpt1]
    decide

/-- Every phase keeps the invariant of real runs. -/
theorem runInv_exec_phase {p : Dph} {σ τ : State} (h : RunInv σ) (hx : exec (phaseInstr p) σ = .next τ) : RunInv τ := by
  have hb : Inv τ := inv_exec h.base hx
  cases p with
  | idle =>
    cases hx
    rcases irqUsbrst_cases σ with ⟨-, e⟩ | ⟨-, e⟩ <;> rw [e]
    · exact runInv_endRun_reinit (runInv_enterRun h)
    · exact runInv_setPhase (runInv_enterRun h) _
  | err =>
    cases hx
    refine h.congr' hb ?_
    unfold irqError
    split <;> rfl
  | sof =>
    cases hx
    refine h.congr' hb ?_
    unfold irqSoftok
    split <;> rfl
  | tok =>
    cases hx
    rcases irqTokdne_cases σ with ⟨hl, e⟩ | ⟨-, e⟩ <;> rw [e]
    · exact runInv_setPhase (runInv_drainOne h hl) _
    · exact runInv_setPhase h _
  | sleep =>
    cases hx
    refine h.congr' hb ?_
    unfold irqSleep
    split <;> rfl
  | stall =>
    cases hx
    exact runInv_irqStall h

/-- A turn taken leaves only real turns. -/
theorem runInv_beginTurn {σ : State} (h : RunInv σ) {rest : List Turn} (hr : ∀ t ∈ rest, t.real = true) :
    RunInv (beginTurn rest σ) :=
  h.congr (inv_beginTurn h.base rest) rfl hr h.endpt0 h.endpt1

/-- Every step of a real run keeps its invariant. -/
theorem runInv_step {σ τ : State} (h : RunInv σ) (hx : step σ = .next τ) : RunInv τ := by
  have tail {t : Turn} {rest : List Turn} (hs : σ.schedule = t :: rest) : ∀ u ∈ rest, u.real = true := fun u hu =>
    h.schedule u (hs ▸ List.mem_cons_of_mem t hu)
  have engine {rest : List Turn} (hs : engineTurn σ rest) : ∀ u ∈ rest, u.real = true := by
    rcases hs with hs | ⟨-, rfl⟩
    · exact tail hs
    · exact fun _ hu => by cases hu
  obtain ⟨-, ⟨bs, more, rest, i, hs, -, hi, hx⟩ | ⟨bs, more, rest, i, hs, -, -⟩ | ⟨rest, hs, -, hx⟩ |
    ⟨rest, hs, -, rfl⟩⟩ := step_cases hx
  · exact runInv_exec_event hi (runInv_beginTurn h (tail hs)) hx
  · have := h.schedule (.call bs) (hs ▸ List.mem_cons_self)
    cases this
  · exact runInv_exec_phase (runInv_beginTurn h (engine hs)) hx
  · exact runInv_beginTurn h (engine hs)

end Sys2Proof.Machine

open Sys2Proof.Machine

/-- Settles O9: the table's descriptors are in form, and endpoint 1 is primed or silent. -/
theorem powerOnMeetsRunInv : Obligations.PowerOnMeetsRunInv := fun _ => runInv_powerOn

/-- Settles O10: a token completes a slot the SIE owns; a drain iteration serves the head, and gives back only its slot
or arms bytes of the store; a reset leaves the power-on table. -/
theorem stepKeepsRunInv : Obligations.StepKeepsRunInv := fun _ _ => runInv_step
end

section
/-! PROOF. Decoding an encoded operation gives it back: one rule per operand field, one per decode point. -/

namespace Sys2Proof.Machine

open Sys2Proof

/-! ### Operand fields -/

/-- A field of `n` bits, written as one byte, fits and is read back. -/
@[simp] theorem fits_setWidth {n : Nat} (x : BitVec n) (h : n ≤ 8) : fits (x.setWidth 8) n = true := by
  simp only [fits, decide_eq_true_eq, BitVec.toNat_setWidth_of_le h]
  exact x.isLt

@[simp] theorem handshakeOf_handshakeByte (hs : Handshake) : handshakeOf (handshakeByte hs) = some hs := by
  cases hs <;> rfl

@[simp] theorem linkErrorOf_linkErrorByte (k : LinkError) : linkErrorOf (linkErrorByte k) = some k := by
  cases k <;> rfl

/-- The slot operand is handed on, when the case admits it. -/
@[simp] theorem decodeSlot_setWidth (allowed : Slot → Bool) (k : Slot → List Byte → Decoded) (s : Slot)
    (r : List Byte) :
    decodeSlot allowed k (s.setWidth 8 :: r) = if allowed s then k s r else .error .operandRange := by
  simp [decodeSlot]

@[simp] theorem decodeWord_wordBytes (k : Word → List Byte → Decoded) (w : Word) (r : List Byte) :
    decodeWord k (wordBytes w ++ r) = k w r := by
  simp [wordBytes, decodeWord, wordOf_wordBytes]

/-! ### Decode point 1: tokens and bus conditions (R94, R105) -/

theorem decodeTokOut_record {b : List Byte} (a : UsbAddr) (e : Endp) (t : Bit) (r : List Byte) (h : b.length ≤ 1023) :
    decodeTokOut (a.setWidth 8 :: e.setWidth 8 :: t.setWidth 8 ::
      (halfBytes (BitVec.ofNat 16 b.length) ++ (b ++ r))) = .ok (.tokOut a e t b, r) := by
  have hlen : b.length % 65536 = b.length := Nat.mod_eq_of_lt (by omega)
  simp [decodeTokOut, halfBytes, halfOf_halfBytes, hlen, h]

theorem decodeTokIn_record (a : UsbAddr) (e : Endp) (hs : Handshake) (r : List Byte) :
    decodeTokIn (a.setWidth 8 :: e.setWidth 8 :: handshakeByte hs :: r) = .ok (.tokIn a e hs, r) := by
  simp [decodeTokIn]

theorem decodeTokSetup_record {b : List Byte} (a : UsbAddr) (e : Endp) (r : List Byte) (h : b.length = 8) :
    decodeTokSetup (a.setWidth 8 :: e.setWidth 8 :: (b ++ r)) = .ok (.tokSetup a e b, r) := by
  match b, h with
  | [b0, b1, b2, b3, b4, b5, b6, b7], _ => simp [decodeTokSetup]

theorem decodeBus_linkError (k : LinkError) (r : List Byte) :
    decodeBus (0x02 :: linkErrorByte k :: r) = .ok (.busError k, r) := by
  simp [decodeBus]

/-! ### Decode point 3: handlers (R95, R228) -/

theorem decodeHandler_ep0 (d p : Bit) (r : List Byte) :
    decodeHandler (statWord 0 d p :: r) = .ok (.ep0Handler d p, r) := by
  simp [decodeHandler, handlerInstr, handlerTable]

theorem decodeHandler_ep1 (d p : Bit) (r : List Byte) :
    decodeHandler (statWord 1 d p :: r) = .ok (.ep1Handler d p, r) := by
  simp [decodeHandler, handlerInstr, handlerTable]

theorem decodeHandler_default {e : Endp} (d p : Bit) (r : List Byte) (h : handlerTable e = .default) :
    decodeHandler (statWord e d p :: r) = .ok (.defaultHandler e d p, r) := by
  simp [decodeHandler, handlerInstr, h]

/-! ### Decode point 4: cases of the handlers (R92, R94) -/

theorem decodeEp0Case_setup {s : Slot} (bc : Count) (t : Bit) (ptr : Word) (r : List Byte)
    (h : (s = 0 || s = 1) = true) :
    decodeEp0Case (wordBytes (doneWord bc t (tokPid .setup)) ++ s.setWidth 8 :: (wordBytes ptr ++ r)) =
      .ok (.ep0OnSetup bc t s ptr, r) := by
  simpa [decodeEp0Case, or_iff_not_imp_left] using h

theorem decodeEp0Case_in (r : List Byte) :
    decodeEp0Case (wordBytes (doneWord 0 0 (tokPid .inTok)) ++ r) = .ok (.ep0OnIn, r) := by
  simp [decodeEp0Case]

theorem decodeEp0Case_out {s : Slot} (r : List Byte) (h : (s = 0 || s = 1) = true) :
    decodeEp0Case (wordBytes (doneWord 0 0 (tokPid .outTok)) ++ s.setWidth 8 :: r) = .ok (.ep0OnOut s, r) := by
  simpa [decodeEp0Case, or_iff_not_imp_left] using h

theorem decodeEp0Case_other {pid : PidCode} (bc : Count) (own t : Bit) (r : List Byte) (h : pidKind pid = none) :
    decodeEp0Case (wordBytes (bdWordOf bc own t pid) ++ r) = .ok (.ep0OnOther bc own t pid, r) := by
  simp [decodeEp0Case, h]

theorem decodeEp1Case_in (r : List Byte) :
    decodeEp1Case (wordBytes (doneWord 0 0 (tokPid .inTok)) ++ r) = .ok (.ep1OnIn, r) := by
  simp [decodeEp1Case]

theorem decodeEp1Case_out {s : Slot} (r : List Byte) (h : (s = 4 || s = 5) = true) :
    decodeEp1Case (wordBytes (doneWord 0 0 (tokPid .outTok)) ++ s.setWidth 8 :: r) = .ok (.ep1OnOut s, r) := by
  simpa [decodeEp1Case, or_iff_not_imp_left] using h

theorem decodeEp1Case_other {pid : PidCode} (bc : Count) (own t : Bit) (r : List Byte)
    (h : pidKind pid = none ∨ pidKind pid = some .setup) :
    decodeEp1Case (wordBytes (bdWordOf bc own t pid) ++ r) = .ok (.ep1OnOther bc own t pid, r) := by
  rcases h with h | h <;> simp [decodeEp1Case, h]

/-! ### Decode points 5 and 6: requests and LOOKUP (R100, R102) -/

theorem decodeRequest_packetBytes (rt v i l : Half) (r : List Byte) :
    decodeRequest (packetBytes rt v i l ++ r) = .ok (requestInstr rt v i l, r) := by
  simp [packetBytes, halfBytes, decodeRequest, halfOf_halfBytes]

theorem decodeRequest_unsupported {rt : Half} (v i l : Half) (r : List Byte) (h : requestKind rt = .unsupported) :
    decodeRequest (packetBytes rt v i l ++ r) = .ok (.reqUnsupported rt v i l, r) := by
  simp [decodeRequest_packetBytes, requestInstr, h]

theorem decodeLookup_record (v i : Half) (r : List Byte) :
    decodeLookup (halfBytes v ++ halfBytes i ++ r) = .ok (.lookup v i, r) := by
  simp [halfBytes, decodeLookup, halfOf_halfBytes]

/-! ### Operations invoked by name -/

theorem decodeIndexFor_slotBits (e : Endp) (d : Dir) (p : Bit) (r : List Byte) :
    decodeIndexFor ((slotBits e (dirBit d) p).setWidth 8 :: r) = .ok (.indexFor e d p, r) := by
  simp [decodeIndexFor]

theorem decodeArm_armWord (s : Slot) (ptr : Word) (c : Count) (t : Bit) (r : List Byte) :
    decodeArm (wordBytes (armWord c t) ++ s.setWidth 8 :: (wordBytes ptr ++ r)) = .ok (.arm s ptr c t, r) := by
  simp [decodeArm]

theorem decodeRevoke_zero (s : Slot) (r : List Byte) :
    decodeRevoke (wordBytes 0 ++ s.setWidth 8 :: r) = .ok (.revoke s, r) := by
  simp [decodeRevoke]

theorem decodeTransmit_armWord (e : Endp) (ptr : Word) (c : Count) (r : List Byte) :
    decodeTransmit (wordBytes (armWord c 0) ++ e.setWidth 8 :: (wordBytes ptr ++ r)) = .ok (.transmit e ptr c, r) := by
  simp [decodeTransmit]

theorem decodeSend_record (p : Word) (len : Half) (r : List Byte) :
    decodeSend (wordBytes p ++ (halfBytes len ++ r)) = .ok (.send p len, r) := by
  simp [decodeSend, halfBytes, halfOf_halfBytes]

theorem decodeAccept_record (k : TokKind) (a : UsbAddr) (e : Endp) (r : List Byte) :
    decodeAccept ((tokPid k).setWidth 8 :: a.setWidth 8 :: e.setWidth 8 :: r) = .ok (.accept k a e, r) := by
  simp [decodeAccept]

theorem decodeComplete_doneWord (e : Endp) (d : Dir) (n : Count) (k : TokKind) (r : List Byte) :
    decodeComplete (wordBytes (doneWord n 0 (tokPid k)) ++ e.setWidth 8 :: (dirBit d).setWidth 8 :: r) =
      .ok (.complete e d n k, r) := by
  simp [decodeComplete]

/-! ### The record of every operation -/

/-- The byte in front of a record picks the decoder of its decode point, and that decoder reads the record back. -/
theorem decode_encode {i : Instr} (rest : List Byte) (h : i.wf = true) : decode (encode i ++ rest) = .ok (i, rest) := by
  cases i with
  | tokSof | busReset | busSleep | irqUsbrst | reinit | irqError | irqSoftok | irqTokdne | irqSleep | irqStall
  | setupRequest | ep0Stall => rfl
  | tokOut a e t b =>
    rw [← decodeTokOut_record a e t rest (of_decide_eq_true h), ← List.append_assoc]
    rfl
  | tokIn a e hs => exact decodeTokIn_record a e hs rest
  | tokSetup a e b => exact decodeTokSetup_record a e rest (of_decide_eq_true h)
  | busError k => exact decodeBus_linkError k rest
  | ep0Handler d p => exact decodeHandler_ep0 d p rest
  | ep1Handler d p => exact decodeHandler_ep1 d p rest
  | defaultHandler e d p => exact decodeHandler_default d p rest (of_decide_eq_true h)
  | ep0OnSetup bc t s ptr => exact decodeEp0Case_setup bc t ptr rest h
  | ep0OnIn => exact decodeEp0Case_in rest
  | ep0OnOut s => exact decodeEp0Case_out rest h
  | ep0OnOther bc own t pid => exact decodeEp0Case_other bc own t rest (of_decide_eq_true h)
  | ep1OnIn => exact decodeEp1Case_in rest
  | ep1OnOut s => exact decodeEp1Case_out rest h
  | ep1OnOther bc own t pid => exact decodeEp1Case_other bc own t rest (by simpa [Instr.wf] using h)
  | setAddress v i l => exact decodeRequest_packetBytes 0x0500 v i l rest
  | setConfiguration v i l => exact decodeRequest_packetBytes 0x0900 v i l rest
  | getDescriptorDev v i l => exact decodeRequest_packetBytes 0x0680 v i l rest
  | getDescriptorIf v i l => exact decodeRequest_packetBytes 0x0681 v i l rest
  | reqUnsupported rt v i l => exact decodeRequest_unsupported v i l rest (of_decide_eq_true h)
  | lookup v i => exact decodeLookup_record v i rest
  | indexFor e d p => exact decodeIndexFor_slotBits e d p rest
  | arm s ptr c t => exact decodeArm_armWord s ptr c t rest
  | pidOf s => exact decodeSlot_setWidth (fun _ => true) (fun s r => .ok (.pidOf s, r)) s rest
  | take s => exact decodeSlot_setWidth (fun _ => true) (fun s r => .ok (.take s, r)) s rest
  | revoke s => exact decodeRevoke_zero s rest
  | transmit e ptr c => exact decodeTransmit_armWord e ptr c rest
  | send p len => exact decodeSend_record p len rest
  | accept k a e => exact decodeAccept_record k a e rest
  | complete e d n k => exact decodeComplete_doneWord e d n k rest

end Sys2Proof.Machine

open Sys2Proof.Machine

/-- Settles O1: the decoder runs on the seven records. -/
theorem specWordsDecode : Obligations.SpecWordsDecode := by
  unfold Obligations.SpecWordsDecode
  decide

/-- Settles O2, by the decode point of each operation's record. -/
theorem decodeEncode : Obligations.DecodeEncode := fun _ rest h => decode_encode rest h
end

section
/-! PROOF. What the decoder answers is well formed, and it hands back the end of its input. -/

namespace Sys2Proof.Machine

open Sys2Proof

/-! ### Answers a decoder may give -/

/-- An answer of a decoder to the bytes `bs`: an operation it names is well formed, and the bytes it hands back are the
end of `bs`. -/
def Admits (o : Decoded) (bs : List Byte) : Prop :=
  ∀ i rest, o = .ok (i, rest) → i.wf = true ∧ rest <:+ bs

namespace Admits

variable {o o' : Decoded} {bs r : List Byte}

theorem ok {i : Instr} (h : i.wf = true) (hr : r <:+ bs := by simp [List.suffix_cons_iff]) :
    Admits (.ok (i, r)) bs := by
  rintro _ _ ⟨⟩
  exact ⟨h, hr⟩

theorem error {e : DecodeError} : Admits (.error e) bs := nofun

/-- The guard of the first branch holds there. -/
theorem ite {c : Prop} [Decidable c] (h : c → Admits o bs) (h' : Admits o' bs) : Admits (if c then o else o') bs := by
  split
  · exact h ‹c›
  · exact h'

theorem of_suffix (h : Admits o r) (hr : r <:+ bs) : Admits o bs := fun i rest e =>
  (h i rest e).imp_right fun hs => hs.trans hr

theorem cons {b : Byte} (h : Admits o r) : Admits o (b :: r) := h.of_suffix (List.suffix_cons b r)

theorem decodeSlot {allowed : Slot → Bool} {k : Slot → List Byte → Decoded}
    (h : ∀ s r, allowed s = true → Admits (k s r) r) : Admits (decodeSlot allowed k bs) bs := by
  match bs with
  | [] => exact error
  | b :: r => exact .ite (fun hb => .cons (h _ _ (Bool.and_eq_true_iff.mp hb).2)) error

theorem decodeWord {k : Word → List Byte → Decoded} (h : ∀ w r, Admits (k w r) r) :
    Admits (decodeWord k bs) bs := by
  match bs with
  | b0 :: b1 :: b2 :: b3 :: r => exact .cons (.cons (.cons (.cons (h _ _))))
  | [] | [_] | [_, _] | [_, _, _] => exact error

end Admits

/-! ### Decode point 1: tokens and bus conditions (R94, R105) -/

theorem admits_decodeTokOut (bs : List Byte) : Admits (decodeTokOut bs) bs := by
  unfold decodeTokOut
  split
  · refine .ite (fun hb => .ite (fun _ => .ok ?_ ?_) .error) .error
    · have hlen := of_decide_eq_true (Bool.and_eq_true_iff.mp hb).2
      exact decide_eq_true ((List.length_take_le _ _).trans hlen)
    · exact (List.drop_suffix _ _).trans (by simp [List.suffix_cons_iff])
  · exact .error

theorem admits_decodeTokIn (bs : List Byte) : Admits (decodeTokIn bs) bs := by
  unfold decodeTokIn
  split
  · split
    · exact .ite (fun _ => .ok rfl) .error
    · exact .error
  · exact .error

theorem admits_decodeTokSetup (bs : List Byte) : Admits (decodeTokSetup bs) bs := by
  unfold decodeTokSetup
  split
  · exact .ite (fun _ => .ok rfl) .error
  · exact .error

theorem admits_decodeToken (bs : List Byte) : Admits (decodeToken bs) bs := by
  match bs with
  | [] => exact .error
  | pid :: r =>
    exact .ite (fun _ => (admits_decodeTokOut r).cons) <| .ite (fun _ => .ok rfl) <|
      .ite (fun _ => (admits_decodeTokIn r).cons) <| .ite (fun _ => (admits_decodeTokSetup r).cons) .error

theorem admits_decodeBus (bs : List Byte) : Admits (decodeBus bs) bs := by
  match bs with
  | [] => exact .error
  | f :: r =>
    refine .ite (fun _ => .ok rfl) <| .ite (fun _ => ?_) <| .ite (fun _ => .ok rfl) .error
    split
    · split
      · exact .ok rfl
      · exact .error
    · exact .error

/-! ### Decode points 2 and 3: phases and handlers (R95, R96, R228) -/

theorem admits_decodePhase (bs : List Byte) : Admits (decodePhase bs) bs := by
  match bs with
  | [] => exact .error
  | f :: r =>
    exact .ite (fun _ => .ok rfl) <| .ite (fun _ => .ok rfl) <| .ite (fun _ => .ok rfl) <| .ite (fun _ => .ok rfl) <|
      .ite (fun _ => .ok rfl) <| .ite (fun _ => .ok rfl) .error

theorem wf_handlerInstr (v : Byte) : (handlerInstr v).wf = true := by
  unfold handlerInstr
  split
  next => rfl
  next => rfl
  next hd => exact decide_eq_true hd

theorem admits_decodeHandler (bs : List Byte) : Admits (decodeHandler bs) bs := by
  match bs with
  | [] => exact .error
  | v :: r => exact .ite (fun _ => .ok (wf_handlerInstr v)) .error

/-! ### Decode point 4: cases of the handlers (R92, R94) -/

theorem admits_decodeEp0Case (bs : List Byte) : Admits (decodeEp0Case bs) bs := by
  refine .decodeWord fun w r => ?_
  split
  next => exact .decodeSlot fun _ _ hs => .decodeWord fun _ _ => .ok hs
  next => exact .ok rfl
  next => exact .decodeSlot fun _ _ hs => .ok hs
  next hk => exact .ok (decide_eq_true hk)

theorem admits_decodeEp1Case (bs : List Byte) : Admits (decodeEp1Case bs) bs := by
  refine .decodeWord fun w r => ?_
  split
  next => exact .ok rfl
  next => exact .decodeSlot fun _ _ hs => .ok hs
  next hk => exact .ok (by simp [Instr.wf, hk])
  next hk => exact .ok (by simp [Instr.wf, hk])

/-! ### Decode points 5 and 6: requests and LOOKUP (R100, R102) -/

theorem wf_requestInstr (rt v i l : Half) : (requestInstr rt v i l).wf = true := by
  unfold requestInstr
  split
  next => rfl
  next => rfl
  next => rfl
  next => rfl
  next hk => exact decide_eq_true hk

theorem admits_decodeRequest (bs : List Byte) : Admits (decodeRequest bs) bs := by
  unfold decodeRequest
  split
  · exact .ok (wf_requestInstr ..)
  · exact .error

theorem admits_decodeLookup (bs : List Byte) : Admits (decodeLookup bs) bs := by
  unfold decodeLookup
  split
  · exact .ok rfl
  · exact .error

/-! ### Operations invoked by name -/

theorem admits_decodeIndexFor (bs : List Byte) : Admits (decodeIndexFor bs) bs :=
  .decodeSlot fun _ _ _ => .ok rfl

theorem admits_decodeArm (bs : List Byte) : Admits (decodeArm bs) bs :=
  .decodeWord fun _ _ => .ite (fun _ => .decodeSlot fun _ _ _ => .decodeWord fun _ _ => .ok rfl) .error

theorem admits_decodeRevoke (bs : List Byte) : Admits (decodeRevoke bs) bs :=
  .decodeWord fun _ _ => .ite (fun _ => .decodeSlot fun _ _ _ => .ok rfl) .error

theorem admits_decodeTransmit (bs : List Byte) : Admits (decodeTransmit bs) bs := by
  refine .decodeWord fun w r => .ite (fun _ => ?_) .error
  split
  · exact .ite (fun _ => (Admits.decodeWord fun _ _ => .ok rfl).cons) .error
  · exact .error

theorem admits_decodeSend (bs : List Byte) : Admits (decodeSend bs) bs := by
  refine .decodeWord fun p r => ?_
  split
  · exact .ok rfl
  · exact .error

theorem admits_decodeAccept (bs : List Byte) : Admits (decodeAccept bs) bs := by
  unfold decodeAccept
  split
  · split
    · exact .ite (fun _ => .ok rfl) .error
    · exact .error
  · exact .error

theorem admits_decodeComplete (bs : List Byte) : Admits (decodeComplete bs) bs := by
  refine .decodeWord fun w r => .ite (fun _ => ?_) .error
  split
  · exact .ite (fun _ => .ok rfl) .error
  · exact .error
  · exact .error

/-! ### The decoder -/

/-- After the byte that names the decode point, the decoder of that point reads on. -/
theorem admits_decode_cons (pt : Byte) (r : List Byte) : Admits (decode (pt :: r)) r :=
  .ite (fun _ => admits_decodeToken r) <| .ite (fun _ => admits_decodeBus r) <|
  .ite (fun _ => admits_decodePhase r) <| .ite (fun _ => admits_decodeHandler r) <|
  .ite (fun _ => admits_decodeEp0Case r) <| .ite (fun _ => admits_decodeEp1Case r) <|
  .ite (fun _ => admits_decodeRequest r) <| .ite (fun _ => .ok rfl) <| .ite (fun _ => .ok rfl) <|
  .ite (fun _ => admits_decodeLookup r) <| .ite (fun _ => admits_decodeIndexFor r) <|
  .ite (fun _ => admits_decodeArm r) <| .ite (fun _ => .decodeSlot fun _ _ _ => .ok rfl) <|
  .ite (fun _ => .decodeSlot fun _ _ _ => .ok rfl) <| .ite (fun _ => admits_decodeRevoke r) <|
  .ite (fun _ => admits_decodeTransmit r) <| .ite (fun _ => admits_decodeSend r) <| .ite (fun _ => .ok rfl) <|
  .ite (fun _ => admits_decodeAccept r) <| .ite (fun _ => admits_decodeComplete r) .error

/-- What decodes is well formed, and the record takes up at least one byte. -/
theorem wf_of_decode {bs rest : List Byte} {i : Instr} (h : decode bs = .ok (i, rest)) :
    i.wf = true ∧ ∃ used, used ≠ [] ∧ bs = used ++ rest := by
  match bs with
  | [] => cases h
  | pt :: r =>
    obtain ⟨hwf, used, rfl⟩ := admits_decode_cons pt r i rest h
    exact ⟨hwf, pt :: used, List.cons_ne_nil _ _, rfl⟩

end Sys2Proof.Machine

open Sys2Proof.Machine

/-- Settles O3, by the decoder of each decode point. -/
theorem decodedIsWellFormed : Obligations.DecodedIsWellFormed := fun _ _ _ => wf_of_decode
end

section
/-! PROOF. The BDT manager's operations (R130 to R136), from what ARM, REVOKE and TRANSMIT write. -/

namespace Sys2Proof.Machine

open Sys2Proof

/-! ### The slot map (R130) -/

theorem slotBits_toNat (e : Endp) (d p : Bit) : (slotBits e d p).toNat = 4 * e.toNat + 2 * d.toNat + p.toNat := by
  revert e d p; decide

/-- The triple a slot is the value of: the inverse map R130 gives. -/
def slotFields (s : Slot) : Endp × Dir × Bit := (s.extractLsb' 2 4, dirOfBit (s.extractLsb' 1 1), s.extractLsb' 0 1)

@[simp] theorem slotFields_slotBits (e : Endp) (d : Dir) (p : Bit) :
    slotFields (slotBits e (dirBit d) p) = (e, d, p) := by
  simp [slotFields]

theorem slotBits_slotFields (s : Slot) :
    slotBits (slotFields s).1 (dirBit (slotFields s).2.1) (slotFields s).2.2 = s := by
  revert s; decide

theorem existsUnique_slotBits (s : Slot) : ∃! t : Endp × Dir × Bit, slotBits t.1 (dirBit t.2.1) t.2.2 = s := by
  refine ⟨slotFields s, slotBits_slotFields s, ?_⟩
  rintro ⟨e, d, p⟩ rfl
  exact (slotFields_slotBits e d p).symm

/-! ### ARM, REVOKE and TRANSMIT as operations, with every field they write -/

theorem exec_arm (s : Slot) (p : Word) (n : Count) (t : Bit) (σ : State) :
    exec (.arm s p n t) σ = .next { σ with mem := (arm s p n t σ).mem, faults := (arm s p n t σ).faults } :=
  congrArg Host.Outcome.next (arm_eq s p n t σ)

theorem exec_revoke (s : Slot) (σ : State) : exec (.revoke s) σ = .next { σ with mem := (revoke s σ).mem } := rfl

theorem exec_transmit (e : Endp) (p : Word) (n : Count) (σ : State) :
    exec (.transmit e p n) σ = .next
      { σ with
        mem := (transmit e p n σ).mem, faults := (transmit e p n σ).faults,
        par := flipDir σ.par e .tx, tog := flipDir σ.tog e .tx } :=
  congrArg Host.Outcome.next (transmit_eq e p n σ)

end Sys2Proof.Machine

open Sys2Proof.Machine

/-- Settles O52: what ARM writes, and the fault its owner check records. -/
theorem armHandsTheSlotOver : Obligations.ArmHandsTheSlotOver := fun s p n t σ hc =>
  ⟨_, _, exec_arm s p n t σ, slotWritten_arm hc s p n t, faultRecorded_arm s p n t σ⟩

/-- Settles O54: REVOKE writes the slot's word and nothing else. -/
theorem revokeReclaims : Obligations.RevokeReclaims := fun s σ hc => ⟨_, exec_revoke s σ, slotWritten_revoke hc s⟩

/-- Settles O55: ARM at the slot PAR names, then both flips. -/
theorem transmitArmsAndFlips : Obligations.TransmitArmsAndFlips := fun e p n σ hc =>
  ⟨_, _, _, _, exec_transmit e p n σ, slotWritten_transmit hc e p n, faultRecorded_transmit e p n σ,
    flipped_flipDir σ.par e .tx, flipped_flipDir σ.tog e .tx⟩

/-- Settles O4: the map has the inverse that reads the slot's fields. -/
theorem indexForIsTheSlotMap : Obligations.IndexForIsTheSlotMap :=
  ⟨fun e d p _ => ⟨slotBits e (dirBit d) p, rfl, slotBits_toNat e (dirBit d) p⟩, existsUnique_slotBits, statSlot_eq⟩

/-- Settles O53: both return fields of the descriptor by their bit positions (R92). -/
theorem pidOfAndTakeRead : Obligations.PidOfAndTakeRead := fun _ _ => ⟨rfl, rfl⟩
end

section
/-! PROOF. The SIE's operations, by what ACCEPT decides (R150 to R160). -/

namespace Sys2Proof.Machine

open Sys2Proof

/-! ### Where ACCEPT ends the step -/

section
variable {k : TokKind} {a : UsbAddr} {e : Endp} {σ τ : State}

theorem exec_accept_ended (h : accept k a e σ = (τ, .ended)) :
    exec (.accept k a e) σ = .next { τ with result := .ended } := by
  simp only [exec, execAccept, h]

theorem exec_tokSetup_ended {b : List Byte} (hb : b.length = 8) (h : accept .setup a e σ = (τ, .ended)) :
    exec (.tokSetup a e b) σ = .next τ := by
  simp only [exec, execTokSetup, hb, h, ne_eq, not_true_eq_false, if_false]

theorem exec_tokIn_ended (hs : Handshake) (h : accept .inTok a e σ = (τ, .ended)) :
    exec (.tokIn a e hs) σ = .next τ := by
  simp only [exec, execTokIn, h]

theorem exec_tokOut_ended (t : Bit) (b : List Byte) (h : accept .outTok a e σ = (τ, .ended)) :
    exec (.tokOut a e t b) σ = .next τ := by
  simp only [exec, execTokOut, h]

/-- ACCEPT returns nothing but its own ending. -/
theorem accept_ended_result (h : accept k a e σ = (τ, .ended)) : τ.result = σ.result := by
  obtain ⟨r, rfl | rfl | rfl⟩ := accept_ended h <;> rfl

/-- ACCEPT run alone names its ending: where it says `ended`, that is how a token's ACCEPT ends. -/
theorem accept_ended_of_exec (hx : exec (.accept k a e) σ = .next τ) (hr : τ.result = .ended) :
    accept k a e σ = ({ τ with result := σ.result }, .ended) := by
  match h : accept k a e σ with
  | (ω, .ended) =>
    rw [exec_accept_ended h] at hx
    cases hx
    rw [← accept_ended_result h]
  | (ω, .accepted s) =>
    simp only [exec, execAccept, h] at hx
    cases hx
    cases hr
  | (ω, .noHandshake) =>
    simp only [exec, execAccept, h] at hx
    cases hx

/-! ### An enabled endpoint without handshakes (U6) -/

theorem exec_accept_noHandshake (h : accept k a e σ = (τ, .noHandshake)) :
    exec (.accept k a e) σ = .refused .noHandshakeEndpoint := by
  simp only [exec, execAccept, h]

theorem exec_tokSetup_noHandshake {b : List Byte} (hb : b.length = 8) (h : accept .setup a e σ = (τ, .noHandshake)) :
    exec (.tokSetup a e b) σ = .refused .noHandshakeEndpoint := by
  simp only [exec, execTokSetup, hb, h, ne_eq, not_true_eq_false, if_false]

theorem exec_tokIn_noHandshake (hs : Handshake) (h : accept .inTok a e σ = (τ, .noHandshake)) :
    exec (.tokIn a e hs) σ = .refused .noHandshakeEndpoint := by
  simp only [exec, execTokIn, h]

theorem exec_tokOut_noHandshake (t : Bit) (b : List Byte) (h : accept .outTok a e σ = (τ, .noHandshake)) :
    exec (.tokOut a e t b) σ = .refused .noHandshakeEndpoint := by
  simp only [exec, execTokOut, h]

/-! ### Where ACCEPT accepts -/

theorem exec_accept_accepted (h : Acceptable k a e σ) :
    exec (.accept k a e) σ = .next
      { (if k = .setup then clearStall e σ else σ) with result := .accepted (sieSlot σ e (tokDir k)) } := by
  simp only [exec, execAccept, accept_accepted h]

/-- An accepted setup packet: it must fit the armed count; the toggle is not looked at (R152). -/
theorem exec_tokSetup_accepted {b : List Byte} (hb : b.length = 8) (h : Acceptable .setup a e σ) :
    exec (.tokSetup a e b) σ =
      if (wordBC (bdWord σ (sieSlot σ e .rx))).toNat < 8 then .refused .setupOverrun
      else .next (received e 8 .setup b (clearStall e σ)) := by
  simp only [exec, execTokSetup, hb, accept_accepted h, ne_eq, not_true_eq_false, if_false]
  rfl

theorem exec_tokIn_ack (h : Acceptable .inTok a e σ) :
    exec (.tokIn a e .ack) σ = .next
      { complete e .tx (wordBC (bdWord σ (sieSlot σ e .tx))) .inTok σ with
        response := dataPacket σ (sieSlot σ e .tx) } := by
  simp only [exec, execTokIn, accept_accepted h]
  rfl

theorem exec_tokIn_noack (h : Acceptable .inTok a e σ) :
    exec (.tokIn a e .noack) σ = .next
      { recordLinkError .bto σ with response := dataPacket σ (sieSlot σ e .tx) } := by
  simp only [exec, execTokIn, accept_accepted h]
  rfl

/-- An accepted OUT packet: the toggle is compared first, then the length (R154). -/
theorem exec_tokOut_accepted (t : Bit) (b : List Byte) (h : Acceptable .outTok a e σ) :
    exec (.tokOut a e t b) σ =
      if t ≠ wordData01 (bdWord σ (sieSlot σ e .rx)) then .next { σ with response := .ack }
      else if (wordBC (bdWord σ (sieSlot σ e .rx))).toNat < b.length then .refused .outOverrun
      else .next (received e (BitVec.ofNat 10 b.length) .outTok b σ) := by
  simp only [exec, execTokOut, accept_accepted h]
  rfl

end

/-! ### A received packet -/

/-- With every field it writes (R152, R154). -/
theorem received_eq (e : Endp) (n : Count) (k : TokKind) (b : List Byte) (σ : State) :
    received e n k b σ =
      { σ with
        mem := (received e n k b σ).mem, hwodd := flipDir σ.hwodd e .rx, istat := σ.istat ||| 0x08,
        response := .ack, statFifo := σ.statFifo ++ [statWord e 0 (getDir σ.hwodd e .rx)] } := rfl

theorem packetStored_received {σ : State} (hc : ConfigOk σ.cfg) {e : Endp} {b : List Byte} (n : Count) (k : TokKind)
    (hl : b.length ≤ 2 ^ 32) (ha : BufferApart σ (sieSlot σ e .rx) b.length) :
    PacketStored σ (received e n k b σ).mem (sieSlot σ e .rx)
      (doneWord n (wordData01 (bdWord σ (sieSlot σ e .rx))) (tokPid k)) b := by
  rw [← (bd_storeBytes hc ha).1]
  exact packetStored_of hc _ hl ha

/-! ### STALL (R159) -/

/-- A token that ACCEPT's check 3 finds stalled. -/
def StalledToken (k : TokKind) (a : UsbAddr) (e : Endp) (σ : State) : Prop :=
  k ≠ .setup ∧ a = σ.addr ∧ endptHas σ e (enableMask k) = true ∧ endptHas σ e epstall = true

/-- The answer is STALL exactly if `P`, and ISTAT.STALL is set exactly then. -/
def StallsIff (σ τ : State) (P : Prop) : Prop :=
  (τ.response = .stall ↔ P) ∧ τ.istat &&& 0x80 = if τ.response = .stall then 0x80 else σ.istat &&& 0x80

theorem stallsIff_of_not {σ τ : State} {P : Prop} (hr : τ.response ≠ .stall) (hi : τ.istat &&& 0x80 = σ.istat &&& 0x80)
    (hp : ¬ P) : StallsIff σ τ P := ⟨iff_of_false hr hp, by rw [if_neg hr, hi]⟩

theorem StallsIff.congr {σ τ : State} {P Q : Prop} (h : StallsIff σ τ P) (hpq : P ↔ Q) : StallsIff σ τ Q :=
  ⟨h.1.trans hpq, h.2⟩

/-- A flag other than STALL leaves bit 7 of ISTAT alone (R96). -/
theorem stallBit_or_flag (x : Byte) {f : Flag} (hf : f ≠ .stall) : (x ||| flagMask f) &&& 0x80 = x &&& 0x80 := by
  revert x
  cases f with
  | stall => exact absurd rfl hf
  | usbrst => decide
  | error => decide
  | softok => decide
  | tokdne => decide
  | sleep => decide

theorem stallBit_or_stall (x : Byte) : (x ||| 0x80) &&& 0x80 = 0x80 := by revert x; decide

theorem stallsIff_accept_ended {k : TokKind} {a : UsbAddr} {e : Endp} {σ τ : State}
    (h : accept k a e σ = (τ, .ended)) : StallsIff σ τ (StalledToken k a e σ) := by
  by_cases hp : StalledToken k a e σ
  · obtain ⟨hk, rfl, hen, hst⟩ := hp
    cases hh : endptHas σ e ephshk
    · rw [accept_noHandshake hen hh] at h
      cases h
    · rw [accept_stalled hk hen hh hst] at h
      cases h
      exact ⟨iff_of_true rfl ⟨hk, rfl, hen, hst⟩, stallBit_or_stall _⟩
  · rcases accept_cases k a e σ with ⟨h1, -⟩ | ⟨h1, -⟩ | ⟨h1, hs⟩ | ⟨h1, -⟩ | ⟨h1, -⟩ | ⟨h1, -⟩ <;> rw [h1] at h <;>
      cases h
    · exact stallsIff_of_not nofun rfl hp
    · exact absurd hs hp
    · exact stallsIff_of_not nofun rfl hp
    · exact stallsIff_of_not nofun rfl hp

/-- An accepted token is not stalled (R150). -/
theorem not_stalledToken {k : TokKind} {a : UsbAddr} {e : Endp} {σ : State} (h : Acceptable k a e σ) :
    ¬ StalledToken k a e σ := by
  obtain ⟨-, -, -, hst, -⟩ := h
  rintro ⟨hk, -, -, hst'⟩
  exact absurd ((hst.resolve_left hk).symm.trans hst') (by decide)

theorem dataPacket_ne_stall (σ : State) (s : Slot) : dataPacket σ s ≠ .stall := by
  unfold dataPacket
  dsimp only
  split <;> nofun

theorem stallsIff_tokSetup {a : UsbAddr} {e : Endp} {b : List Byte} {σ τ : State}
    (hx : exec (.tokSetup a e b) σ = .next τ) : StallsIff σ τ False := by
  rcases execTokSetup_cases hx with ha | ⟨-, -, rfl⟩
  · exact (stallsIff_accept_ended ha).congr (iff_of_false (fun h => h.1 rfl) id)
  · exact stallsIff_of_not nofun (stallBit_or_flag σ.istat (f := .tokdne) (by decide)) id

theorem stallsIff_tokIn {a : UsbAddr} {e : Endp} {hs : Handshake} {σ τ : State}
    (hx : exec (.tokIn a e hs) σ = .next τ) : StallsIff σ τ (StalledToken .inTok a e σ) := by
  rcases execTokIn_cases hx with ha | ⟨hacc, rfl | rfl⟩
  · exact stallsIff_accept_ended ha
  · exact stallsIff_of_not (dataPacket_ne_stall σ _) (stallBit_or_flag σ.istat (f := .tokdne) (by decide))
      (not_stalledToken hacc)
  · exact stallsIff_of_not (dataPacket_ne_stall σ _) (stallBit_or_flag σ.istat (f := .error) (by decide))
      (not_stalledToken hacc)

theorem stallsIff_tokOut {a : UsbAddr} {e : Endp} {t : Bit} {b : List Byte} {σ τ : State}
    (hx : exec (.tokOut a e t b) σ = .next τ) : StallsIff σ τ (StalledToken .outTok a e σ) := by
  rcases execTokOut_cases hx with ha | ⟨hacc, rfl | ⟨-, rfl⟩⟩
  · exact stallsIff_accept_ended ha
  · exact stallsIff_of_not nofun rfl (not_stalledToken hacc)
  · exact stallsIff_of_not nofun (stallBit_or_flag σ.istat (f := .tokdne) (by decide)) (not_stalledToken hacc)

/-- A bus event that is no token sets its own flag and answers nothing. -/
theorem stallsIff_flag {σ τ : State} {f : Flag} (hn : σ.response = .none) (hr : τ.response = σ.response)
    (hf : f ≠ .stall) (hi : τ.istat = σ.istat ||| flagMask f) : StallsIff σ τ False :=
  stallsIff_of_not (by rw [hr, hn]; nofun) (by rw [hi]; exact stallBit_or_flag _ hf) id

/-- The HOST event a stalled token is: an IN or an OUT for the block's address. -/
def StalledEvent (i : Instr) (σ : State) : Prop :=
  (∃ e hs, i = .tokIn σ.addr e hs ∧ endptHas σ e eptxen = true ∧ endptHas σ e epstall = true) ∨
  (∃ e t b, i = .tokOut σ.addr e t b ∧ endptHas σ e eprxen = true ∧ endptHas σ e epstall = true)

theorem stalledToken_in_iff {a : UsbAddr} {e : Endp} {hs : Handshake} {σ : State} :
    StalledToken .inTok a e σ ↔ StalledEvent (.tokIn a e hs) σ := by
  constructor
  · rintro ⟨-, rfl, hen, hst⟩
    exact .inl ⟨e, hs, rfl, hen, hst⟩
  · rintro (⟨_, _, hi, hen, hst⟩ | ⟨_, _, _, hi, -⟩) <;> cases hi
    exact ⟨by decide, rfl, hen, hst⟩

theorem stalledToken_out_iff {a : UsbAddr} {e : Endp} {t : Bit} {b : List Byte} {σ : State} :
    StalledToken .outTok a e σ ↔ StalledEvent (.tokOut a e t b) σ := by
  constructor
  · rintro ⟨-, rfl, hen, hst⟩
    exact .inr ⟨e, t, b, rfl, hen, hst⟩
  · rintro (⟨_, _, hi, -⟩ | ⟨_, _, _, hi, hen, hst⟩) <;> cases hi
    exact ⟨by decide, rfl, hen, hst⟩

theorem not_stalledEvent {i : Instr} {σ : State} (hin : ∀ a e hs, i ≠ .tokIn a e hs)
    (hout : ∀ a e t b, i ≠ .tokOut a e t b) : ¬ StalledEvent i σ := by
  rintro (⟨_, _, hi, -⟩ | ⟨_, _, _, hi, -⟩)
  · exact hin _ _ _ hi
  · exact hout _ _ _ _ hi

theorem stallsIff_event {i : Instr} {σ τ : State} (hi : i.isHostEvent = true) (hn : σ.response = .none)
    (hx : exec i σ = .next τ) : StallsIff σ τ (StalledEvent i σ) := by
  have other (h : StallsIff σ τ False) (hin : ∀ a e hs, i ≠ .tokIn a e hs) (hout : ∀ a e t b, i ≠ .tokOut a e t b) :
      StallsIff σ τ (StalledEvent i σ) := h.congr (iff_of_false id (not_stalledEvent hin hout))
  match i, hi with
  | .tokOut a e t b, _ => exact (stallsIff_tokOut hx).congr stalledToken_out_iff
  | .tokIn a e hs, _ => exact (stallsIff_tokIn hx).congr stalledToken_in_iff
  | .tokSetup a e b, _ => exact other (stallsIff_tokSetup hx) nofun nofun
  | .tokSof, _ => cases hx; exact other (stallsIff_flag (f := .softok) hn rfl (by decide) rfl) nofun nofun
  | .busReset, _ => cases hx; exact other (stallsIff_flag (f := .usbrst) hn rfl (by decide) rfl) nofun nofun
  | .busError k, _ => cases hx; exact other (stallsIff_flag (f := .error) hn rfl (by decide) rfl) nofun nofun
  | .busSleep, _ => cases hx; exact other (stallsIff_flag (f := .sleep) hn rfl (by decide) rfl) nofun nofun

/-- In a real run only endpoint 0 is ever stalled (R159). -/
theorem RunInv.endp_of_stalled {σ : State} (h : RunInv σ) {e : Endp} (hst : endptHas σ e epstall = true) : e = 0 := by
  unfold endptHas at hst
  by_contra h0
  by_cases h1 : e = 1
  · rw [h1, h.endpt1] at hst
    exact absurd hst (by decide)
  · rw [h.base.endptHigh e (by bv_omega)] at hst
    exact absurd hst (by decide)

end Sys2Proof.Machine

open Sys2Proof Sys2Proof.Machine

/-- Settles O21: checks 1 and 2 end ACCEPT, and the token with it. -/
theorem foreignTokensAreIgnored : Obligations.ForeignTokensAreIgnored :=
  ⟨fun _ _ _ _ h => exec_accept_ended (accept_ignored h),
    fun _ _ _ _ hb h => exec_tokSetup_ended hb (accept_ignored h),
    fun _ _ hs _ h => exec_tokIn_ended hs (accept_ignored h),
    fun _ _ t b _ h => exec_tokOut_ended t b (accept_ignored h)⟩

/-- Settles O22: check 3 ends ACCEPT before the descriptor is looked at. -/
theorem stalledEndpointsAnswerStall : Obligations.StalledEndpointsAnswerStall := by
  refine ⟨fun e hs σ hen hh hst => ?_, fun e t b σ hen hh hst => ?_⟩
  · have h := accept_stalled (k := .inTok) (by decide) hen hh hst
    exact ⟨exec_tokIn_ended hs h, exec_accept_ended h⟩
  · have h := accept_stalled (k := .outTok) (by decide) hen hh hst
    exact ⟨exec_tokOut_ended t b h, exec_accept_ended h⟩

/-- Settles O23: checks 4 and 5 end ACCEPT; a SETUP has cleared EPSTALL by then. -/
theorem tokensWithoutDescriptorAreTurnedAway : Obligations.TokensWithoutDescriptorAreTurnedAway := by
  refine ⟨fun e hs σ hen hh hst hd => ?_, fun e t b σ hen hh hst hd => ?_, fun e b σ hb hen hh hd => ?_⟩
  · have h := accept_nak (k := .inTok) (by decide) hen hh hst hd
    exact ⟨exec_tokIn_ended hs h, exec_accept_ended h⟩
  · have h := accept_nak (k := .outTok) (by decide) hen hh hst hd
    exact ⟨exec_tokOut_ended t b h, exec_accept_ended h⟩
  · have h := accept_setup_ignored hen hh hd
    rw [clearStall_eq] at h
    exact ⟨_, exec_tokSetup_ended hb h, exec_accept_ended h, endptWritten_setEp σ.endpt e _⟩

/-- Settles O24: each of ACCEPT's endings, in the order of its checks. -/
theorem acceptChecksInOrder : Obligations.AcceptChecksInOrder := by
  intro k a e σ
  refine ⟨fun h => exec_accept_ended (accept_ignored h), ?_⟩
  rintro rfl hen hh
  refine ⟨fun hk hst => exec_accept_ended (accept_stalled hk hen hh hst), fun hst => ?_⟩
  by_cases hk : k = .setup
  · subst hk
    refine ⟨_, nofun, fun _ => endptWritten_setEp σ.endpt e _, ?_⟩
    split
    · next hd =>
      rw [exec_accept_ended (accept_setup_ignored hen hh hd), clearStall_eq]
      rfl
    · next hd =>
      simp only [not_or, Nat.not_le, Bool.not_eq_false] at hd
      rw [exec_accept_accepted ⟨rfl, hen, hh, hst, hd.1, hd.2⟩, if_pos rfl, clearStall_eq]
  · refine ⟨σ.endpt, fun _ => rfl, fun h => absurd h hk, ?_⟩
    split
    · next hd => rw [exec_accept_ended (accept_nak hk hen hh (hst.resolve_left hk) hd)]
    · next hd =>
      simp only [not_or, Nat.not_le, Bool.not_eq_false] at hd
      rw [exec_accept_accepted ⟨rfl, hen, hh, hst, hd.1, hd.2⟩, if_neg hk]

/-- Settles O25: with room in the FIFO, COMPLETE is its four writes. -/
theorem completeWritesBack : Obligations.CompleteWritesBack := fun e d n k σ hc hf =>
  ⟨_, _, (if_neg (Nat.not_le.mpr hf) : execComplete e d n k σ = _).trans (congrArg _ (complete_eq e d n k σ)),
    slotWritten_complete hc e d n k, flipped_flipDir σ.hwodd e d⟩

/-- Settles O26: an accepted packet that fits is received, on an endpoint whose EPSTALL is clear. -/
theorem setupTokenIsTaken : Obligations.SetupTokenIsTaken := by
  refine ⟨fun a e b σ τ hb hx hr => exec_tokSetup_ended hb (accept_ended_of_exec hx hr),
    fun a e b σ hc hacc hb hbc hap => ?_⟩
  rw [← hb] at hap
  have hstored := packetStored_received hc 8 .setup (by omega) hap
  refine ⟨_, _, _, ?_, hstored, endptWritten_setEp σ.endpt e _, flipped_flipDir σ.hwodd e .rx⟩
  rw [exec_tokSetup_accepted hb hacc, if_neg (by omega), received_eq, clearStall_eq]
  rfl

/-- Settles O27: the data packet is the armed bytes; COMPLETE follows on a handshake, a link error without one. -/
theorem inTokenSendsTheArmedPacket : Obligations.InTokenSendsTheArmedPacket :=
  ⟨fun _ _ hs _ _ hx hr => exec_tokIn_ended hs (accept_ended_of_exec hx hr),
    fun _ e σ hc hacc => ⟨_, _, _, exec_tokIn_ack hacc, bytesAt_loadBytes _ _ σ, slotWritten_complete hc e .tx _ .inTok,
      flipped_flipDir σ.hwodd e .tx⟩,
    fun _ _ σ hacc => ⟨_, exec_tokIn_noack hacc, bytesAt_loadBytes _ _ σ⟩⟩

/-- Settles O28: the toggle decides whether an accepted packet that fits is received or dropped. -/
theorem outTokenIsTakenOrDropped : Obligations.OutTokenIsTakenOrDropped := by
  refine ⟨fun a e t b σ τ hx hr => exec_tokOut_ended t b (accept_ended_of_exec hx hr),
    fun a e b σ hc hacc hbc hap => ?_, fun a e t b σ hacc ht => ?_⟩
  · have hstored := packetStored_received hc (BitVec.ofNat 10 b.length) .outTok (by omega) hap
    refine ⟨_, _, ?_, hstored, flipped_flipDir σ.hwodd e .rx⟩
    rw [exec_tokOut_accepted _ b hacc, if_neg (by simp), if_neg (by omega), ← received_eq]
  · rw [exec_tokOut_accepted t b hacc, if_pos ht]

/-- Settles O29: the packet's length, the armed count, EPHSHK and the FIFO's depth, each where it is checked. -/
theorem trafficThatIsNotAdmitted : Obligations.TrafficThatIsNotAdmitted := by
  refine ⟨fun a e b σ hb => if_pos hb, fun a e b σ hacc hb hbc => ?_, fun a e b σ hacc hbc => ?_,
    fun k e σ hen hh => exec_accept_noHandshake (accept_noHandshake hen hh),
    fun e b σ hen hh hb => exec_tokSetup_noHandshake hb (accept_noHandshake hen hh),
    fun e hs σ hen hh => exec_tokIn_noHandshake hs (accept_noHandshake hen hh),
    fun e t b σ hen hh => exec_tokOut_noHandshake t b (accept_noHandshake hen hh),
    fun e d n k σ hf => if_pos hf⟩
  · rw [exec_tokSetup_accepted hb hacc, if_pos hbc]
  · rw [exec_tokOut_accepted _ b hacc, if_neg (by simp), if_pos hbc]

/-- Settles O31: a token answers STALL at check 3 alone; no other event answers, or sets that flag. -/
theorem stallFlagExactlyWithStallHandshake : Obligations.StallFlagExactlyWithStallHandshake :=
  ⟨fun _ _ _ hi hn hx => stallsIff_event hi hn hx, fun _ _ h hst => h.endp_of_stalled hst⟩

/-- Settles O30: each event is the update of its own flags. -/
theorem busEventsSetTheirFlags : Obligations.BusEventsSetTheirFlags :=
  fun _ => ⟨rfl, rfl, rfl, rfl, rfl, rfl, rfl⟩
end

section
/-! PROOF. The cases of the two endpoint handlers, the requests, SEND and the cursor (R180 to R191, R250 to R253). -/

namespace Sys2Proof.Machine

open Sys2Proof

/-! ### The case a handler runs (R180, R250) -/

theorem takeSlot_pid (σ : State) (s : Slot) : (takeSlot σ s).1 = wordPid (bdWord σ s) := rfl

/-- Where the PID field names a token kind, `pidKind` is that kind (R94). -/
theorem pidKind_of_eq {pid : PidCode} {k : TokKind} (h : pid = tokPid k) : pidKind pid = some k := pidKind_eq_some.mpr h

theorem pidKind_of_ne {pid : PidCode} (hs : pid ≠ 0xD) (hi : pid ≠ 0x9) (ho : pid ≠ 0x1) : pidKind pid = none := by
  rw [pidKind, if_neg hs, if_neg hi, if_neg ho]

section
variable {v : Byte} {σ : State}

theorem ep0Handler_setup (h : wordPid (bdWord σ (statSlot v)) = tokPid .setup) :
    ep0Handler v σ = ep0OnSetup (statSlot v) (bdPtr σ (statSlot v)) σ := by
  rw [ep0Handler, takeSlot_pid, pidKind_of_eq h]
  rfl

theorem ep0Handler_in (h : wordPid (bdWord σ (statSlot v)) = tokPid .inTok) : ep0Handler v σ = ep0OnIn σ := by
  rw [ep0Handler, takeSlot_pid, pidKind_of_eq h]

theorem ep0Handler_out (h : wordPid (bdWord σ (statSlot v)) = tokPid .outTok) :
    ep0Handler v σ = ep0OnOut (statSlot v) σ := by
  rw [ep0Handler, takeSlot_pid, pidKind_of_eq h]

theorem ep0Handler_other (h : pidKind (wordPid (bdWord σ (statSlot v))) = none) : ep0Handler v σ = σ := by
  rw [ep0Handler, takeSlot_pid, h]

theorem ep1Handler_in (h : wordPid (bdWord σ (statSlot v)) = tokPid .inTok) : ep1Handler v σ = ep1OnIn σ := by
  rw [ep1Handler, takeSlot_pid, pidKind_of_eq h]

theorem ep1Handler_out (h : wordPid (bdWord σ (statSlot v)) = tokPid .outTok) :
    ep1Handler v σ = ep1OnOut (statSlot v) σ := by
  rw [ep1Handler, takeSlot_pid, pidKind_of_eq h]

/-- SETUP is one of endpoint 1's other cases (R253). -/
theorem ep1Handler_other (hi : wordPid (bdWord σ (statSlot v)) ≠ 0x9) (ho : wordPid (bdWord σ (statSlot v)) ≠ 0x1) :
    ep1Handler v σ = σ := by
  rw [ep1Handler, takeSlot_pid]
  by_cases hs : wordPid (bdWord σ (statSlot v)) = tokPid .setup
  · rw [pidKind_of_eq hs]
  · rw [pidKind_of_ne hs hi ho]

end

/-- Endpoint 0's handler, as the operation its descriptor's PID selects (R180). -/
theorem exec_ep0Case (s : Slot) (v : Byte) (hv : statSlot v = s) (σ : State) :
    exec (if wordPid (bdWord σ s) = 0xD then
        .ep0OnSetup (wordBC (bdWord σ s)) (wordData01 (bdWord σ s)) s (bdPtr σ s)
      else if wordPid (bdWord σ s) = 0x9 then .ep0OnIn
      else if wordPid (bdWord σ s) = 0x1 then .ep0OnOut s
      else .ep0OnOther (wordBC (bdWord σ s)) (wordOwn (bdWord σ s)) (wordData01 (bdWord σ s))
        (wordPid (bdWord σ s))) σ =
    .next (ep0Handler v σ) := by
  subst hv
  split
  · next h => rw [ep0Handler_setup h]; rfl
  · next hs =>
    split
    · next h => rw [ep0Handler_in h]; rfl
    · next hi =>
      split
      · next h => rw [ep0Handler_out h]; rfl
      · next ho => rw [ep0Handler_other (pidKind_of_ne hs hi ho)]; rfl

/-- Endpoint 1's handler, as the operation its descriptor's PID selects (R250). -/
theorem exec_ep1Case (s : Slot) (v : Byte) (hv : statSlot v = s) (σ : State) :
    exec (if wordPid (bdWord σ s) = 0x9 then .ep1OnIn
      else if wordPid (bdWord σ s) = 0x1 then .ep1OnOut s
      else .ep1OnOther (wordBC (bdWord σ s)) (wordOwn (bdWord σ s)) (wordData01 (bdWord σ s))
        (wordPid (bdWord σ s))) σ =
    .next (ep1Handler v σ) := by
  subst hv
  split
  · next h => rw [ep1Handler_in h]; rfl
  · next hi =>
    split
    · next h => rw [ep1Handler_out h]; rfl
    · next ho => rw [ep1Handler_other hi ho]; rfl

/-! ### The SETUP case (R181) -/

/-- The lowest byte of a value with a byte appended is that byte. -/
theorem extractByte_append_zero {v : Nat} (x : BitVec v) (y : Byte) : (x ++ y).extractLsb' 0 8 = y := by
  rw [BitVec.extractLsb'_append_eq_of_add_le (by omega), BitVec.extractLsb'_eq_self]

/-- The bytes above it are those of the value. -/
theorem extractByte_append_add {v : Nat} (x : BitVec v) (y : Byte) (s : Nat) :
    (x ++ y).extractLsb' (s + 8) 8 = x.extractLsb' s 8 := by
  rw [BitVec.extractLsb'_append_eq_of_le (by omega), Nat.add_sub_cancel]

/-- The eight bytes of a setup packet, one by one (R33). -/
theorem setupByte_setupOf (b : Nat → Byte) {i : Nat} (hi : i < 8) :
    setupByte (setupOf (b 0) (b 1) (b 2) (b 3) (b 4) (b 5) (b 6) (b 7)) i = b i := by
  unfold setupByte setupOf
  interval_cases i <;>
    simp [extractByte_append_zero (v := 56), extractByte_append_add (v := 56), extractByte_append_add (v := 48),
      extractByte_append_add (v := 40), extractByte_append_add (v := 32), extractByte_append_add (v := 24),
      extractByte_append_add (v := 16), extractByte_append_add (v := 8), extractByte_append_zero]

theorem setupByte_readSetup (c : Config) (m : Memory) (a : Word) {i : Nat} (hi : i < 8) :
    setupByte (readSetup c m a) i = readByte c m (a + BitVec.ofNat 32 i) := by
  have h := setupByte_setupOf (fun i => readByte c m (a + BitVec.ofNat 32 i)) hi
  rwa [show a + BitVec.ofNat 32 0 = a from BitVec.add_zero a] at h

theorem bd_revoke {σ : State} (hc : ConfigOk σ.cfg) (s t : Slot) :
    bdWord (revoke s σ) t = (if t = s then 0 else bdWord σ t) ∧ bdPtr (revoke s σ) t = bdPtr σ t := by
  obtain ⟨hword, hptr⟩ := bd_of_slotWritten hc (revoke_cfg ..) (slotWritten_revoke hc s) t
  refine ⟨hword, hptr.trans ?_⟩
  split
  · next h => rw [h]
  · rfl

/-- The packet copied out: the state ARM finds (R181). -/
def copySetup (ptr : Word) (σ : State) : State := { σ with lastSetup := readSetup σ.cfg σ.mem ptr }

/-- The state after the SETUP case's descriptor writes (R181). -/
def reclaimed (s : Slot) (ptr : Word) (σ : State) : State :=
  revoke (slotBits 0 1 1) (revoke (slotBits 0 1 0) (arm s ptr 8 1 (copySetup ptr σ)))

theorem reclaimed_cfg (s : Slot) (ptr : Word) (σ : State) : (reclaimed s ptr σ).cfg = σ.cfg := by
  rw [reclaimed, revoke_cfg, revoke_cfg, arm_cfg]
  rfl

theorem openTransfer_mem (s : Slot) (ptr : Word) (σ : State) :
    (openTransfer s ptr σ).mem = (reclaimed s ptr σ).mem := rfl

/-- The state the request decode finds, with every field the SETUP case writes before it (R181). -/
theorem openTransfer_eq (s : Slot) (ptr : Word) (σ : State) :
    openTransfer s ptr σ =
      { σ with
        mem := (reclaimed s ptr σ).mem, faults := (arm s ptr 8 1 (copySetup ptr σ)).faults,
        tog := setDir σ.tog 0 .tx 1, cur := Cursor.empty, lastSetup := readSetup σ.cfg σ.mem ptr,
        ep0State := .setupReceived } := by
  obtain ⟨m, fs, h⟩ : ∃ m fs, arm s ptr 8 1 (copySetup ptr σ) = { copySetup ptr σ with mem := m, faults := fs } :=
    ⟨_, _, arm_eq ..⟩
  show ({ reclaimed s ptr σ with
    tog := setDir (reclaimed s ptr σ).tog 0 .tx 1, cur := Cursor.empty, ep0State := .setupReceived } : State) = _
  rw [reclaimed, h]
  rfl

section
variable {σ : State} (hc : ConfigOk σ.cfg) (s : Slot) (ptr : Word)
include hc

/-- ARM and the first REVOKE keep the configuration, so the next write lands in its slot as well. -/
theorem configOk_armed : ConfigOk (arm s ptr 8 1 (copySetup ptr σ)).cfg := by
  rw [arm_cfg]
  exact hc

theorem configOk_revoked : ConfigOk (revoke (slotBits 0 1 0) (arm s ptr 8 1 (copySetup ptr σ))).cfg := by
  rw [revoke_cfg]
  exact configOk_armed hc s ptr

/-- The SETUP case's three descriptor writes, read back at any slot (R181). -/
theorem readBd_reclaimed (t : Slot) :
    readBdWord σ.cfg (reclaimed s ptr σ).mem t =
        (if t = slotBits 0 1 1 then 0 else if t = slotBits 0 1 0 then 0
          else if t = s then armWord 8 1 else bdWord σ t) ∧
      readBdPtr σ.cfg (reclaimed s ptr σ).mem t = (if t = s then ptr else bdPtr σ t) := by
  have h2 := bd_revoke (configOk_armed hc s ptr) (slotBits 0 1 0) t
  have h3 := bd_revoke (configOk_revoked hc s ptr) (slotBits 0 1 1) t
  rw [h2.1, h2.2, bdWord_arm (σ := copySetup ptr σ) hc, bdPtr_arm (σ := copySetup ptr σ) hc, ← reclaimed, bdWord, bdPtr,
    reclaimed_cfg] at h3
  exact h3

/-- And no byte elsewhere is written. -/
theorem readByte_reclaimed {a : Word} (hs : ¬ inSlot σ.cfg s a) (h2 : ¬ inSlot σ.cfg (slotBits 0 1 0) a)
    (h3 : ¬ inSlot σ.cfg (slotBits 0 1 1) a) :
    readByte σ.cfg (reclaimed s ptr σ).mem a = readByte σ.cfg σ.mem a := by
  have w1 := slotWritten_arm (σ := copySetup ptr σ) hc s ptr 8 1
  have w2 := slotWritten_revoke (configOk_armed hc s ptr) (slotBits 0 1 0)
  have w3 := slotWritten_revoke (configOk_revoked hc s ptr) (slotBits 0 1 1)
  have hcfg : (arm s ptr 8 1 (copySetup ptr σ)).cfg = σ.cfg := arm_cfg ..
  rw [revoke_cfg, hcfg] at w3
  rw [hcfg] at w2
  exact (w3.frame a h3).trans ((w2.frame a h2).trans (w1.frame a hs))

end

/-! ### The requests (R182 to R187) -/

/-- The decode of all 16 bits of RT, as the operation it selects (R182). -/
theorem exec_request (rt v x l : Half) {σ : State} (hrt : lastRT σ = rt) (hv : lastValue σ = v) (hx : lastIndex σ = x)
    (hl : lastLength σ = l) :
    exec (if rt = 0x0500 then .setAddress v x l
      else if rt = 0x0900 then .setConfiguration v x l
      else if rt = 0x0680 then .getDescriptorDev v x l
      else if rt = 0x0681 then .getDescriptorIf v x l
      else .reqUnsupported rt v x l) σ = .next (setupRequest σ) := by
  subst hrt hv hx hl
  unfold setupRequest requestKind
  by_cases h1 : lastRT σ = 0x0500
  · rw [if_pos h1, if_pos h1]; rfl
  rw [if_neg h1, if_neg h1]
  by_cases h2 : lastRT σ = 0x0900
  · rw [if_pos h2, if_pos h2]; rfl
  rw [if_neg h2, if_neg h2]
  by_cases h3 : lastRT σ = 0x0680
  · rw [if_pos h3, if_pos h3]; rfl
  rw [if_neg h3, if_neg h3]
  by_cases h4 : lastRT σ = 0x0681
  · rw [if_pos h4, if_pos h4]; rfl
  · rw [if_neg h4, if_neg h4]; rfl

/-- The status stage's empty packet, with every field it writes (R183, R184). -/
theorem statusStage_eq (σ : State) :
    statusStage σ =
      { σ with
        mem := (transmit 0 0 0 σ).mem, faults := (transmit 0 0 0 σ).faults,
        par := flipDir σ.par 0 .tx, tog := flipDir σ.tog 0 .tx, ep0State := .statusOk } := by
  have hsend : send 0 0 σ = transmit 0 0 0 σ := send_short 0 (len := 0) (by decide) σ
  rw [statusStage, hsend, transmit_eq]

theorem getDescriptor_hit {σ : State} {v x : Half} {p : Word} {len : Half} (h : lookupDesc σ.cfg v x = some (p, len))
    (l : Half) : getDescriptor v x l σ = { send p (truncateLength len l) σ with ep0State := .sendingData } := by
  rw [getDescriptor, h]

theorem getDescriptor_miss {σ : State} {v x : Half} (h : lookupDesc σ.cfg v x = none) (l : Half) :
    getDescriptor v x l σ = reqUnsupported σ := by
  rw [getDescriptor, h]

theorem truncateLength_eq (len l : Half) : truncateLength len l = if len.toNat < l.toNat then len else l := by
  unfold truncateLength
  simp only [BitVec.lt_def]

/-- LOOKUP run alone names what the table's scan finds (R262). -/
theorem lookupDesc_of_exec {σ τ : State} {v x : Half} (h : exec (.lookup v x) σ = .next τ) :
    (∃ p len, lookupDesc σ.cfg v x = some (p, len) ∧ τ = { σ with result := .found p len }) ∨
      (lookupDesc σ.cfg v x = none ∧ τ = { σ with result := .miss }) := by
  have he : exec (.lookup v x) σ = execLookup v x σ := rfl
  rw [he, execLookup] at h
  match hd : lookupDesc σ.cfg v x with
  | some (p, len) => rw [hd] at h; cases h; exact .inl ⟨p, len, rfl, rfl⟩
  | none => rw [hd] at h; cases h; exact .inr ⟨rfl, rfl⟩

/-! ### SEND (R188) -/

theorem bit_eq_or_flip (q b : Bit) : q = b ∨ q = b ^^^ 1 := by revert q b; decide

theorem txSlot_flip_ne (e : Endp) (p : Bit) : slotBits e 1 (p ^^^ 1) ≠ slotBits e 1 p := by
  rw [Ne, slotBits_inj]
  exact fun h => xor_one_ne p h.2.2

/-- TRANSMIT moves on to the other slot of the pair (R136). -/
theorem transmitSlot_transmit (e : Endp) (p : Word) (n : Count) (σ : State) :
    transmitSlot (transmit e p n σ) e = slotBits e 1 (getDir σ.par e .tx ^^^ 1) := by
  rw [transmitSlot, transmit_par, getDir_flipDir_same]
  rfl

/-- Two packets at once: the second of `n` bytes, 8 bytes on (R188). -/
def sendPair (p : Word) (n : Count) (σ : State) : State := transmit 0 (p + 8) n (transmit 0 p 8 σ)

/-- Both flips are undone: only memory and the fault record differ. -/
theorem sendPair_eq (p : Word) (n : Count) (σ : State) :
    sendPair p n σ = { σ with mem := (sendPair p n σ).mem, faults := (sendPair p n σ).faults } := by
  have h := transmit_eq 0 (p + 8) n (transmit 0 p 8 σ)
  rw [transmit_par, transmit_tog, flipDir_flipDir, flipDir_flipDir] at h
  refine h.trans ?_
  rw [← sendPair]
  generalize (sendPair p n σ).mem = m, (sendPair p n σ).faults = fs
  rw [transmit_eq]

/-- 8 bytes or more: two packets, and the cursor from 16 on. -/
theorem send_full (p : Word) {len : Half} (h : 8 ≤ len.toNat) (σ : State) :
    send p len σ = { sendPair p (BitVec.ofNat 10 (min (len.toNat - 8) 8)) σ with
      cur := if len.toNat < 16 then σ.cur else { valid := true, ptr := p + 16, len := len - 16 } } := by
  by_cases h16 : len.toNat < 16
  · rw [send_two p h h16, if_pos h16, Nat.min_eq_left (by omega), ← sendPair, sendPair_eq]
  · rw [send_more p (by omega), if_neg h16, Nat.min_eq_right (by omega)]
    rfl

section
variable {σ : State} (hc : ConfigOk σ.cfg) (p : Word) (n : Count)
include hc

theorem slotsWritten_sendPair :
    SlotsWritten σ.cfg σ.mem (sendPair p n σ).mem
      (slotBits 0 1 (getDir σ.par 0 .tx)) (armWord 8 (getDir σ.tog 0 .tx)) p
      (slotBits 0 1 (getDir σ.par 0 .tx ^^^ 1)) (armWord n (getDir σ.tog 0 .tx ^^^ 1)) (p + 8) := by
  have hcfg : (transmit 0 p 8 σ).cfg = σ.cfg := transmit_cfg ..
  have second := slotWritten_transmit (σ := transmit 0 p 8 σ) (hcfg.symm ▸ hc) 0 (p + 8) n
  rw [hcfg, transmitSlot_transmit, transmit_tog, getDir_flipDir_same] at second
  exact (slotWritten_transmit hc 0 p 8).both hc second (txSlot_flip_ne 0 _)

/-- The second TRANSMIT finds its slot as it was before the first. -/
theorem bdWord_transmit_other (e : Endp) (p : Word) (n : Count) :
    bdWord (transmit e p n σ) (slotBits e 1 (getDir σ.par e .tx ^^^ 1)) =
      bdWord σ (slotBits e 1 (getDir σ.par e .tx ^^^ 1)) :=
  (bdWord_transmit hc ..).trans (if_neg (txSlot_flip_ne e _))

theorem mem_faults_sendPair (f : Fault) :
    f ∈ (sendPair p n σ).faults ↔
      f ∈ σ.faults ∨ ∃ q : Bit, bdOwned σ (slotBits 0 1 q) = true ∧ f = .ownViolation (slotBits 0 1 q) := by
  have first := faultRecorded_transmit 0 p 8 σ f
  have second := faultRecorded_transmit 0 (p + 8) n (transmit 0 p 8 σ) f
  rw [transmitSlot_transmit, bdWord_transmit_other hc, first, ← bdOwned_iff, ← bdOwned_iff] at second
  refine second.trans ⟨?_, ?_⟩
  · rintro ((h | h) | h)
    · exact .inl h
    · exact .inr ⟨_, h⟩
    · exact .inr ⟨_, h⟩
  · rintro (h | ⟨q, h⟩)
    · exact .inl (.inl h)
    · rcases bit_eq_or_flip q (getDir σ.par 0 .tx) with rfl | rfl
      · exact .inl (.inr h)
      · exact .inr h

end

/-! ### The IN case and the cursor (R189) -/

theorem chunk_eq_min (len : Half) : chunk len = BitVec.ofNat 10 (min len.toNat 8) := by
  by_cases h : len.toNat < 8
  · rw [chunk_short h, Nat.min_eq_left (by omega)]
  · rw [chunk_full (by omega), Nat.min_eq_right (by omega)]
    rfl

theorem cursorAfter_eq (cur : Cursor) :
    cursorAfter cur =
      if 8 ≤ cur.len.toNat then { valid := true, ptr := cur.ptr + 8, len := cur.len - 8 } else Cursor.empty := by
  split
  · next h => exact cursorAfter_full h
  · next h => exact cursorAfter_short (Nat.lt_of_not_le h)

theorem pushChunk_empty {σ : State} (h : σ.cur.valid = false) : pushChunk σ = σ := by
  rw [pushChunk, h]
  rfl

theorem pushChunk_valid {σ : State} (h : σ.cur.valid = true) :
    pushChunk σ = { transmit 0 σ.cur.ptr (chunk σ.cur.len) σ with cur := cursorAfter σ.cur } := by
  rw [pushChunk, if_pos h]

/-- The IN case, as what it adds to the next chunk (R189). -/
theorem ep0OnIn_eq (σ : State) :
    ep0OnIn σ =
      { pushChunk σ with
        addr := if lastRT σ = 0x0500 then lastAddress σ else σ.addr
        ep0State := if σ.ep0State = .statusOk then .idle else σ.ep0State } := by
  rw [ep0OnIn, applyAddress]
  dsimp only
  rw [lastAddress, lastValue, lastRT, pushChunk_lastSetup, pushChunk_addr, pushChunk_ep0State]
  rfl

theorem ep0OnIn_cur (σ : State) : (ep0OnIn σ).cur = (pushChunk σ).cur := by rw [ep0OnIn_eq]

theorem pushChunk_cur {σ : State} (h : σ.cur.valid = true) : (pushChunk σ).cur = cursorAfter σ.cur := by
  rw [pushChunk_valid h]

/-- While 8 bytes are left, each service takes 8 (R194). -/
theorem cur_iterate_ep0OnIn {σ : State} {p : Word} {len : Half}
    (h : σ.cur = { valid := true, ptr := p, len := len }) {n : Nat} (hn : n ≤ len.toNat / 8) :
    (ep0OnIn^[n] σ).cur =
      { valid := true, ptr := p + BitVec.ofNat 32 (8 * n), len := len - BitVec.ofNat 16 (8 * n) } := by
  induction n with
  | zero => simpa using h
  | succ n ih =>
    have hcur := ih (by omega)
    have hleft : 8 ≤ (len - BitVec.ofNat 16 (8 * n)).toNat := by bv_omega
    rw [Function.iterate_succ_apply', ep0OnIn_cur, pushChunk_cur (by rw [hcur]), hcur, cursorAfter_full hleft,
      Cursor.mk.injEq]
    exact ⟨rfl, by bv_omega, by bv_omega⟩

/-! ### The OUT cases (R190, R252) -/

theorem ep0OnOut_eq (s : Slot) (σ : State) :
    ep0OnOut s σ =
      { σ with
        mem := (arm s (bdPtr σ s) 8 1 σ).mem, faults := (arm s (bdPtr σ s) 8 1 σ).faults,
        ep0State := if σ.ep0State = .sendingData then .idle else σ.ep0State } := by
  rw [ep0OnOut, arm_eq]

end Sys2Proof.Machine

open Sys2Proof Sys2Proof.Machine

/-- Settles O40: the three operations answer the state they are given. -/
theorem otherCasesDoNothing : Obligations.OtherCasesDoNothing := fun _ _ _ _ _ _ _ _ => ⟨rfl, rfl, rfl⟩

/-- Settles O45: EPSTALL is one write of ENDPT[0], and the state is a second one. -/
theorem unsupportedRequestsStall : Obligations.UnsupportedRequestsStall := fun _ _ _ _ σ =>
  ⟨setEp σ.endpt 0 ((getEp σ.endpt 0 ||| 0x02) &&& 0x0F), rfl, rfl, endptWritten_setEp σ.endpt 0 _⟩

/-- Settles O39: each PID code selects its case in the handler and in the operation run alone. -/
theorem handlersFollowThePid : Obligations.HandlersFollowThePid := by
  rintro d p s w σ rfl
  refine ⟨fun hs => ⟨_, rfl, ?_⟩, fun hs => ⟨_, rfl, ?_⟩⟩
  · exact exec_ep0Case s (statWord 0 d p) ((statSlot_statWord 0 d p).trans hs.symm) σ
  · exact exec_ep1Case s (statWord 1 d p) ((statSlot_statWord 1 d p).trans hs.symm) σ

/-- Settles O41: the request is decoded from the state that `openTransfer` leaves, and its writes are ARM's and two
REVOKEs'. -/
theorem setupCaseOpensTheTransfer : Obligations.SetupCaseOpensTheTransfer := by
  intro bc t s ptr σ hc hs
  have hbd := readBd_reclaimed hc s ptr
  have h2 : slotBits 0 1 0 ≠ s := by rcases hs with rfl | rfl <;> decide
  have h3 : slotBits 0 1 1 ≠ s := by rcases hs with rfl | rfl <;> decide
  refine ⟨(reclaimed s ptr σ).mem, (arm s ptr 8 1 (copySetup ptr σ)).faults, setDir σ.tog 0 .tx 1,
    readSetup σ.cfg σ.mem ptr, setupRequest (openTransfer s ptr σ), ?_, rfl,
    fun i hi => setupByte_readSetup _ _ _ hi, ?_, ?_, ?_, ?_, ?_, ?_,
    fun a => readByte_reclaimed hc s ptr, fun e d => getDir_setDir .., faultRecorded_arm s ptr 8 1 (copySetup ptr σ)⟩
  · rw [openTransfer_eq]
    rfl
  · rw [(hbd s).1, if_neg h3.symm, if_neg h2.symm, if_pos rfl]
    rfl
  · rw [(hbd s).2, if_pos rfl]
  · exact (hbd (slotBits 0 1 0)).1.trans rfl
  · exact (hbd (slotBits 0 1 0)).2.trans (if_neg h2)
  · exact (hbd (slotBits 0 1 1)).1.trans rfl
  · exact (hbd (slotBits 0 1 1)).2.trans (if_neg h3)

/-- Settles O42: RT and the fields are halves of the packet, and each value of RT selects its request. -/
theorem requestDecode : Obligations.RequestDecode := by
  intro σ rt v x l hrt hv hx hl
  exact ⟨_, rfl, exec_request rt v x l hrt.symm hv.symm hx.symm hl.symm⟩

/-- Settles O43: SEND of no bytes is one TRANSMIT, and the state is the one other write. -/
theorem statusStageRequests : Obligations.StatusStageRequests := by
  intro v x l σ hc
  refine ⟨(transmit 0 0 0 σ).mem, (transmit 0 0 0 σ).faults, flipDir σ.par 0 .tx, flipDir σ.tog 0 .tx, fun i hi => ?_,
    slotWritten_transmit hc 0 0 0, faultRecorded_transmit 0 0 0 σ, flipped_flipDir σ.par 0 .tx,
    flipped_flipDir σ.tog 0 .tx⟩
  have he : exec i σ = .next (statusStage σ) := by rcases hi with rfl | rfl <;> rfl
  rw [he, statusStage_eq]

/-- Settles O44: both variants follow what LOOKUP finds. -/
theorem getDescriptorSendsTheEntry : Obligations.GetDescriptorSendsTheEntry := by
  intro v x l σ i hi
  have he : exec i σ = .next (getDescriptor v x l σ) := by rcases hi with rfl | rfl <;> rfl
  refine ⟨fun p len hl => ?_, fun hl => ⟨_, he, fun rt => ?_⟩⟩
  · refine ⟨send p (truncateLength len l) σ, by rw [← truncateLength_eq]; rfl, ?_⟩
    rcases lookupDesc_of_exec hl with ⟨p', len', hd, heq⟩ | ⟨-, heq⟩ <;> cases congrArg State.result heq
    rw [he, getDescriptor_hit hd]
  · rcases lookupDesc_of_exec hl with ⟨p', len', -, heq⟩ | ⟨hd, -⟩
    · cases congrArg State.result heq
    · rw [getDescriptor_miss hd]
      rfl

/-- Settles O46: one TRANSMIT below 8 bytes, a pair from 8 on. -/
theorem sendArmsOneOrTwoPackets : Obligations.SendArmsOneOrTwoPackets := by
  refine ⟨fun p len σ hc h => ?_, fun p len σ hc h => ?_⟩
  · have he : exec (.send p len) σ = .next (transmit 0 p (BitVec.ofNat 10 len.toNat) σ) :=
      congrArg Host.Outcome.next (send_short p h σ)
    rw [transmit_eq] at he
    exact ⟨_, _, _, _, he, slotWritten_transmit hc 0 p _, faultRecorded_transmit 0 p (BitVec.ofNat 10 len.toNat) σ,
      flipped_flipDir σ.par 0 .tx, flipped_flipDir σ.tog 0 .tx⟩
  · have he : exec (.send p len) σ = .next (send p len σ) := rfl
    rw [send_full p h, sendPair_eq] at he
    exact ⟨_, _, he, slotsWritten_sendPair hc p _,
      mem_faults_sendPair hc p (BitVec.ofNat 10 (min (len.toNat - 8) 8))⟩

/-- Settles O47: an empty cursor arms nothing; a valid one is one TRANSMIT of its chunk. -/
theorem inCaseMovesTheCursor : Obligations.InCaseMovesTheCursor := by
  refine ⟨fun σ h => ?_, fun σ hc h => ?_⟩
  · have he : exec .ep0OnIn σ = .next (ep0OnIn σ) := rfl
    rw [he, ep0OnIn_eq, pushChunk_empty h]
    rfl
  · have he : exec .ep0OnIn σ = .next (ep0OnIn σ) := rfl
    rw [ep0OnIn_eq, pushChunk_valid h, cursorAfter_eq, chunk_eq_min, transmit_eq] at he
    exact ⟨_, _, _, _, he, slotWritten_transmit hc 0 σ.cur.ptr _,
      faultRecorded_transmit 0 σ.cur.ptr (BitVec.ofNat 10 (min σ.cur.len.toNat 8)) σ, flipped_flipDir σ.par 0 .tx,
      flipped_flipDir σ.tog 0 .tx⟩

/-- Settles O48: each OUT case is one ARM with the slot's own pointer. -/
theorem outCasesGiveTheBufferBack : Obligations.OutCasesGiveTheBufferBack := by
  intro s σ hc
  refine ⟨⟨(arm s (bdPtr σ s) 8 1 σ).mem, (arm s (bdPtr σ s) 8 1 σ).faults, ?_, slotWritten_arm hc s (bdPtr σ s) 8 1,
    faultRecorded_arm s (bdPtr σ s) 8 1 σ⟩, ⟨_, _, exec_arm s (bdPtr σ s) _ 0 σ, slotWritten_arm hc s (bdPtr σ s) _ 0,
    faultRecorded_arm s (bdPtr σ s) _ 0 σ⟩⟩
  rw [← ep0OnOut_eq]
  rfl

/-- Settles O50: the last of the `len / 8 + 1` services is of fewer than 8 bytes, and empties the cursor. -/
theorem cursorDrainsInTurn : Obligations.CursorDrainsInTurn := by
  intro σ p len h
  refine ⟨fun n hn => cur_iterate_ep0OnIn h hn, ?_⟩
  have hcur := cur_iterate_ep0OnIn h le_rfl
  have hleft : (len - BitVec.ofNat 16 (8 * (len.toNat / 8))).toNat < 8 := by bv_omega
  rw [Function.iterate_succ_apply', ep0OnIn_cur, pushChunk_cur (by rw [hcur]), hcur, cursorAfter_short hleft]
  rfl
end

section
/-! PROOF. The packet-count law (R194): one event and the ENGINE's run after it at a time, from the SETUP to the
last IN. -/

namespace Sys2Proof.Machine

open Sys2Proof

/-! ### Runs -/

/-- A run goes on where an earlier one ended. -/
theorem answers_append {m n : Nat} {σ τ ω : State} {rs rs' : List Response} (h : answers m σ = some (rs, τ))
    (h' : answers n τ = some (rs', ω)) : answers (m + n) σ = some (rs ++ rs', ω) := by
  induction m generalizing σ rs with
  | zero =>
    cases h
    rw [Nat.zero_add, List.nil_append, h']
  | succ m ih =>
    rw [Nat.add_right_comm]
    unfold answers at h ⊢
    match hs : step σ with
    | .next α =>
      rw [hs] at h
      dsimp only at h ⊢
      match ha : answers m α with
      | some (ts, β) =>
        rw [ha] at h
        simp only [Option.some.injEq, Prod.mk.injEq] at h
        obtain ⟨rfl, rfl⟩ := h
        rw [ih ha]
        dsimp only
        split <;> rfl
      | none => rw [ha] at h; cases h
    | .fault _ => rw [hs] at h; cases h
    | .refused _ => rw [hs] at h; cases h

/-- A step that answers nothing on the bus. -/
theorem answers_silent {σ τ : State} (h : step σ = .next τ) (hr : τ.response = .none) : answers 1 σ = some ([], τ) := by
  simp [answers, h, hr]

/-- A step that answers. -/
theorem answers_spoken {σ τ : State} (h : step σ = .next τ) (hr : τ.response ≠ .none) :
    answers 1 σ = some ([τ.response], τ) := by
  simp [answers, h, hr]

/-- Every state of a real run meets its invariant. -/
theorem runInv_answers {n : Nat} {σ τ : State} {rs : List Response} (h : RunInv σ) (ha : answers n σ = some (rs, τ)) :
    RunInv τ := by
  induction n generalizing σ rs with
  | zero => cases ha; exact h
  | succ n ih =>
    unfold answers at ha
    match hs : step σ with
    | .next α =>
      rw [hs] at ha
      dsimp only at ha
      match hb : answers n α with
      | some (ts, β) =>
        rw [hb] at ha
        cases ha
        exact ih (runInv_step h hs) hb
      | none => rw [hb] at ha; cases ha
    | .fault _ => rw [hs] at ha; cases ha
    | .refused _ => rw [hs] at ha; cases ha

/-- A HOST turn that holds the record of an event (R105). -/
theorem step_event {σ : State} {rest : List Turn} {i : Instr} (hc : ConfigOk σ.cfg)
    (hs : σ.schedule = .host (encode i) :: rest) (hw : i.wf = true) (hi : i.isHostEvent = true) :
    step σ = exec i (beginTurn rest σ) := by
  have hd := decode_encode [] hw
  rw [List.append_nil] at hd
  rw [step_host hc hs hd, if_pos hi]

/-! ### The ENGINE's run that serves one completion (R220 to R232) -/

/-- The state at phase `p` of a run that found TOKDNE alone, with the turns `rest` left. -/
def atPhase (p : Dph) (rest : List Turn) (σ : State) : State :=
  { σ with dstatus := 0x08, dph := p, schedule := rest, response := .none, result := .none }

/-- The state after the drain iteration at phase `p`, of what the handler left. -/
def drained (p : Dph) (rest : List Turn) (σ : State) : State :=
  { σ with
    statFifo := [], istat := 0, dstatus := 0, dph := p, schedule := rest, response := .none, result := .none }

@[simp] theorem atPhase_addr (p : Dph) (rest : List Turn) (σ : State) : (atPhase p rest σ).addr = σ.addr := rfl

@[simp] theorem atPhase_endpt (p : Dph) (rest : List Turn) (σ : State) : (atPhase p rest σ).endpt = σ.endpt := rfl

@[simp] theorem atPhase_lastSetup (p : Dph) (rest : List Turn) (σ : State) :
    (atPhase p rest σ).lastSetup = σ.lastSetup := rfl

@[simp] theorem atPhase_hwodd (p : Dph) (rest : List Turn) (σ : State) : (atPhase p rest σ).hwodd = σ.hwodd := rfl

@[simp] theorem atPhase_faults (p : Dph) (rest : List Turn) (σ : State) : (atPhase p rest σ).faults = σ.faults := rfl

@[simp] theorem atPhase_cfg (p : Dph) (rest : List Turn) (σ : State) : (atPhase p rest σ).cfg = σ.cfg := rfl

@[simp] theorem drained_addr (p : Dph) (rest : List Turn) (σ : State) : (drained p rest σ).addr = σ.addr := rfl

@[simp] theorem drained_endpt (p : Dph) (rest : List Turn) (σ : State) : (drained p rest σ).endpt = σ.endpt := rfl

@[simp] theorem drained_cur (p : Dph) (rest : List Turn) (σ : State) : (drained p rest σ).cur = σ.cur := rfl

@[simp] theorem drained_lastSetup (p : Dph) (rest : List Turn) (σ : State) :
    (drained p rest σ).lastSetup = σ.lastSetup := rfl

@[simp] theorem drained_hwodd (p : Dph) (rest : List Turn) (σ : State) : (drained p rest σ).hwodd = σ.hwodd := rfl

@[simp] theorem drained_faults (p : Dph) (rest : List Turn) (σ : State) : (drained p rest σ).faults = σ.faults := rfl

@[simp] theorem drained_cfg (p : Dph) (rest : List Turn) (σ : State) : (drained p rest σ).cfg = σ.cfg := rfl

theorem latched_atPhase (f : Flag) (p : Dph) (rest : List Turn) (σ : State) :
    latched f (atPhase p rest σ) = decide (Flag.tokdne = f) := hasBit_flagMask .tokdne f

theorem latched_drained (f : Flag) (p : Dph) (rest : List Turn) (σ : State) :
    latched f (drained p rest σ) = false := by
  show hasBit 0 (flagMask f) = false
  cases f <;> decide

/-- A run once begun goes on (R220). -/
theorem engineEnabled_of_phase {σ : State} (h : σ.dph ≠ .idle) : engineEnabled σ = true := by
  rw [engineEnabled, decide_eq_true h, Bool.true_or]

theorem answers_engine {σ τ : State} {rest : List Turn} (hc : ConfigOk σ.cfg) (hs : σ.schedule = .engine :: rest)
    (he : engineEnabled σ = true) (hx : exec (phaseInstr σ.dph) (beginTurn rest σ) = .next τ)
    (hr : τ.response = .none) : answers 1 σ = some ([], τ) := by
  refine answers_silent ?_ hr
  rw [step_engine hc (.inl hs), if_pos he, hx]

/-! The turns of the run that find nothing to do, one per phase. -/

section
variable {σ : State} (hc : ConfigOk σ.cfg) (rest : List Turn)
include hc

theorem answers_atPhase_err : answers 1 (atPhase .err (.engine :: rest) σ) = some ([], atPhase .sof rest σ) := by
  have hx : irqError (atPhase .err rest σ) = atPhase .sof rest σ := by
    rw [irqError, latched_atPhase]
    rfl
  exact answers_engine hc rfl (engineEnabled_of_phase nofun) (congrArg Host.Outcome.next hx) rfl

theorem answers_atPhase_sof : answers 1 (atPhase .sof (.engine :: rest) σ) = some ([], atPhase .tok rest σ) := by
  have hx : irqSoftok (atPhase .sof rest σ) = atPhase .tok rest σ := by
    rw [irqSoftok, latched_atPhase]
    rfl
  exact answers_engine hc rfl (engineEnabled_of_phase nofun) (congrArg Host.Outcome.next hx) rfl

theorem answers_drained_tok : answers 1 (drained .tok (.engine :: rest) σ) = some ([], drained .sleep rest σ) := by
  have hx : irqTokdne (drained .tok rest σ) = drained .sleep rest σ := by
    rw [irqTokdne, latched_drained]
    rfl
  exact answers_engine hc rfl (engineEnabled_of_phase nofun) (congrArg Host.Outcome.next hx) rfl

theorem answers_drained_sleep : answers 1 (drained .sleep (.engine :: rest) σ) = some ([], drained .stall rest σ) := by
  have hx : irqSleep (drained .sleep rest σ) = drained .stall rest σ := by
    rw [irqSleep, latched_drained]
    rfl
  exact answers_engine hc rfl (engineEnabled_of_phase nofun) (congrArg Host.Outcome.next hx) rfl

theorem answers_drained_stall : answers 1 (drained .stall (.engine :: rest) σ) = some ([], drained .idle rest σ) := by
  have hx : irqStall (drained .stall rest σ) = drained .idle rest σ := by
    rw [irqStall, latched_drained]
    rfl
  exact answers_engine hc rfl (engineEnabled_of_phase nofun) (congrArg Host.Outcome.next hx) rfl

end

section
variable {σ : State} {v : Byte} (hi : σ.istat = 0x08) (rest : List Turn)
include hi

/-- D_IDLE: TOKDNE is latched, and there is no reset (R221). -/
theorem irqUsbrst_tokdne : irqUsbrst (beginTurn rest σ) = atPhase .err rest σ := by
  have hl : latched .usbrst (enterRun (beginTurn rest σ)) = false := by
    show hasBit σ.istat (flagMask .usbrst) = false
    rw [hi]
    decide
  rw [irqUsbrst, hl, if_neg (by decide), atPhase, ← hi]
  rfl

/-- D_TOK: the one completion is served (R225). -/
theorem irqTokdne_atPhase (hf : σ.statFifo = [v]) :
    irqTokdne (atPhase .tok rest σ) = drained .tok rest (callHandler v (atPhase .tok rest σ)) := by
  have hl : latched .tokdne (atPhase .tok rest σ) = true := (by decide : hasBit 0x08 (flagMask .tokdne) = true)
  have hi' : (atPhase .tok rest σ).istat = 0x08 := hi
  have hf' : (atPhase .tok rest σ).statFifo = [v] := hf
  have hserved : served (atPhase .tok rest σ) = callHandler v (atPhase .tok rest σ) := by rw [served, readStat, hf']
  have hsch : (callHandler v (atPhase .tok rest σ)).schedule = rest := callHandler_schedule ..
  have hres : (callHandler v (atPhase .tok rest σ)).response = .none := callHandler_response ..
  have hout : (callHandler v (atPhase .tok rest σ)).result = .none := callHandler_result ..
  rw [irqTokdne, if_pos hl, drainOne_eq, hserved, hi', hf']
  generalize callHandler v (atPhase .tok rest σ) = ω at *
  have hst : ((0x08 : Byte) &&& 0xF7) ||| (if [v].tail = [] then 0 else 0x08) = 0 := by
    rw [List.tail_cons, if_pos rfl]
    decide
  rw [hst, drained, ← hsch, ← hres, ← hout]
  rfl

/-- The state a run of seven turns leaves, of the completion `v` (R230, R232). -/
def afterRun (v : Byte) (rest : List Turn) (σ : State) : State :=
  drained .idle rest (callHandler v (atPhase .tok (List.replicate 3 .engine ++ rest) σ))

/-- The ENGINE's run of seven turns serves the completion, and leaves nothing pending (R230, R232). -/
theorem answers_run (hc : ConfigOk σ.cfg) (hn : σ.inten = irqMask) (hd : σ.dph = .idle) (hf : σ.statFifo = [v])
    (hs : σ.schedule = List.replicate 7 .engine ++ rest) : answers 7 σ = some ([], afterRun v rest σ) := by
  have he : engineEnabled σ = true := by
    rw [engineEnabled, irq, hi, hn, hd]
    decide
  have hx : exec (phaseInstr σ.dph) (beginTurn (List.replicate 6 .engine ++ rest) σ) =
      .next (atPhase .err (List.replicate 6 .engine ++ rest) σ) := by
    rw [hd, ← irqUsbrst_tokdne hi]
    rfl
  have h1 := answers_engine hc hs he hx rfl
  have h2 := answers_atPhase_err hc (List.replicate 5 .engine ++ rest)
  have h3 := answers_atPhase_sof hc (List.replicate 4 .engine ++ rest)
  have h4 : answers 1 (atPhase .tok (List.replicate 4 .engine ++ rest) σ) =
      some ([], drained .tok (List.replicate 3 .engine ++ rest)
        (callHandler v (atPhase .tok (List.replicate 3 .engine ++ rest) σ))) :=
    answers_engine hc rfl (engineEnabled_of_phase nofun) (congrArg Host.Outcome.next (irqTokdne_atPhase hi _ hf)) rfl
  have hc' : ConfigOk (callHandler v (atPhase .tok (List.replicate 3 .engine ++ rest) σ)).cfg := by
    rw [callHandler_cfg]
    exact hc
  unfold afterRun
  generalize callHandler v (atPhase .tok (List.replicate 3 .engine ++ rest) σ) = ω at *
  have h5 := answers_drained_tok hc' (List.replicate 2 .engine ++ rest)
  have h6 := answers_drained_sleep hc' (List.replicate 1 .engine ++ rest)
  have h7 := answers_drained_stall hc' rest
  exact answers_append h1 (answers_append h2 (answers_append h3 (answers_append h4 (answers_append h5
    (answers_append h6 h7)))))

end
/-! ### The bytes sent (R263, R153) -/

theorem add_ofNat_succ (a : Word) (k : Nat) : a + 1 + BitVec.ofNat 32 k = a + BitVec.ofNat 32 (k + 1) := by
  rw [BitVec.add_assoc]
  congr 1
  apply BitVec.eq_of_toNat_eq
  simp [Nat.add_comm]

theorem drop_readBytes (c : Config) (m : Memory) (a : Word) (n k : Nat) :
    (readBytes c m a n).drop k = readBytes c m (a + BitVec.ofNat 32 k) (n - k) := by
  induction k generalizing a n with
  | zero => simp
  | succ k ih =>
    cases n with
    | zero => simp [readBytes]
    | succ n => rw [readBytes, List.drop_succ_cons, ih, add_ofNat_succ, Nat.add_sub_add_right]

theorem take_readBytes (c : Config) (m : Memory) (a : Word) (n k : Nat) :
    (readBytes c m a n).take k = readBytes c m a (min n k) := by
  induction k generalizing a n with
  | zero => simp [readBytes]
  | succ k ih =>
    cases n with
    | zero => simp [readBytes]
    | succ n => rw [readBytes, List.take_succ_cons, ih, Nat.add_min_add_right, readBytes]

/-- Every byte of a run inside the store is read-only (R66, R263). -/
theorem romByte_of_inStore {c : Config} (hc : ConfigOk c) {p : Word} {n i : Nat} (h : inStore c p n) (hi : i < n) :
    ∃ b, romByte c (p + BitVec.ofNat 32 i).toNat = some b := by
  rcases h with rfl | ⟨d, hd, h1, h2⟩
  · omega
  · have hr := region_end_le hc (blockRegion_mem hd)
    simp only [blockRegion] at hr
    have ha : (p + BitVec.ofNat 32 i).toNat = p.toNat + i := toNat_add_small (by omega)
    have hb : blockByte d (p + BitVec.ofNat 32 i).toNat ≠ none := by
      rw [blockByte, if_pos (by omega), ne_eq, List.getElem?_eq_none_iff]
      omega
    refine Option.ne_none_iff_exists'.mp fun hn => hb ?_
    exact List.findSome?_eq_none_iff.mp hn d hd

/-- Bytes of the store read the same in every canonical memory (R264). -/
theorem readBytes_store {c : Config} (hc : ConfigOk c) {m m' : Memory} (hm : Memory.wf c m = true)
    (hm' : Memory.wf c m' = true) {p : Word} {n : Nat} (h : inStore c p n) :
    readBytes c m' p n = readBytes c m p n := by
  apply List.ext_getElem?
  intro i
  by_cases hi : i < n
  · obtain ⟨b, hb⟩ := romByte_of_inStore hc h hi
    rw [getElem?_readBytes _ _ _ _ hi, getElem?_readBytes _ _ _ _ hi, readByte_rom hm hb, readByte_rom hm' hb]
  · have none (x : Memory) : (readBytes c x p n)[i]? = none :=
      List.getElem?_eq_none (by rw [length_readBytes]; omega)
    rw [none, none]

theorem loadBytes_store {σ τ : State} (hσ : RunInv σ) (hτ : RunInv τ) (hcfg : τ.cfg = σ.cfg) {p : Word} {n : Nat}
    (h : inStore σ.cfg p n) : loadBytes p n τ = loadBytes p n σ := by
  have hm := hτ.base.memory
  rw [hcfg] at hm
  rw [loadBytes, hcfg]
  exact readBytes_store hσ.configOk hσ.base.memory hm h

/-- The data packet with toggle `t`. -/
def packetOf (t : Bit) (bytes : List Byte) : Response := if t = 0 then .data0 bytes else .data1 bytes

theorem packetOf_ne_none (t : Bit) (bytes : List Byte) : packetOf t bytes ≠ .none := by
  unfold packetOf
  split <;> nofun

/-- The data packet of a slot as ARM left it (R153). -/
theorem dataPacket_of_armWord {σ : State} {s : Slot} {n : Count} {t : Bit} (h : bdWord σ s = armWord n t) :
    dataPacket σ s = packetOf t (loadBytes (bdPtr σ s) n.toNat σ) := by
  rw [dataPacket, h, wordData01_armWord, wordBC_armWord]
  rfl

/-- Packet `j` of a transfer of `bytes` whose first packet has toggle `t`: 8 bytes, or those left (R194). -/
def packetAt (t : Bit) (bytes : List Byte) (j : Nat) : Response :=
  packetOf (if j % 2 = 0 then t else t ^^^ 1) ((bytes.drop (8 * j)).take 8)

theorem packetAt_succ (t : Bit) (bytes : List Byte) (j : Nat) :
    packetAt t bytes (j + 1) = packetAt (t ^^^ 1) (bytes.drop 8) j := by
  unfold packetAt
  rw [List.drop_drop, Nat.mul_add, Nat.add_comm 8, xor_one_xor_one]
  rcases Nat.mod_two_eq_zero_or_one j with h | h
  · have h' : (j + 1) % 2 ≠ 0 := by omega
    rw [if_pos h, if_neg h']
  · have h' : (j + 1) % 2 = 0 := by omega
    have hj : j % 2 ≠ 0 := by omega
    rw [if_pos h', if_neg hj]

/-- From DATA1 on, the even packets are DATA1 and the odd ones DATA0. -/
theorem packetAt_data1 (bytes : List Byte) (j : Nat) :
    packetAt 1 bytes j =
      if j % 2 = 0 then .data1 ((bytes.drop (8 * j)).take 8) else .data0 ((bytes.drop (8 * j)).take 8) := by
  unfold packetAt
  split <;> rfl

theorem packetAt_zero {σ : State} (t : Bit) (q : Word) (left : Half) :
    packetAt t (loadBytes q left.toNat σ) 0 = packetOf t (loadBytes q (chunk left).toNat σ) := by
  have hn : (chunk left).toNat = min left.toNat 8 := by
    rw [chunk_eq_min, BitVec.toNat_ofNat]
    omega
  rw [packetAt, if_pos rfl, Nat.mul_zero, List.drop_zero, hn, loadBytes, take_readBytes]
  rfl

theorem drop_loadBytes {σ : State} (q : Word) (left : Half) (h : 8 ≤ left.toNat) :
    (loadBytes q left.toNat σ).drop 8 = loadBytes (q + 8) (left - 8).toNat σ := by
  have hn : (left - 8).toNat = left.toNat - 8 := by bv_omega
  rw [hn, loadBytes, drop_readBytes]
  rfl

/-! ### What is queued on endpoint 0's TX side (R188, R189) -/

/-- What lies behind the packet in the slot of parity `h`, where `left` bytes at `q` are still to send and that packet
has toggle `t`: with 8 bytes or more, the next packet in the other slot; then the cursor. -/
structure Behind (h : Bit) (q : Word) (left : Half) (t : Bit) (σ : State) : Prop where
  nextWord : 8 ≤ left.toNat → bdWord σ (slotBits 0 1 (h ^^^ 1)) = armWord (chunk (left - 8)) (t ^^^ 1)
  nextPtr : 8 ≤ left.toNat → bdPtr σ (slotBits 0 1 (h ^^^ 1)) = q + 8
  par : 8 ≤ left.toNat → getDir σ.par 0 .tx = h
  tog : 8 ≤ left.toNat → getDir σ.tog 0 .tx = t
  cur : σ.cur = if left.toNat < 16 then Cursor.empty else { valid := true, ptr := q + 16, len := left - 16 }

/-- `left` bytes at `q` are queued, the first packet in the slot of parity `h` under toggle `t`. -/
structure Queued (h : Bit) (q : Word) (left : Half) (t : Bit) (σ : State) : Prop where
  headWord : bdWord σ (slotBits 0 1 h) = armWord (chunk left) t
  headPtr : bdPtr σ (slotBits 0 1 h) = q
  behind : Behind h q left t σ

theorem bd_congr {σ τ : State} (hcfg : τ.cfg = σ.cfg) (hm : τ.mem = σ.mem) (s : Slot) :
    bdWord τ s = bdWord σ s ∧ bdPtr τ s = bdPtr σ s := by
  unfold bdWord bdPtr
  rw [hcfg, hm]
  exact ⟨rfl, rfl⟩

/-! The updates between one packet and the next that touch nothing of the queue. -/

section
variable {h t : Bit} {q : Word} {left : Half} {σ : State}

theorem Behind.begun (b : Behind h q left t σ) (rest : List Turn) : Behind h q left t (beginTurn rest σ) :=
  ⟨b.nextWord, b.nextPtr, b.par, b.tog, b.cur⟩

theorem Behind.responded (b : Behind h q left t σ) (r : Response) : Behind h q left t { σ with response := r } :=
  ⟨b.nextWord, b.nextPtr, b.par, b.tog, b.cur⟩

theorem Behind.phased (b : Behind h q left t σ) (p : Dph) (rest : List Turn) :
    Behind h q left t (atPhase p rest σ) := ⟨b.nextWord, b.nextPtr, b.par, b.tog, b.cur⟩

theorem Queued.update (k : Queued h q left t σ) (addr : UsbAddr) (ep0State : Ep0State) :
    Queued h q left t { σ with addr := addr, ep0State := ep0State } :=
  have b := k.behind
  ⟨k.headWord, k.headPtr, b.nextWord, b.nextPtr, b.par, b.tog, b.cur⟩

theorem Queued.drained (k : Queued h q left t σ) (p : Dph) (rest : List Turn) :
    Queued h q left t (drained p rest σ) :=
  have b := k.behind
  ⟨k.headWord, k.headPtr, b.nextWord, b.nextPtr, b.par, b.tog, b.cur⟩

end

/-- SEND queues its bytes, from an empty cursor (R188). -/
theorem queued_send {h t : Bit} {q : Word} {left : Half} {σ : State} (hc : ConfigOk σ.cfg)
    (hp : getDir σ.par 0 .tx = h) (ht : getDir σ.tog 0 .tx = t) (hcur : σ.cur = Cursor.empty) :
    Queued h q left t (send q left σ) := by
  subst hp ht
  by_cases h8 : left.toNat < 8
  · have no {P : Prop} : 8 ≤ left.toNat → P := fun hl => absurd hl (by omega)
    rw [send_short q h8, ← chunk_short h8]
    refine ⟨(bdWord_transmit hc ..).trans (if_pos rfl), (bdPtr_transmit hc ..).trans (if_pos rfl), no, no, no, no, ?_⟩
    rw [transmit_cur, hcur, if_pos (by omega)]
  · have hl : 8 ≤ left.toNat := by omega
    have hn : (left - 8).toNat = left.toNat - 8 := by bv_omega
    have w := slotsWritten_sendPair hc q (chunk (left - 8))
    rw [← chunk_full hl] at w
    rw [send_full q hl, ← hn, ← chunk_eq_min, sendPair_eq]
    refine ⟨w.word, w.ptr, fun _ => w.word', fun _ => w.ptr', fun _ => rfl, fun _ => rfl, ?_⟩
    dsimp only
    rw [hcur]

/-- SEND onto two slots the ENGINE owns records no fault (R131). -/
theorem send_faults_of_free {σ : State} (hc : ConfigOk σ.cfg) (hfree : ∀ b : Bit, bdOwned σ (slotBits 0 1 b) = false)
    (q : Word) (left : Half) : (send q left σ).faults = σ.faults := by
  have first (n : Count) : (transmit 0 q n σ).faults = σ.faults := transmit_faults_of_free (hfree _) q n
  by_cases h8 : left.toNat < 8
  · rw [send_short q h8]
    exact first _
  · have other : bdOwned (transmit 0 q 8 σ) (transmitSlot (transmit 0 q 8 σ) 0) = false := by
      rw [transmitSlot_transmit, bdOwned_of_word_eq (bdWord_transmit_other hc 0 q 8)]
      exact hfree _
    rw [send_full q (by omega)]
    dsimp only
    rw [sendPair, transmit_faults_of_free other, first]

/-- The chunk of a valid cursor, in the slot PAR names (R189). -/
theorem bd_pushChunk {σ : State} (hc : ConfigOk σ.cfg) (hv : σ.cur.valid = true) (s : Slot) :
    bdWord (pushChunk σ) s =
        (if s = transmitSlot σ 0 then armWord (chunk σ.cur.len) (getDir σ.tog 0 .tx) else bdWord σ s) ∧
      bdPtr (pushChunk σ) s = (if s = transmitSlot σ 0 then σ.cur.ptr else bdPtr σ s) := by
  have hmem : (pushChunk σ).mem = (transmit 0 σ.cur.ptr (chunk σ.cur.len) σ).mem := by rw [pushChunk_valid hv]
  have hcfg : (pushChunk σ).cfg = (transmit 0 σ.cur.ptr (chunk σ.cur.len) σ).cfg := by rw [pushChunk_cfg, transmit_cfg]
  rw [← bdWord_transmit hc, ← bdPtr_transmit hc]
  exact bd_congr hcfg hmem s

theorem pushChunk_par {σ : State} (hv : σ.cur.valid = true) : (pushChunk σ).par = flipDir σ.par 0 .tx := by
  rw [pushChunk_valid hv]
  dsimp only
  rw [transmit_par]

theorem pushChunk_tog {σ : State} (hv : σ.cur.valid = true) : (pushChunk σ).tog = flipDir σ.tog 0 .tx := by
  rw [pushChunk_valid hv]
  dsimp only
  rw [transmit_tog]

theorem ep0OnIn_faults (σ : State) : (ep0OnIn σ).faults = (pushChunk σ).faults := by rw [ep0OnIn_eq]

/-- ADDR stays unless the last request was SET_ADDRESS (R25, R189). -/
theorem ep0OnIn_addr {σ : State} (h : lastRT σ ≠ 0x0500) : (ep0OnIn σ).addr = σ.addr := by
  rw [ep0OnIn_eq, if_neg h]

section
variable {h t : Bit} {q : Word} {left : Half} {σ : State} (b : Behind h q left t σ)
include b

/-- From 16 bytes on, the next chunk goes to the slot of the packet just sent (R188, R189). -/
theorem Behind.transmitSlot_eq (hl : 8 ≤ left.toNat) : transmitSlot σ 0 = slotBits 0 1 h := by
  rw [transmitSlot, b.par hl]
  rfl

/-- The IN case, with 8 bytes or more under way: the other slot's packet is now the first, and the next chunk takes the
free slot (R189, R194). -/
theorem Behind.queued_pushChunk (hc : ConfigOk σ.cfg) (hl : 8 ≤ left.toNat) :
    Queued (h ^^^ 1) (q + 8) (left - 8) (t ^^^ 1) (pushChunk σ) := by
  have hcur := b.cur
  by_cases h16 : left.toNat < 16
  · have h8 : (left - 8).toNat < 8 := by bv_omega
    have no {P : Prop} : 8 ≤ (left - 8).toNat → P := fun hl => absurd hl (by omega)
    rw [if_pos h16] at hcur
    rw [pushChunk_empty (by rw [hcur]; rfl)]
    exact ⟨b.nextWord hl, b.nextPtr hl, no, no, no, no, by rw [hcur, if_pos (by omega)]⟩
  · rw [if_neg h16] at hcur
    have hv : σ.cur.valid = true := by rw [hcur]
    have e16 : left - 8 - 8 = left - 16 := by bv_omega
    have p16 : q + 8 + 8 = q + 16 := by bv_omega
    have hne : slotBits 0 1 (h ^^^ 1) ≠ slotBits 0 1 h := txSlot_flip_ne 0 h
    have hbd := bd_pushChunk hc hv
    rw [b.transmitSlot_eq hl, hcur, b.tog hl] at hbd
    refine ⟨?_, ?_, fun _ => ?_, fun _ => ?_, fun _ => ?_, fun _ => ?_, ?_⟩
    · rw [(hbd _).1, if_neg hne, b.nextWord hl]
    · rw [(hbd _).2, if_neg hne, b.nextPtr hl]
    · rw [(hbd _).1, xor_one_xor_one, if_pos rfl, e16, xor_one_xor_one]
    · rw [(hbd _).2, xor_one_xor_one, if_pos rfl, p16]
    · rw [pushChunk_par hv, getDir_flipDir_same, b.par hl]
    · rw [pushChunk_tog hv, getDir_flipDir_same, b.tog hl]
    · have hptr : q + 16 + 8 = q + 8 + 16 := by bv_omega
      have hleft : left - 16 - 8 = left - 8 - 16 := by bv_omega
      have hiff : 8 ≤ (left - 16).toNat ↔ ¬ (left - 8).toNat < 16 := by bv_omega
      rw [pushChunk_cur hv, hcur, cursorAfter_eq]
      simp only [hiff, hptr, hleft, ite_not]

end
/-- A packet was sent and another is queued: the next chunk finds its slot free (R189). -/
theorem Behind.pushChunk_faults {h t : Bit} {q : Word} {left : Half} {σ : State} (b : Behind h q left t σ)
    (hfree : bdOwned σ (slotBits 0 1 h) = false) : (pushChunk σ).faults = σ.faults := by
  have hcur := b.cur
  by_cases h16 : left.toNat < 16
  · rw [if_pos h16] at hcur
    rw [pushChunk_empty (by rw [hcur]; rfl)]
  · rw [if_neg h16] at hcur
    rw [← b.transmitSlot_eq (by omega)] at hfree
    rw [pushChunk_valid (by rw [hcur])]
    dsimp only
    rw [transmit_faults_of_free hfree]

/-- With fewer than 8 bytes under way nothing is left for the cursor (R194). -/
theorem Behind.pushChunk_last {h t : Bit} {q : Word} {left : Half} {σ : State} (b : Behind h q left t σ)
    (hl : left.toNat < 8) : (pushChunk σ).cur = Cursor.empty := by
  have hcur := b.cur
  rw [if_pos (by omega)] at hcur
  rw [pushChunk_empty (by rw [hcur]; rfl), hcur]

/-- COMPLETE on the slot of parity `h` leaves what lies behind it (R151). -/
theorem Behind.completed {h t : Bit} {q : Word} {left : Half} {σ : State} (b : Behind h q left t σ)
    (hc : ConfigOk σ.cfg) (hh : getDir σ.hwodd 0 .tx = h) (n : Count) :
    Behind h q left t (complete 0 .tx n .inTok σ) := by
  have hne : slotBits 0 1 (h ^^^ 1) ≠ sieSlot σ 0 .tx := by
    rw [sieSlot, hh]
    exact txSlot_flip_ne 0 h
  obtain ⟨hw, hp⟩ := bd_of_slotWritten hc (complete_cfg ..) (slotWritten_complete hc 0 .tx n .inTok)
    (slotBits 0 1 (h ^^^ 1))
  rw [if_neg hne] at hw hp
  exact ⟨fun hl => hw.trans (b.nextWord hl), fun hl => hp.trans (b.nextPtr hl), b.par, b.tog, b.cur⟩

/-- The completed slot holds IN (R92, R151). -/
theorem wordPid_complete_in {σ : State} (hc : ConfigOk σ.cfg) (n : Count) :
    wordPid (bdWord (complete 0 .tx n .inTok σ) (sieSlot σ 0 .tx)) = tokPid .inTok := by
  rw [(bd_of_slotWritten hc (complete_cfg ..) (slotWritten_complete hc 0 .tx n .inTok) _).1, if_pos rfl,
    wordPid_doneWord]

/-! ### One event and its run -/

theorem statFifo_of_quiet {σ : State} (h : Inv σ) (hi : σ.istat = 0) : σ.statFifo = [] := by
  have ht := h.tokdne
  rw [hi, show hasBit 0 (flagMask .tokdne) = false by decide] at ht
  simpa using ht.symm

/-- One completion is pending, and the ENGINE's run is next. -/
structure Pending (v : Byte) (rest : List Turn) (σ : State) : Prop where
  run : RunInv σ
  idle : σ.dph = .idle
  istat : σ.istat = 0x08
  statFifo : σ.statFifo = [v]
  schedule : σ.schedule = List.replicate 7 .engine ++ rest

theorem Pending.served {v : Byte} {rest : List Turn} {σ : State} (h : Pending v rest σ) :
    answers 7 σ = some ([], afterRun v rest σ) :=
  answers_run h.istat rest h.run.configOk h.run.inten h.idle h.statFifo h.schedule

theorem Pending.runInv_afterRun {v : Byte} {rest : List Turn} {σ : State} (h : Pending v rest σ) :
    RunInv (afterRun v rest σ) := runInv_answers h.run h.served

/-- `left` bytes at `q` are under way to the host on endpoint 0, the next packet under toggle `t`; nothing is
pending. -/
structure Transfer (q : Word) (left : Half) (t : Bit) (σ : State) : Prop where
  run : RunInv σ
  idle : σ.dph = .idle
  istat : σ.istat = 0
  enabled : getEp σ.endpt 0 = endptEnabled
  request : lastRT σ ≠ 0x0500
  source : inStore σ.cfg q left.toNat
  queued : Queued (getDir σ.hwodd 0 .tx) q left t σ

/-- What a round leaves as it was, and the turns it leaves. -/
structure RoundKeeps (rest : List Turn) (σ τ : State) : Prop where
  schedule : τ.schedule = rest
  cfg : τ.cfg = σ.cfg
  addr : τ.addr = σ.addr
  faults : τ.faults = σ.faults

/-- The packet of a transfer was sent from the slot of parity `h`, and its completion is pending. -/
structure Sent (h : Bit) (q : Word) (left : Half) (t : Bit) (rest : List Turn) (σ τ : State) : Prop where
  pending : Pending (statWord 0 1 h) rest τ
  behind : Behind h q left t τ
  pid : wordPid (bdWord τ (slotBits 0 1 h)) = tokPid .inTok
  free : bdOwned τ (slotBits 0 1 h) = false
  hwodd : getDir τ.hwodd 0 .tx = h ^^^ 1
  cfg : τ.cfg = σ.cfg
  addr : τ.addr = σ.addr
  faults : τ.faults = σ.faults
  endpt : τ.endpt = σ.endpt
  lastSetup : τ.lastSetup = σ.lastSetup

theorem acceptable_in {σ : State} (hf : σ.statFifo = []) (he : getEp σ.endpt 0 = endptEnabled)
    (ho : bdOwned σ (sieSlot σ 0 .tx) = true) : Acceptable .inTok σ.addr 0 σ := by
  unfold Acceptable endptHas
  rw [he, hf]
  exact ⟨rfl, by decide, by decide, .inr (by decide), by decide, ho⟩

/-- An acknowledged IN token sends the packet at the head (R153). -/
theorem Transfer.in_sent {q : Word} {left : Half} {t : Bit} {σ : State} {rest : List Turn} (T : Transfer q left t σ)
    (hs : σ.schedule = .host (encode (.tokIn σ.addr 0 .ack)) :: (List.replicate 7 .engine ++ rest)) :
    ∃ τ, step σ = .next τ ∧ τ.response = packetOf t (loadBytes q (chunk left).toNat σ) ∧
      Sent (getDir σ.hwodd 0 .tx) q left t rest σ τ := by
  have hc := T.run.configOk
  have hf := statFifo_of_quiet T.run.base T.istat
  have hword : bdWord σ (sieSlot σ 0 .tx) = armWord (chunk left) t := T.queued.headWord
  have ho : bdOwned σ (sieSlot σ 0 .tx) = true := bdOwned_iff.mpr (by rw [hword, wordOwn_armWord])
  have hx := exec_tokIn_ack (acceptable_in (σ := beginTurn (List.replicate 7 .engine ++ rest) σ) hf T.enabled ho)
  have hstep := (step_event hc hs rfl rfl).trans hx
  have hbehind := ((T.queued.behind.begun (List.replicate 7 .engine ++ rest)).completed hc rfl
    (wordBC (bdWord σ (sieSlot σ 0 .tx)))).responded (dataPacket (beginTurn (List.replicate 7 .engine ++ rest) σ)
      (sieSlot σ 0 .tx))
  refine ⟨_, hstep, ?_, {
    pending := ⟨runInv_step T.run hstep, T.idle, ?_, ?_, rfl⟩
    behind := hbehind
    pid := wordPid_complete_in hc _
    free := bdOwned_complete hc 0 .tx _ .inTok
    hwodd := getDir_flipDir_same ..
    cfg := rfl, addr := rfl, faults := rfl, endpt := rfl, lastSetup := rfl }⟩
  · refine (dataPacket_of_armWord hword).trans ?_
    rw [show bdPtr σ (sieSlot σ 0 .tx) = q from T.queued.headPtr]
  · show σ.istat ||| 0x08 = 0x08
    rw [T.istat]
    rfl
  · show σ.statFifo ++ _ = _
    rw [hf]
    rfl

/-- The run after it is the IN case's (R180, R189). -/
theorem Sent.afterRun_eq {h t : Bit} {q : Word} {left : Half} {σ τ : State} {rest : List Turn}
    (S : Sent h q left t rest σ τ) :
    afterRun (statWord 0 1 h) rest τ =
      drained .idle rest (ep0OnIn (atPhase .tok (List.replicate 3 .engine ++ rest) τ)) := by
  have hp : wordPid (bdWord (atPhase .tok (List.replicate 3 .engine ++ rest) τ) (statSlot (statWord 0 1 h))) =
      tokPid .inTok := by
    rw [statSlot_statWord]
    exact S.pid
  rw [afterRun, callHandler_ep0 (statEndp_statWord ..), ep0Handler_in hp]

/-- The round of an IN token: the packet at the head goes out, and the run serves its completion (R153, R189). -/
theorem Transfer.in_round {q : Word} {left : Half} {t : Bit} {σ : State} {rest : List Turn} (T : Transfer q left t σ)
    (hs : σ.schedule = .host (encode (.tokIn σ.addr 0 .ack)) :: (List.replicate 7 .engine ++ rest)) :
    ∃ τ, answers 8 σ = some ([packetOf t (loadBytes q (chunk left).toNat σ)], τ) ∧ RoundKeeps rest σ τ ∧
      (8 ≤ left.toNat → Transfer (q + 8) (left - 8) (t ^^^ 1) τ) ∧ (left.toNat < 8 → τ.cur = Cursor.empty) := by
  obtain ⟨τ, hstep, hresp, S⟩ := T.in_sent hs
  have hspoken := answers_spoken hstep (by rw [hresp]; exact packetOf_ne_none _ _)
  have hround := answers_append hspoken S.pending.served
  have hinv := S.pending.runInv_afterRun
  rw [S.afterRun_eq] at hround hinv
  rw [hresp, List.append_nil] at hround
  have hb := S.behind.phased .tok (List.replicate 3 .engine ++ rest)
  have hfree : bdOwned (atPhase .tok (List.replicate 3 .engine ++ rest) τ) (slotBits 0 1 (getDir σ.hwodd 0 .tx)) =
      false := S.free
  have hlast : lastRT (atPhase .tok (List.replicate 3 .engine ++ rest) τ) = lastRT σ := congrArg setupRT S.lastSetup
  have hc : ConfigOk (atPhase .tok (List.replicate 3 .engine ++ rest) τ).cfg := S.pending.run.configOk
  refine ⟨_, hround, { schedule := rfl, cfg := ?_, addr := ?_, faults := ?_ }, fun hl => {
    run := hinv, idle := rfl, istat := rfl, enabled := ?_, request := ?_, source := ?_, queued := ?_ }, fun hl => ?_⟩
  · rw [drained_cfg, ep0OnIn_cfg, atPhase_cfg, S.cfg]
  · rw [drained_addr, ep0OnIn_addr (by rw [hlast]; exact T.request), atPhase_addr, S.addr]
  · rw [drained_faults, ep0OnIn_faults, hb.pushChunk_faults hfree, atPhase_faults, S.faults]
  · rw [drained_endpt, ep0OnIn_endpt, atPhase_endpt, S.endpt, T.enabled]
  · rw [lastRT, drained_lastSetup, ep0OnIn_lastSetup, atPhase_lastSetup, S.lastSetup]
    exact T.request
  · rw [drained_cfg, ep0OnIn_cfg, atPhase_cfg, S.cfg]
    exact inStore_part T.run.configOk T.source (k := 8) (by bv_omega)
  · rw [drained_hwodd, ep0OnIn_hwodd, atPhase_hwodd, S.hwodd]
    have k := hb.queued_pushChunk hc hl
    rw [ep0OnIn_eq]
    exact (k.update _ _).drained _ _
  · rw [drained_cur, ep0OnIn_cur, hb.pushChunk_last hl]

/-- One turn of the host's IN polling: an acknowledged token, and the ENGINE's run. -/
def inTurns (a : UsbAddr) : List Turn := .host (encode (.tokIn a 0 .ack)) :: List.replicate 7 .engine

/-- The whole transfer: `left / 8 + 1` tokens fetch its packets in order (R194). -/
theorem Transfer.fetched {q : Word} {left : Half} {t : Bit} {σ : State} {rest : List Turn} (T : Transfer q left t σ)
    {k : Nat} (hk : left.toNat / 8 = k)
    (hs : σ.schedule = (List.replicate (k + 1) (inTurns σ.addr)).flatten ++ rest) :
    ∃ τ, answers (8 * (k + 1)) σ =
        some ((List.range (k + 1)).map (packetAt t (loadBytes q left.toNat σ)), τ) ∧
      τ.cur = Cursor.empty ∧ τ.schedule = rest ∧ τ.faults = σ.faults := by
  induction k generalizing q left t σ with
  | zero =>
    obtain ⟨τ, ha, r, -, hlast⟩ := T.in_round hs
    refine ⟨τ, ?_, hlast (by omega), r.schedule, r.faults⟩
    rw [← packetAt_zero] at ha
    exact ha
  | succ k ih =>
    rw [List.replicate_succ, List.flatten_cons, List.append_assoc] at hs
    obtain ⟨τ, ha, r, hnext, -⟩ := T.in_round hs
    have hl : 8 ≤ left.toNat := by omega
    have T' := hnext hl
    have hsched := r.schedule
    rw [← r.addr] at hsched
    obtain ⟨ω, hrest, hcur, hsch, hf⟩ := ih T' (by bv_omega) hsched
    refine ⟨ω, ?_, hcur, hsch, hf.trans r.faults⟩
    have hbytes : loadBytes (q + 8) (left - 8).toNat τ = (loadBytes q left.toNat σ).drop 8 := by
      rw [drop_loadBytes q left hl]
      exact loadBytes_store T.run T'.run r.cfg (r.cfg ▸ T'.source)
    rw [← packetAt_zero] at ha
    rw [hbytes] at hrest
    rw [Nat.mul_succ, Nat.add_comm (8 * (k + 1)), List.range_succ_eq_map, List.map_cons, List.map_map]
    refine (answers_append ha hrest).trans ?_
    rw [List.singleton_append, List.map_congr_left fun j _ => (packetAt_succ t (loadBytes q left.toNat σ) j).symm]
    rfl

/-! ### The SETUP (R152, R181, R185) -/

/-- The fields of a packet are the halves it was made of (R100, R101). -/
theorem setup_fields {pkt : BitVec 64} {rt v x l : Half}
    (h : ∀ i, i < 8 → (packetBytes rt v x l)[i]? = some (setupByte pkt i)) :
    setupRT pkt = rt ∧ setupValue pkt = v ∧ setupIndex pkt = x ∧ setupLength pkt = l := by
  have byte {i : Nat} (hi : i < 8) {b : Byte} (hb : (packetBytes rt v x l)[i]? = some b) : setupByte pkt i = b :=
    Option.some.inj ((h i hi).symm.trans hb)
  unfold setupRT setupValue setupIndex setupLength
  rw [byte (i := 0) (by decide) rfl, byte (i := 1) (by decide) rfl, byte (i := 2) (by decide) rfl,
    byte (i := 3) (by decide) rfl, byte (i := 4) (by decide) rfl, byte (i := 5) (by decide) rfl,
    byte (i := 6) (by decide) rfl, byte (i := 7) (by decide) rfl]
  exact ⟨halfOf_halfBytes rt, halfOf_halfBytes v, halfOf_halfBytes x, halfOf_halfBytes l⟩

/-- A GET_DESCRIPTOR whose pair is in the table, as what the SETUP case does with it. -/
structure GetsDescriptor (c : Config) (pkt : BitVec 64) (p : Word) (left : Half) : Prop where
  request : setupRT pkt = 0x0680 ∨ setupRT pkt = 0x0681
  entry : ∃ len, lookupDesc c (setupValue pkt) (setupIndex pkt) = some (p, len) ∧
    left = truncateLength len (setupLength pkt)

theorem GetsDescriptor.inStore {c : Config} {pkt : BitVec 64} {p : Word} {left : Half}
    (g : GetsDescriptor c pkt p left) : inStore c p left.toNat := by
  obtain ⟨len, hd, rfl⟩ := g.entry
  exact inStore_shorter (inStore_lookupDesc hd) (truncateLength_le ..)

/-- Neither is SET_ADDRESS. -/
theorem GetsDescriptor.ne_setAddress {c : Config} {pkt : BitVec 64} {p : Word} {left : Half}
    (g : GetsDescriptor c pkt p left) : setupRT pkt ≠ 0x0500 := by
  rcases g.request with h | h <;> rw [h] <;> decide

theorem setupRequest_getDescriptor {σ : State} {p : Word} {left : Half} (g : GetsDescriptor σ.cfg σ.lastSetup p left) :
    setupRequest σ = { send p left σ with ep0State := .sendingData } := by
  obtain ⟨len, hd, rfl⟩ := g.entry
  have hk : setupRequest σ = getDescriptor (lastValue σ) (lastIndex σ) (lastLength σ) σ := by
    unfold setupRequest
    rcases g.request with h | h <;> rw [lastRT, h] <;> rfl
  rw [hk]
  exact getDescriptor_hit hd _

section
variable {s : Slot} {ptr : Word} {σ : State}

theorem openTransfer_faults (ho : bdOwned σ s = false) : (openTransfer s ptr σ).faults = σ.faults := by
  rw [openTransfer_eq]
  exact arm_faults_of_free (σ := copySetup ptr σ) ho ptr 8 1

variable (hc : ConfigOk σ.cfg)
include hc

/-- The SETUP case leaves both TX slots with the ENGINE (R181). -/
theorem bdOwned_openTransfer (b : Bit) : bdOwned (openTransfer s ptr σ) (slotBits 0 1 b) = false := by
  have hw : bdWord (openTransfer s ptr σ) (slotBits 0 1 b) = 0 := by
    have h := (readBd_reclaimed hc s ptr (slotBits 0 1 b)).1
    rw [bdWord, openTransfer_cfg, openTransfer_mem, h]
    rcases bit_cases b with rfl | rfl <;> rfl
  exact bdOwned_of_word_zero hw

/-- The SETUP case of a GET_DESCRIPTOR: its bytes are queued in the slot PAR names, under DATA1 (R181, R185, R188). -/
theorem queued_openTransfer (p : Word) (left : Half) :
    Queued (getDir σ.par 0 .tx) p left 1 (send p left (openTransfer s ptr σ)) := by
  refine queued_send ?_ ?_ ?_ ?_
  · rw [openTransfer_cfg]
    exact hc
  · rw [openTransfer_par]
  · rw [openTransfer_eq]
    exact (getDir_setDir ..).trans (if_pos ⟨rfl, rfl⟩)
  · rw [openTransfer_eq]

theorem send_openTransfer_faults (ho : bdOwned σ s = false) (p : Word) (left : Half) :
    (send p left (openTransfer s ptr σ)).faults = σ.faults := by
  rw [send_faults_of_free (by rw [openTransfer_cfg]; exact hc) (bdOwned_openTransfer hc), openTransfer_faults ho]

end

theorem ep0OnSetup_getDescriptor {s : Slot} {ptr : Word} {σ : State} {p : Word} {left : Half}
    (g : GetsDescriptor σ.cfg (readSetup σ.cfg σ.mem ptr) p left) :
    ep0OnSetup s ptr σ = { send p left (openTransfer s ptr σ) with ep0State := .sendingData } := by
  refine setupRequest_getDescriptor ?_
  rw [openTransfer_eq]
  exact g

/-- No byte of endpoint 0's RX buffers is read-only (R66). -/
theorem romByte_rxBuffer {c : Config} (hc : ConfigOk c) {s : Slot} (hs : s = 0 ∨ s = 1) {i : Nat} (hi : i < 8) :
    romByte c (resetPtr c s + BitVec.ofNat 32 i).toNat = none := by
  have hrx : rxSlot s = true := by rcases hs with rfl | rfl <;> rfl
  have hm := rxBuffer_mem c hrx
  rw [if_pos hs] at hm
  have hend := region_end_le hc (rxRegion_mem hm)
  dsimp only at hend
  have ha : (resetPtr c s + BitVec.ofNat 32 i).toNat = (resetPtr c s).toNat + i := toNat_add_small (by omega)
  exact romByte_rx hc hm (by dsimp only; omega) (by dsimp only; omega)

theorem sieSlot_ep0_rx (σ : State) : sieSlot σ 0 .rx = 0 ∨ sieSlot σ 0 .rx = 1 := by
  unfold sieSlot
  generalize getDir σ.hwodd 0 .rx = p
  revert p
  decide

/-- A setup packet was taken into slot `s`, and its completion is pending. -/
structure SetupTaken (b : List Byte) (s : Slot) (v : Byte) (rest : List Turn) (σ τ : State) : Prop where
  pending : Pending v rest τ
  slot : statSlot v = s
  endp : statEndp v = 0
  pid : wordPid (bdWord τ s) = tokPid .setup
  free : bdOwned τ s = false
  packet : ∀ i, i < 8 → b[i]? = some (setupByte (readSetup τ.cfg τ.mem (bdPtr τ s)) i)
  enabled : getEp τ.endpt 0 = endptEnabled
  hwodd : getDir τ.hwodd 0 .tx = getDir σ.hwodd 0 .tx
  par : τ.par = σ.par
  cfg : τ.cfg = σ.cfg
  addr : τ.addr = σ.addr
  faults : τ.faults = σ.faults

theorem acceptable_setup {σ : State} (h : RunInv σ) (hf : σ.statFifo = []) (ho : bdOwned σ (sieSlot σ 0 .rx) = true) :
    Acceptable .setup σ.addr 0 σ := by
  unfold Acceptable endptHas
  rw [hf]
  refine ⟨rfl, ?_, ?_, .inl rfl, by decide, ho⟩ <;> rcases h.endpt0 with he | he <;> rw [he] <;> decide

/-- An accepted setup packet, in a real run (R152). -/
theorem received_setup {b : List Byte} {σ : State} {rest : List Turn} (h : RunInv σ) (hf : σ.statFifo = [])
    (hi : σ.istat = 0) (hd : σ.dph = .idle) (hb : b.length = 8) (he : getEp σ.endpt 0 = endptEnabled)
    (hs : σ.schedule = List.replicate 7 .engine ++ rest) (hτ : RunInv (received 0 8 .setup b σ)) :
    SetupTaken b (sieSlot σ 0 .rx) (statWord 0 0 (getDir σ.hwodd 0 .rx)) rest σ (received 0 8 .setup b σ) := by
  have hslot := sieSlot_ep0_rx σ
  have hrx : rxSlot (sieSlot σ 0 .rx) = true := rxSlot_slotBits (.inl rfl) _
  have hptr := h.rxPtr _ hrx
  have hapart : BufferApart σ (sieSlot σ 0 .rx) b.length := by
    intro a ha
    rw [hptr] at ha
    refine rxBuffer_apart h.configOk hrx ?_ _ ha
    rw [rxSize_toNat h.configOk, if_pos hslot, hb]
  have hst := packetStored_received h.configOk 8 .setup (by omega) hapart
  have hword : bdWord (received 0 8 .setup b σ) (sieSlot σ 0 .rx) = _ := hst.word
  have hp : bdPtr (received 0 8 .setup b σ) (sieSlot σ 0 .rx) = bdPtr σ (sieSlot σ 0 .rx) := hst.ptr
  exact {
    pending :=
      { run := hτ
        idle := hd
        istat := by
          show σ.istat ||| 0x08 = 0x08
          rw [hi]
          rfl
        statFifo := by
          show σ.statFifo ++ _ = _
          rw [hf]
          rfl
        schedule := hs }
    slot := statSlot_statWord ..
    endp := statEndp_statWord ..
    pid := by rw [hword, wordPid_doneWord]
    free := by
      rw [bdOwned, hword, wordOwn_doneWord]
      rfl
    packet := fun i hi => by
      have hbyte := List.getElem?_eq_getElem (l := b) (i := i) (by omega)
      have hread := hst.stored i _ hbyte (by rw [hptr]; exact romByte_rxBuffer h.configOk hslot hi)
      rw [setupByte_readSetup _ _ _ hi, hp, hbyte]
      exact congrArg some hread.symm
    enabled := he
    hwodd := (getDir_flipDir ..).trans (if_neg (by decide))
    par := rfl, cfg := rfl, addr := rfl, faults := rfl }

/-- The token itself: ACCEPT lets it through, EPSTALL is cleared, and the packet fits (R150, R152). -/
theorem setup_taken {b : List Byte} {σ : State} {rest : List Turn} (h : RunInv σ) (hd : σ.dph = .idle)
    (hi : σ.istat = 0) (ho : bdOwned σ (sieSlot σ 0 .rx) = true) (hb : b.length = 8)
    (hs : σ.schedule = .host (encode (.tokSetup σ.addr 0 b)) :: (List.replicate 7 .engine ++ rest)) :
    ∃ τ, step σ = .next τ ∧ τ.response = .ack ∧
      SetupTaken b (sieSlot σ 0 .rx) (statWord 0 0 (getDir σ.hwodd 0 .rx)) rest σ τ := by
  have hf := statFifo_of_quiet h.base hi
  have hbegun : RunInv (beginTurn (List.replicate 7 .engine ++ rest) σ) :=
    runInv_beginTurn h fun t ht => h.schedule t (hs ▸ List.mem_cons_of_mem _ ht)
  have hrx : rxSlot (sieSlot σ 0 .rx) = true := rxSlot_slotBits (.inl rfl) _
  have hcount : ¬ (wordBC (bdWord σ (sieSlot σ 0 .rx))).toNat < 8 := by
    rw [h.rxCount _ hrx ho, rxSize_toNat h.configOk, if_pos (sieSlot_ep0_rx σ)]
    decide
  have hx := exec_tokSetup_accepted hb (acceptable_setup hbegun hf ho)
  have hstep := (step_event h.configOk hs (decide_eq_true hb) rfl).trans (hx.trans (if_neg hcount))
  have henabled : getEp (clearStall 0 (beginTurn (List.replicate 7 .engine ++ rest) σ)).endpt 0 = endptEnabled := by
    rw [clearStall_eq]
    refine (getEp_setEp_same ..).trans ?_
    rcases hbegun.endpt0 with he | he <;> rw [he] <;> decide
  have S := received_setup (runInv_clearStall hbegun 0) hf hi hd hb henabled rfl (runInv_step h hstep)
  exact ⟨_, hstep, rfl, { S with hwodd := S.hwodd, par := S.par, cfg := S.cfg, addr := S.addr, faults := S.faults }⟩

/-- The packet taken asks for the descriptor its fields name. -/
theorem SetupTaken.getsDescriptor {rt v x l len : Half} {p : Word} {s : Slot} {w : Byte} {σ τ : State}
    {rest : List Turn} (S : SetupTaken (packetBytes rt v x l) s w rest σ τ) (hrt : rt = 0x0680 ∨ rt = 0x0681)
    (hlook : lookupDesc σ.cfg v x = some (p, len)) :
    GetsDescriptor τ.cfg (readSetup τ.cfg τ.mem (bdPtr τ s)) p (truncateLength len l) := by
  obtain ⟨h1, h2, h3, h4⟩ := setup_fields S.packet
  refine ⟨by rw [h1]; exact hrt, len, ?_, by rw [h4]⟩
  rw [h2, h3, S.cfg]
  exact hlook

/-- The run after it is the SETUP case's, with the request served (R180, R181, R185). -/
theorem SetupTaken.afterRun_eq {b : List Byte} {s : Slot} {v : Byte} {σ τ : State} {rest : List Turn} {p : Word}
    {left : Half} (S : SetupTaken b s v rest σ τ)
    (g : GetsDescriptor τ.cfg (readSetup τ.cfg τ.mem (bdPtr τ s)) p left) :
    afterRun v rest τ = drained .idle rest
      { send p left (openTransfer s (bdPtr τ s) (atPhase .tok (List.replicate 3 .engine ++ rest) τ)) with
        ep0State := .sendingData } := by
  have hp : wordPid (bdWord (atPhase .tok (List.replicate 3 .engine ++ rest) τ) (statSlot v)) = tokPid .setup := by
    rw [S.slot]
    exact S.pid
  rw [afterRun, callHandler_ep0 S.endp, ep0Handler_setup hp, S.slot]
  exact congrArg _ (ep0OnSetup_getDescriptor g)

/-- The round of a SETUP that asks for a descriptor: it is acknowledged, and the run queues the descriptor's bytes, the
first under DATA1 (R152, R181, R185). -/
theorem setup_round {rt v x l len : Half} {p : Word} {σ : State} {rest : List Turn} (h : RunInv σ) (hd : σ.dph = .idle)
    (hi : σ.istat = 0) (ho : bdOwned σ (sieSlot σ 0 .rx) = true)
    (hpar : getDir σ.par 0 .tx = getDir σ.hwodd 0 .tx) (hrt : rt = 0x0680 ∨ rt = 0x0681)
    (hlook : lookupDesc σ.cfg v x = some (p, len))
    (hs : σ.schedule =
      .host (encode (.tokSetup σ.addr 0 (packetBytes rt v x l))) :: (List.replicate 7 .engine ++ rest)) :
    ∃ τ, answers 8 σ = some ([.ack], τ) ∧ RoundKeeps rest σ τ ∧ Transfer p (truncateLength len l) 1 τ := by
  obtain ⟨τ, hstep, hresp, S⟩ := setup_taken h hd hi ho rfl hs
  have g := S.getsDescriptor hrt hlook
  have hround := answers_append (answers_spoken hstep (by rw [hresp]; nofun)) S.pending.served
  have hinv := S.pending.runInv_afterRun
  rw [S.afterRun_eq g] at hround hinv
  rw [hresp, List.append_nil] at hround
  have hc : ConfigOk (atPhase .tok (List.replicate 3 .engine ++ rest) τ).cfg := S.pending.run.configOk
  have hfree : bdOwned (atPhase .tok (List.replicate 3 .engine ++ rest) τ) (sieSlot σ 0 .rx) = false := S.free
  refine ⟨_, hround, { schedule := rfl, cfg := ?_, addr := ?_, faults := ?_ }, {
    run := hinv, idle := rfl, istat := rfl, enabled := ?_, request := ?_, source := ?_, queued := ?_ }⟩
  · rw [drained_cfg, send_cfg, openTransfer_cfg, atPhase_cfg, S.cfg]
  · rw [drained_addr, send_addr, openTransfer_addr, atPhase_addr, S.addr]
  · rw [drained_faults, send_openTransfer_faults hc hfree, atPhase_faults, S.faults]
  · rw [drained_endpt, send_endpt, openTransfer_endpt, atPhase_endpt, S.enabled]
  · rw [lastRT, drained_lastSetup, send_lastSetup, openTransfer_eq]
    exact g.ne_setAddress
  · rw [drained_cfg, send_cfg, openTransfer_cfg, atPhase_cfg]
    exact g.inStore
  · have k := queued_openTransfer (s := sieSlot σ 0 .rx) (ptr := bdPtr τ (sieSlot σ 0 .rx)) hc p (truncateLength len l)
    rw [drained_hwodd, send_hwodd, openTransfer_hwodd, atPhase_hwodd, S.hwodd, ← hpar, ← S.par]
    exact (k.update _ _).drained _ _

end Sys2Proof.Machine

open Sys2Proof Sys2Proof.Machine

/-- Settles O51: the SETUP's round queues the descriptor's bytes, and each IN's round sends one packet of them. -/
theorem controlReadDeliversTheDescriptor : Obligations.ControlReadDeliversTheDescriptor := by
  intro σ rt v x l len p n rest h _ hd hi ho hpar hrt hlook hn hs
  have hleft : (truncateLength len l).toNat = n := by
    rw [hn, truncateLength_eq]
    split <;> omega
  rw [List.append_assoc] at hs
  obtain ⟨τ, hsetup, r, T⟩ := setup_round h hd hi ho hpar hrt hlook hs
  have hsched := r.schedule
  rw [← r.addr, ← hleft] at hsched
  obtain ⟨ω, hin, hcur, hsch, hf⟩ := T.fetched rfl hsched
  have hbytes : loadBytes p n τ = loadBytes p n σ :=
    loadBytes_store h T.run r.cfg (r.cfg ▸ hleft ▸ T.source)
  rw [hleft, hbytes] at hin
  refine ⟨ω, ?_, hcur, hsch, hf.trans r.faults⟩
  rw [show 8 * (n / 8 + 2) = 8 + 8 * (n / 8 + 1) by omega, answers_append hsetup hin, List.singleton_append,
    funext (packetAt_data1 (loadBytes p n σ))]
end

section
/-! PROOF. The dispatcher's turns: which operation a turn runs, and each phase with every field it writes (R220 to
R228). -/

namespace Sys2Proof.Machine

open Sys2Proof

/-- R220, in the words of R27: the ENGINE has a step when a run has begun or an enabled flag is set. -/
theorem engineEnabled_iff (σ : State) : engineEnabled σ = true ↔ σ.dph ≠ .idle ∨ σ.istat &&& σ.inten ≠ 0 := by
  rw [engineEnabled, Bool.or_eq_true, decide_eq_true_iff]
  exact or_congr_right (hasBit_iff ..)

theorem latched_iff {f : Flag} {σ : State} : latched f σ = true ↔ σ.dstatus &&& flagMask f ≠ 0 := hasBit_iff ..

/-- A phase that asks for its flag: what it answers with the flag latched, and without. -/
theorem next_ite_latched (f : Flag) (σ τ ω : State) :
    (σ.dstatus &&& flagMask f ≠ 0 →
      (.next (if latched f σ then τ else ω) : Host.Outcome State Fault Refusal) = .next τ) ∧
    (σ.dstatus &&& flagMask f = 0 →
      (.next (if latched f σ then τ else ω) : Host.Outcome State Fault Refusal) = .next ω) :=
  ⟨fun h => congrArg _ (if_pos (latched_iff.mpr h)), fun h => congrArg _ (if_neg fun hl => latched_iff.mp hl h)⟩

/-! ### The phases that acknowledge a flag -/

/-- D_ERR (R223). -/
theorem irqError_eq (σ : State) : irqError σ =
    if latched .error σ then { σ with errstat := 0, istat := σ.istat &&& 0xFD, dph := .sof }
    else { σ with dph := .sof } := by
  unfold irqError
  split
  · rw [writeErrstat_self, ackFlag_eq (by decide)]
    rfl
  · rfl

/-- D_SOF (R224). -/
theorem irqSoftok_eq (σ : State) : irqSoftok σ =
    if latched .softok σ then { σ with istat := σ.istat &&& 0xFB, dph := .tok } else { σ with dph := .tok } := by
  unfold irqSoftok
  split
  · rw [ackFlag_eq (by decide)]
    rfl
  · rfl

/-- D_SLEEP (R226). -/
theorem irqSleep_eq (σ : State) : irqSleep σ =
    if latched .sleep σ then { σ with istat := σ.istat &&& 0xEF, dph := .stall } else { σ with dph := .stall } := by
  unfold irqSleep
  split
  · rw [ackFlag_eq (by decide)]
    rfl
  · rfl

/-- D_STALL (R227). -/
theorem irqStall_eq (σ : State) : irqStall σ =
    if latched .stall σ then
      { σ with
        endpt := σ.endpt.map (fun v => v &&& ~~~epstall), istat := σ.istat &&& 0x7F, dph := .idle,
        ep0State := if σ.ep0State = .stalled then .idle else σ.ep0State }
    else { σ with dph := .idle } := by
  unfold irqStall
  split
  · rw [ackFlag_eq (by decide)]
    rfl
  · rfl

/-! ### The drain iteration -/

/-- The handlers read of a STAT value only its fields: the reserved bits make no difference (R95, R228). -/
theorem callHandler_statWord (v : Byte) (σ : State) :
    callHandler (statWord (statEndp v) (statDir v) (statOdd v)) σ = callHandler v σ := by
  simp only [callHandler, ep0Handler, ep1Handler, statEndp_statWord, statSlot_statWord, ← statSlot_eq]

/-- The handler of any STAT value, run alone, is what the dispatcher calls (R228). -/
theorem exec_handlerInstr_fields (v : Byte) (σ : State) : exec (handlerInstr v) σ = .next (callHandler v σ) := by
  rw [← callHandler_statWord, ← exec_handlerInstr (statWord_reserved ..)]
  simp only [handlerInstr, statEndp_statWord, statDir_statWord, statOdd_statWord]

/-- The handler's operation, by the endpoint (R228). -/
theorem handlerInstr_eq (v : Byte) : handlerInstr v =
    if statEndp v = 0 then .ep0Handler (statDir v) (statOdd v)
    else if statEndp v = 1 then .ep1Handler (statDir v) (statOdd v)
    else .defaultHandler (statEndp v) (statDir v) (statOdd v) := by
  unfold handlerInstr handlerTable
  split_ifs <;> rfl

theorem served_cons {σ : State} {v : Byte} {vs : List Byte} (h : σ.statFifo = v :: vs) :
    served σ = callHandler v σ := by
  rw [served, readStat, h]

/-- D_TOK with TOKDNE latched (R225): the handler's state with the head removed, TOKDNE after the FIFO, and ISTAT
latched again. -/
theorem irqTokdne_latched {σ : State} (h : latched .tokdne σ = true) : irqTokdne σ =
    { served σ with
      statFifo := σ.statFifo.tail
      istat := (σ.istat &&& 0xF7) ||| (if σ.statFifo.tail = [] then 0 else 0x08)
      dstatus := (σ.istat &&& 0xF7) ||| (if σ.statFifo.tail = [] then 0 else 0x08)
      dph := .tok } := by
  rw [irqTokdne, if_pos h, drainOne_eq]
  rfl

end Sys2Proof.Machine

open Sys2Proof Sys2Proof.Machine

/-- Settles O5: the rule of each kind of turn, with R220 in the words of R27. -/
theorem stepRunsDecodedInstruction : Obligations.StepRunsDecodedInstruction := by
  refine ⟨fun σ bs more rest i hc hs hd hi => ?_, fun σ bs more rest i hc hs hd => step_call hc hs hd,
    fun σ rest hc hs => ⟨fun he => ?_, fun hd hi => ?_⟩⟩
  · rw [step_host hc hs hd, if_pos hi]
    rfl
  · rw [step_engine hc hs, if_pos ((engineEnabled_iff σ).mpr he)]
    rfl
  · have hn : ¬ engineEnabled σ = true := fun he => ((engineEnabled_iff σ).mp he).elim (absurd hd) (absurd hi)
    rw [step_engine hc hs, if_neg hn]
    rfl

/-- Settles O33: the phase, with the flag latched and without. -/
theorem errorPhase : Obligations.ErrorPhase := by
  intro σ
  show (_ → Host.Outcome.next (irqError σ) = _) ∧ (_ → Host.Outcome.next (irqError σ) = _)
  rw [irqError_eq]
  exact next_ite_latched .error ..

/-- Settles O34: the two phases, with the flag latched and without. -/
theorem acknowledgeOnlyPhases : Obligations.AcknowledgeOnlyPhases := by
  intro σ
  show (_ → Host.Outcome.next (irqSoftok σ) = _) ∧ (_ → Host.Outcome.next (irqSoftok σ) = _) ∧
    (_ → Host.Outcome.next (irqSleep σ) = _) ∧ (_ → Host.Outcome.next (irqSleep σ) = _)
  rw [irqSoftok_eq, irqSleep_eq, ← and_assoc]
  exact ⟨next_ite_latched .softok .., next_ite_latched .sleep ..⟩

/-- Settles O35: the phase, with the flag latched and without; the endpoint registers read one by one. -/
theorem stallPhase : Obligations.StallPhase := by
  intro σ
  show (_ → ∃ ep, Host.Outcome.next (irqStall σ) = _ ∧ _) ∧ (_ → Host.Outcome.next (irqStall σ) = _)
  rw [irqStall_eq]
  obtain ⟨hset, hclear⟩ := next_ite_latched .stall σ _ _
  exact ⟨fun h => ⟨_, hset h, fun e => getEp_map ..⟩, hclear⟩

/-- Settles O32: the reset check after the latch decides between D_ERR and REINIT. -/
theorem resetCheckPhase : Obligations.ResetCheckPhase := by
  intro σ
  obtain ⟨hset, hclear⟩ :=
    next_ite_latched .usbrst (enterRun σ) (endRun (reinit (enterRun σ))) (setPhase .err (enterRun σ))
  exact ⟨hclear, fun h => ⟨_, rfl, hset h⟩⟩

/-- Settles O36: the handler reads of the head only its fields, and what follows it is a drain iteration's end. -/
theorem drainIteration : Obligations.DrainIteration := by
  refine ⟨fun σ v vs hl hf => ⟨callHandler v σ, _, ?_, rfl, ?_⟩, fun σ hl => ?_⟩
  · rw [← handlerInstr_eq]
    exact exec_handlerInstr_fields v σ
  · show Host.Outcome.next (irqTokdne σ) = _
    rw [irqTokdne_latched (latched_iff.mpr hl), served_cons hf, hf]
    rfl
  · exact congrArg Host.Outcome.next (if_neg fun h => latched_iff.mp h hl)
end

section
/-! PROOF. The ENGINE's operations all answer, and what they write (R230, R285, R306); REINIT and power-on (R222). -/

namespace Sys2Proof.Machine

open Sys2Proof

theorem memByte_congr {σ τ : State} (hc : τ.cfg = σ.cfg) (hm : τ.mem = σ.mem) (a : Word) :
    memByte τ a = memByte σ a := by
  rw [memByte, hc, hm]
  rfl

/-- What an operation of the ENGINE other than REINIT and the reset check leaves alone: HWODD, INTEN, and the FIFO but
for the head a drain iteration removes (R285). -/
def SieSideKept (i : Instr) (σ τ : State) : Prop :=
  τ.hwodd = σ.hwodd ∧ τ.inten = σ.inten ∧
    (τ.statFifo = σ.statFifo ∨ (i = .irqTokdne ∧ τ.statFifo = σ.statFifo.tail))

theorem EngineKeeps.sieSideKept {σ τ : State} (k : EngineKeeps σ τ) (i : Instr) : SieSideKept i σ τ :=
  ⟨k.hwodd, k.inten, .inl k.statFifo⟩

/-- The reset check writes nothing outside the BDT (R221). -/
theorem irqUsbrst_outside {σ : State} (hc : ConfigOk σ.cfg) {a : Word} (ha : ¬ inBdt σ.cfg a) :
    memByte (irqUsbrst σ) a = memByte σ a := by
  rcases irqUsbrst_cases σ with ⟨-, e⟩ | ⟨-, e⟩ <;> rw [e]
  · exact reinit_outside (σ := enterRun σ) hc ha
  · rfl

/-- Nor does D_TOK, whose handlers write only descriptors (R225). -/
theorem irqTokdne_outside {σ : State} (hc : ConfigOk σ.cfg) {a : Word} (ha : ¬ inBdt σ.cfg a) :
    memByte (irqTokdne σ) a = memByte σ a := by
  rcases irqTokdne_cases σ with ⟨-, e⟩ | ⟨-, e⟩ <;> rw [e]
  · rw [drainOne_eq]
    exact (engineKeeps_served σ).outside hc a ha
  · rfl

/-- D_TOK removes at most the FIFO's head (R225, R36). -/
theorem sieSideKept_irqTokdne (σ : State) : SieSideKept .irqTokdne σ (irqTokdne σ) := by
  refine ⟨irqTokdne_hwodd σ, irqTokdne_inten σ, ?_⟩
  rcases irqTokdne_cases σ with ⟨-, e⟩ | ⟨-, e⟩ <;> rw [e]
  · rw [drainOne_eq]
    exact .inr ⟨rfl, rfl⟩
  · exact .inl rfl

@[simp] theorem irqError_statFifo (σ : State) : (irqError σ).statFifo = σ.statFifo := by
  rw [irqError_eq]
  split <;> rfl

@[simp] theorem irqSoftok_statFifo (σ : State) : (irqSoftok σ).statFifo = σ.statFifo := by
  rw [irqSoftok_eq]
  split <;> rfl

@[simp] theorem irqSleep_statFifo (σ : State) : (irqSleep σ).statFifo = σ.statFifo := by
  rw [irqSleep_eq]
  split <;> rfl

@[simp] theorem irqStall_statFifo (σ : State) : (irqStall σ).statFifo = σ.statFifo := by
  rw [irqStall_eq]
  split <;> rfl

/-- Every phase, and REINIT, answers a next state, and writes no byte outside the BDT (R230, R306). -/
theorem exec_phase {i : Instr} {σ : State} (hi : isPhase i = true) (hc : ConfigOk σ.cfg) :
    ∃ τ, exec i σ = .next τ ∧ (∀ a, ¬ inBdt σ.cfg a → memByte τ a = memByte σ a) ∧
      (i ≠ .reinit → i ≠ .irqUsbrst → SieSideKept i σ τ) := by
  match i, hi with
  | .irqUsbrst, _ => exact ⟨_, rfl, fun _ => irqUsbrst_outside hc, fun _ hu => absurd rfl hu⟩
  | .reinit, _ => exact ⟨_, rfl, fun _ => reinit_outside hc, fun hr => absurd rfl hr⟩
  | .irqError, _ =>
    exact ⟨_, rfl, fun a _ => memByte_congr (irqError_cfg σ) (irqError_mem σ) a,
      fun _ _ => ⟨irqError_hwodd σ, irqError_inten σ, .inl (irqError_statFifo σ)⟩⟩
  | .irqSoftok, _ =>
    exact ⟨_, rfl, fun a _ => memByte_congr (irqSoftok_cfg σ) (irqSoftok_mem σ) a,
      fun _ _ => ⟨irqSoftok_hwodd σ, irqSoftok_inten σ, .inl (irqSoftok_statFifo σ)⟩⟩
  | .irqTokdne, _ => exact ⟨_, rfl, fun _ => irqTokdne_outside hc, fun _ _ => sieSideKept_irqTokdne σ⟩
  | .irqSleep, _ =>
    exact ⟨_, rfl, fun a _ => memByte_congr (irqSleep_cfg σ) (irqSleep_mem σ) a,
      fun _ _ => ⟨irqSleep_hwodd σ, irqSleep_inten σ, .inl (irqSleep_statFifo σ)⟩⟩
  | .irqStall, _ =>
    exact ⟨_, rfl, fun a _ => memByte_congr (irqStall_cfg σ) (irqStall_mem σ) a,
      fun _ _ => ⟨irqStall_hwodd σ, irqStall_inten σ, .inl (irqStall_statFifo σ)⟩⟩

/-- An operation of the ENGINE is none of the SIE's. -/
theorem isSie_eq_false {i : Instr} (hh : i.isHostEvent = false) (ha : ∀ k a e, i ≠ .accept k a e)
    (hc : ∀ e d n k, i ≠ .complete e d n k) : isSie i = false := by
  unfold isSie
  split
  · exact (ha _ _ _ rfl).elim
  · exact (hc _ _ _ _ rfl).elim
  · exact hh

end Sys2Proof.Machine

open Sys2Proof Sys2Proof.Machine

/-- Settles O18: a handler or a part of one keeps what `EngineKeeps` names; the phases and REINIT, one by one. -/
theorem engineOperationsComplete : Obligations.EngineOperationsComplete := by
  intro i σ hc hh ha hco
  cases hp : isPhase i
  · obtain ⟨τ, hx, k, -⟩ := exec_enginePart σ (isSie_eq_false hh ha hco) hp
    exact ⟨τ, hx, k.outside hc, fun _ _ => k.sieSideKept i⟩
  · exact exec_phase hp hc

/-- Settles O20: REINIT's registers are power-on's, and both leave the BDT as the table of R44 has it. -/
theorem reinitGivesThePowerOnState : Obligations.ReinitGivesThePowerOnState := by
  intro σ hc
  refine ⟨(reinit σ).mem, congrArg Host.Outcome.next (reinit_eq hc), fun s => ?_, fun a ha => ?_⟩
  · obtain ⟨hword, hptr⟩ := bd_reinit hc s
    obtain ⟨hword', hptr'⟩ := readBd_powerOnMemory hc s
    rw [bdWord, reinit_cfg] at hword
    rw [bdPtr, reinit_cfg] at hptr
    exact ⟨hword.trans hword'.symm, hptr.trans hptr'.symm⟩
  · have h := reinit_outside hc ha
    rwa [memByte, reinit_cfg] at h
end

section
/-! PROOF. A run without HOST steps serves everything (R230, R232): no flag is set on the way, so each phase leaves one
flag more clear, and `Inv` ties ERRSTAT and the FIFO to their flags. -/

namespace Sys2Proof.Machine

open Sys2Proof

/-! ### Runs -/

theorem run_one {σ τ : State} (h : step σ = .next τ) : Host.Core.run core 1 σ = .next τ := by
  simp only [Host.Core.run, core, h]

/-- A run goes on where an earlier one ended. -/
theorem run_append {m n : Nat} {σ τ ω : State} (h : Host.Core.run core m σ = .next τ)
    (h' : Host.Core.run core n τ = .next ω) : Host.Core.run core (m + n) σ = .next ω := by
  induction m generalizing σ with
  | zero =>
    cases h
    rwa [Nat.zero_add]
  | succ m ih =>
    rw [Nat.add_right_comm]
    simp only [Host.Core.run] at h ⊢
    match hs : core.step σ with
    | .next α =>
      rw [hs] at h
      exact ih h
    | .fault _ => rw [hs] at h; cases h
    | .refused _ => rw [hs] at h; cases h

/-! ### Flags -/

/-- A register with no flag set and its reserved bits 0 is 0 (R96). -/
theorem eq_zero_of_flags {x : Byte} (hr : x &&& ~~~irqMask = 0) (h : ∀ f, hasBit x (flagMask f) = false) : x = 0 := by
  have h1 := h .usbrst
  have h2 := h .error
  have h3 := h .softok
  have h4 := h .tokdne
  have h5 := h .sleep
  have h6 := h .stall
  clear h
  revert x
  decide

theorem irq_eq_false_of_istat {σ : State} (h : σ.istat = 0) : irq σ = false := by
  unfold irq
  rw [h]
  exact (hasBit_eq_false_iff ..).mpr (BitVec.zero_and ..)

/-- Acknowledging a flag sets none. -/
theorem hasBit_of_acknowledged {f g : Flag} {x : Byte} (h : hasBit (x &&& ~~~flagMask f) (flagMask g) = true) :
    g ≠ f ∧ hasBit x (flagMask g) = true := by
  have hne : g ≠ f := by
    rintro rfl
    rw [hasBit_and_not_same] at h
    cases h
  exact ⟨hne, by rwa [hasBit_and_not_flag hne] at h⟩

/-- A drain iteration changes no flag but TOKDNE (R225). -/
theorem hasBit_drained {g : Flag} (hg : g ≠ .tokdne) (x : Byte) (p : Prop) [Decidable p] :
    hasBit ((x &&& 0xF7) ||| (if p then 0 else 0x08)) (flagMask g) = hasBit x (flagMask g) := by
  have h0 : hasBit (if p then 0 else 0x08) (flagMask g) = false := by
    split
    · cases g <;> decide
    · exact (hasBit_flagMask .tokdne g).trans (decide_eq_false hg.symm)
  rw [hasBit_or, h0, Bool.or_false]
  exact hasBit_and_not_flag hg x

/-! ### The phases of an undisturbed run -/

/-- At phase `p` of a run without HOST steps: every pending flag is latched, and the flags `fs` are served. -/
structure Serving (p : Dph) (fs : List Flag) (σ : State) : Prop where
  inv : Inv σ
  configOk : ConfigOk σ.cfg
  schedule : σ.schedule = []
  phase : σ.dph = p
  seen : ∀ f, hasBit σ.istat (flagMask f) = true → latched f σ = true
  cleared : ∀ f ∈ fs, hasBit σ.istat (flagMask f) = false

namespace Serving

variable {p q : Dph} {fs : List Flag} {σ τ : State}

/-- A turn with nothing scheduled takes away the last step's outputs, no more. -/
theorem turn (h : Serving p fs σ) : Serving p fs (beginTurn [] σ) :=
  ⟨inv_beginTurn h.inv [], h.configOk, rfl, h.phase, h.seen, h.cleared⟩

/-- A turn of a run once begun runs the phase's operation (R220). -/
theorem step_eq (h : Serving p fs σ) (hp : p ≠ .idle) : step σ = exec (phaseInstr p) (beginTurn [] σ) := by
  rw [step_engine h.configOk (.inr ⟨h.schedule, rfl⟩), h.phase,
    if_pos (engineEnabled_of_phase (by rwa [h.phase]))]

/-- A flag that is not latched is not pending. -/
theorem not_pending (h : Serving p fs σ) {f : Flag} (hl : ¬ latched f σ = true) :
    hasBit σ.istat (flagMask f) = false :=
  Bool.eq_false_iff.mpr fun hi => hl (h.seen f hi)

/-- A phase that acknowledges its flag if it is latched, and else leaves ISTAT alone. -/
theorem acknowledged (h : Serving p fs σ) {f : Flag} (hinv : Inv τ) (hcfg : τ.cfg = σ.cfg)
    (hs : τ.schedule = σ.schedule) (hd : τ.dstatus = σ.dstatus) (hp : τ.dph = q)
    (hi : τ.istat = if latched f σ then σ.istat &&& ~~~flagMask f else σ.istat) :
    Serving q (f :: fs) τ := by
  have hsub {g : Flag} (hg : hasBit τ.istat (flagMask g) = true) : g ≠ f ∧ hasBit σ.istat (flagMask g) = true := by
    rw [hi] at hg
    split at hg
    · exact hasBit_of_acknowledged hg
    · next hl => exact ⟨fun e => absurd hg (by rw [e, h.not_pending hl]; decide), hg⟩
  refine ⟨hinv, hcfg ▸ h.configOk, hs.trans h.schedule, hp, fun g hg => ?_, fun g hm => ?_⟩
  · rw [latched, hd]
    exact h.seen g (hsub hg).2
  · refine Bool.eq_false_iff.mpr fun hg => ?_
    obtain ⟨hne, hold⟩ := hsub hg
    rw [h.cleared g ((List.mem_cons.mp hm).resolve_left hne)] at hold
    cases hold

theorem irqError (h : Serving .err fs σ) : Serving .sof (.error :: fs) (irqError σ) :=
  h.acknowledged (inv_irqError h.inv) (irqError_cfg σ) (irqError_schedule σ) (irqError_dstatus σ) rfl
    (by rw [irqError_eq]; split <;> rfl)

theorem irqSoftok (h : Serving .sof fs σ) : Serving .tok (.softok :: fs) (irqSoftok σ) :=
  h.acknowledged (inv_irqSoftok h.inv) (irqSoftok_cfg σ) (irqSoftok_schedule σ) (irqSoftok_dstatus σ) rfl
    (by rw [irqSoftok_eq]; split <;> rfl)

theorem irqSleep (h : Serving .sleep fs σ) : Serving .stall (.sleep :: fs) (irqSleep σ) :=
  h.acknowledged (inv_irqSleep h.inv) (irqSleep_cfg σ) (irqSleep_schedule σ) (irqSleep_dstatus σ) rfl
    (by rw [irqSleep_eq]; split <;> rfl)

theorem irqStall (h : Serving .stall fs σ) : Serving .idle (.stall :: fs) (irqStall σ) :=
  h.acknowledged (inv_irqStall h.inv) (irqStall_cfg σ) (irqStall_schedule σ) (irqStall_dstatus σ) rfl
    (by rw [irqStall_eq]; split <;> rfl)

/-- D_TOK with no completion left goes on to D_SLEEP (R225). -/
theorem irqTokdne_empty (h : Serving .tok fs σ) (hl : ¬ latched .tokdne σ = true) :
    Serving .sleep (.tokdne :: fs) (irqTokdne σ) := by
  have e : irqTokdne σ = setPhase .sleep σ := if_neg hl
  rw [e]
  exact h.acknowledged (inv_setPhase h.inv _) rfl rfl rfl rfl (if_neg hl).symm

/-- A drain iteration serves one completion, and latches what is still pending (R225). -/
theorem irqTokdne_drain (h : Serving .tok fs σ) (hc : Flag.tokdne ∉ fs) (hl : latched .tokdne σ = true) :
    Serving .tok fs (irqTokdne σ) ∧ (irqTokdne σ).statFifo = σ.statFifo.tail := by
  have e := irqTokdne_latched hl
  refine ⟨⟨inv_irqTokdne h.inv, ?_, (irqTokdne_schedule σ).trans h.schedule, ?_, fun f hf => ?_, fun f hf => ?_⟩, ?_⟩
  · rw [irqTokdne_cfg]
    exact h.configOk
  · rw [e]
  · rw [e] at hf ⊢
    exact hf
  · rw [e]
    exact (hasBit_drained (fun hft => hc (hft ▸ hf)) ..).trans (h.cleared f hf)
  · rw [e]

/-- D_TOK serves every completion, one a step, and one step more finds none (R225). -/
theorem run_tok (h : Serving .tok fs σ) (hc : Flag.tokdne ∉ fs) :
    ∃ τ, Host.Core.run core (σ.statFifo.length + 1) σ = .next τ ∧ Serving .sleep (.tokdne :: fs) τ := by
  induction hn : σ.statFifo.length generalizing σ with
  | zero =>
    have hl : ¬ latched .tokdne (beginTurn [] σ) = true :=
      fun hl => h.inv.latch hl (List.eq_nil_of_length_eq_zero hn)
    exact ⟨_, run_one (h.step_eq nofun), h.turn.irqTokdne_empty hl⟩
  | succ n ih =>
    have hl : latched .tokdne (beginTurn [] σ) = true :=
      h.seen .tokdne (h.inv.tokdne.trans (decide_eq_true (List.ne_nil_of_length_eq_add_one hn)))
    obtain ⟨h', hf⟩ := h.turn.irqTokdne_drain hc hl
    have hlen : (irqTokdne (beginTurn [] σ)).statFifo.length = n := by
      rw [hf, List.length_tail]
      exact Nat.sub_eq_of_eq_add hn
    obtain ⟨τ, hrun, hτ⟩ := ih h' hlen
    refine ⟨τ, ?_, hτ⟩
    rw [Nat.add_comm (n + 1) 1]
    exact run_append (run_one (h.step_eq nofun)) hrun

/-- Once every flag is served, ISTAT, the FIFO and ERRSTAT are clear (R43). -/
theorem all_clear (h : Serving p fs σ) (hall : ∀ f, f ∈ fs) : σ.istat = 0 ∧ σ.statFifo = [] ∧ σ.errstat = 0 := by
  have h0 (f : Flag) := h.cleared f (hall f)
  refine ⟨eq_zero_of_flags h.inv.istatReserved h0, ?_, ?_⟩
  · exact not_not.mp (of_decide_eq_false (h.inv.tokdne.symm.trans (h0 .tokdne)))
  · exact not_not.mp (of_decide_eq_false (h.inv.error.symm.trans (h0 .error)))

end Serving

/-! ### The whole run -/

section
variable {σ : State} (h : Inv σ) (hc : ConfigOk σ.cfg) (hs : σ.schedule = []) (hd : σ.dph = .idle)
  (hirq : irq σ = true)
include hc hs hd hirq

/-- The first turn with an interrupt pending runs the reset check (R220). -/
theorem step_pending : step σ = .next (irqUsbrst (beginTurn [] σ)) := by
  have he : engineEnabled σ = true := by rw [engineEnabled, hirq, Bool.or_true]
  rw [step_engine hc (.inr ⟨hs, rfl⟩), if_pos he, hd]
  rfl

include h

/-- Without USBRST the reset check latches every pending flag (R221). -/
theorem run_begins (hu : ¬ hasBit σ.istat (flagMask .usbrst) = true) :
    ∃ τ, step σ = .next τ ∧ Serving .err [.usbrst] τ ∧ τ.statFifo = σ.statFifo := by
  have e : irqUsbrst (beginTurn [] σ) = setPhase .err (enterRun (beginTurn [] σ)) := if_neg hu
  refine ⟨_, step_pending hc hs hd hirq, ?_, ?_⟩ <;> rw [e]
  · exact ⟨inv_setPhase (inv_enterRun (inv_beginTurn h _)) _, hc, rfl, rfl, fun _ hf => hf,
      fun f hf => List.mem_singleton.mp hf ▸ Bool.eq_false_iff.mpr hu⟩
  · rfl

/-- The run: six phases, and one drain iteration for each completion (R232). -/
theorem run_serves (hu : ¬ hasBit σ.istat (flagMask .usbrst) = true) :
    ∃ τ, Host.Core.run core (σ.statFifo.length + 6) σ = .next τ ∧
      Serving .idle [.stall, .sleep, .tokdne, .softok, .error, .usbrst] τ := by
  obtain ⟨α, hα, herr, hfα⟩ := run_begins h hc hs hd hirq hu
  have hsof := herr.turn.irqError
  have htok := hsof.turn.irqSoftok
  obtain ⟨β, hβ, hsleep⟩ := htok.run_tok (by decide)
  have hstall := hsleep.turn.irqSleep
  have hfifo : (irqSoftok (beginTurn [] (irqError (beginTurn [] α)))).statFifo = σ.statFifo := by
    rw [irqSoftok_statFifo]
    exact (irqError_statFifo _).trans hfα
  rw [hfifo] at hβ
  refine ⟨_, ?_, hstall.turn.irqStall⟩
  rw [show σ.statFifo.length + 6 = 1 + (1 + (1 + (σ.statFifo.length + 1 + (1 + 1)))) by omega]
  exact run_append (run_one hα) <| run_append (run_one (herr.step_eq nofun)) <|
    run_append (run_one (hsof.step_eq nofun)) <| run_append hβ <|
    run_append (run_one (hsleep.step_eq nofun)) (run_one (hstall.step_eq nofun))

end

end Sys2Proof.Machine

open Sys2Proof Sys2Proof.Machine

/-- Settles O38: a bus reset is one step, of REINIT; any other run goes through the six phases. -/
theorem runServesEverything : Obligations.RunServesEverything := by
  intro σ h hc hs hd hirq
  by_cases hu : σ.istat &&& 0x01 = 0
  · rw [if_pos hu]
    obtain ⟨τ, hrun, hτ⟩ := run_serves h hc hs hd hirq fun hb => (hasBit_iff ..).mp hb hu
    obtain ⟨hi, hf, herr⟩ := hτ.all_clear fun f => by cases f <;> decide
    exact ⟨τ, hrun, hτ.phase, hi, hf, herr, irq_eq_false_of_istat hi⟩
  · rw [if_neg hu]
    have e : irqUsbrst (beginTurn [] σ) = endRun (reinit (enterRun (beginTurn [] σ))) :=
      if_pos (latched_iff.mpr hu)
    have hr := reinit_eq (σ := enterRun (beginTurn [] σ)) hc
    refine ⟨_, run_one (step_pending hc hs hd hirq), ?_⟩
    rw [e, hr]
    exact ⟨rfl, rfl, rfl, rfl, irq_eq_false_of_istat rfl⟩
end

section
/-! PROOF. The IN case of endpoint 1 (R251), from what TRANSMIT writes. -/

namespace Sys2Proof.Machine

open Sys2Proof

/-- EP1_ON_IN is TRANSMIT of the 4 bytes at REPORT_BASE, as an operation too. -/
theorem exec_ep1OnIn (σ : State) : exec .ep1OnIn σ = exec (.transmit 1 σ.cfg.reportBase 4) σ := rfl

end Sys2Proof.Machine

open Sys2Proof.Machine

/-- Settles O49: TRANSMIT's law (R136) at endpoint 1, REPORT_BASE and 4 bytes. -/
theorem ep1SendsTheReportAgain : Obligations.Ep1SendsTheReportAgain := by
  intro σ hc
  rw [exec_ep1OnIn]
  exact transmitArmsAndFlips 1 σ.cfg.reportBase 4 σ hc
end

section
/-! PROOF. The bytes of a data packet come from the store (R263): an armed TX slot points into one block, whose bytes a
packet read gives in order. -/

namespace Sys2Proof.Machine

open Sys2Proof

/-! ### A run of one block's bytes -/

theorem blockByte_bounds {d : DescBlock} {a : Nat} {b : Byte} (h : blockByte d a = some b) :
    d.pointer.toNat ≤ a ∧ a < d.pointer.toNat + d.bytes.length := by
  unfold blockByte at h
  split at h
  · have := (List.getElem?_eq_some_iff.mp h).1
    omega
  · cases h

/-- Two different blocks of the store share no byte (R66). -/
theorem romBlocks_disjoint {c : Config} (hc : ConfigOk c) {d d' : DescBlock} (hd : d ∈ romBlocks c)
    (hd' : d' ∈ romBlocks c) (hne : d ≠ d') : Region.disjoint (blockRegion d) (blockRegion d') := by
  obtain ⟨-, -, hpair, -⟩ := hc
  have hblocks : (romBlocks c).Pairwise fun d d' => Region.disjoint (blockRegion d) (blockRegion d') :=
    List.pairwise_map.mp (List.pairwise_append.mp (List.pairwise_cons.mp hpair).2).2.1
  have : Std.Symm fun d d' => Region.disjoint (blockRegion d) (blockRegion d') := ⟨fun d d' h => by
    unfold Region.disjoint at *
    omega⟩
  exact hblocks.forall hd hd' hne

/-- A byte of a block is the one the store has at its address (R263). -/
theorem romByte_of_blockByte {c : Config} (hc : ConfigOk c) {d : DescBlock} (hd : d ∈ romBlocks c) {a : Nat} {b : Byte}
    (hb : blockByte d a = some b) : romByte c a = some b := by
  match h : romByte c a with
  | none => exact hb ▸ (List.findSome?_eq_none_iff.mp h d hd).symm
  | some b' =>
    obtain ⟨d', hd', hb'⟩ := List.exists_of_findSome?_eq_some h
    by_cases he : d = d'
    · subst he
      exact hb'.symm.trans hb
    · have hdis := romBlocks_disjoint hc hd hd' he
      obtain ⟨h1, h2⟩ := blockByte_bounds hb
      obtain ⟨h3, h4⟩ := blockByte_bounds hb'
      simp only [Region.disjoint, blockRegion] at hdis
      omega

/-- Reading inside a block gives its bytes, in order, whatever was written (R73, R264). -/
theorem readBytes_block {c : Config} (hc : ConfigOk c) {m : Memory} (hm : Memory.wf c m = true) {d : DescBlock}
    (hd : d ∈ romBlocks c) {p : Word} {n : Nat} (h1 : d.pointer.toNat ≤ p.toNat)
    (h2 : p.toNat + n ≤ d.pointer.toNat + d.bytes.length) :
    readBytes c m p n = (d.bytes.drop (p.toNat - d.pointer.toNat)).take n := by
  have hend := region_end_le hc (blockRegion_mem hd)
  simp only [blockRegion] at hend
  apply List.ext_getElem?
  intro i
  by_cases hi : i < n
  · have ha : (p + BitVec.ofNat 32 i).toNat = p.toNat + i := toNat_add_small (by omega)
    have hlt : p.toNat - d.pointer.toNat + i < d.bytes.length := by omega
    have hb : blockByte d (p + BitVec.ofNat 32 i).toNat = some d.bytes[p.toNat - d.pointer.toNat + i] := by
      rw [blockByte, if_pos (by omega), ha, show p.toNat + i - d.pointer.toNat = p.toNat - d.pointer.toNat + i by omega,
        List.getElem?_eq_getElem hlt]
    rw [getElem?_readBytes _ _ _ _ hi, readByte_rom hm (romByte_of_blockByte hc hd hb), List.getElem?_take_of_lt hi,
      List.getElem?_drop, List.getElem?_eq_getElem hlt]
  · rw [List.getElem?_eq_none (by rw [length_readBytes]; omega),
      List.getElem?_eq_none (by rw [List.length_take]; omega)]

/-- Bytes that are none, or a run of one block's. -/
def FromStore (c : Config) (bytes : List Byte) : Prop :=
  bytes = [] ∨ ∃ d ∈ romBlocks c, ∃ k, bytes = (d.bytes.drop k).take bytes.length

theorem fromStore_readBytes {c : Config} (hc : ConfigOk c) {m : Memory} (hm : Memory.wf c m = true) {p : Word} {n : Nat}
    (h : inStore c p n) : FromStore c (readBytes c m p n) := by
  rcases h with rfl | ⟨d, hd, h1, h2⟩
  · exact .inl rfl
  · refine .inr ⟨d, hd, p.toNat - d.pointer.toNat, ?_⟩
    rw [length_readBytes]
    exact readBytes_block hc hm hd h1 h2

/-! ### Who sends data (R153) -/

/-- The bytes of a data packet, under either toggle; no other answer carries any. -/
def sentBytes : Response → Option (List Byte)
  | .data0 bytes => some bytes
  | .data1 bytes => some bytes
  | .ack => none
  | .nak => none
  | .stall => none
  | .none => none

theorem sentBytes_dataPacket (σ : State) (s : Slot) :
    sentBytes (dataPacket σ s) = some (loadBytes (bdPtr σ s) (wordBC (bdWord σ s)).toNat σ) := by
  unfold dataPacket
  dsimp only
  split <;> rfl

/-- ACCEPT never sends data itself (R150). -/
theorem sentBytes_accept_ended {k : TokKind} {a : UsbAddr} {e : Endp} {σ τ : State} (h : accept k a e σ = (τ, .ended)) :
    sentBytes τ.response = none := by
  rcases accept_cases k a e σ with ⟨h1, -⟩ | ⟨h1, -⟩ | ⟨h1, -⟩ | ⟨h1, -⟩ | ⟨h1, -⟩ | ⟨h1, -⟩ <;> rw [h1] at h <;>
    cases h <;> rfl

/-- Of the HOST's events only an accepted IN is answered with data: what its endpoint's TX slot has armed (R153). -/
theorem sentBytes_event {i : Instr} {σ τ : State} {bytes : List Byte} (hi : i.isHostEvent = true)
    (hn : σ.response = .none) (hx : exec i σ = .next τ) (hb : sentBytes τ.response = some bytes) :
    ∃ a e, Acceptable .inTok a e σ ∧
      bytes = loadBytes (bdPtr σ (sieSlot σ e .tx)) (wordBC (bdWord σ (sieSlot σ e .tx))).toNat σ := by
  have silent (hp : sentBytes τ.response = none) : False := by
    rw [hp] at hb
    cases hb
  have unanswered (hr : τ.response = σ.response) : False := silent (by rw [hr, hn]; rfl)
  match i, hi with
  | .tokIn a e hs, _ =>
    rcases execTokIn_cases hx with ha | ⟨hacc, rfl | rfl⟩
    · exact (silent (sentBytes_accept_ended ha)).elim
    · exact ⟨a, e, hacc, Option.some.inj (hb.symm.trans (sentBytes_dataPacket σ _))⟩
    · exact ⟨a, e, hacc, Option.some.inj (hb.symm.trans (sentBytes_dataPacket σ _))⟩
  | .tokOut a e t b, _ =>
    rcases execTokOut_cases hx with ha | ⟨-, rfl | ⟨-, rfl⟩⟩
    · exact (silent (sentBytes_accept_ended ha)).elim
    · exact (silent rfl).elim
    · exact (silent rfl).elim
  | .tokSetup a e b, _ =>
    rcases execTokSetup_cases hx with ha | ⟨-, -, rfl⟩
    · exact (silent (sentBytes_accept_ended ha)).elim
    · exact (silent rfl).elim
  | .tokSof, _ => cases hx; exact (unanswered rfl).elim
  | .busReset, _ => cases hx; exact (unanswered rfl).elim
  | .busError k, _ => cases hx; exact (unanswered rfl).elim
  | .busSleep, _ => cases hx; exact (unanswered rfl).elim

/-- The ENGINE answers nothing on the bus (R10). -/
theorem response_phase {p : Dph} {σ τ : State} (hx : exec (phaseInstr p) σ = .next τ) : τ.response = σ.response := by
  cases p with
  | idle => cases hx; exact irqUsbrst_response σ
  | err => cases hx; exact irqError_response σ
  | sof => cases hx; exact irqSoftok_response σ
  | tok => cases hx; exact irqTokdne_response σ
  | sleep => cases hx; exact irqSleep_response σ
  | stall => cases hx; exact irqStall_response σ

/-- What an endpoint has armed to send lies in the store (R263). -/
theorem RunInv.fromStore_armed {σ : State} (h : RunInv σ) {a : UsbAddr} {e : Endp} (hacc : Acceptable .inTok a e σ) :
    FromStore σ.cfg (loadBytes (bdPtr σ (sieSlot σ e .tx)) (wordBC (bdWord σ (sieSlot σ e .tx))).toNat σ) := by
  obtain ⟨-, hen, -, -, -, hown⟩ := hacc
  have hslot : txSlot (sieSlot σ e .tx) = true := txSlot_slotBits (endp_of_enabled h.base hen) _
  exact fromStore_readBytes h.configOk h.base.memory (h.txSource _ hslot hown)

end Sys2Proof.Machine

open Sys2Proof.Machine

/-- Settles O13: only an accepted IN sends data, and the invariant of real runs keeps every armed TX slot inside one
block of the store. -/
theorem dataPacketsComeFromTheStore : Obligations.DataPacketsComeFromTheStore := by
  intro σ τ bytes h hstep hb
  have hsent : sentBytes τ.response = some bytes := by rcases hb with hb | hb <;> rw [hb] <;> rfl
  have unanswered (hr : τ.response = .none) : False := by
    rw [hr] at hsent
    cases hsent
  obtain ⟨-, ⟨bs, more, rest, i, hs, -, hi, hx⟩ | ⟨bs, more, rest, i, hs, -, -⟩ | ⟨rest, -, -, hx⟩ |
    ⟨rest, -, -, rfl⟩⟩ := step_cases hstep
  · obtain ⟨a, e, hacc, rfl⟩ := sentBytes_event hi rfl hx hsent
    have hrest : ∀ t ∈ rest, t.real = true := fun t ht => h.schedule t (hs ▸ List.mem_cons_of_mem _ ht)
    exact (runInv_beginTurn h hrest).fromStore_armed hacc
  · have hcall := h.schedule (.call bs) (hs ▸ List.mem_cons_self)
    cases hcall
  · exact (unanswered (response_phase hx)).elim
  · exact (unanswered rfl).elim
end

section
/-! PROOF. No step writes the configuration or a read-only byte (R264, R66, R72, R254): the SIE writes through
`writeByte`, which skips such a byte, and the dispatcher's phases write only the BDT, which holds none. -/

namespace Sys2Proof.Machine

open Sys2Proof

/-- The configuration is as before, and every read-only byte reads as before. -/
structure StoreKept (σ τ : State) : Prop where
  cfg : τ.cfg = σ.cfg
  rom : ∀ a : Word, romByte σ.cfg a.toNat ≠ none → memByte τ a = memByte σ a

theorem StoreKept.trans {σ τ ω : State} (h : StoreKept σ τ) (h' : StoreKept τ ω) : StoreKept σ ω :=
  ⟨h'.cfg.trans h.cfg, fun a ha => (h'.rom a (h.cfg ▸ ha)).trans (h.rom a ha)⟩

theorem storeKept_of_mem {σ τ : State} (hc : τ.cfg = σ.cfg) (hm : τ.mem = σ.mem) : StoreKept σ τ :=
  ⟨hc, fun a _ => memByte_congr hc hm a⟩

theorem EngineKeeps.storeKept {σ τ : State} (k : EngineKeeps σ τ) : StoreKept σ τ := ⟨k.cfg, k.rom⟩

/-! ### The SIE -/

theorem storeKept_storeBytes (p : Word) (bs : List Byte) (σ : State) : StoreKept σ (storeBytes p bs σ) :=
  ⟨rfl, fun _ ha => readByte_writeBytes_rom ha⟩

theorem storeKept_complete (e : Endp) (d : Dir) (n : Count) (k : TokKind) (σ : State) :
    StoreKept σ (complete e d n k σ) :=
  (engineKeeps_setBdWord ..).storeKept.trans (storeKept_of_mem rfl rfl)

theorem storeKept_received (e : Endp) (n : Count) (k : TokKind) (b : List Byte) (σ : State) :
    StoreKept σ (received e n k b σ) :=
  ((storeKept_storeBytes _ b σ).trans (storeKept_complete ..)).trans (storeKept_of_mem rfl rfl)

/-- ACCEPT writes no memory (R150). -/
theorem accept_mem (k : TokKind) (a : UsbAddr) (e : Endp) (σ : State) : (accept k a e σ).1.mem = σ.mem := by
  rcases accept_cases k a e σ with ⟨h, -⟩ | ⟨h, -⟩ | ⟨h, -⟩ | ⟨h, -⟩ | ⟨h, -⟩ | ⟨h, -⟩ <;> rw [h]
  · rfl
  · dsimp only
    split <;> rfl

theorem storeKept_accept (k : TokKind) (a : UsbAddr) (e : Endp) (σ : State) : StoreKept σ (accept k a e σ).1 :=
  storeKept_of_mem (sieKeeps_accept k a e σ).cfg (accept_mem k a e σ)

theorem storeKept_exec_sie {i : Instr} {σ τ : State} (hi : isSie i = true) (hx : exec i σ = .next τ) :
    StoreKept σ τ := by
  have ended {k a e} (ha : accept k a e σ = (τ, .ended)) : StoreKept σ τ := by
    have := storeKept_accept k a e σ
    rwa [ha] at this
  match i, hi with
  | .tokOut a e t b, _ =>
    rcases execTokOut_cases hx with ha | ⟨-, rfl | ⟨-, rfl⟩⟩
    · exact ended ha
    · exact storeKept_of_mem rfl rfl
    · exact storeKept_received ..
  | .tokIn a e hs, _ =>
    rcases execTokIn_cases hx with ha | ⟨-, rfl | rfl⟩
    · exact ended ha
    · exact (storeKept_complete ..).trans (storeKept_of_mem rfl rfl)
    · exact storeKept_of_mem rfl rfl
  | .tokSetup a e b, _ =>
    rcases execTokSetup_cases hx with ha | ⟨-, -, rfl⟩
    · exact ended ha
    · exact (storeKept_of_mem rfl rfl : StoreKept σ (clearStall e σ)).trans (storeKept_received ..)
  | .tokSof, _ => cases hx; exact storeKept_of_mem rfl rfl
  | .busReset, _ => cases hx; exact storeKept_of_mem rfl rfl
  | .busError k, _ => cases hx; exact storeKept_of_mem rfl rfl
  | .busSleep, _ => cases hx; exact storeKept_of_mem rfl rfl
  | .accept k a e, _ =>
    obtain ⟨r, rfl⟩ := execAccept_cases hx
    exact (storeKept_accept k a e σ).trans (storeKept_of_mem rfl rfl)
  | .complete e d n k, _ =>
    obtain ⟨-, rfl⟩ := execComplete_cases hx
    exact storeKept_complete ..

/-! ### The phases, and every operation -/

theorem exec_phase_cfg {i : Instr} {σ τ : State} (hi : isPhase i = true) (hx : exec i σ = .next τ) :
    τ.cfg = σ.cfg := by
  match i, hi with
  | .irqUsbrst, _ => cases hx; exact irqUsbrst_cfg σ
  | .reinit, _ => cases hx; exact reinit_cfg σ
  | .irqError, _ => cases hx; exact irqError_cfg σ
  | .irqSoftok, _ => cases hx; exact irqSoftok_cfg σ
  | .irqTokdne, _ => cases hx; exact irqTokdne_cfg σ
  | .irqSleep, _ => cases hx; exact irqSleep_cfg σ
  | .irqStall, _ => cases hx; exact irqStall_cfg σ

/-- A phase, and REINIT, writes only the BDT, and no byte of the BDT is read-only (R66). -/
theorem storeKept_exec_phase {i : Instr} {σ τ : State} (hi : isPhase i = true) (hc : ConfigOk σ.cfg)
    (hx : exec i σ = .next τ) : StoreKept σ τ := by
  refine ⟨exec_phase_cfg hi hx, fun a ha => ?_⟩
  obtain ⟨ω, hω, houtside, -⟩ := exec_phase hi hc
  obtain rfl : ω = τ := Host.Outcome.next.inj (hω.symm.trans hx)
  exact houtside a fun ⟨h1, h2⟩ => ha (romByte_bdt hc h1 h2)

theorem storeKept_exec {i : Instr} {σ τ : State} (hc : ConfigOk σ.cfg) (hx : exec i σ = .next τ) : StoreKept σ τ := by
  cases hs : isSie i with
  | true => exact storeKept_exec_sie hs hx
  | false =>
    cases hp : isPhase i with
    | true => exact storeKept_exec_phase hp hc hx
    | false => exact (enginePart_of_exec hs hp hx).1.storeKept

theorem storeKept_step {σ τ : State} (h : step σ = .next τ) : StoreKept σ τ := by
  have turn (rest : List Turn) : StoreKept σ (beginTurn rest σ) := storeKept_of_mem rfl rfl
  obtain ⟨hc, ⟨_, _, rest, _, -, -, -, hx⟩ | ⟨_, _, rest, _, -, -, hx⟩ | ⟨rest, -, -, hx⟩ | ⟨rest, -, -, rfl⟩⟩ :=
    step_cases h
  · exact (turn rest).trans (storeKept_exec hc hx)
  · exact (turn rest).trans (storeKept_exec hc hx)
  · exact (turn rest).trans (storeKept_exec hc hx)
  · exact turn rest

end Sys2Proof.Machine

open Sys2Proof.Machine

/-- Settles O11: whatever the turn, the operation it runs keeps the store. -/
theorem storeNeverWritten : Obligations.StoreNeverWritten := fun _ _ h =>
  ⟨(storeKept_step h).cfg, (storeKept_step h).rom⟩
end

section
/-! PROOF. The scan of the descriptor table (R261, R262): with no key twice, each entry is found under its own. -/

namespace Sys2Proof.Machine

open Sys2Proof

/-- The two fields LOOKUP matches (R262). -/
def DescEntry.key (x : DescEntry) : Half × Half := (x.selectorValue, x.selectorIndex)

/-- The six keys, in table order (R261). -/
def descKeys : List (Half × Half) :=
  [(0x0100, 0x0000), (0x0200, 0x0000), (0x0300, 0x0000), (0x0301, 0x0409), (0x0302, 0x0409), (0x2200, 0x0000)]

theorem keys_descTable (c : Config) : (descTable c).map DescEntry.key = descKeys := rfl

theorem scanTable_cons (x : DescEntry) (xs : List DescEntry) (v i : Half) :
    scanTable (x :: xs) v i = if x.key = (v, i) then some (x.pointer, x.length) else scanTable xs v i := by
  simp only [scanTable, DescEntry.key, Prod.mk.injEq]

theorem scanTable_of_mem {xs : List DescEntry} (hn : (xs.map DescEntry.key).Nodup) {x : DescEntry} (hx : x ∈ xs) :
    scanTable xs x.selectorValue x.selectorIndex = some (x.pointer, x.length) := by
  induction xs with
  | nil => cases hx
  | cons y ys ih =>
    obtain ⟨hy, hys⟩ := List.nodup_cons.mp hn
    rw [scanTable_cons]
    rcases List.mem_cons.mp hx with rfl | hx
    · exact if_pos rfl
    · have hne : y.key ≠ x.key := fun he => hy (he ▸ List.mem_map_of_mem hx)
      exact (if_neg hne).trans (ih hys hx)

theorem scanTable_of_not_mem {xs : List DescEntry} {v i : Half} (h : (v, i) ∉ xs.map DescEntry.key) :
    scanTable xs v i = none := by
  induction xs with
  | nil => rfl
  | cons y ys ih =>
    obtain ⟨hy, hys⟩ := not_or.mp (mt List.mem_cons.mpr h)
    rw [scanTable_cons, if_neg (Ne.symm hy), ih hys]

/-- An entry of the table is what LOOKUP of its key returns. -/
theorem exec_lookup_hit {σ : State} {v i : Half} {d : DescBlock} (h : descEntry v i d ∈ descTable σ.cfg) :
    exec (.lookup v i) σ = .next { σ with result := .found d.pointer (BitVec.ofNat 16 d.bytes.length) } := by
  have hn : ((descTable σ.cfg).map DescEntry.key).Nodup := by
    rw [keys_descTable]
    decide
  have hf : lookupDesc σ.cfg v i = some (d.pointer, BitVec.ofNat 16 d.bytes.length) := scanTable_of_mem hn h
  show execLookup v i σ = _
  rw [execLookup, hf]

theorem exec_lookup_miss {σ : State} {v i : Half} (h : (v, i) ∉ descKeys) :
    exec (.lookup v i) σ = .next { σ with result := .miss } := by
  have hm : lookupDesc σ.cfg v i = none := scanTable_of_not_mem (keys_descTable σ.cfg ▸ h)
  show execLookup v i σ = _
  rw [execLookup, hm]

end Sys2Proof.Machine

open Sys2Proof Sys2Proof.Machine

/-- Settles O56: the six entries, with the lengths the spec fixes, and no other key. -/
theorem lookupFindsTheSixKeys : Obligations.LookupFindsTheSixKeys := by
  rintro σ ⟨hdevice, hconfig, hlangid, -, -, hreport⟩
  have hit (v i : Half) (d : DescBlock) (h : descEntry v i d ∈ descTable σ.cfg) {n : Nat} (hn : d.bytes.length = n) :
      exec (.lookup v i) σ = .next { σ with result := .found d.pointer (BitVec.ofNat 16 n) } :=
    hn ▸ exec_lookup_hit h
  refine ⟨hit _ _ _ ?_ hdevice, hit _ _ _ ?_ hconfig, hit _ _ _ ?_ hlangid, hit _ _ _ ?_ rfl, hit _ _ _ ?_ rfl,
    hit _ _ _ ?_ hreport, fun _ _ h => exec_lookup_miss h⟩ <;> simp [descTable]
end

section
/-! PROOF. No HOST event writes what is private to the ENGINE (R285): the events are operations of the SIE. -/

namespace Sys2Proof.Machine

open Sys2Proof

/-- The SIE's operations are the HOST events, ACCEPT and COMPLETE (R105). -/
theorem isSie_of_isHostEvent {i : Instr} (h : i.isHostEvent = true) : isSie i = true := by
  unfold isSie
  split
  · rfl
  · rfl
  · exact h

end Sys2Proof.Machine

open Sys2Proof.Machine

/-- Settles O17: an event is one of the SIE's operations, each of which keeps the ENGINE's registers. -/
theorem hostEventsLeaveTheEngineAlone : Obligations.HostEventsLeaveTheEngineAlone := by
  intro i σ τ hi hx
  have k : SieKeeps σ τ := sieKeeps_exec (isSie_of_isHostEvent hi) hx
  exact ⟨k.par, k.tog, k.cur, k.lastSetup, k.dstatus, k.dph, k.ep0State, k.addr, k.inten, k.faults⟩
end

section
/-! PROOF. In a real run a step writes only the BDT and the four RX buffers (R306, R137): COMPLETE and the dispatcher's
phases write only descriptors, and an armed RX slot points to its own buffer and is armed for that buffer's size, so a
packet that fits stays inside it. -/

namespace Sys2Proof.Machine

open Sys2Proof

/-- An address outside the BDT and outside the four RX buffers. -/
structure Elsewhere (c : Config) (a : Word) : Prop where
  bdt : ¬ inBdt c a
  rx : ∀ r ∈ rxRegions c, a.toNat < r.base ∨ r.base + r.size ≤ a.toNat

/-- A packet no longer than an RX slot's buffer, at the buffer's start, holds no other byte. -/
theorem Elsewhere.not_inPacket {c : Config} {a : Word} (ha : Elsewhere c a) (hc : ConfigOk c) {s : Slot}
    (hs : rxSlot s = true) {n : Nat} (hn : n ≤ (rxSize c s).toNat) : ¬ inPacket (resetPtr c s) n a := by
  intro hp
  have hm := rxBuffer_mem c hs
  have hend := region_end_le hc (rxRegion_mem hm)
  have hrx := ha.rx _ hm
  rw [rxSize_toNat hc] at hn
  unfold inPacket at hp
  dsimp only at hend hrx
  bv_omega

/-- COMPLETE writes one descriptor word (R151). -/
theorem memByte_complete {σ : State} (hc : ConfigOk σ.cfg) {a : Word} (ha : ¬ inBdt σ.cfg a) (e : Endp) (d : Dir)
    (n : Count) (k : TokKind) : memByte (complete e d n k σ) a = memByte σ a :=
  (slotWritten_complete hc e d n k).outside hc ha

/-- A packet received on an armed RX slot stays in the slot's buffer (R152, R154). -/
theorem memByte_received {σ : State} (h : RunInv σ) {a : Word} (ha : Elsewhere σ.cfg a) {e : Endp} (n : Count)
    (k : TokKind) (he : e = 0 ∨ e = 1) (ho : bdOwned σ (sieSlot σ e .rx) = true) {b : List Byte}
    (hb : b.length ≤ (wordBC (bdWord σ (sieSlot σ e .rx))).toNat) : memByte (received e n k b σ) a = memByte σ a := by
  have hrx : rxSlot (sieSlot σ e .rx) = true := rxSlot_slotBits he _
  rw [h.rxCount _ hrx ho] at hb
  have hout := ha.not_inPacket h.configOk hrx hb
  rw [← h.rxPtr _ hrx] at hout
  have hstore : memByte (storeBytes (bdPtr σ (sieSlot σ e .rx)) b σ) a = memByte σ a := readByte_writeBytes_outside hout
  rw [← hstore]
  exact memByte_complete (σ := storeBytes (bdPtr σ (sieSlot σ e .rx)) b σ) h.configOk ha.bdt e .rx n k

theorem memByte_accept_ended {k : TokKind} {a : UsbAddr} {e : Endp} {σ τ : State}
    (h : accept k a e σ = (τ, .ended)) (x : Word) : memByte τ x = memByte σ x := by
  have hτ : (accept k a e σ).1 = τ := congrArg Prod.fst h
  exact memByte_congr (hτ ▸ (sieKeeps_accept k a e σ).cfg) (hτ ▸ accept_mem k a e σ) x

/-- A HOST event of a real run writes only the BDT and the RX buffers (R137). -/
theorem memByte_exec_event {i : Instr} {σ τ : State} (hi : i.isHostEvent = true) (h : RunInv σ)
    (hx : exec i σ = .next τ) {x : Word} (hel : Elsewhere σ.cfg x) : memByte τ x = memByte σ x := by
  match i, hi with
  | .tokOut a e t b, _ =>
    rcases execTokOut_cases hx with ha | ⟨⟨-, hen, -, -, -, ho⟩, rfl | ⟨hlen, rfl⟩⟩
    · exact memByte_accept_ended ha x
    · rfl
    · exact memByte_received h hel _ _ (endp_of_enabled h.base hen) ho hlen
  | .tokIn a e hs, _ =>
    rcases execTokIn_cases hx with ha | ⟨-, rfl | rfl⟩
    · exact memByte_accept_ended ha x
    · exact memByte_complete h.configOk hel.bdt ..
    · rfl
  | .tokSetup a e b, _ =>
    rcases execTokSetup_cases hx with ha | ⟨⟨-, hen, -, -, -, ho⟩, hlen, rfl⟩
    · exact memByte_accept_ended ha x
    · exact memByte_received (runInv_clearStall h e) hel _ _ (endp_of_enabled h.base hen) ho hlen
  | .tokSof, _ => cases hx; rfl
  | .busReset, _ => cases hx; rfl
  | .busError k, _ => cases hx; rfl
  | .busSleep, _ => cases hx; rfl

/-- A phase writes only the BDT (R306). -/
theorem memByte_exec_phaseInstr {p : Dph} {σ τ : State} (hc : ConfigOk σ.cfg) (hx : exec (phaseInstr p) σ = .next τ)
    {a : Word} (ha : ¬ inBdt σ.cfg a) : memByte τ a = memByte σ a := by
  have hp : isPhase (phaseInstr p) = true := by cases p <;> rfl
  obtain ⟨ω, hω, houtside, -⟩ := exec_phase hp hc
  obtain rfl : ω = τ := Host.Outcome.next.inj (hω.symm.trans hx)
  exact houtside a ha

end Sys2Proof.Machine

open Sys2Proof.Machine

/-- Settles O12: a HOST event writes a descriptor word and, of a received packet, bytes of the slot's own buffer; a phase
writes only descriptors. -/
theorem stepWritesOnlyBdtAndBuffers : Obligations.StepWritesOnlyBdtAndBuffers := by
  intro σ τ h hstep a hbdt hrx
  have turn (rest : List Turn) : memByte (beginTurn rest σ) a = memByte σ a := rfl
  obtain ⟨hc, ⟨bs, more, rest, i, hs, -, hi, hx⟩ | ⟨bs, more, rest, i, hs, -, -⟩ | ⟨rest, -, -, hx⟩ |
    ⟨rest, -, -, rfl⟩⟩ := step_cases hstep
  · have hrest : ∀ t ∈ rest, t.real = true := fun t ht => h.schedule t (hs ▸ List.mem_cons_of_mem _ ht)
    exact (memByte_exec_event hi (runInv_beginTurn h hrest) hx ⟨hbdt, hrx⟩).trans (turn rest)
  · have hcall := h.schedule (.call bs) (hs ▸ List.mem_cons_self)
    cases hcall
  · exact (memByte_exec_phaseInstr (σ := beginTurn rest σ) hc hx hbdt).trans (turn rest)
  · exact turn rest
end

section
/-! PROOF. What a step refuses before it runs anything (R305, R105). -/

open Sys2Proof Sys2Proof.Machine

/-- Settles O6: the configuration is checked before the turn is read, the turn's bytes are decoded before it is asked
whose operation they are. -/
theorem stepRefusesWhatIsNotAdmitted : Obligations.StepRefusesWhatIsNotAdmitted := by
  refine ⟨fun σ => step_badConfiguration, fun σ bs rest e => step_undecoded, ?_⟩
  intro σ bs more rest i hc hs hd hi
  rw [step_host hc hs hd, hi]
  rfl
end
